-- ==== Sys2Proof/Word.lean ====
section
/-! DEFINITION. The words of the ER816: what the manual treats as bits (R194), and the bounded indices of its numbered things (00_scope.md, Conventions). -/

namespace Sys2Proof

/-- A word of the management region or of a target page: 32 bits (R194). -/
abbrev Word := BitVec 32

/-- A key: source tag in bits 31:16, event number in bits 15:0 (R27). -/
abbrev Key := BitVec 32

/-- A set of event input pins, bit n for EVTn (R47; shown to software as such by QUERY word 7, R199). -/
abbrev PinSet := BitVec 32

/-- A PCIe requester ID (R27, R76). -/
abbrev RequesterId := BitVec 16

/-- A target T0 to T7 (R76). -/
abbrev TargetId := Fin 8

/-- An event input pin EVT0 to EVT31 (R200). -/
abbrev PinId := Fin 32

/-- A route-table slot 0 to 1023 (R1). -/
abbrev SlotId := Fin 1024

/-- A pool entry 0 to 511 (R46). -/
abbrev EntryId := Fin 512

/-- A level L0 to L15 (R81). -/
abbrev Level := Fin 16

/-- A level group G0 to G3 (R81). -/
abbrev Group := Fin 4

end Sys2Proof
end

