-- ==== Sys2Proof/Syntax.lean ====
section
/-! DEFINITION. The commands of the block: one constructor of Instr for each row of spec/opcode_table.json, and the link accesses behind those rows that are accesses (R187, R196, R197). -/

namespace Sys2Proof

/-- The eight causes of the Fault Status Unit, in the order of their codes 1 to 8 (R179). -/
inductive Cause where
  | miss
  | malformedEvent
  | poolEmpty
  | countOverflow
  | targetStalled
  | completeMismatch
  | stackUnderflow
  | registerAccess
deriving DecidableEq, Repr

/-- The two forms of a claim: the 4-byte read of the low word and the 8-byte read of the whole result (R100). -/
inductive ClaimForm where
  | low
  | whole
deriving DecidableEq, Repr

/-- The words of a target page that a read with no effect returns (R197): all readable words but CLAIM. -/
inductive PageWord where
  | view
  | enable
  | mask
  | lastPayload
deriving DecidableEq, Repr

/-- The readable words of the management region (R196). `operand k` is OPERAND(k+1), `result k` RESULT(k+1). -/
inductive MgmtWord where
  | deviceStatus
  | portStatus
  | walkPosition
  | faultStatus
  | firstMiss
  | operand (k : Fin 8)
  | result (k : Fin 8)
deriving DecidableEq, Repr

/-- The link state (R187). -/
inductive LinkState where
  | down
  | up
deriving DecidableEq, Repr

/-- What an access does: a read, or a write with its data, of which the model keeps the first eight bytes (no longer access is served, R188, R29). -/
inductive AccessKind where
  | read
  | write (data : BitVec 64)
deriving DecidableEq, Repr

/-- An access the link delivers to the 64 KiB window (R187): who makes it, where, how many bytes, and what it does. -/
structure Access where
  requester : RequesterId
  offset : BitVec 16
  size : Nat
  kind : AccessKind
deriving DecidableEq, Repr

/-- An access as the Link Port has decoded it (R187 to R189, R196, R197). -/
inductive LinkOp where
  | eventWrite (requester : RequesterId) (offset : BitVec 16) (size : Nat) (data : BitVec 64)
  | eventRead (requester : RequesterId) (size : Nat)
  | claim (requester : RequesterId) (target : TargetId) (form : ClaimForm)
  | complete (requester : RequesterId) (target : TargetId) (value : Word)
  | enableWrite (requester : RequesterId) (target : TargetId) (value : Word)
  | maskWrite (requester : RequesterId) (target : TargetId) (value : Word)
  | pageRead (requester : RequesterId) (target : TargetId) (word : PageWord)
  | mgmtRead (requester : RequesterId) (word : MgmtWord)
  | command (code : BitVec 8)
  | abort
  | faultClear (value : Word)
  | operandWrite (k : Fin 8) (value : Word)
  | refusedRead (requester : RequesterId) (size : Nat)
  | refusedWrite
deriving DecidableEq, Repr

/-- The commands, one constructor for each row of spec/opcode_table.json. The operands of a management command stand in the operand words (R142), so its constructor, which is the COMMAND write of its code, carries none. -/
inductive Instr where
  /-- EVENT_MESSAGE: a write to the event window. -/
  | eventMessage (requester : RequesterId) (offset : BitVec 16) (size : Nat) (data : BitVec 64)
  /-- INTAKE_HEAD_TAKEN: the RT takes the head of the intake queue. -/
  | intakeHeadTaken
  /-- EDGE_LATCH_TAKEN: the RT takes the edge latch of a pin. -/
  | edgeLatchTaken (pin : PinId)
  /-- LEVEL_OFFER_TAKEN: the RT takes the level offer of a pin. -/
  | levelOfferTaken (pin : PinId)
  /-- FAULT_ARRIVAL: the RT takes the pending offer of a cause. -/
  | faultArrival (cause : Cause)
  /-- EVT_INPUT_CHANGE: the raw input of a pin takes a level. -/
  | evtInputChange (pin : PinId) (level : Bool)
  /-- FILTERED_LEVEL_CHANGE: a held input level enters the filtered level of a pin. -/
  | filteredLevelChange (pin : PinId)
  /-- CLAIM: a read of CLAIM in a target page. -/
  | claim (requester : RequesterId) (target : TargetId) (form : ClaimForm)
  /-- COMPLETE: a 4-byte write of COMPLETE in a target page. -/
  | complete (requester : RequesterId) (target : TargetId) (value : Word)
  /-- ENABLE: a write of ENABLE in a target page. -/
  | enable (requester : RequesterId) (target : TargetId) (value : Word)
  /-- MASK: a write of MASK in a target page. -/
  | mask (requester : RequesterId) (target : TargetId) (value : Word)
  /-- INSTALL: the COMMAND write of code 01H. -/
  | install
  /-- MODIFY: the COMMAND write of code 02H. -/
  | modify
  /-- HOLD: the COMMAND write of code 03H. -/
  | hold
  /-- RELEASE: the COMMAND write of code 04H. -/
  | release
  /-- QUERY: the COMMAND write of code 05H. -/
  | query
  /-- PROBE: the COMMAND write of code 06H. -/
  | probe
  /-- RETIRE: the COMMAND write of code 07H. -/
  | retire
  /-- FORCE_RETIRE: the COMMAND write of code 08H. -/
  | forceRetire
  /-- GROUP_HOLD: the COMMAND write of code 09H. -/
  | groupHold
  /-- GROUP_RELEASE: the COMMAND write of code 0AH. -/
  | groupRelease
  /-- GROUP_RETIRE: the COMMAND write of code 0BH. -/
  | groupRetire
  /-- GROUP_WALK_SLOT: the group walk in flight takes its next slot. -/
  | groupWalkSlot
  /-- TARGET_SET: the COMMAND write of code 0CH. -/
  | targetSet
  /-- TARGET_ONLINE: the COMMAND write of code 0DH. -/
  | targetOnline
  /-- TARGET_ONLINE_WALK_SLOT: the TARGET_ONLINE walk in flight takes its next slot. -/
  | targetOnlineWalkSlot
  /-- TARGET_OFFLINE: the COMMAND write of code 0EH. -/
  | targetOffline
  /-- PIN_SET: the COMMAND write of code 0FH. -/
  | pinSet
  /-- TABLE_CLEAR: the COMMAND write of code 10H. -/
  | tableClear
  /-- UNKNOWN_COMMAND: a COMMAND write whose code names no command. -/
  | unknownCommand (code : BitVec 8)
  /-- ABORT: a write of ABORT. -/
  | abort
  /-- FAULT_CLEAR: a write of FAULT_CLEAR. -/
  | faultClear (value : Word)
  /-- OPERAND_WRITE: a write of OPERAND(k+1). -/
  | operandWrite (k : Fin 8) (value : Word)
  /-- REFUSED_ACCESS: an access to an unmapped offset, or of a wrong size or kind. -/
  | refusedAccess (access : Access)
  /-- HOLD_OFF_EXPIRY: the hold-off timer of the notice in a pool entry expires. -/
  | holdOffExpiry (entry : EntryId)
  /-- CLAIM_DEADLINE_EXPIRY: the claim-deadline timer of a target expires. -/
  | claimDeadlineExpiry (target : TargetId)
  /-- WAIT_TIMER_EXPIRY: the port's wait timer expires. -/
  | waitTimerExpiry
  /-- LINK_UP: link training completes. -/
  | linkUp
  /-- LINK_DOWN: the link is lost without a reset. -/
  | linkDown
  /-- BUS_MASTER_ENABLE_WRITE: a configuration write of bus-master enable. -/
  | busMasterEnableWrite (on : Bool)
  /-- FUNCTION_RESET: a hot reset or function-level reset; the operand is the link state as the link retrains it (R191). -/
  | functionReset (link : LinkState)
  /-- POWER_ON_RESET: PORST# asserted, or power-up. -/
  | powerOnReset
  /-- PORST_RELEASE: PORST# released. -/
  | porstRelease
  /-- OWNER_REFUSED_READ: a read of VIEW, ENABLE, MASK or LAST_PAYLOAD in a target page, put to the owner check. -/
  | ownerRefusedRead (requester : RequesterId) (target : TargetId) (word : PageWord)
deriving DecidableEq, Repr

end Sys2Proof
end

