-- ==== Sys2Proof/Decode.lean ====
section
/-! DEFINITION. The Link Port's decode of an access (R187, R188, R189, R196, R197), total on every access, and decodeTableWord, which the host asks for. -/

namespace Sys2Proof

/-- An access that its word does not accept: the read or the write is refused (R188). -/
def refusedOp (a : Access) : LinkOp :=
  match a.kind with
  | .read => .refusedRead a.requester a.size
  | .write _ => .refusedWrite

/-- A 4-byte access at offset 4 × w of the management region (R196). -/
def decodeMgmtWord (a : Access) (w : Nat) : LinkOp :=
  match a.kind with
  | .read =>
    if w = 0 then .mgmtRead a.requester .deviceStatus
    else if w = 1 then .mgmtRead a.requester .portStatus
    else if w = 2 then .mgmtRead a.requester .walkPosition
    else if w = 3 then .mgmtRead a.requester .faultStatus
    else if w = 4 then .mgmtRead a.requester .firstMiss
    else if 8 ≤ w ∧ w < 16 then .mgmtRead a.requester (.operand (Fin.ofNat 8 (w - 8)))
    else if 16 ≤ w ∧ w < 24 then .mgmtRead a.requester (.result (Fin.ofNat 8 (w - 16)))
    else refusedOp a
  | .write d =>
    if w = 5 then .faultClear (d.setWidth 32)
    else if w = 6 then .command (d.setWidth 8)
    else if w = 7 then .abort
    else if 8 ≤ w ∧ w < 16 then .operandWrite (Fin.ofNat 8 (w - 8)) (d.setWidth 32)
    else refusedOp a

/-- A 4-byte access at offset 4 × w of the page of target t (R197). The high word of CLAIM, at 004H, accepts no access of its own (R188). -/
def decodePageWord (a : Access) (t : TargetId) (w : Nat) : LinkOp :=
  match a.kind with
  | .read =>
    if w = 0 then .claim a.requester t .low
    else if w = 3 then .pageRead a.requester t .view
    else if w = 4 then .pageRead a.requester t .enable
    else if w = 5 then .pageRead a.requester t .mask
    else if w = 6 then .pageRead a.requester t .lastPayload
    else refusedOp a
  | .write d =>
    if w = 2 then .complete a.requester t (d.setWidth 32)
    else if w = 4 then .enableWrite a.requester t (d.setWidth 32)
    else if w = 5 then .maskWrite a.requester t (d.setWidth 32)
    else refusedOp a

/-- The page of a target takes 4-byte accesses, aligned, and the 8-byte read of CLAIM at 000H (R188). -/
def decodePage (a : Access) (t : TargetId) (off : Nat) : LinkOp :=
  if a.size = 4 ∧ off % 4 = 0 then decodePageWord a t (off / 4)
  else if a.size = 8 ∧ off = 0 ∧ a.kind = .read then .claim a.requester t .whole
  else refusedOp a

/-- An access to the event window is an event message or a read that returns zeros (R189). -/
def decodeEvent (a : Access) : LinkOp :=
  match a.kind with
  | .read => .eventRead a.requester a.size
  | .write d => .eventWrite a.requester a.offset a.size d

/-- The Link Port's decode of an access by its offset (R187). -/
def decodeAccess (a : Access) : LinkOp :=
  let off := a.offset.toNat
  if off < 0x1000 then
    if a.size = 4 ∧ off % 4 = 0 then decodeMgmtWord a (off / 4) else refusedOp a
  else if off < 0x2000 then
    decodePage a (Fin.ofNat 8 ((off - 0x1000) / 0x200)) ((off - 0x1000) % 0x200)
  else if off < 0x8000 then refusedOp a
  else decodeEvent a

/-- An operation that the Link Port refuses (R188). -/
def LinkOp.isRefused : LinkOp → Bool
  | .refusedRead _ _ => true
  | .refusedWrite => true
  | _ => false

/-- A posted write, which withheld credit holds back (R31). -/
def LinkOp.isPosted : LinkOp → Bool
  | .eventWrite _ _ _ _ => true
  | .complete _ _ _ => true
  | .enableWrite _ _ _ => true
  | .maskWrite _ _ _ => true
  | .command _ => true
  | .abort => true
  | .faultClear _ => true
  | .operandWrite _ _ => true
  | .refusedWrite => true
  | .eventRead _ _ => false
  | .claim _ _ _ => false
  | .pageRead _ _ _ => false
  | .mgmtRead _ _ => false
  | .refusedRead _ _ => false

/-- The command that a word spells by the table's bits: no row of spec/opcode_table.json gives any. -/
def decodeTableWord (_nbits _w : Nat) : Option Instr := none

end Sys2Proof
end

