-- ==== Sys2Proof/Config.lean ====
section
/-! DEFINITION. The free values: what the manual leaves open. Each is a constant with no body, so a claim holds whatever it is; one that is open anew each time it is met is applied to the counter State.free. -/

namespace Sys2Proof.Config

/-- R33: "A pulse shorter than 1 µs may or may not enter it": whether a change of the input of a pin with filter 0 enters the filtered level at once; if not, it enters before the timebase advances, or is a short pulse that reverts first (log entry 9). -/
opaque shortPulseEnters : Nat → Bool

/-- R33 speaks of "a change of filter by PIN_SET": whether a PIN_SET that repeats the pin's filter restarts the timing of a change under way (log entry 10). -/
opaque sameFilterRestarts : Bool

/-- Which of several expiries at their last moment, levels due in a filter and targets left to a regain happens first: an index into their list, taken modulo its length (log entries 2 and 25). -/
opaque dueChoice : Nat → Nat

/-- R91: the order in which a regain of permission deals with several targets: the targets by rising rank (log entry 11). -/
opaque requestRank : Nat → TargetId → Nat

/-- R92: a target may become deliverable "before the regain has dealt with it": whether a regain of permission deals with a target within the event that restores permission, or later (log entry 25). -/
opaque regainLater : Nat → TargetId → Bool

/-- How many of the accesses waiting in the link are still there after the link is lost without a reset (log entry 12). -/
opaque linkLossKeeps : Nat → Nat

/-- R192: "its requester ID is the function's own": assigned through configuration space, which is outside the manual (log entry 13). -/
opaque functionRequesterId : RequesterId

end Sys2Proof.Config
end

