-- ==== Sys2Proof/Machine/State.lean ====
section
/-! DEFINITION. The state of the block as plain data: every register, queue, list, timer, flag and pin the manual gives it (INVENTORY.md, State), and the state right after power-on reset. -/

namespace Sys2Proof.Machine

/-- A running timer on the 1 µs timebase: its start and its limit in µs (R61, R150). -/
structure Timer where
  start : Nat
  limit : Nat
deriving DecidableEq, Repr

/-- The states of a slot (R1). -/
inductive SlotState where
  | free
  | active
  | held
  | retiring
deriving DecidableEq, Repr

/-- The placement modes (R8). -/
inductive PlaceMode where
  | first
  | rotate
  | all
deriving DecidableEq, Repr

/-- The re-arm modes (R2). -/
inductive RearmMode where
  | auto
  | explicit
deriving DecidableEq, Repr

/-- The retire modes (R2). -/
inductive RetireMode where
  | discard
  | drain
deriving DecidableEq, Repr

/-- The held count with its overflow flag, payload and pin set, which change together (R11). -/
structure Held where
  count : Nat
  overflow : Bool
  payload : Option Word
  pins : PinSet
deriving DecidableEq, Repr

/-- A slot of the route table with the record it holds (R2). -/
structure Slot where
  state : SlotState
  generation : BitVec 8
  key : Key
  len : Nat
  targets : List TargetId
  mode : PlaceMode
  rotation : Nat
  level : Level
  threshold : Nat
  holdOff : Nat
  rearm : RearmMode
  held : Held
  retireMode : Option RetireMode
deriving DecidableEq, Repr

/-- The late count of an EXPLICIT notice in service, with its overflow flag (R47). -/
structure Late where
  count : Nat
  overflow : Bool
deriving DecidableEq, Repr

/-- The state of a notice with the fields that are present in that state only (R47). -/
inductive Phase where
  | gathering (threshold : Nat) (timer : Option Timer)
  | pending
  | inService (late : Option Late) (orphan : Bool)
deriving DecidableEq, Repr

/-- A notice (R47). -/
structure Notice where
  slot : SlotId
  generation : BitVec 8
  target : TargetId
  level : Level
  phase : Phase
  count : Nat
  overflow : Bool
  payload : Word
  pins : PinSet
  rearm : RearmMode
deriving DecidableEq, Repr

/-- A deferred pair (R64). -/
structure Pair where
  slot : SlotId
  target : TargetId
  count : Nat
  overflow : Bool
  payload : Word
  pins : PinSet
deriving DecidableEq, Repr

/-- An arrival (R27). -/
structure Arrival where
  key : Key
  payload : Word
  origin : Option PinId
deriving DecidableEq, Repr

/-- The sense modes of a pin (R34). -/
inductive Sense where
  | disabled
  | rising
  | falling
  | both
  | high
  | low
deriving DecidableEq, Repr

/-- A pin context (R33 to R40) with the raw input of its pin. `timing` is the start of a change of the input that has not yet entered the filtered level. -/
structure Pin where
  raw : Bool
  sense : Sense
  filter : Nat
  filtered : Bool
  timing : Option Nat
  latch : Bool
  armed : Bool
  offer : Bool
  missDisarmed : Bool
deriving DecidableEq, Repr

/-- The states of a target (R77). -/
inductive TargetState where
  | offline
  | online
  | stalled
  | quiescing
deriving DecidableEq, Repr

/-- The notify methods (R76). -/
inductive NotifyMethod where
  | pin
  | write
deriving DecidableEq, Repr

/-- A target context (R76). `ntf` is the level of the notify pin (R89); `deliverable` is the deliverability as the TC last judged it (R87), against which a notification write is requested (R90). Stack top first, list heads first. -/
structure Target where
  state : TargetState
  method : NotifyMethod
  address : BitVec 64
  data : Word
  groupOrder : Vector Group 4
  deadline : Nat
  owner : Option RequesterId
  enabled : Bool
  mask : BitVec 16
  lists : Vector (List EntryId) 16
  stack : List EntryId
  deadlineStart : Option Nat
  writeOwed : Bool
  lastPayload : Word
  ntf : Bool
  deliverable : Bool
deriving DecidableEq, Repr

/-- The result codes (R147, R196). -/
inductive ResultCode where
  | none
  | ok
  | started
  | unknownCommand
  | badSlot
  | slotInUse
  | slotFree
  | slotState
  | staleGeneration
  | badField
  | nonzeroTail
  | duplicateMatch
  | badTarget
  | targetState
  | notFound
  | timeout
  | aborted
deriving DecidableEq, Repr

/-- What a RETIRE notes for its result words (R163 to R166). -/
structure RetireFigures where
  heldCount : Nat
  heldOverflow : Bool
  notices : Nat
  pairs : Nat
deriving DecidableEq, Repr

/-- The record command that a group walk applies (R172). -/
inductive GroupKind where
  | hold
  | release
  | retire (mode : RetireMode)
deriving DecidableEq, Repr

/-- A command that stays in flight, with the figures it keeps (R142, R148). -/
inductive Flight where
  | retireWait (slot : SlotId) (figures : RetireFigures)
  | offlineWait (target : TargetId)
  | onlineWalk (target : TargetId) (converted : Nat)
  | groupWalk (kind : GroupKind) (key : Key) (len : Nat) (changed : Nat) (skipped : Nat)
deriving DecidableEq, Repr

/-- The Management Command Port (R141). The port is BUSY exactly while a command is in flight. -/
structure Port where
  operands : Vector Word 8
  code : BitVec 8
  flightOperands : Vector Word 8
  rejected : Bool
  resultCode : ResultCode
  resultLength : Nat
  results : Vector Word 8
  walkPosition : Nat
  waitTimer : Option Timer
  flight : Option Flight
deriving DecidableEq, Repr

/-- A cause of the FSU: its flag, and its offer pending with the payload of the fault arrival (R178). -/
structure CauseState where
  flag : Bool
  offer : Option Word
deriving DecidableEq, Repr

/-- The Fault Status Unit (R178): causes in the order of their codes. -/
structure Fsu where
  causes : Vector CauseState 8
  firstMiss : Option Key
  moreMisses : Bool
deriving DecidableEq, Repr

/-- A notification write issued on the link (R192). -/
structure NotifyWrite where
  requester : RequesterId
  address : BitVec 64
  longForm : Bool
  data : Word
deriving DecidableEq, Repr

/-- The answer to a read: `size` bytes, whose first eight are `data`, the rest zero. -/
structure ReadAnswer where
  requester : RequesterId
  size : Nat
  data : BitVec 64
deriving DecidableEq, Repr

/-- The Link Port (R187) with the accesses that wait in the link behind withheld credit, oldest first (R31, R190), and the targets that a regain of permission has still to deal with (R91, R92). -/
structure LinkPort where
  state : LinkState
  busMaster : Bool
  waiting : List LinkOp
  regaining : List TargetId
deriving DecidableEq, Repr

/-- The whole block. -/
structure State where
  /-- the 1 µs timebase -/
  now : Nat
  /-- the model's counter of free values -/
  free : Nat
  /-- PORST# asserted -/
  porst : Bool
  link : LinkPort
  intake : List Arrival
  pins : Vector Pin 32
  slots : Vector Slot 1024
  pool : Vector (Option Notice) 512
  /-- the creation order, oldest first (R46) -/
  order : List EntryId
  /-- the deferred list, head first (R64) -/
  deferred : List Pair
  targets : Vector Target 8
  port : Port
  fsu : Fsu
  /-- every notification write issued, oldest first -/
  notifyWrites : List NotifyWrite
  /-- every answer given to a read, oldest first -/
  answers : List ReadAnswer
  /-- the commands waiting, first in, first out -/
  pending : List Instr
deriving DecidableEq, Repr

/-- Why a command stops with a fault: no command of this block does. Every error the manual names becomes a cause in the FSU and the part goes on (chapter 9), so the type is empty, which is neither safe nor unsafe: nothing is left out by it. -/
inductive Fault where
deriving DecidableEq, Repr

/-- Why a command has no meaning in the model. -/
inductive Refusal where
  /-- Raised by exec alone, for a command that has no meaning yet; none is left. Safe: the model stops where the hardware goes on. -/
  | notModelled (mnemonic : String)
deriving DecidableEq, Repr

/-- The held count of 0: payload absent, pin set empty, flag clear (R11). -/
def Held.empty : Held := { count := 0, overflow := false, payload := none, pins := 0 }

/-- A FREE slot that keeps its generation: every other field at its power-on value (R1, R24). -/
def Slot.freeOf (generation : BitVec 8) : Slot where
  state := .free
  generation := generation
  key := 0
  len := 0
  targets := []
  mode := .first
  rotation := 0
  level := 0
  threshold := 0
  holdOff := 0
  rearm := .auto
  held := Held.empty
  retireMode := none

/-- A pin context after power-on reset (R40), its raw input at the level given. -/
def Pin.powerOn (raw : Bool) : Pin where
  raw := raw
  sense := .disabled
  filter := 0
  filtered := false
  timing := none
  latch := false
  armed := true
  offer := false
  missDisarmed := false

/-- A target context after power-on reset (R96). -/
def Target.powerOn : Target where
  state := .offline
  method := .pin
  address := 0
  data := 0
  groupOrder := #v[3, 2, 1, 0]
  deadline := 0
  owner := none
  enabled := false
  mask := 0
  lists := Vector.replicate 16 []
  stack := []
  deadlineStart := none
  writeOwed := false
  lastPayload := 0
  ntf := false
  deliverable := false

/-- The command port after either reset (R161). -/
def Port.afterReset : Port where
  operands := Vector.replicate 8 0
  code := 0
  flightOperands := Vector.replicate 8 0
  rejected := false
  resultCode := .none
  resultLength := 0
  results := Vector.replicate 8 0
  walkPosition := 0
  waitTimer := none
  flight := none

/-- The FSU after either reset (R186). -/
def Fsu.afterReset : Fsu where
  causes := Vector.replicate 8 { flag := false, offer := none }
  firstMiss := none
  moreMisses := false

/-- The block right after power-on reset: every block at its power-on values (R24, R32, R40, R75, R96, R161, R186, R191), PORST# just released and the link still to train (log entry 3), inputs low (log entry 5), nothing sent on the link yet (log entry 4). -/
def State.reset : State where
  now := 0
  free := 0
  porst := false
  link := { state := .down, busMaster := false, waiting := [], regaining := [] }
  intake := []
  pins := Vector.replicate 32 (Pin.powerOn false)
  slots := Vector.replicate 1024 (Slot.freeOf 0)
  pool := Vector.replicate 512 none
  order := []
  deferred := []
  targets := Vector.replicate 8 Target.powerOn
  port := Port.afterReset
  fsu := Fsu.afterReset
  notifyWrites := []
  answers := []
  pending := []

end Sys2Proof.Machine
end

