-- ==== Sys2Proof/Machine/Ops.lean ====
section
/-! DEFINITION. The named operations over the state that every block shares: updates of one slot, pin, pool entry, level list or target, the port's start and end of a command (R144, R146), and the link's views (R187). -/

namespace Sys2Proof.Machine

/-- The positions, ascending, of a bank whose contents satisfy a test. -/
def indicesWhere {α : Type} {n : Nat} [NeZero n] (p : α → Bool) (v : Vector α n) : List (Fin n) :=
  v.toList.zipIdx.filterMap fun x => if p x.1 then some (Fin.ofNat n x.2) else none

/-- The change of one slot of the route table. -/
def modSlot (i : SlotId) (f : Slot → Slot) (s : State) : State :=
  { s with slots := s.slots.set i (f s.slots[i]) }

/-- The change of one pin context. -/
def modPin (p : PinId) (f : Pin → Pin) (s : State) : State :=
  { s with pins := s.pins.set p (f s.pins[p]) }

/-- The change of every pin context. -/
def modPins (f : PinId → Pin → Pin) (s : State) : State :=
  { s with pins := Vector.ofFn fun p => f p s.pins[p] }

/-- What a pool entry holds becomes o. -/
def setEntry (e : EntryId) (o : Option Notice) (s : State) : State :=
  { s with pool := s.pool.set e o }

/-- The change of one target context. -/
def modTarget (t : TargetId) (f : Target → Target) (s : State) : State :=
  { s with targets := s.targets.set t (f s.targets[t]) }

/-- The change of one level list of one target. -/
def modList (t : TargetId) (l : Level) (f : List EntryId → List EntryId) (s : State) : State :=
  modTarget t (fun c => { c with lists := c.lists.set l (f c.lists[l]) }) s

/-- The change of the command port. -/
def modPort (f : Port → Port) (s : State) : State := { s with port := f s.port }

/-- The next free value has been used. -/
def nextFree (s : State) : State := { s with free := s.free + 1 }

/-- Bus-master permission: it "holds while the link is UP and bus-master enable is set" (R187). -/
def permission (s : State) : Bool := s.link.state == .up && s.link.busMaster

/-- The flow-control state is withheld while the intake queue holds 32 arrivals (R190). -/
def withheld (s : State) : Bool := 32 ≤ s.intake.length

/-- A timer has run for its limit (R61, R150). -/
def Timer.due (x : Timer) (now : Nat) : Bool := x.start + x.limit ≤ now

/-- A timer is at its last moment: 1 µs after its limit (R61, R150). -/
def Timer.overdue (x : Timer) (now : Nat) : Bool := x.start + x.limit + 1 ≤ now

/-- The port is BUSY while a command is in flight (R142). -/
def busy (s : State) : Bool := s.port.flight.isSome

/-- The taking of a command by an IDLE port (R144, steps 1 to 5; the port is BUSY from here to the end of the command). -/
def startCommand (code : BitVec 8) (s : State) : State :=
  modPort (fun p => { p with
    rejected := false, resultCode := .none, resultLength := 0, results := Vector.replicate 8 0,
    walkPosition := 0, code := code, flightOperands := p.operands }) s

/-- The end of a command: result code and words, wait timer stopped, port IDLE (R146). The walk position is left where the walk's rule set it. -/
def endCommand (c : ResultCode) (words : List Word) (s : State) : State :=
  modPort (fun p => { p with
    resultCode := c, resultLength := words.length,
    results := Vector.ofFn fun k => words.getD k 0,
    waitTimer := none, flight := none }) s

/-- A command that stays in flight (R148). -/
def stayInFlight (f : Flight) (s : State) : State := modPort (fun p => { p with flight := some f }) s

/-- The wait timer starts, with a limit in ms (R150). -/
def startWait (ms : Nat) (s : State) : State :=
  modPort (fun p => { p with waitTimer := some { start := s.now, limit := ms * 1000 } }) s

/-- A COMMAND write: taken by an IDLE port, rejected by a BUSY one (R142, R143). -/
def takeCommand (code : BitVec 8) (body : State → State) (s : State) : State :=
  if busy s then modPort (fun p => { p with rejected := true }) s else body (startCommand code s)

/-- A ONLINE or STALLED target is placeable (R42). -/
def placeable (s : State) (t : TargetId) : Bool :=
  s.targets[t].state == .online || s.targets[t].state == .stalled

/-- The part answers a read. -/
def answer (requester : RequesterId) (size : Nat) (data : BitVec 64) (s : State) : State :=
  { s with answers := s.answers ++ [{ requester := requester, size := size, data := data }] }

end Sys2Proof.Machine
end

