-- ==== Sys2Proof/Machine/Operands.lean ====
section
/-! DEFINITION. Every layout of the operand, result and status words (R194 to R199): the fields of the command operands in flight, the reserved bits of each word a command uses, and the words the part shows. -/

namespace Sys2Proof.Machine

/-- The bits of a word from `lo`, `n` of them, as a number (R194). -/
def field (w : Word) (lo n : Nat) : Nat := (w.extractLsb' lo n).toNat

/-- A value placed at bits `lo` and up, `n` of them (R194). -/
def place (lo n v : Nat) : Word := ((BitVec.ofNat 32 v) &&& (BitVec.ofNat 32 (2 ^ n - 1))) <<< lo

/-- A flag placed at one bit. -/
def placeFlag (bit : Nat) (b : Bool) : Word := place bit 1 b.toNat

/-- A word is made of its fields; the bits of no field read as zero (R194). -/
def pack (fields : List Word) : Word := fields.foldl (· ||| ·) 0

/-- Command operand k + 1, as copied when the command in flight was taken (R142). -/
def operand (s : State) (k : Fin 8) : Word := s.port.flightOperands[k]

/-! ### Fields of the operand words (R198) -/

/-- Word 1, 10:0: the slot of every command that names one. -/
def slotOperand (s : State) : Nat := field (operand s 0) 0 11

/-- The slot of an operand that has passed the BAD_SLOT check. -/
def slotId (s : State) : SlotId := Fin.ofNat 1024 (slotOperand s)

/-- Word 1, 23:16: the generation of MODIFY, RETIRE and FORCE_RETIRE. -/
def generationOperand (s : State) : BitVec 8 := (operand s 0).extractLsb' 16 8

/-- Word 1, 29:28: the start-state code of INSTALL. -/
def startStateCode (s : State) : Nat := field (operand s 0) 28 2

/-- The record image carried by INSTALL and MODIFY (R198, words 2 to 5). -/
structure Image where
  key : Key
  len : Nat
  modeCode : Nat
  rearmCode : Nat
  level : Nat
  threshold : Nat
  listLength : Nat
  entries : List Nat
  holdOff : Nat
deriving DecidableEq, Repr

/-- The record image in the operands (R198). -/
def imageOf (s : State) : Image where
  key := operand s 1
  len := field (operand s 2) 0 6
  modeCode := field (operand s 2) 8 2
  rearmCode := field (operand s 2) 12 2
  level := field (operand s 2) 16 5
  threshold := field (operand s 2) 24 8
  listLength := field (operand s 3) 0 3
  entries := [field (operand s 3) 4 4, field (operand s 3) 8 4, field (operand s 3) 12 4, field (operand s 3) 16 4]
  holdOff := field (operand s 4) 0 16

/-- The targets an image lists, as numbers. -/
def listed (m : Image) : List Nat := m.entries.take m.listLength

/-- The target list of an image that has passed its checks. -/
def imageTargets (m : Image) : List TargetId := (listed m).map (Fin.ofNat 8)

/-- The placement mode of a code in range (R198). -/
def modeOf (code : Nat) : PlaceMode := if code = 0 then .first else if code = 1 then .rotate else .all

/-- The re-arm mode of a code in range (R198). -/
def rearmOf (code : Nat) : RearmMode := if code = 0 then .auto else .explicit

/-- The retire mode of a code in range (R198). -/
def retireModeOf (code : Nat) : RetireMode := if code = 0 then .discard else .drain

/-- Bits of words 3, 4 and 5 of an image that belong to no field, and list entries beyond the list length (R198). -/
def imageReserved (s : State) (m : Image) : Bool :=
  operand s 2 &&& 0x00E0CCC0#32 != 0 || operand s 3 &&& 0xFFF00008#32 != 0
    || operand s 4 &&& 0xFFFF0000#32 != 0 || (m.entries.drop m.listLength).any (· != 0)

/-- A reserved field of INSTALL is nonzero: the generation field of word 1 among them (R21 step 5, R198). -/
def installReserved (s : State) : Bool :=
  operand s 0 &&& 0xCFFFF800#32 != 0 || imageReserved s (imageOf s)

/-- A reserved field of MODIFY is nonzero: the start-state field of word 1 among them (R21 step 5, R198). -/
def modifyReserved (s : State) : Bool :=
  operand s 0 &&& 0xFF00F800#32 != 0 || imageReserved s (imageOf s)

/-- A reserved bit of a word 1 that carries a slot alone (HOLD, RELEASE, QUERY). -/
def slotWordReserved (s : State) : Bool := operand s 0 &&& 0xFFFFF800#32 != 0

/-- A reserved bit of a word 1 that carries a slot and a generation (RETIRE, FORCE_RETIRE). -/
def slotGenerationReserved (s : State) : Bool := operand s 0 &&& 0xFF00F800#32 != 0

/-- Word 2, 15:0: the wait limit of RETIRE and TARGET_OFFLINE, in ms. -/
def waitLimit (s : State) : Nat := field (operand s 1) 0 16

/-- Word 2, 17:16: the retire-mode code of RETIRE and GROUP_RETIRE. -/
def retireModeCode (s : State) : Nat := field (operand s 1) 16 2

/-- A reserved bit of RETIRE. -/
def retireReserved (s : State) : Bool := slotGenerationReserved s || operand s 1 &&& 0xFFFC0000#32 != 0

/-- Word 1 of a group walk: its key. -/
def groupKey (s : State) : Key := operand s 0

/-- Word 2, 5:0: the length of a group walk's key. -/
def groupLength (s : State) : Nat := field (operand s 1) 0 6

/-- A reserved bit of GROUP_HOLD or GROUP_RELEASE. -/
def groupReserved (s : State) : Bool := operand s 1 &&& 0xFFFFFFC0#32 != 0

/-- A reserved bit of GROUP_RETIRE. -/
def groupRetireReserved (s : State) : Bool := operand s 1 &&& 0xFFFCFFC0#32 != 0

/-- Word 1, 3:0: the target of a target command. -/
def targetOperand (s : State) : Nat := field (operand s 0) 0 4

/-- The target of an operand that has passed the BAD_TARGET check. -/
def targetId (s : State) : TargetId := Fin.ofNat 8 (targetOperand s)

/-- Word 1, 9:8, of TARGET_SET and TARGET_OFFLINE: the notify-method code or the mode code. -/
def targetCode (s : State) : Nat := field (operand s 0) 8 2

/-- Word 1, 13:12: the owner presence code of TARGET_SET. -/
def ownerCode (s : State) : Nat := field (operand s 0) 12 2

/-- Words 2 and 3: the notify address, low half first (R158). -/
def notifyAddress (s : State) : BitVec 64 := operand s 2 ++ operand s 1

/-- Word 5, 18:16, 22:20, 26:24 and 30:28: the group order, most urgent first. -/
def groupNumbers (s : State) : List Nat :=
  [field (operand s 4) 16 3, field (operand s 4) 20 3, field (operand s 4) 24 3, field (operand s 4) 28 3]

/-- The group order of numbers that have passed their check. -/
def groupOrderOf (s : State) : Vector Group 4 :=
  #v[Fin.ofNat 4 (field (operand s 4) 16 3), Fin.ofNat 4 (field (operand s 4) 20 3),
     Fin.ofNat 4 (field (operand s 4) 24 3), Fin.ofNat 4 (field (operand s 4) 28 3)]

/-- A reserved bit of TARGET_SET: the owner word as a whole among them when the presence code says absent (R79, R158). -/
def targetSetReserved (s : State) : Bool :=
  operand s 0 &&& 0xFFFFCCF0#32 != 0 || operand s 4 &&& 0x88880000#32 != 0
    || (if ownerCode s = 0 then operand s 5 != 0 else operand s 5 &&& 0xFFFF0000#32 != 0)

/-- A reserved bit of TARGET_ONLINE. -/
def targetOnlineReserved (s : State) : Bool := operand s 0 &&& 0xFFFFFFF0#32 != 0

/-- A reserved bit of TARGET_OFFLINE. -/
def targetOfflineReserved (s : State) : Bool :=
  operand s 0 &&& 0xFFFFECF0#32 != 0 || operand s 1 &&& 0xFFFF0000#32 != 0

/-- Word 1, 12: the FORCE flag of TARGET_OFFLINE. -/
def forceFlag (s : State) : Bool := (operand s 0).getLsbD 12

/-- Word 1, 5:0: the pin of PIN_SET. -/
def pinOperand (s : State) : Nat := field (operand s 0) 0 6

/-- Word 1, 10:8: the sense code of PIN_SET. -/
def senseCode (s : State) : Nat := field (operand s 0) 8 3

/-- Word 1, 15:12: the filter of PIN_SET. -/
def filterOperand (s : State) : Nat := field (operand s 0) 12 4

/-- A reserved bit of PIN_SET. -/
def pinSetReserved (s : State) : Bool := operand s 0 &&& 0xFFFF08C0#32 != 0

/-- The sense of a code in range (R198). -/
def senseOf (code : Nat) : Sense :=
  if code = 0 then .disabled else if code = 1 then .rising else if code = 2 then .falling
  else if code = 3 then .both else if code = 4 then .high else .low

/-! ### Codes shown to software (R196, R199) -/

/-- The value of a result code (R196). -/
def ResultCode.value : ResultCode → Nat
  | .none => 0x00
  | .ok => 0x01
  | .started => 0x02
  | .unknownCommand => 0x03
  | .badSlot => 0x04
  | .slotInUse => 0x05
  | .slotFree => 0x06
  | .slotState => 0x07
  | .staleGeneration => 0x08
  | .badField => 0x09
  | .nonzeroTail => 0x0A
  | .duplicateMatch => 0x0B
  | .badTarget => 0x0C
  | .targetState => 0x0D
  | .notFound => 0x0E
  | .timeout => 0x0F
  | .aborted => 0x10

/-- The value of a target state in DEVICE_STATUS (R196). -/
def TargetState.value : TargetState → Nat
  | .offline => 0
  | .online => 1
  | .stalled => 2
  | .quiescing => 3

/-- The value of a slot state in QUERY word 1 (R199). -/
def SlotState.value : SlotState → Nat
  | .free => 0
  | .active => 1
  | .held => 2
  | .retiring => 3

/-- The value of a placement mode (R198, R199). -/
def PlaceMode.value : PlaceMode → Nat
  | .first => 0
  | .rotate => 1
  | .all => 2

/-- The value of a re-arm mode (R198, R199). -/
def RearmMode.value : RearmMode → Nat
  | .auto => 0
  | .explicit => 1

/-- The value of a retire mode (R198, R199). -/
def RetireMode.value : RetireMode → Nat
  | .discard => 0
  | .drain => 1

/-! ### Result words (R199) -/

/-- INSTALL: slot and new generation. -/
def installWord (i : SlotId) (generation : BitVec 8) : Word :=
  pack [place 0 11 i, place 16 8 generation.toNat]

/-- RELEASE: the held count and flag as they stood, and the placed flag. -/
def releaseWord (h : Held) (placed : Bool) : Word :=
  pack [place 0 16 h.count, placeFlag 16 h.overflow, placeFlag 17 placed]

/-- PROBE: slot, generation and match length. -/
def probeWord (i : SlotId) (r : Slot) : Word :=
  pack [place 0 11 i, place 16 8 r.generation.toNat, place 24 6 r.len]

/-- RETIRE: its two words. -/
def RetireFigures.words (f : RetireFigures) : List Word :=
  [pack [place 0 16 f.heldCount, placeFlag 16 f.heldOverflow],
   pack [place 0 10 f.notices, place 16 4 f.pairs]]

/-- FORCE_RETIRE: its two words. -/
def forceRetireWords (f : RetireFigures) (orphans : Nat) : List Word :=
  [pack [place 0 16 f.heldCount, placeFlag 16 f.heldOverflow],
   pack [place 0 10 f.notices, place 16 4 f.pairs, place 24 6 orphans]]

/-- A group walk: changed and skipped counts. -/
def groupWord (changed skipped : Nat) : Word := pack [place 0 11 changed, place 16 11 skipped]

/-- TARGET_ONLINE: the converted count. TABLE_CLEAR: the records sent to FREE. -/
def countWord (n : Nat) : Word := pack [place 0 11 n]

/-- The numbers of a record's notices in each state, and of its pairs (R155). -/
structure ItemCounts where
  gathering : Nat
  pending : Nat
  inService : Nat
  pairs : Nat
deriving DecidableEq, Repr

/-- A target list as QUERY word 3 shows it: entries beyond the list's length read as zero. -/
def targetListFields (ts : List TargetId) : List Word :=
  (ts.zipIdx.take 4).map fun x => place (4 + 4 * x.2) 4 x.1

/-- QUERY: its seven words. -/
def queryWords (r : Slot) (n : ItemCounts) : List Word :=
  [pack [place 0 2 r.state.value, place 2 8 r.generation.toNat, place 10 6 r.len, place 16 2 r.mode.value,
         place 18 2 r.rotation, place 20 4 r.level, place 24 1 r.rearm.value,
         placeFlag 25 r.retireMode.isSome, place 26 1 ((r.retireMode.map RetireMode.value).getD 0)],
   r.key,
   pack (place 0 3 r.targets.length :: place 24 8 r.threshold :: targetListFields r.targets),
   pack [place 0 16 r.holdOff, place 16 16 r.held.count],
   pack [placeFlag 0 r.held.overflow, placeFlag 1 r.held.payload.isSome, place 2 10 n.gathering,
         place 12 10 n.pending, place 22 6 n.inService, place 28 4 n.pairs],
   r.held.payload.getD 0,
   r.held.pins]

/-! ### The claim result and the COMPLETE word (R197) -/

/-- The low word of a claim that takes a notice. -/
def claimWord (n : Notice) : Word :=
  pack [placeFlag 0 true, place 1 10 n.slot, place 11 8 n.generation.toNat, place 19 4 n.level,
        place 23 8 n.count, placeFlag 31 n.overflow]

/-- The low word of a claim that takes nothing: valid = 0, the stack-full flag, every other field zero (R104). -/
def emptyClaimWord (stackFull : Bool) : Word := placeFlag 31 stackFull

/-- COMPLETE 10:1: its slot. -/
def completeSlot (w : Word) : Nat := field w 1 10

/-- COMPLETE 18:11: its generation. -/
def completeGeneration (w : Word) : BitVec 8 := w.extractLsb' 11 8

/-- COMPLETE 22:19: its level. -/
def completeLevel (w : Word) : Nat := field w 19 4

/-! ### The readable words of the management region (R196) -/

/-- DEVICE_STATUS: the state and the write-owed flag of each target. -/
def deviceStatusWord (s : State) : Word :=
  pack ((List.finRange 8).map fun (t : TargetId) =>
    place (2 * t) 2 s.targets[t].state.value ||| placeFlag (16 + t) s.targets[t].writeOwed)

/-- PORT_STATUS: BUSY, REJECTED, result length, result code, command code. -/
def portStatusWord (s : State) : Word :=
  pack [placeFlag 0 (busy s), placeFlag 1 s.port.rejected, place 4 4 s.port.resultLength,
        place 8 8 s.port.resultCode.value, place 16 8 s.port.code.toNat]

/-- FAULT_STATUS: the cause flags and the more-misses flag. -/
def faultStatusWord (s : State) : Word :=
  pack (placeFlag 8 s.fsu.moreMisses :: (List.finRange 8).map fun (c : Fin 8) => placeFlag c s.fsu.causes[c].flag)

/-- What a read of a word of the management region returns (R185, R196). -/
def mgmtValue (s : State) : MgmtWord → Word
  | .deviceStatus => deviceStatusWord s
  | .portStatus => portStatusWord s
  | .walkPosition => place 0 11 s.port.walkPosition
  | .faultStatus => faultStatusWord s
  | .firstMiss => s.fsu.firstMiss.getD 0
  | .operand k => s.port.operands[k]
  | .result k => s.port.results[k]

/-- VIEW: which level lists are non-empty (R88). -/
def viewWord (c : Target) : Word :=
  pack ((List.finRange 16).map fun (l : Level) => placeFlag l (!c.lists[l].isEmpty))

/-- What a read of a word of a target page returns (R88, R83, R84, R105). -/
def pageValue (s : State) (t : TargetId) : PageWord → Word
  | .view => viewWord s.targets[t]
  | .enable => placeFlag 0 s.targets[t].enabled
  | .mask => s.targets[t].mask.setWidth 32
  | .lastPayload => s.targets[t].lastPayload

end Sys2Proof.Machine
end

