-- ==== Sys2Proof/Machine/Flags.lean ====
section
/-! DEFINITION. Every flag the part computes: the causes and offers of the Fault Status Unit (chapter 9), the urgency, candidate and deliverability of a target with what follows from them, its notify pin, its notification writes and its deadline timer (chapter 4). -/

namespace Sys2Proof.Machine

/-! ### Causes (R179 to R181) -/

/-- The place of a cause among the eight: its code less one (R179). -/
def causeIndex : Cause → Fin 8
  | .miss => 0
  | .malformedEvent => 1
  | .poolEmpty => 2
  | .countOverflow => 3
  | .targetStalled => 4
  | .completeMismatch => 5
  | .stackUnderflow => 6
  | .registerAccess => 7

/-- A raise of one cause: a clear cause is set and offers, and an offer still pending keeps its payload; a set cause stays as it is (R180). -/
def raiseCause (payload : Word) (c : CauseState) : CauseState :=
  if c.flag then c else { flag := true, offer := some (c.offer.getD payload) }

/-- The change of one cause of the FSU. -/
def modCause (c : Cause) (f : CauseState → CauseState) (s : State) : State :=
  { s with fsu := { s.fsu with causes := s.fsu.causes.set (causeIndex c) (f s.fsu.causes[causeIndex c]) } }

/-- A raise, whose fault arrival carries payload 0 (R180). -/
def raise (c : Cause) (s : State) : State := modCause c (raiseCause 0) s

/-- A raise made only under a condition. -/
def raiseIf (b : Bool) (c : Cause) (s : State) : State := if b then raise c s else s

/-- The first-miss capture and the more-misses flag at a raise of MISS (R181). -/
def captureMiss (key : Key) (f : Fsu) : Fsu :=
  match f.firstMiss with
  | none => { f with firstMiss := some key }
  | some _ => { f with moreMisses := true }

/-- A raise of MISS carries the key of the arrival that missed (R180, R181). -/
def raiseMiss (key : Key) (s : State) : State :=
  let s1 := modCause .miss (raiseCause key) s
  { s1 with fsu := captureMiss key s1.fsu }

/-! ### Urgency (R81, R82, R85) -/

/-- The group of a level (R81). -/
def groupOf (l : Level) : Group := Fin.ofNat 4 (l / 4)

/-- The rank of a level under a group order: 4 × the position of its group, plus 3 − (level mod 4) (R81). -/
def rank (order : Vector Group 4) (l : Level) : Nat :=
  order.toList.idxOf (groupOf l) * 4 + (3 - l % 4)

/-- The levels of a group, the more urgent first (R81). -/
def groupLevels (g : Group) : List Level :=
  [Fin.ofNat 16 (4 * g + 3), Fin.ofNat 16 (4 * g + 2), Fin.ofNat 16 (4 * g + 1), Fin.ofNat 16 (4 * g)]

/-- All levels of a target by rank, rank 0 first (R81). -/
def levelsByRank (order : Vector Group 4) : List Level := order.toList.flatMap groupLevels

/-- A level takes part in the choice of the candidate: its list is not empty and it is not masked (R85). -/
def eligible (c : Target) (l : Level) : Bool := !c.mask.getLsbD l && !c.lists[l].isEmpty

/-- The level that holds the candidate: the eligible level of lowest rank (R85). -/
def candidateLevel (c : Target) : Option Level := (levelsByRank c.groupOrder).find? (eligible c)

/-- The candidate with its level: the head of that list (R85). -/
def candidate (c : Target) : Option (EntryId × Level) :=
  match candidateLevel c with
  | some l => c.lists[l].head?.map (·, l)
  | none => none

/-- The level of the notice on top of a stack. -/
def topLevel (s : State) (c : Target) : Option Level :=
  match c.stack with
  | [] => none
  | e :: _ => s.pool[e].map (·.level)

/-- A level is strictly more urgent at a target than another (R82). -/
def moreUrgent (c : Target) (a b : Level) : Bool := rank c.groupOrder a < rank c.groupOrder b

/-- The candidate may be claimed over what the stack holds: it is empty, or its top is strictly less urgent (R86, condition 5). -/
def overTop (s : State) (c : Target) (l : Level) : Bool :=
  match topLevel s c with
  | none => c.stack.isEmpty
  | some top => moreUrgent c l top

/-- A target has a deliverable notice: the five conditions of R86. -/
def deliverable (s : State) (t : TargetId) : Bool :=
  let c := s.targets[t]
  placeable s t && c.enabled && (c.stack.length < 4) &&
    match candidate c with
    | some x => overTop s c x.2
    | none => false

/-! ### What follows from deliverability (R87, R89 to R93) -/

/-- A notification write to a target (R192): the short address form when the upper 32 bits are zero. -/
def notifyWrite (c : Target) : NotifyWrite where
  requester := Config.functionRequesterId
  address := c.address
  longForm := c.address.extractLsb' 32 32 != 0
  data := c.data

/-- The Link Port issues a notification write at once (R192). -/
def issueWrite (s : State) (t : TargetId) : State :=
  { s with notifyWrites := s.notifyWrites ++ [notifyWrite s.targets[t]] }

/-- A request for a notification write: issued while permission holds, owed otherwise (R90, R91). -/
def requestWrite (s : State) (t : TargetId) : State :=
  if permission s then issueWrite s t else modTarget t (fun c => { c with writeOwed := true }) s

/-- A target put in its place among targets already ordered by rank. -/
def insertByRank (key : TargetId → Nat) (t : TargetId) : List TargetId → List TargetId
  | [] => [t]
  | u :: us => if key t ≤ key u then t :: u :: us else u :: insertByRank key t us

/-- Targets in the order of their ranks. -/
def orderByRank (key : TargetId → Nat) : List TargetId → List TargetId
  | [] => []
  | t :: ts => insertByRank key t (orderByRank key ts)

/-- Each of several targets is handed to the Link Port in turn; the order of two or more of them is free (R91, log entry 11). -/
def handInTurn (f : State → TargetId → State) (s : State) : List TargetId → State
  | [] => s
  | [t] => f s t
  | t :: u :: ts => (orderByRank (Config.requestRank s.free) (t :: u :: ts)).foldl f (nextFree s)

/-- A target context with its deliverability judged anew: the notify pin follows it (R89), and the deadline timer starts, runs on or stops as the three conditions of R93 hold or not. -/
def judge (s : State) (t : TargetId) : Target :=
  let c := s.targets[t]
  let d := deliverable s t
  { c with
    deliverable := d
    ntf := d && c.method == .pin
    deadlineStart :=
      if d && c.state == .online && c.deadline != 0 then some (c.deadlineStart.getD s.now) else none }

/-- A WRITE-method target whose deliverability has gone from false to true (R90). -/
def newlyDeliverable (s : State) (t : TargetId) : Bool :=
  deliverable s t && !s.targets[t].deliverable && s.targets[t].method == .write

/-- One target is judged (R87): its pin and its timer follow, and its request for a notification write is made (R89 to R93). -/
def judgeOne (s : State) (t : TargetId) : State :=
  let s1 := modTarget t (fun _ => judge s t) s
  if newlyDeliverable s t then requestWrite s1 t else s1

/-- A request that acts on several targets changes "each in turn as it reaches it" (R87). -/
def judgeInTurn (ts : List TargetId) (s : State) : State := ts.foldl judgeOne s

/-- Every target is judged (R87): pins and timers follow, then the requests for notification writes are made (R90). -/
def settle (s : State) : State :=
  handInTurn requestWrite { s with targets := Vector.ofFn (judge s) }
    ((List.finRange 8).filter (newlyDeliverable s))

end Sys2Proof.Machine
end

