-- ==== Sys2Proof/Machine/Pins.lean ====
section
/-! DEFINITION. The Pin Sense Unit (R33 to R40): the filter, edges and level offers, re-arm requests, PIN_SET's effect on a pin, and the two pin events. -/

namespace Sys2Proof.Machine

/-- HIGH and LOW make a pin level-sensed (R34). -/
def levelSensed (p : Pin) : Bool := p.sense == .high || p.sense == .low

/-- A level-sensed pin is asserted under its sense (R34). -/
def asserted (p : Pin) : Bool := (p.sense == .high && p.filtered) || (p.sense == .low && !p.filtered)

/-- A level-sensed pin offers when it is asserted, armed and has no offer pending (R36); "a miss-disarmed pin … makes no offer" (R38). -/
def offerIfReady (p : Pin) : Pin :=
  if asserted p && p.armed && !p.offer && !p.missDisarmed then { p with armed := false, offer := true } else p

/-- A change of the filtered level to `level` is a qualifying edge under the sense (R34). -/
def qualifyingEdge (sense : Sense) (level : Bool) : Bool :=
  match sense with
  | .rising => level
  | .falling => !level
  | .both => true
  | .disabled => false
  | .high => false
  | .low => false

/-- The raw level of a pin enters its filtered level (R33): an edge sets the latch (R35), an assertion offers (R36). -/
def enterLevel (p : Pin) : Pin :=
  offerIfReady { p with
    filtered := p.raw, timing := none,
    latch := p.latch || (p.raw != p.filtered && qualifyingEdge p.sense p.raw) }

/-- A change being timed has been held for the filter time (R33). -/
def heldLongEnough (p : Pin) (now : Nat) : Bool :=
  match p.timing with
  | some start => start + p.filter ≤ now
  | none => false

/-- A change being timed must have entered before any later change of the input is looked at: held for the filter time, and for at least 1 µs (R33). -/
def mustHaveEntered (p : Pin) (now : Nat) : Bool :=
  match p.timing with
  | some start => start + max p.filter 1 ≤ now
  | none => false

/-- A change being timed is at its last moment: filter 0, or 1 µs after the filter time (R33). -/
def filterOverdue (p : Pin) (now : Nat) : Bool :=
  match p.timing with
  | some start => p.filter = 0 || start + p.filter + 1 ≤ now
  | none => false

/-- The input of a pin takes the other level: timing starts, or stops when the input is back at the filtered level; with filter 0 the level enters directly, or, if the pulse proves shorter than 1 µs, perhaps not at all (R33; `short` is the free value of log entry 9). -/
def changeInput (level : Bool) (now : Nat) (short : Bool) (p : Pin) : Pin :=
  let q := { (if mustHaveEntered p now then enterLevel p else p) with raw := level }
  if level = q.filtered then { q with timing := none }
  else if q.filter = 0 && short then enterLevel q
  else { q with timing := some now }

/-- EVT_INPUT_CHANGE (R33). While PORST# is asserted the part takes no notice of its inputs (R201). -/
def inputChangeBody (pin : PinId) (level : Bool) (s : State) : State :=
  if s.pins[pin].raw = level then s
  else if s.porst then modPin pin (fun p => { p with raw := level }) s
  else nextFree (modPin pin (changeInput level s.now (Config.shortPulseEnters s.free)) s)

/-- FILTERED_LEVEL_CHANGE (R33): it occurs only once the change has been held for the filter time. -/
def filteredLevelBody (pin : PinId) (s : State) : State :=
  if !s.porst && heldLongEnough s.pins[pin] s.now then modPin pin enterLevel s else s

/-- A re-arm request at a pin (R37; R34 for an edge-sensed or DISABLED pin). -/
def rearmPin (p : Pin) : Pin :=
  if levelSensed p then
    if p.missDisarmed || p.armed then p else offerIfReady { p with armed := true }
  else { p with armed := true }

/-- Each pin of a ceasing carrier's pin set receives a re-arm request (R72). -/
def rearmPins (pins : PinSet) (s : State) : State :=
  modPins (fun i p => if pins.getLsbD i then rearmPin p else p) s

/-- A table change at a pin: a miss-disarmed pin is cleared and armed, and offers if asserted (R38). -/
def clearMissDisarmed (p : Pin) : Pin :=
  if p.missDisarmed then offerIfReady { p with missDisarmed := false, armed := true } else p

/-- An INSTALL or RELEASE that ends OK re-arms every miss-disarmed pin (R38). -/
def rearmMissDisarmed (s : State) : State := modPins (fun _ p => clearMissDisarmed p) s

/-- PIN_SET at its pin (R39, R33): a change being timed under another filter is timed again; under the same filter that is open (log entry 10). -/
def programPin (sense : Sense) (filter : Nat) (now : Nat) (p : Pin) : Pin :=
  offerIfReady { p with
    sense := sense, filter := filter, latch := false, offer := false, missDisarmed := false, armed := true,
    timing := p.timing.map fun start =>
      if filter ≠ p.filter || Config.sameFilterRestarts then now else start }

/-- A pin at a function reset: sense, filter and filtered level kept, armed, an asserted pin offering at once (R40). -/
def functionResetPin (p : Pin) : Pin :=
  offerIfReady { p with latch := false, armed := true, offer := false, missDisarmed := false }

/-- A pin at the release of PORST#: its filtered level is low and from now on follows the input (R40, R33). -/
def followInput (now : Nat) (p : Pin) : Pin :=
  if p.raw = p.filtered then p else { p with timing := some now }

/-- EVT_INPUT_CHANGE. -/
def execEvtInputChange (pin : PinId) (level : Bool) (s : State) : Host.Outcome State Fault Refusal :=
  .next (inputChangeBody pin level s)

/-- FILTERED_LEVEL_CHANGE. -/
def execFilteredLevelChange (pin : PinId) (s : State) : Host.Outcome State Fault Refusal :=
  .next (filteredLevelBody pin s)

end Sys2Proof.Machine
end

