-- ==== Sys2Proof/Machine/Notices.lean ====
section
/-! DEFINITION. The Notice Pool (chapter 3) with the re-homing of chapter 6: which notices a record has, ripening, merging, new notices, deferral, the freeing and hand-over of entries, reports to the RT, discards, and the moves of notices between targets. -/

namespace Sys2Proof.Machine

/-- What a placement, a pair or a late count brings to a notice: a count, an overflow flag, a payload and a pin set (3.2). -/
structure Placement where
  count : Nat
  overflow : Bool
  payload : Word
  pins : PinSet
deriving DecidableEq, Repr

/-! ### Which notices and pairs a record has -/

/-- A GATHERING or PENDING notice. -/
def Notice.unclaimed (n : Notice) : Bool :=
  match n.phase with
  | .gathering _ _ => true
  | .pending => true
  | .inService _ _ => false

/-- A GATHERING notice. -/
def Notice.isGathering (n : Notice) : Bool :=
  match n.phase with
  | .gathering _ _ => true
  | _ => false

/-- A PENDING notice. -/
def Notice.isPending (n : Notice) : Bool := n.phase == .pending

/-- An IN_SERVICE notice. -/
def Notice.isInService (n : Notice) : Bool :=
  match n.phase with
  | .inService _ _ => true
  | _ => false

/-- An orphan (R17). -/
def Notice.isOrphan (n : Notice) : Bool :=
  match n.phase with
  | .inService _ orphan => orphan
  | _ => false

/-- The late count of a notice, 0 where it has none (R47). -/
def Notice.late (n : Notice) : Late :=
  match n.phase with
  | .inService (some l) _ => l
  | _ => { count := 0, overflow := false }

/-- A notice belongs to the record in a slot: it carries the slot and its generation and is no orphan (R74). -/
def ownedBy (s : State) (i : SlotId) (n : Notice) : Bool :=
  n.slot == i && n.generation == s.slots[i].generation && !n.isOrphan

/-- A test on the notice of a pool entry; a free entry fails it. -/
def entryIs (s : State) (p : Notice → Bool) (e : EntryId) : Bool := s.pool[e].any p

/-- The oldest notice that passes a test: the earliest in the creation order (R46). -/
def oldest (s : State) (p : Notice → Bool) : Option EntryId := s.order.find? (entryIs s p)

/-- The entries, in creation order, whose notice passes a test. -/
def inCreationOrder (s : State) (p : Notice → Bool) : List EntryId := s.order.filter (entryIs s p)

/-- The entries, ascending, whose notice passes a test. -/
def ascending (s : State) (p : Notice → Bool) : List EntryId := indicesWhere (fun o => o.any p) s.pool

/-- How many notices pass a test. -/
def countNotices (s : State) (p : Notice → Bool) : Nat := s.pool.toList.countP fun o => o.any p

/-- The numbers QUERY reports of the record in a slot (R155). -/
def itemCounts (s : State) (i : SlotId) : ItemCounts where
  gathering := countNotices s fun n => ownedBy s i n && n.isGathering
  pending := countNotices s fun n => ownedBy s i n && n.isPending
  inService := countNotices s fun n => ownedBy s i n && n.isInService
  pairs := s.deferred.countP fun d => d.slot == i

/-- The number of outstanding items of a record: its non-orphan notices and its pairs (R16). -/
def outstanding (s : State) (i : SlotId) : Nat :=
  countNotices s (ownedBy s i) + s.deferred.countP fun d => d.slot == i

/-- The GATHERING or PENDING notice of the record in slot i on target t (R56: there is at most one). -/
def residentAt (s : State) (i : SlotId) (t : TargetId) : Option EntryId :=
  oldest s fun n => n.unclaimed && ownedBy s i n && n.target == t

/-- The deferred pair of the record in slot i for target t (R57). -/
def pairAt (s : State) (i : SlotId) (t : TargetId) : Option Pair :=
  s.deferred.find? fun d => d.slot == i && d.target == t

/-- A record is RETIRING under DRAIN (R62). -/
def draining (s : State) (i : SlotId) : Bool :=
  s.slots[i].state == .retiring && s.slots[i].retireMode == some .drain

/-! ### Merging and ripening -/

/-- A sum of counts saturates at 255 (R48). -/
def saturate (n : Nat) : Nat := min n 255

/-- A placement taken into a notice: counts added, flags combined, payload replaced, pin sets united (R56). -/
def Notice.merged (n : Notice) (p : Placement) : Notice :=
  { n with
    count := saturate (n.count + p.count), overflow := n.overflow || p.overflow || 255 < n.count + p.count,
    payload := p.payload, pins := n.pins ||| p.pins }

/-- A placement taken into a deferred pair (R57). -/
def Pair.merged (d : Pair) (p : Placement) : Pair :=
  { d with
    count := saturate (d.count + p.count), overflow := d.overflow || p.overflow || 255 < d.count + p.count,
    payload := p.payload, pins := d.pins ||| p.pins }

/-- A placement taken into the late count of a notice in flight: its count and flag stay (R55). -/
def Notice.mergedLate (n : Notice) (p : Placement) : Notice :=
  { n with
    payload := p.payload, pins := n.pins ||| p.pins,
    phase := match n.phase with
      | .inService (some l) orphan =>
        .inService (some { count := saturate (l.count + p.count),
                           overflow := l.overflow || p.overflow || 255 < l.count + p.count }) orphan
      | ph => ph }

/-- A GATHERING notice ripens: it is PENDING and joins the tail of its target's list for its level (R60). -/
def ripen (e : EntryId) (s : State) : State :=
  match s.pool[e] with
  | some n =>
    if n.isGathering then modList n.target n.level (· ++ [e]) (setEntry e (some { n with phase := .pending }) s)
    else s
  | none => s

/-- A GATHERING notice whose count has reached its threshold (R60). -/
def Notice.reached (n : Notice) : Bool :=
  match n.phase with
  | .gathering threshold _ => threshold ≤ n.count
  | _ => false

/-- The ripening by threshold (R60). -/
def ripenIfReached (e : EntryId) (s : State) : State :=
  if entryIs s Notice.reached e then ripen e s else s

/-- A placement, pair or late count merges into a GATHERING or PENDING notice (R56, R67, R117). -/
def mergeInto (e : EntryId) (p : Placement) (s : State) : State :=
  match s.pool[e] with
  | some n =>
    ripenIfReached e (raiseIf (255 < n.count + p.count) .countOverflow (setEntry e (some (n.merged p)) s))
  | none => s

/-- A placement adds to the late count of a notice in flight (R55). -/
def addLate (e : EntryId) (p : Placement) (s : State) : State :=
  match s.pool[e] with
  | some n => raiseIf (255 < n.late.count + p.count) .countOverflow (setEntry e (some (n.mergedLate p)) s)
  | none => s

/-- A placement merges into the record's deferred pair for the target, which keeps its place (R57). -/
def mergeIntoPair (i : SlotId) (t : TargetId) (d : Pair) (p : Placement) (s : State) : State :=
  raiseIf (255 < d.count + p.count) .countOverflow
    { s with deferred := s.deferred.map fun x => if x.slot == i && x.target == t then x.merged p else x }

/-! ### New notices -/

/-- The GATHERING notice that a placement makes of a record: its slot, generation, level, threshold, hold-off and re-arm mode as the record stands (R58, R10). Its hold-off timer starts now if it does not ripen at once (R61). -/
def freshNotice (s : State) (i : SlotId) (t : TargetId) (p : Placement) : Notice :=
  let r := s.slots[i]
  { slot := i, generation := r.generation, target := t, level := r.level
    phase := .gathering r.threshold (if r.holdOff = 0 then none else some { start := s.now, limit := r.holdOff })
    count := p.count, overflow := p.overflow, payload := p.payload, pins := p.pins, rearm := r.rearm }

/-- A new notice enters a pool entry and the tail of the creation order, then starts: PENDING at once for a record RETIRING under DRAIN (R62), PENDING if its count reaches its threshold, GATHERING otherwise (R58, R66, R116). -/
def startNotice (e : EntryId) (n : Notice) (s : State) : State :=
  let s1 := { setEntry e (some n) s with order := s.order.erase e ++ [e] }
  if draining s n.slot then ripen e s1 else ripenIfReached e s1

/-- The lowest-numbered free entry of the pool (R46). -/
def lowestFree (s : State) : Option EntryId := (indicesWhere Option.isNone s.pool).head?

/-- A placement onto a target that has no notice in flight to take it: merge (R56), deferred merge (R57), new notice (R58) or deferral (R59). -/
def placeOn (i : SlotId) (t : TargetId) (p : Placement) (s : State) : State :=
  match residentAt s i t with
  | some e => mergeInto e p s
  | none =>
    match pairAt s i t with
    | some d => mergeIntoPair i t d p s
    | none =>
      match lowestFree s with
      | some e => startNotice e (freshNotice s i t p) s
      | none =>
        raise .poolEmpty
          { s with deferred := s.deferred ++
              [{ slot := i, target := t, count := p.count, overflow := p.overflow, payload := p.payload, pins := p.pins }] }

/-! ### Freeing, reports and hand-over -/

/-- What a pair brings to the notice that it becomes or that absorbs it (R66, R67). -/
def Pair.placement (d : Pair) : Placement :=
  { count := d.count, overflow := d.overflow, payload := d.payload, pins := d.pins }

/-- A notice leaves its level list, the creation order and its entry (R46, R63, R65). -/
def removeNotice (e : EntryId) (s : State) : State :=
  match s.pool[e] with
  | some n =>
    let s1 := modList n.target n.level (·.erase e) (setEntry e none s)
    { s1 with order := s1.order.erase e }
  | none => s

/-- A slot becomes FREE: its generation is kept, every other field takes its power-on value (R1, R16). -/
def freeSlot (i : SlotId) (s : State) : State := modSlot i (fun r => Slot.freeOf r.generation) s

/-- A RETIRE of the slot that waits for its last item ends with OK and the figures it kept (R16, R166, R168). -/
def endRetireWait (i : SlotId) (s : State) : State :=
  match s.port.flight with
  | some (.retireWait j figures) => if j = i then endCommand .ok figures.words s else s
  | _ => s

/-- The report of a ceased item: a RETIRING record with nothing outstanding becomes FREE (R16, R73). -/
def reportCeased (i : SlotId) (s : State) : State :=
  if s.slots[i].state == .retiring && outstanding s i == 0 then endRetireWait i (freeSlot i s) else s

/-- A freed entry is granted to the head of the deferred list, or returns to the free set (R65, R66). -/
def handOver (e : EntryId) (s : State) : State :=
  match s.deferred with
  | [] => s
  | d :: rest => startNotice e (freshNotice s d.slot d.target d.placement) { s with deferred := rest }

/-- A freed entry is handed over, and the target of the pair it is granted to is judged at once: a grant's "ripening acts at that target" (R87, R121). -/
def handOverInTurn (s : State) (e : EntryId) : State :=
  judgeInTurn (s.deferred.head?.map (·.target)).toList (handOver e s)

/-- The hand-over of several freed entries, in the order given (R69). -/
def handOverAll (es : List EntryId) (s : State) : State := es.foldl handOverInTurn s

/-- A notice is removed and its pins are re-armed, with no report (R68, R72, R170). -/
def dropNotice (e : EntryId) (s : State) : State :=
  match s.pool[e] with
  | some n => rearmPins n.pins (removeNotice e s)
  | none => s

/-- A notice ceases: it is removed, its pins are re-armed, and the ceasing is reported if it is no orphan (R68, R72, R73, R115). Its entry is handed over after this. -/
def ceaseNotice (e : EntryId) (s : State) : State :=
  match s.pool[e] with
  | some n => if n.isOrphan then dropNotice e s else reportCeased n.slot (dropNotice e s)
  | none => s

/-- A notice ceases and its entry is handed over at once (R65). -/
def ceaseAndHandOver (e : EntryId) (s : State) : State := handOverInTurn (ceaseNotice e s) e

/-- Several notices cease, in the order given, and the targets that lost one are judged; then their entries are handed over in that order (R69, R87, R164). -/
def ceaseAll (es : List EntryId) (s : State) : State :=
  handOverAll es (settle (es.foldl (fun s e => ceaseNotice e s) s))

/-- A removed pair's pins are re-armed and its ceasing is reported (R68). -/
def ceasePair (s : State) (d : Pair) : State := reportCeased d.slot (rearmPins d.pins s)

/-- The pairs that pass a test leave the deferred list, in list order; their pins are re-armed and the RT is told (R68, R69). -/
def ceasePairs (p : Pair → Bool) (s : State) : State :=
  (s.deferred.filter p).foldl ceasePair { s with deferred := s.deferred.filter fun d => !p d }

/-! ### Re-homing (R127 to R130) -/

/-- A target is ONLINE. -/
def online (s : State) (t : TargetId) : Bool := s.targets[t].state == .online

/-- The list positions after position k, wrapping round and ending with k (R53, R127). -/
def searchFrom (k : Nat) (ts : List TargetId) : List TargetId := ts.drop (k + 1) ++ ts.take (k + 1)

/-- The destination of a notice re-homed from a source, by its record's placement mode and current list (R127). -/
def destination (s : State) (source : TargetId) (n : Notice) : Option TargetId :=
  let r := s.slots[n.slot]
  match r.mode with
  | .first => r.targets.find? (online s)
  | .rotate =>
    if source ∈ r.targets then (searchFrom (r.targets.idxOf source) r.targets).find? (online s)
    else r.targets.find? (online s)
  | .all => none

/-- The record's pair for the target, if there is one, is absorbed by the notice (R67). -/
def absorbPair (e : EntryId) (i : SlotId) (t : TargetId) (s : State) : State :=
  match pairAt s i t with
  | some d =>
    mergeInto e d.placement { s with deferred := s.deferred.filter fun x => !(x.slot == i && x.target == t) }
  | none => s

/-- A notice moved whole to a destination that holds none of its record (R128). -/
def moveWhole (e : EntryId) (n : Notice) (t : TargetId) (s : State) : State :=
  let s1 := setEntry e (some { n with target := t }) s
  let s2 := if n.isPending then modList t n.level (· ++ [e]) (modList n.target n.level (·.erase e) s1) else s1
  absorbPair e n.slot t s2

/-- What a notice merged away brings to the resident, which keeps its own payload (R129). -/
def awayPlacement (n resident : Notice) : Placement :=
  { count := n.count, overflow := n.overflow, payload := resident.payload, pins := n.pins }

/-- A notice merged away into the resident at its destination; its entry is freed, reported and handed over (R129). -/
def mergeAway (e : EntryId) (n : Notice) (home : EntryId) (s : State) : State :=
  match s.pool[home] with
  | some resident =>
    let s1 := mergeInto home (awayPlacement n resident) s
    let s2 := if n.isPending then ripen home s1 else s1
    handOver e (reportCeased n.slot (removeNotice e s2))
  | none => s

/-- One notice of the source re-homed: moved, merged away, or left where it is (R127 to R129). -/
def rehomeOne (source : TargetId) (s : State) (e : EntryId) : State :=
  match s.pool[e] with
  | some n =>
    match destination s source n with
    | some t =>
      match residentAt s n.slot t with
      | some home => mergeAway e n home s
      | none => moveWhole e n t s
    | none => s
  | none => s

/-- The GATHERING and PENDING notices that stand on a target. -/
def standsOn (t : TargetId) (n : Notice) : Bool := n.unclaimed && n.target == t

/-- The targets whose lists the re-homing of one notice can change, in the order in which it reaches them: the destination, then the target of the pair that a merge-away's entry is granted to (R128, R129). -/
def reachedBy (source : TargetId) (s : State) (e : EntryId) : List TargetId :=
  match s.pool[e] with
  | some n =>
    match destination s source n with
    | some t => t :: if (residentAt s n.slot t).isSome then (s.deferred.head?.map (·.target)).toList else []
    | none => []
  | none => []

/-- The targets that the re-homing of several notices reaches, in turn. -/
def reached (source : TargetId) : List EntryId → State → List TargetId
  | [], _ => []
  | e :: es, s => reachedBy source s e ++ reached source es (rehomeOne source s e)

/-- A re-homing takes the source's GATHERING and PENDING notices one by one, in creation order (R130). -/
def rehomeAll (source : TargetId) (s : State) : State :=
  (inCreationOrder s (standsOn source)).foldl (rehomeOne source) s

/-- When the last move is made, each target that the re-homing reached is judged in turn, and then the source (R87, R130). -/
def rehomeAndJudge (source : TargetId) (s : State) : State :=
  judgeInTurn (reached source (inCreationOrder s (standsOn source)) s ++ [source]) (rehomeAll source s)

end Sys2Proof.Machine
end

