-- ==== Sys2Proof/Machine/Arrivals.lean ====
section
/-! DEFINITION. Arrivals (chapter 2) and placements (3.2): the lookup, the held count, the placement modes, and the taking of an arrival from each of its producers. -/

namespace Sys2Proof.Machine

/-! ### Keys and lookup (R5, R6) -/

/-- The first `len` bits of two keys are equal, counted from the most significant bit (R5). -/
def sameLeading (len : Nat) (a b : Key) : Bool := (a ^^^ b) >>> (32 - len) == 0

/-- A record takes part in lookup and covers the key (R5). -/
def covers (key : Key) (r : Slot) : Bool :=
  (r.state == .active || r.state == .held) && sameLeading r.len r.key key

/-- One more slot looked at: it replaces the best found so far if its match length is greater (R6). -/
def longer (key : Key) (best : Option (SlotId × Nat)) (x : Slot × Nat) : Option (SlotId × Nat) :=
  if covers key x.1 then
    match best with
    | some b => if b.2 < x.1.len then some (Fin.ofNat 1024 x.2, x.1.len) else some b
    | none => some (Fin.ofNat 1024 x.2, x.1.len)
  else best

/-- The longest match of a key: the slot of the record that covers it with the greatest match length (R6). -/
def lookup (s : State) (key : Key) : Option SlotId :=
  (s.slots.toList.zipIdx.foldl (longer key) none).map (·.1)

/-! ### The held count (R11, R44) -/

/-- An arrival joins a held count (R44). -/
def Held.join (h : Held) (a : Arrival) : Held where
  count := min (h.count + 1) 65535
  overflow := h.overflow || 65535 ≤ h.count
  payload := some a.payload
  pins := match a.origin with
    | some p => h.pins ||| BitVec.twoPow 32 p
    | none => h.pins

/-- The held count of a slot becomes h. -/
def setHeld (i : SlotId) (h : Held) (s : State) : State := modSlot i (fun r => { r with held := h }) s

/-- An arrival joins the held count of a record; COUNT_OVERFLOW is raised at saturation (R44). -/
def joinHeld (i : SlotId) (a : Arrival) (s : State) : State :=
  let h := s.slots[i].held
  raiseIf (65535 ≤ h.count) .countOverflow (setHeld i (h.join a) s)

/-- A held count is discarded: its pins are re-armed (R11). -/
def discardHeld (i : SlotId) (s : State) : State :=
  rearmPins s.slots[i].held.pins (setHeld i Held.empty s)

/-! ### Choosing targets (R52 to R55) -/

/-- A target is STALLED. -/
def stalled (s : State) (t : TargetId) : Bool := s.targets[t].state == .stalled

/-- The first ONLINE target of a list, else its first STALLED one (R52, R53). -/
def preferOnline (s : State) (ts : List TargetId) : Option TargetId :=
  match ts.find? (online s) with
  | some t => some t
  | none => ts.find? (stalled s)

/-- A record has an ONLINE or STALLED listed target (R42). -/
def hasPlaceable (s : State) (i : SlotId) : Bool := s.slots[i].targets.any (placeable s)

/-- A notice of the record in flight: IN_SERVICE, no orphan, EXPLICIT (R55); under ALL on the placement's own target. -/
def inFlight (s : State) (i : SlotId) (onTarget : Option TargetId) : Option EntryId :=
  oldest s fun n =>
    n.isInService && ownedBy s i n && n.rearm == .explicit && onTarget.all (n.target == ·)

/-- The oldest GATHERING or PENDING notice of a ROTATE record on a target of its current list (R53, step 1). -/
def rotateResident (s : State) (i : SlotId) : Option EntryId :=
  oldest s fun n => n.unclaimed && ownedBy s i n && s.slots[i].targets.contains n.target

/-- A placement under ROTATE: into the oldest notice, else onto the next ONLINE or STALLED target, to which the rotation index moves (R53). -/
def placeRotate (i : SlotId) (p : Placement) (s : State) : State :=
  match rotateResident s i with
  | some e => mergeInto e p s
  | none =>
    let r := s.slots[i]
    match preferOnline s (searchFrom r.rotation r.targets) with
    | some t => placeOn i t p (modSlot i (fun r => { r with rotation := r.targets.idxOf t }) s)
    | none => s

/-- A placement under FIRST (R52). -/
def placeFirst (i : SlotId) (p : Placement) (s : State) : State :=
  match preferOnline s s.slots[i].targets with
  | some t => placeOn i t p s
  | none => s

/-- The notice in flight that takes a placement, where the record's re-arm mode is EXPLICIT (R55). -/
def flightFor (s : State) (i : SlotId) (onTarget : Option TargetId) : Option EntryId :=
  if s.slots[i].rearm = .explicit then inFlight s i onTarget else none

/-- One placement under FIRST or ROTATE: the in-flight test is made before a target is chosen (R55). -/
def placeSingle (i : SlotId) (p : Placement) (s : State) : State :=
  match flightFor s i none with
  | some e => addLate e p s
  | none => if s.slots[i].mode = .rotate then placeRotate i p s else placeFirst i p s

/-- One placement under ALL onto one target, the in-flight test made at that target (R54, R55). -/
def placeAt (i : SlotId) (t : TargetId) (p : Placement) (s : State) : State :=
  match flightFor s i (some t) with
  | some e => addLate e p s
  | none => placeOn i t p s

/-- The listed targets that are ONLINE or STALLED, in list order (R54). -/
def placeableTargets (s : State) (i : SlotId) : List TargetId := s.slots[i].targets.filter (placeable s)

/-- The placements of one arrival under ALL, one after another in list order (R49, R54): the first carries the fold and the origin pin, the others count 1 and the payload (R50). Each placement's target is judged in its turn (R87). -/
def placeAll (i : SlotId) (p : Placement) (s : State) : List TargetId → State
  | [] => s
  | t :: ts =>
    placeAll i { count := 1, overflow := false, payload := p.payload, pins := 0 } (settle (placeAt i t p s)) ts

/-! ### Placements from an arrival and from a held count (R49 to R51) -/

/-- The placement of an arrival alone (R49). -/
def arrivalPlacement (a : Arrival) : Placement where
  count := 1
  overflow := false
  payload := a.payload
  pins := match a.origin with
    | some p => BitVec.twoPow 32 p
    | none => 0

/-- The placement of an arrival with the held count folded in (R50). -/
def foldPlacement (h : Held) (a : Arrival) : Placement where
  count := saturate (1 + h.count)
  overflow := 255 < 1 + h.count
  payload := a.payload
  pins := h.pins ||| (arrivalPlacement a).pins

/-- A placement by the record's mode (R49). -/
def placeByMode (i : SlotId) (p : Placement) (s : State) : State :=
  if s.slots[i].mode = .all then placeAll i p s (placeableTargets s i) else placeSingle i p s

/-- An arrival is placed, any held count being folded in first (R49, R50). -/
def placeArrival (i : SlotId) (a : Arrival) (s : State) : State :=
  let h := s.slots[i].held
  if h.count = 0 then placeByMode i (arrivalPlacement a) s
  else placeByMode i (foldPlacement h a) (raiseIf (255 < 1 + h.count) .countOverflow (setHeld i Held.empty s))

/-- The held placement made from a held count alone (R51). -/
def heldPlacement (h : Held) : Placement where
  count := saturate h.count
  overflow := h.overflow || 255 < h.count
  payload := h.payload.getD 0
  pins := h.pins

/-- The held count of a record is placed as one placement: under ALL onto the first listed target that is ONLINE or STALLED (R51). -/
def placeHeld (i : SlotId) (s : State) : State :=
  let h := s.slots[i].held
  let s1 := raiseIf (255 < h.count) .countOverflow (setHeld i Held.empty s)
  if s1.slots[i].mode = .all then
    match placeableTargets s1 i with
    | t :: _ => placeAt i t (heldPlacement h) s1
    | [] => s1
  else placeSingle i (heldPlacement h) s1

/-! ### The taking of an arrival (R42, R43) -/

/-- The three producers of arrivals; a pin is edge- or level-sensed (R27). -/
inductive Producer where
  | intake
  | edge
  | level (pin : PinId)
  | fault
deriving DecidableEq, Repr

/-- A miss, by producer (R43). -/
def missed (producer : Producer) (key : Key) (s : State) : State :=
  match producer with
  | .intake => raiseMiss key s
  | .edge => raiseMiss key s
  | .level pin => modPin pin (fun p => { p with missDisarmed := true }) (raiseMiss key s)
  | .fault => s

/-- What a match does with an arrival: a HELD record, or one with no placeable target, holds it; another places it, after which the targets are judged (R42, R87). -/
def applyArrival (i : SlotId) (a : Arrival) (s : State) : State :=
  if s.slots[i].state = .active && hasPlaceable s i then settle (placeArrival i a s)
  else joinHeld i a s

/-- The RT takes an arrival: lookup, then the match or the miss (R42). -/
def arrive (producer : Producer) (a : Arrival) (s : State) : State :=
  match lookup s a.key with
  | some i => applyArrival i a s
  | none => missed producer a.key s

/-- The key FF00H:n of pin n (R27). -/
def pinKey (pin : PinId) : Key := BitVec.ofNat 32 (0xFF00 * 65536 + pin)

/-- The key FFFEH:code of a cause (R27). -/
def faultKey (c : Cause) : Key := BitVec.ofNat 32 (0xFFFE * 65536 + (causeIndex c + 1))

/-- The head of the intake queue is taken (R30, R32). -/
def intakeBody (s : State) : State :=
  match s.intake with
  | a :: rest => arrive .intake a { s with intake := rest }
  | [] => s

/-- A set edge latch is taken as its pin's arrival: payload 0, no origin (R35). -/
def edgeBody (pin : PinId) (s : State) : State :=
  if s.pins[pin].latch then
    arrive .edge { key := pinKey pin, payload := 0, origin := none }
      (modPin pin (fun p => { p with latch := false }) s)
  else s

/-- A pending level offer is taken: payload 1, the pin its origin; a pin armed meanwhile offers again (R36, R37). -/
def levelBody (pin : PinId) (s : State) : State :=
  if s.pins[pin].offer then
    modPin pin offerIfReady
      (arrive (.level pin) { key := pinKey pin, payload := 1, origin := some pin }
        (modPin pin (fun p => { p with offer := false }) s))
  else s

/-- A cause's pending offer is taken (R182). -/
def faultBody (c : Cause) (s : State) : State :=
  match s.fsu.causes[causeIndex c].offer with
  | some payload =>
    arrive .fault { key := faultKey c, payload := payload, origin := none }
      (modCause c (fun x => { x with offer := none }) s)
  | none => s

/-- EDGE_LATCH_TAKEN. -/
def execEdgeLatchTaken (pin : PinId) (s : State) : Host.Outcome State Fault Refusal :=
  .next (edgeBody pin s)

/-- LEVEL_OFFER_TAKEN. -/
def execLevelOfferTaken (pin : PinId) (s : State) : Host.Outcome State Fault Refusal :=
  .next (levelBody pin s)

/-- FAULT_ARRIVAL. -/
def execFaultArrival (cause : Cause) (s : State) : Host.Outcome State Fault Refusal :=
  .next (faultBody cause s)

end Sys2Proof.Machine
end

