-- ==== Sys2Proof/Machine/RecordCommands.lean ====
section
/-! DEFINITION. The record commands (chapters 1, 7 and 8): what INSTALL, MODIFY, HOLD, RELEASE, QUERY, PROBE, RETIRE, FORCE_RETIRE and TABLE_CLEAR check, do and report. Each body runs on a port that has just taken the command. -/

namespace Sys2Proof.Machine

/-! ### The checks of a record image (R21, R22) -/

/-- Steps 6 to 11 of R21 that INSTALL and MODIFY share; the start-state code of INSTALL is checked with step 6. -/
def imageError (m : Image) : Option ResultCode :=
  if 2 < m.modeCode || 1 < m.rearmCode then some .badField
  else if m.listLength = 0 || 4 < m.listLength then some .badField
  else if (listed m).any (7 < ·) then some .badTarget
  else if !(listed m).Nodup then some .badTarget
  else if 15 < m.level || m.threshold = 0 then some .badField
  else if 32 < m.len then some .badField
  else none

/-- A bit of a match key beyond its match length is nonzero (R21, step 12). -/
def tailNonzero (m : Image) : Bool := m.key <<< m.len != 0

/-- Another slot that is not FREE holds an equal match length with an equal match key (R22). -/
def duplicated (s : State) (i : SlotId) (m : Image) : Bool :=
  s.slots.toList.zipIdx.any fun x =>
    x.2 != i.val && x.1.state != .free && x.1.len == m.len && x.1.key == m.key

/-- The code of the first check of R21 that an INSTALL fails. -/
def installError (s : State) : Option ResultCode :=
  let m := imageOf s
  if 1023 < slotOperand s then some .badSlot
  else if s.slots[slotId s].state ≠ .free then some .slotInUse
  else if installReserved s then some .badField
  else if 1 < startStateCode s then some .badField
  else match imageError m with
    | some c => some c
    | none =>
      if tailNonzero m then some .nonzeroTail
      else if duplicated s (slotId s) m then some .duplicateMatch
      else none

/-- The code of the first check of R21 that a MODIFY fails. -/
def modifyError (s : State) : Option ResultCode :=
  let m := imageOf s
  let r := s.slots[slotId s]
  if 1023 < slotOperand s then some .badSlot
  else if r.state = .free then some .slotFree
  else if generationOperand s ≠ r.generation then some .staleGeneration
  else if r.state = .retiring then some .slotState
  else if modifyReserved s then some .badField
  else match imageError m with
    | some c => some c
    | none => if m.len ≠ r.len || m.key ≠ r.key then some .badField else none

/-! ### INSTALL and MODIFY -/

/-- The record that an INSTALL puts in a slot (R12). -/
def installedSlot (old : Slot) (startCode : Nat) (m : Image) : Slot where
  state := if startCode = 0 then .active else .held
  generation := old.generation + 1
  key := m.key
  len := m.len
  targets := imageTargets m
  mode := modeOf m.modeCode
  rotation := 0
  level := Fin.ofNat 16 m.level
  threshold := m.threshold
  holdOff := m.holdOff
  rearm := rearmOf m.rearmCode
  held := Held.empty
  retireMode := none

/-- INSTALL (R12, R152). -/
def installBody (s : State) : State :=
  match installError s with
  | some c => endCommand c [] s
  | none =>
    let i := slotId s
    endCommand .ok [installWord i (s.slots[i].generation + 1)]
      (rearmMissDisarmed (modSlot i (fun r => installedSlot r (startStateCode s) (imageOf s)) s))

/-- The record that a MODIFY leaves: six fields of the image, rotation index 0 (R19). -/
def modifiedSlot (old : Slot) (m : Image) : Slot :=
  { old with
    targets := imageTargets m, mode := modeOf m.modeCode, rotation := 0, level := Fin.ofNat 16 m.level,
    threshold := m.threshold, holdOff := m.holdOff, rearm := rearmOf m.rearmCode }

/-- MODIFY (R19, R153). -/
def modifyBody (s : State) : State :=
  match modifyError s with
  | some c => endCommand c [] s
  | none => endCommand .ok [] (modSlot (slotId s) (fun r => modifiedSlot r (imageOf s)) s)

/-! ### HOLD and RELEASE -/

/-- The checks of HOLD and RELEASE (R154). -/
def holdError (s : State) : Option ResultCode :=
  if 1023 < slotOperand s then some .badSlot
  else if slotWordReserved s then some .badField
  else if s.slots[slotId s].state = .free then some .slotFree
  else if s.slots[slotId s].state = .retiring then some .slotState
  else none

/-- A record becomes HELD (R13). -/
def holdRecord (i : SlotId) (s : State) : State := modSlot i (fun r => { r with state := .held }) s

/-- HOLD (R13, R154). -/
def holdBody (s : State) : State :=
  match holdError s with
  | some c => endCommand c [] s
  | none => endCommand .ok [] (holdRecord (slotId s) s)

/-- A release of a HELD record with a held count and a placeable target makes a held placement (R14). -/
def releasePlaces (s : State) (i : SlotId) : Bool :=
  s.slots[i].state == .held && s.slots[i].held.count != 0 && hasPlaceable s i

/-- A HELD record becomes ACTIVE and its held count, if any and if it has a placeable target, is placed, after which the targets are judged (R14, R87). -/
def releaseRecord (i : SlotId) (s : State) : State :=
  let s1 := modSlot i (fun r => { r with state := .active }) s
  if releasePlaces s i then settle (placeHeld i s1) else s1

/-- RELEASE (R14, R154). -/
def releaseBody (s : State) : State :=
  match holdError s with
  | some c => endCommand c [] s
  | none =>
    let i := slotId s
    endCommand .ok [releaseWord s.slots[i].held (releasePlaces s i)]
      (rearmMissDisarmed (if s.slots[i].state = .held then releaseRecord i s else s))

/-! ### QUERY and PROBE -/

/-- QUERY (R155). -/
def queryBody (s : State) : State :=
  if 1023 < slotOperand s then endCommand .badSlot [] s
  else if slotWordReserved s then endCommand .badField [] s
  else endCommand .ok (queryWords s.slots[slotId s] (itemCounts s (slotId s))) s

/-- PROBE (R156). -/
def probeBody (s : State) : State :=
  match lookup s (operand s 0) with
  | some i => endCommand .ok [probeWord i s.slots[i]] s
  | none => endCommand .notFound [] s

/-! ### Retirement (R162 to R170) -/

/-- The checks of RETIRE (R162). -/
def retireError (s : State) : Option ResultCode :=
  if 1023 < slotOperand s then some .badSlot
  else if retireReserved s || 1 < retireModeCode s || 60000 < waitLimit s then some .badField
  else if s.slots[slotId s].state = .free then some .slotFree
  else if generationOperand s ≠ s.slots[slotId s].generation then some .staleGeneration
  else if s.slots[slotId s].state = .retiring then some .slotState
  else none

/-- Under DISCARD the record's pairs, then its GATHERING and PENDING notices, are discarded; the freed entries are handed over after that (R164). -/
def discardItems (i : SlotId) (s : State) : State :=
  let s1 := ceasePairs (fun d => d.slot == i) s
  ceaseAll (ascending s fun n => n.unclaimed && ownedBy s i n) s1

/-- Under DRAIN every GATHERING notice of the record ripens, in creation order; each target is judged in its turn (R165, R87). -/
def drainItems (i : SlotId) (s : State) : State :=
  (inCreationOrder s fun n => n.isGathering && ownedBy s i n).foldl (fun s e => settle (ripen e s)) s

/-- The items of the record are treated by the mode (R163, step 3). -/
def treatItems (i : SlotId) (mode : RetireMode) (s : State) : State :=
  match mode with
  | .discard => discardItems i s
  | .drain => drainItems i s

/-- What a retirement notes for its result words (R166), read before it acts. -/
def retireFigures (s : State) (i : SlotId) (mode : RetireMode) : RetireFigures :=
  let n := itemCounts s i
  match mode with
  | .discard =>
    { heldCount := s.slots[i].held.count, heldOverflow := s.slots[i].held.overflow,
      notices := n.gathering + n.pending, pairs := n.pairs }
  | .drain =>
    { heldCount := s.slots[i].held.count, heldOverflow := s.slots[i].held.overflow,
      notices := n.gathering, pairs := 0 }

/-- A record becomes RETIRING, its held count is discarded, its items are treated by the mode, and with nothing outstanding it becomes FREE; the targets are then judged (R15, R163, R166, R87). -/
def retireRecord (i : SlotId) (mode : RetireMode) (s : State) : State :=
  let s1 := modSlot i (fun r => { r with state := .retiring, retireMode := some mode }) s
  settle (reportCeased i (treatItems i mode (discardHeld i s1)))

/-- The end of a RETIRE's taking (R166). -/
def retireEnd (i : SlotId) (figures : RetireFigures) (wait : Nat) (s : State) : State :=
  if s.slots[i].state = .free then endCommand .ok figures.words s
  else if wait = 0 then endCommand .started figures.words s
  else startWait wait (stayInFlight (.retireWait i figures) s)

/-- RETIRE (R162 to R166). -/
def retireBody (s : State) : State :=
  match retireError s with
  | some c => endCommand c [] s
  | none =>
    let i := slotId s
    let mode := retireModeOf (retireModeCode s)
    retireEnd i (retireFigures s i mode) (waitLimit s) (retireRecord i mode s)

/-- The checks of FORCE_RETIRE (R170). -/
def forceRetireError (s : State) : Option ResultCode :=
  if 1023 < slotOperand s then some .badSlot
  else if slotGenerationReserved s then some .badField
  else if s.slots[slotId s].state = .free then some .slotFree
  else if generationOperand s ≠ s.slots[slotId s].generation then some .staleGeneration
  else none

/-- A notice in service becomes an orphan (R17). -/
def Notice.orphaned (n : Notice) : Notice :=
  match n.phase with
  | .inService late _ => { n with phase := .inService late true }
  | _ => n

/-- Each IN_SERVICE notice of the record becomes an orphan (R170, step 4). -/
def orphanItems (i : SlotId) (s : State) : State :=
  (ascending s fun n => n.isInService && ownedBy s i n).foldl
    (fun s e => setEntry e (s.pool[e].map Notice.orphaned) s) s

/-- The pairs of a record leave the deferred list with their pins re-armed and no report (R170, step 2). -/
def dropPairs (i : SlotId) (s : State) : State :=
  (s.deferred.filter fun d => d.slot == i).foldl (fun s d => rearmPins d.pins s)
    { s with deferred := s.deferred.filter fun d => !(d.slot == i) }

/-- A forced retirement in the order of R170. -/
def forceRetireRecord (i : SlotId) (s : State) : State :=
  let es := ascending s fun n => n.unclaimed && ownedBy s i n
  let s1 := dropPairs i (discardHeld i s)
  let s2 := es.foldl (fun s e => dropNotice e s) s1
  handOverAll es (freeSlot i (orphanItems i (settle s2)))

/-- FORCE_RETIRE (R170). -/
def forceRetireBody (s : State) : State :=
  match forceRetireError s with
  | some c => endCommand c [] s
  | none =>
    let i := slotId s
    settle (endCommand .ok (forceRetireWords (retireFigures s i .discard) (itemCounts s i).inService)
      (forceRetireRecord i s))

/-! ### TABLE_CLEAR (R18, R157) -/

/-- Every target is OFFLINE. -/
def allOffline (s : State) : Bool := s.targets.toList.all fun c => c.state == .offline

/-- The held pin sets, in slot order. -/
def heldSets (s : State) : List PinSet := s.slots.toList.map fun r => r.held.pins

/-- The number of records that are not FREE. -/
def recordCount (s : State) : Nat := s.slots.toList.countP fun r => r.state != .free

/-- Every slot becomes FREE with its generation kept; each held count discarded makes its own re-arm requests (R11, R18, R37). -/
def clearTable (s : State) : State :=
  (heldSets s).foldl (fun s ps => rearmPins ps s) { s with slots := s.slots.map fun r => Slot.freeOf r.generation }

/-- TABLE_CLEAR (R157). -/
def tableClearBody (s : State) : State :=
  if allOffline s then endCommand .ok [countWord (recordCount s)] (clearTable s)
  else endCommand .targetState [] s

end Sys2Proof.Machine
end

