-- ==== Sys2Proof/Machine/TargetCommands.lean ====
section
/-! DEFINITION. The target and pin commands (chapters 4, 6 and 7) and the stall: TARGET_SET, TARGET_ONLINE with its walk, TARGET_OFFLINE, PIN_SET, and the claim-deadline expiry. -/

namespace Sys2Proof.Machine

/-! ### TARGET_SET (R79, R158) -/

/-- The checks of TARGET_SET (R79). -/
def targetSetError (s : State) : Option ResultCode :=
  if 7 < targetOperand s then some .badTarget
  else if s.targets[targetId s].state ≠ .offline then some .targetState
  else if targetSetReserved s then some .badField
  else if 1 < targetCode s || 1 < ownerCode s then some .badField
  else if (notifyAddress s).extractLsb' 0 2 ≠ 0 then some .badField
  else if (groupNumbers s).any (3 < ·) || !(groupNumbers s).Nodup then some .badField
  else none

/-- The configuration that TARGET_SET gives a target: six fields replaced, all else kept (R79). -/
def configured (s : State) (c : Target) : Target :=
  { c with
    method := if targetCode s = 0 then .pin else .write
    address := notifyAddress s
    data := operand s 3
    groupOrder := groupOrderOf s
    deadline := field (operand s 4) 0 16
    owner := if ownerCode s = 0 then none else some ((operand s 5).setWidth 16) }

/-- TARGET_SET. -/
def targetSetBody (s : State) : State :=
  match targetSetError s with
  | some c => endCommand c [] s
  | none => endCommand .ok [] (modTarget (targetId s) (configured s) s)

/-! ### TARGET_ONLINE (R131 to R133) -/

/-- The checks of TARGET_ONLINE (R131). -/
def targetOnlineError (s : State) : Option ResultCode :=
  if 7 < targetOperand s then some .badTarget
  else if targetOnlineReserved s then some .badField
  else if s.targets[targetId s].state = .quiescing then some .targetState
  else none

/-- A target becomes ONLINE. -/
def goOnline (t : TargetId) (s : State) : State := modTarget t (fun c => { c with state := .online }) s

/-- TARGET_ONLINE: at once OK with a converted count of 0 on an ONLINE target; otherwise the target is ONLINE and the walk is in flight (R131). -/
def targetOnlineBody (s : State) : State :=
  match targetOnlineError s with
  | some c => endCommand c [] s
  | none =>
    let t := targetId s
    if online s t then endCommand .ok [countWord 0] s
    else settle (stayInFlight (.onlineWalk t 0) (goOnline t s))

/-- The walk position becomes the slot after the one taken (R132, R173). -/
def advanceWalk (f : Flight) (s : State) : State :=
  modPort (fun p => { p with walkPosition := p.walkPosition + 1, flight := some f }) s

/-- A walk that has taken slot 1023 ends with OK (R132, R173). -/
def endWalkIfPast (words : List Word) (s : State) : State :=
  if 1024 ≤ s.port.walkPosition then endCommand .ok words s else s

/-- The slot that a walk takes next. -/
def walkSlot (s : State) : SlotId := Fin.ofNat 1024 s.port.walkPosition

/-- A record that the TARGET_ONLINE walk converts (R132). -/
def converts (s : State) (t : TargetId) (i : SlotId) : Bool :=
  let r := s.slots[i]
  r.state == .active && r.held.count != 0 && r.targets.contains t && hasPlaceable s i

/-- TARGET_ONLINE_WALK_SLOT (R132). -/
def onlineWalkBody (s : State) : State :=
  match s.port.flight with
  | some (.onlineWalk t n) =>
    let i := walkSlot s
    if converts s t i then
      endWalkIfPast [countWord (n + 1)] (advanceWalk (.onlineWalk t (n + 1)) (settle (placeHeld i s)))
    else endWalkIfPast [countWord n] (advanceWalk (.onlineWalk t n) s)
  | _ => s

/-! ### TARGET_OFFLINE (R134 to R138) -/

/-- The checks of TARGET_OFFLINE (R134). -/
def targetOfflineError (s : State) : Option ResultCode :=
  if 7 < targetOperand s then some .badTarget
  else if s.targets[targetId s].state = .offline then some .targetState
  else if targetOfflineReserved s then some .badField
  else if 1 < targetCode s || 60000 < waitLimit s then some .badField
  else none

/-- The start of a quiesce (R134, R135): QUIESCING, pairs removed, notices re-homed and the rest discarded, or all discarded. -/
def startQuiesce (t : TargetId) (rehome : Bool) (s : State) : State :=
  let s1 := modTarget t (fun c => { c with state := .quiescing }) s
  let s2 := ceasePairs (fun d => d.target == t) s1
  let s3 := if rehome then rehomeAndJudge t s2 else s2
  ceaseAll (ascending s3 (standsOn t)) s3

/-- A quiesced target becomes OFFLINE and its write-owed flag clears (R136). -/
def goOffline (t : TargetId) (s : State) : State :=
  modTarget t (fun c => { c with state := .offline, writeOwed := false }) s

/-- FORCE frees every entry of the stack in one step, in ascending entry number (R138). -/
def forceStack (t : TargetId) (s : State) : State :=
  let es := (ascending s fun _ => true).filter fun e => s.targets[t].stack.contains e
  ceaseAll es (modTarget t (fun c => { c with stack := [] }) s)

/-- How a TARGET_OFFLINE goes on after its start (R136 to R138). -/
def quiesceEnd (t : TargetId) (force : Bool) (wait : Nat) (s : State) : State :=
  if force then endCommand .ok [] (goOffline t (forceStack t s))
  else if s.targets[t].stack.isEmpty then endCommand .ok [] (goOffline t s)
  else if wait = 0 then endCommand .started [] s
  else startWait wait (stayInFlight (.offlineWait t) s)

/-- TARGET_OFFLINE. -/
def targetOfflineBody (s : State) : State :=
  match targetOfflineError s with
  | some c => endCommand c [] s
  | none =>
    let t := targetId s
    settle (quiesceEnd t (forceFlag s) (waitLimit s) (startQuiesce t (targetCode s == 0) s))

/-! ### PIN_SET (R159) -/

/-- PIN_SET is refused (R159). -/
def pinSetRefused (s : State) : Bool :=
  31 < pinOperand s || 5 < senseCode s || 7 < filterOperand s || pinSetReserved s

/-- PIN_SET. -/
def pinSetBody (s : State) : State :=
  if pinSetRefused s then endCommand .badField [] s
  else endCommand .ok []
    (modPin (Fin.ofNat 32 (pinOperand s)) (programPin (senseOf (senseCode s)) (filterOperand s) s.now) s)

/-! ### The stall (R94, R126) -/

/-- A target's running deadline timer has run for its claim deadline (R94). -/
def deadlineDue (c : Target) (now : Nat) : Bool :=
  match c.deadlineStart with
  | some start => start + c.deadline ≤ now
  | none => false

/-- A target's running deadline timer is at its last moment, 1 µs after the claim deadline (R94). -/
def deadlineOverdue (c : Target) (now : Nat) : Bool :=
  match c.deadlineStart with
  | some start => start + c.deadline + 1 ≤ now
  | none => false

/-- A target stalls: STALLED with its timer stopped, TARGET_STALLED raised, its notices re-homed and the targets judged (R126). -/
def stall (t : TargetId) (s : State) : State :=
  rehomeAndJudge t (raise .targetStalled
    (modTarget t (fun c => { c with state := .stalled, deadlineStart := none }) s))

/-- CLAIM_DEADLINE_EXPIRY: it occurs only once the timer has run for the claim deadline (R94, R126). -/
def deadlineBody (t : TargetId) (s : State) : State :=
  if deadlineDue s.targets[t] s.now then settle (stall t s) else s

/-- CLAIM_DEADLINE_EXPIRY. -/
def execClaimDeadlineExpiry (target : TargetId) (s : State) : Host.Outcome State Fault Refusal :=
  .next (deadlineBody target s)

/-- TARGET_ONLINE_WALK_SLOT. -/
def execTargetOnlineWalkSlot (s : State) : Host.Outcome State Fault Refusal := .next (onlineWalkBody s)

end Sys2Proof.Machine
end

