-- ==== Sys2Proof/Machine/GroupWalks.lean ====
section
/-! DEFINITION. The group walks (R172 to R176), and the two ways a command in flight ends from outside: ABORT (R149) and the expiry of the wait timer (R150). -/

namespace Sys2Proof.Machine

/-- A group walk in flight from slot 0, nothing counted yet (R172, R173). -/
def startGroupWalk (kind : GroupKind) (s : State) : State :=
  stayInFlight (.groupWalk kind (groupKey s) (groupLength s) 0 0) s

/-- GROUP_HOLD (R172). -/
def groupHoldBody (s : State) : State :=
  if groupReserved s || 32 < groupLength s then endCommand .badField [] s else startGroupWalk .hold s

/-- GROUP_RELEASE (R172). -/
def groupReleaseBody (s : State) : State :=
  if groupReserved s || 32 < groupLength s then endCommand .badField [] s else startGroupWalk .release s

/-- GROUP_RETIRE (R172). -/
def groupRetireBody (s : State) : State :=
  if groupRetireReserved s || 32 < groupLength s || 1 < retireModeCode s then endCommand .badField [] s
  else startGroupWalk (.retire (retireModeOf (retireModeCode s))) s

/-- A record is in the group of a walk: its match length is at least the walk's, and the walk's leading bits agree (R172). -/
def inGroup (key : Key) (len : Nat) (r : Slot) : Bool :=
  r.state != .free && len ≤ r.len && sameLeading len r.key key

/-- A member that the walk skips: RETIRING, or already in the state the command produces (R173). -/
def walkSkips (kind : GroupKind) (r : Slot) : Bool :=
  r.state == .retiring ||
    match kind with
    | .hold => r.state == .held
    | .release => r.state == .active
    | .retire _ => false

/-- What a walk does to a member it does not skip (R174, R175). -/
def walkChange (kind : GroupKind) (i : SlotId) (s : State) : State :=
  match kind with
  | .hold => holdRecord i s
  | .release => releaseRecord i s
  | .retire mode => retireRecord i mode s

/-- GROUP_WALK_SLOT (R173). -/
def groupWalkBody (s : State) : State :=
  match s.port.flight with
  | some (.groupWalk kind key len changed skipped) =>
    let i := walkSlot s
    let r := s.slots[i]
    if !inGroup key len r then
      endWalkIfPast [groupWord changed skipped] (advanceWalk (.groupWalk kind key len changed skipped) s)
    else if walkSkips kind r then
      endWalkIfPast [groupWord changed (skipped + 1)]
        (advanceWalk (.groupWalk kind key len changed (skipped + 1)) s)
    else
      endWalkIfPast [groupWord (changed + 1) skipped]
        (advanceWalk (.groupWalk kind key len (changed + 1) skipped) (walkChange kind i s))
  | _ => s

/-- The result words of a command that an ABORT ends: the counts of a walk, none for a wait (R149). -/
def abortWords : Flight → List Word
  | .retireWait _ _ => []
  | .offlineWait _ => []
  | .onlineWalk _ converted => [countWord converted]
  | .groupWalk _ _ _ changed skipped => [groupWord changed skipped]

/-- ABORT: no effect while IDLE; otherwise the command in flight ends with ABORTED (R149). -/
def abortBody (s : State) : State :=
  match s.port.flight with
  | some f => endCommand .aborted (abortWords f) s
  | none => s

/-- The wait timer has run for its limit (R150). -/
def waitDue (s : State) : Bool := s.port.waitTimer.any fun x => x.due s.now

/-- WAIT_TIMER_EXPIRY: it occurs only once the timer has run for its limit; the command ends with TIMEOUT and no result words (R150). -/
def waitBody (s : State) : State := if waitDue s then endCommand .timeout [] s else s

/-- GROUP_WALK_SLOT. -/
def execGroupWalkSlot (s : State) : Host.Outcome State Fault Refusal := .next (groupWalkBody s)

/-- WAIT_TIMER_EXPIRY. -/
def execWaitTimerExpiry (s : State) : Host.Outcome State Fault Refusal := .next (waitBody s)

end Sys2Proof.Machine
end

