-- ==== Sys2Proof/Machine/Claims.lean ====
section
/-! DEFINITION. The accesses to a target page (chapters 4 and 5): the owner check, CLAIM, COMPLETE with the re-raise, ENABLE, MASK and the reads. -/

namespace Sys2Proof.Machine

/-- A target page is refused to a requester other than its present owner (R80). -/
def ownerRefuses (s : State) (requester : RequesterId) (t : TargetId) : Bool :=
  s.targets[t].owner.any (· != requester)

/-! ### CLAIM (R100 to R106) -/

/-- A claim returns a STALLED target to ONLINE (R101). -/
def returnToOnline (t : TargetId) (s : State) : State :=
  modTarget t (fun c => if c.state = .stalled then { c with state := .online } else c) s

/-- A notice as the claim that takes it leaves it: IN_SERVICE, no orphan, an EXPLICIT one with a late count of 0 (R102). -/
def Notice.claimed (n : Notice) : Notice :=
  { n with
    phase := .inService (match n.rearm with
      | .explicit => some { count := 0, overflow := false }
      | .auto => none) false }

/-- The candidate leaves the head of its list and is pushed onto the stack, IN_SERVICE (R102). -/
def takeCandidate (t : TargetId) (e : EntryId) (n : Notice) (s : State) : State :=
  modTarget t (fun c => { c with stack := e :: c.stack })
    (modList t n.level (·.erase e) (setEntry e (some n.claimed) s))

/-- The notice that a claim takes: the candidate of an ONLINE target that has a deliverable notice (R101, R102). -/
def claimable (s : State) (t : TargetId) : Option (EntryId × Notice) :=
  if online s t && deliverable s t then
    match candidate s.targets[t] with
    | some x => s.pool[x.1].map (x.1, ·)
    | none => none
  else none

/-- A 4-byte claim writes the last-claim payload; an 8-byte claim leaves it (R105). -/
def latchPayload (t : TargetId) (form : ClaimForm) (payload : Word) (s : State) : State :=
  match form with
  | .low => modTarget t (fun c => { c with lastPayload := payload }) s
  | .whole => s

/-- The answer to a claim: the low word, or the whole result with the payload above it (R100, R197). -/
def claimAnswer (requester : RequesterId) (form : ClaimForm) (low payload : Word) (s : State) : State :=
  match form with
  | .low => answer requester 4 (low.setWidth 64) s
  | .whole => answer requester 8 (payload ++ low) s

/-- Every claim restarts the deadline timer: what it had counted is lost (R93). -/
def stopDeadline (t : TargetId) (s : State) : State := modTarget t (fun c => { c with deadlineStart := none }) s

/-- The size of a claim's read. -/
def claimSize : ClaimForm → Nat
  | .low => 4
  | .whole => 8

/-- A claim that has passed the owner check (R100 to R105). -/
def servedClaim (requester : RequesterId) (t : TargetId) (form : ClaimForm) (s : State) : State :=
  let s1 := stopDeadline t (returnToOnline t s)
  match claimable s1 t with
  | some x =>
    claimAnswer requester form (claimWord x.2) x.2.payload
      (latchPayload t form x.2.payload (takeCandidate t x.1 x.2 s1))
  | none =>
    claimAnswer requester form (emptyClaimWord (s1.targets[t].stack.length == 4)) 0 (latchPayload t form 0 s1)

/-- CLAIM (R100): a claim refused by the owner check answers zeros and is no claim (R80). -/
def claimBody (requester : RequesterId) (t : TargetId) (form : ClaimForm) (s : State) : State :=
  if ownerRefuses s requester t then answer requester (claimSize form) 0 (raise .registerAccess s)
  else settle (servedClaim requester t form s)

/-! ### COMPLETE (R111 to R121) -/

/-- The slot, generation and level written are those of the top entry (R111). -/
def completeNames (w : Word) (n : Notice) : Bool :=
  completeSlot w == n.slot.val && completeGeneration w == n.generation && completeLevel w == n.level.val

/-- What a re-raise brings: the late count and its flag, the payload and the pin set (R116, R117). -/
def latePlacement (n : Notice) : Placement :=
  { count := n.late.count, overflow := n.late.overflow, payload := n.payload, pins := n.pins }

/-- A re-raise merged into the record's notice at the target: the entry is freed with its pins handed on (R117). -/
def reraiseInto (e : EntryId) (n : Notice) (home : EntryId) (s : State) : State :=
  handOverInTurn (reportCeased n.slot (removeNotice e (mergeInto home (latePlacement n) s))) e

/-- A re-raise into the same entry: a new notice of the record as it stands, which absorbs the record's pair for the target (R116, R117). -/
def reraiseInPlace (e : EntryId) (n : Notice) (s : State) : State :=
  absorbPair e n.slot n.target
    (startNotice e { freshNotice s n.slot n.target (latePlacement n) with generation := n.generation } s)

/-- The EXPLICIT re-raise (R116 to R118). -/
def reraise (e : EntryId) (n : Notice) (s : State) : State :=
  match residentAt s n.slot n.target with
  | some home => reraiseInto e n home s
  | none => reraiseInPlace e n s

/-- A held count after a late count has been returned to it (R119). -/
def Held.plusLate (h : Held) (n : Notice) : Held where
  count := min (h.count + n.late.count) 65535
  overflow := h.overflow || 65535 < h.count + n.late.count
  payload := some n.payload
  pins := h.pins ||| n.pins

/-- On a QUIESCING target the late count returns to the record's held count; the entry is freed with its pins kept disarmed (R119). -/
def returnLate (e : EntryId) (n : Notice) (s : State) : State :=
  let h := s.slots[n.slot].held
  let s1 := setHeld n.slot (h.plusLate n) s
  handOverInTurn (removeNotice e (raiseIf (65535 < h.count + n.late.count) .countOverflow s1)) e

/-- The outcome of the complete of an EXPLICIT notice with a late count above 0 (R113). -/
def completeLate (e : EntryId) (n : Notice) (s : State) : State :=
  let r := s.slots[n.slot]
  if r.state = .retiring && r.retireMode = some .discard then ceaseAndHandOver e s
  else if placeable s n.target then reraise e n s
  else if r.state = .active || r.state = .held then returnLate e n s
  else ceaseAndHandOver e s

/-- The outcome of an accepted complete for the popped notice (R113): an orphan, an AUTO notice and one with no late count are freed. -/
def completeNotice (e : EntryId) (n : Notice) (s : State) : State :=
  if n.isOrphan || n.late.count = 0 then ceaseAndHandOver e s else completeLate e n s

/-- A waiting TARGET_OFFLINE of the target ends with OK (R136). -/
def endOfflineWait (t : TargetId) (s : State) : State :=
  match s.port.flight with
  | some (.offlineWait u) => if u = t then endCommand .ok [] s else s
  | _ => s

/-- The complete that empties the stack of a QUIESCING target sends it OFFLINE (R136). -/
def endQuiesceIfEmpty (t : TargetId) (s : State) : State :=
  if s.targets[t].state = .quiescing && s.targets[t].stack.isEmpty then endOfflineWait t (goOffline t s) else s

/-- The top entry is popped (R113). -/
def popStack (t : TargetId) (s : State) : State := modTarget t (fun c => { c with stack := c.stack.tail }) s

/-- COMPLETE (R111): the checks in order, then the accepted complete. -/
def completeBody (requester : RequesterId) (t : TargetId) (w : Word) (s : State) : State :=
  if ownerRefuses s requester t then raise .registerAccess s
  else match s.targets[t].stack with
    | [] => raise .stackUnderflow s
    | e :: _ =>
      match s.pool[e] with
      | some n =>
        if completeNames w n then settle (endQuiesceIfEmpty t (completeNotice e n (popStack t s)))
        else raise .completeMismatch s
      | none => raise .completeMismatch s

/-! ### ENABLE, MASK and the reads (R80, R83, R84, R88, R105) -/

/-- A write of ENABLE: bit 0 (R84, R197). -/
def enableBody (requester : RequesterId) (t : TargetId) (w : Word) (s : State) : State :=
  if ownerRefuses s requester t then raise .registerAccess s
  else settle (modTarget t (fun c => { c with enabled := w.getLsbD 0 }) s)

/-- A write of MASK: bits 15:0 (R83, R197). -/
def maskBody (requester : RequesterId) (t : TargetId) (w : Word) (s : State) : State :=
  if ownerRefuses s requester t then raise .registerAccess s
  else settle (modTarget t (fun c => { c with mask := w.setWidth 16 }) s)

/-- A read of VIEW, ENABLE, MASK or LAST_PAYLOAD: the owner check, then the word (R80, R95). -/
def pageReadBody (requester : RequesterId) (t : TargetId) (word : PageWord) (s : State) : State :=
  if ownerRefuses s requester t then answer requester 4 0 (raise .registerAccess s)
  else answer requester 4 ((pageValue s t word).setWidth 64) s

end Sys2Proof.Machine
end

