-- ==== Sys2Proof/Machine/LinkPort.lean ====
section
/-! DEFINITION. The Link Port (chapter 10): what each access does once it is taken, the event-window check, FAULT_CLEAR, the waiting of posted writes behind withheld credit, the link state, bus mastering and the owed writes. -/

namespace Sys2Proof.Machine

/-! ### The event window (R29, R30, R195) -/

/-- A write to the event window is malformed (R29); the reserved field is bytes 2 and 3 (R195). -/
def malformed (requester : RequesterId) (offset : BitVec 16) (size : Nat) (data : BitVec 64) : Bool :=
  size != 8 || offset.toNat % 8 != 0 || data.extractLsb' 16 16 != 0
    || requester == 0xFF00#16 || requester == 0xFFFE#16

/-- The arrival of an accepted event message (R30, R195). -/
def messageArrival (requester : RequesterId) (data : BitVec 64) : Arrival where
  key := requester ++ data.extractLsb' 0 16
  payload := data.extractLsb' 32 32
  origin := none

/-- A write to the event window: discarded as malformed, or its arrival joins the tail of the intake queue (R29, R30). -/
def eventBody (requester : RequesterId) (offset : BitVec 16) (size : Nat) (data : BitVec 64) (s : State) : State :=
  if malformed requester offset size data then raise .malformedEvent s
  else { s with intake := s.intake ++ [messageArrival requester data] }

/-! ### FAULT_CLEAR and the operand words -/

/-- The causes that a word names clear, with offers left pending; for MISS the capture and the more-misses flag as well (R183). -/
def clearCauses (w : Word) (f : Fsu) : Fsu where
  causes := Vector.ofFn fun i => if w.getLsbD i then { f.causes[i] with flag := false } else f.causes[i]
  firstMiss := if w.getLsbD 0 then none else f.firstMiss
  moreMisses := if w.getLsbD 0 then false else f.moreMisses

/-- FAULT_CLEAR (R183). -/
def faultClearBody (w : Word) (s : State) : State := { s with fsu := clearCauses w s.fsu }

/-- A write of an operand word replaces it, whatever the port state (R145). -/
def operandBody (k : Fin 8) (w : Word) (s : State) : State :=
  modPort (fun p => { p with operands := p.operands.set k w }) s

/-! ### COMMAND (R144, R196) -/

/-- A code that names no command ends at once (R144). -/
def unknownBody (s : State) : State := endCommand .unknownCommand [] s

/-- The command of a code (R196). -/
def commandBody (code : Nat) : State → State :=
  match code with
  | 0x01 => installBody
  | 0x02 => modifyBody
  | 0x03 => holdBody
  | 0x04 => releaseBody
  | 0x05 => queryBody
  | 0x06 => probeBody
  | 0x07 => retireBody
  | 0x08 => forceRetireBody
  | 0x09 => groupHoldBody
  | 0x0A => groupReleaseBody
  | 0x0B => groupRetireBody
  | 0x0C => targetSetBody
  | 0x0D => targetOnlineBody
  | 0x0E => targetOfflineBody
  | 0x0F => pinSetBody
  | 0x10 => tableClearBody
  | _ => unknownBody

/-- A COMMAND write (R142 to R144). -/
def commandWrite (code : BitVec 8) (s : State) : State := takeCommand code (commandBody code.toNat) s

/-! ### Accesses (R187 to R190) -/

/-- What an access does when the Link Port takes it. -/
def serve : LinkOp → State → State
  | .eventWrite requester offset size data, s => eventBody requester offset size data s
  | .eventRead requester size, s => answer requester size 0 s
  | .claim requester t form, s => claimBody requester t form s
  | .complete requester t w, s => completeBody requester t w s
  | .enableWrite requester t w, s => enableBody requester t w s
  | .maskWrite requester t w, s => maskBody requester t w s
  | .pageRead requester t word, s => pageReadBody requester t word s
  | .mgmtRead requester word, s => answer requester 4 ((mgmtValue s word).setWidth 64) s
  | .command code, s => commandWrite code s
  | .abort, s => abortBody s
  | .faultClear w, s => faultClearBody w s
  | .operandWrite k w, s => operandBody k w s
  | .refusedRead requester size, s => answer requester size 0 (raise .registerAccess s)
  | .refusedWrite, s => raise .registerAccess s

/-- The accesses waiting in the link. -/
def setWaiting (ops : List LinkOp) (s : State) : State := { s with link := { s.link with waiting := ops } }

/-- An access waits: a posted write while credit is withheld, and every access behind one that waits (R31, R190). -/
def mustWait (op : LinkOp) (s : State) : Bool := !s.link.waiting.isEmpty || (op.isPosted && withheld s)

/-- The link can deliver an access: it is UP, and PORST# is released (R191, R193). -/
def linkServes (s : State) : Bool := s.link.state == .up && !s.porst

/-- The link delivers an access (R187); with the link DOWN or PORST# asserted none reaches the part (R191, R193). -/
def linkDeliver (op : LinkOp) (s : State) : State :=
  if !linkServes s then s
  else if mustWait op s then setWaiting (s.link.waiting ++ [op]) s
  else serve op s

/-- The waiting accesses are taken in link order until a posted write meets withheld credit (R31, R190). -/
def takeWaiting : List LinkOp → State → State
  | [], s => setWaiting [] s
  | op :: ops, s => if op.isPosted && withheld s then setWaiting (op :: ops) s else takeWaiting ops (serve op s)

/-- Waiting accesses are taken as far as the link and the credit allow. -/
def drainWaiting (s : State) : State := if linkServes s then takeWaiting s.link.waiting s else s

/-- The RT takes the head of the intake queue; with the entry free, the writes waiting in the link are taken (R32, R190). -/
def intakeTakenBody (s : State) : State := drainWaiting (intakeBody s)

/-! ### Link state and bus mastering (R191, R91, R92) -/

/-- The targets whose write-owed flag is set. -/
def owing (s : State) : List TargetId := (List.finRange 8).filter fun t => s.targets[t].writeOwed

/-- A regain deals with a target: its write-owed flag clears, and the owed write is issued if it is deliverable at that moment (R91). -/
def regainOne (s : State) (t : TargetId) : State :=
  let s1 := modTarget t (fun c => { c with writeOwed := false })
    { s with link := { s.link with regaining := s.link.regaining.erase t } }
  if s.targets[t].writeOwed && deliverable s t then issueWrite s1 t else s1

/-- Bus-master permission is regained: the regain has to deal with every target whose write-owed flag is set (R91), with each of them within this event or later, as is free (R92, log entry 25), and in a free order (log entry 11). -/
def regain (s : State) : State :=
  handInTurn regainOne (nextFree { s with link := { s.link with regaining := owing s } })
    ((owing s).filter fun t => !Config.regainLater s.free t)

/-- The regain is made where permission holds now and did not before; where permission does not hold, none has anything left to deal with. -/
def regainIf (before : State) (s : State) : State :=
  if permission s then if permission before then s else regain s
  else { s with link := { s.link with regaining := [] } }

/-- The change of the link state. -/
def setLink (l : LinkState) (s : State) : State := { s with link := { s.link with state := l } }

/-- The change of bus-master enable. -/
def setBusMaster (on : Bool) (s : State) : State := { s with link := { s.link with busMaster := on } }

/-- LINK_UP (R191): training completes only once PORST# is released (R193). -/
def linkUpBody (s : State) : State :=
  if s.porst then s else drainWaiting (regainIf s (setLink .up s))

/-- LINK_DOWN (R191): how many of the accesses waiting in the link are still there afterwards is open (log entry 12). -/
def linkDownBody (s : State) : State :=
  if s.link.state = .down then s
  else nextFree (setWaiting (s.link.waiting.take (Config.linkLossKeeps s.free)) (regainIf s (setLink .down s)))

/-- BUS_MASTER_ENABLE_WRITE (R191). -/
def busMasterBody (on : Bool) (s : State) : State := if s.porst then s else regainIf s (setBusMaster on s)

/-! ### The commands -/

/-- EVENT_MESSAGE. -/
def execEventMessage (requester : RequesterId) (offset : BitVec 16) (size : Nat) (data : BitVec 64) (s : State) :
    Host.Outcome State Fault Refusal :=
  .next (linkDeliver (decodeAccess { requester := requester, offset := offset, size := size, kind := .write data }) s)

/-- INTAKE_HEAD_TAKEN. -/
def execIntakeHeadTaken (s : State) : Host.Outcome State Fault Refusal := .next (intakeTakenBody s)

/-- CLAIM. -/
def execClaim (requester : RequesterId) (target : TargetId) (form : ClaimForm) (s : State) :
    Host.Outcome State Fault Refusal := .next (linkDeliver (.claim requester target form) s)

/-- COMPLETE. -/
def execComplete (requester : RequesterId) (target : TargetId) (value : Word) (s : State) :
    Host.Outcome State Fault Refusal := .next (linkDeliver (.complete requester target value) s)

/-- ENABLE. -/
def execEnable (requester : RequesterId) (target : TargetId) (value : Word) (s : State) :
    Host.Outcome State Fault Refusal := .next (linkDeliver (.enableWrite requester target value) s)

/-- MASK. -/
def execMask (requester : RequesterId) (target : TargetId) (value : Word) (s : State) :
    Host.Outcome State Fault Refusal := .next (linkDeliver (.maskWrite requester target value) s)

/-- INSTALL. -/
def execInstall (s : State) : Host.Outcome State Fault Refusal := .next (linkDeliver (.command 0x01) s)

/-- MODIFY. -/
def execModify (s : State) : Host.Outcome State Fault Refusal := .next (linkDeliver (.command 0x02) s)

/-- HOLD. -/
def execHold (s : State) : Host.Outcome State Fault Refusal := .next (linkDeliver (.command 0x03) s)

/-- RELEASE. -/
def execRelease (s : State) : Host.Outcome State Fault Refusal := .next (linkDeliver (.command 0x04) s)

/-- QUERY. -/
def execQuery (s : State) : Host.Outcome State Fault Refusal := .next (linkDeliver (.command 0x05) s)

/-- PROBE. -/
def execProbe (s : State) : Host.Outcome State Fault Refusal := .next (linkDeliver (.command 0x06) s)

/-- RETIRE. -/
def execRetire (s : State) : Host.Outcome State Fault Refusal := .next (linkDeliver (.command 0x07) s)

/-- FORCE_RETIRE. -/
def execForceRetire (s : State) : Host.Outcome State Fault Refusal := .next (linkDeliver (.command 0x08) s)

/-- GROUP_HOLD. -/
def execGroupHold (s : State) : Host.Outcome State Fault Refusal := .next (linkDeliver (.command 0x09) s)

/-- GROUP_RELEASE. -/
def execGroupRelease (s : State) : Host.Outcome State Fault Refusal := .next (linkDeliver (.command 0x0A) s)

/-- GROUP_RETIRE. -/
def execGroupRetire (s : State) : Host.Outcome State Fault Refusal := .next (linkDeliver (.command 0x0B) s)

/-- TARGET_SET. -/
def execTargetSet (s : State) : Host.Outcome State Fault Refusal := .next (linkDeliver (.command 0x0C) s)

/-- TARGET_ONLINE. -/
def execTargetOnline (s : State) : Host.Outcome State Fault Refusal := .next (linkDeliver (.command 0x0D) s)

/-- TARGET_OFFLINE. -/
def execTargetOffline (s : State) : Host.Outcome State Fault Refusal := .next (linkDeliver (.command 0x0E) s)

/-- PIN_SET. -/
def execPinSet (s : State) : Host.Outcome State Fault Refusal := .next (linkDeliver (.command 0x0F) s)

/-- TABLE_CLEAR. -/
def execTableClear (s : State) : Host.Outcome State Fault Refusal := .next (linkDeliver (.command 0x10) s)

/-- UNKNOWN_COMMAND. -/
def execUnknownCommand (code : BitVec 8) (s : State) : Host.Outcome State Fault Refusal :=
  .next (linkDeliver (.command code) s)

/-- ABORT. -/
def execAbort (s : State) : Host.Outcome State Fault Refusal := .next (linkDeliver .abort s)

/-- FAULT_CLEAR. -/
def execFaultClear (value : Word) (s : State) : Host.Outcome State Fault Refusal :=
  .next (linkDeliver (.faultClear value) s)

/-- OPERAND_WRITE. -/
def execOperandWrite (k : Fin 8) (value : Word) (s : State) : Host.Outcome State Fault Refusal :=
  .next (linkDeliver (.operandWrite k value) s)

/-- REFUSED_ACCESS: the Link Port decodes the access it is given, and refuses or serves it by that (log entry 14). -/
def execRefusedAccess (access : Access) (s : State) : Host.Outcome State Fault Refusal :=
  .next (linkDeliver (decodeAccess access) s)

/-- OWNER_REFUSED_READ: the read is put to the owner check, which refuses or serves it (log entry 14). -/
def execOwnerRefusedRead (requester : RequesterId) (target : TargetId) (word : PageWord) (s : State) :
    Host.Outcome State Fault Refusal := .next (linkDeliver (.pageRead requester target word) s)

/-- LINK_UP. -/
def execLinkUp (s : State) : Host.Outcome State Fault Refusal := .next (linkUpBody s)

/-- LINK_DOWN. -/
def execLinkDown (s : State) : Host.Outcome State Fault Refusal := .next (linkDownBody s)

/-- BUS_MASTER_ENABLE_WRITE. -/
def execBusMasterEnableWrite (on : Bool) (s : State) : Host.Outcome State Fault Refusal :=
  .next (busMasterBody on s)

end Sys2Proof.Machine
end

