-- ==== Sys2Proof/Machine/Resets.lean ====
section
/-! DEFINITION. The two resets (R24, R25, R32, R40, R75, R96, R97, R161, R186, R191, R193) and the release of PORST# (R201). -/

namespace Sys2Proof.Machine

/-- A slot at a function reset (R25). -/
def functionResetSlot (r : Slot) : Slot :=
  match r.state with
  | .free => r
  | .active => { r with rotation := 0, held := Held.empty }
  | .held => { r with rotation := 0, held := Held.empty }
  | .retiring => Slot.freeOf r.generation

/-- A target at a function reset: OFFLINE, its six configuration fields kept (R97). -/
def functionResetTarget (c : Target) : Target :=
  { Target.powerOn with
    method := c.method, address := c.address, data := c.data, groupOrder := c.groupOrder,
    deadline := c.deadline, owner := c.owner }

/-- FUNCTION_RESET (R193): the link state as the link retrains it is the operand; a part held in power-on reset takes none. -/
def functionResetBody (l : LinkState) (s : State) : State :=
  if s.porst then s
  else { s with
    link := { state := l, busMaster := false, waiting := [], regaining := [] }
    intake := []
    pins := s.pins.map functionResetPin
    slots := s.slots.map functionResetSlot
    pool := Vector.replicate 512 none
    order := []
    deferred := []
    targets := s.targets.map functionResetTarget
    port := Port.afterReset
    fsu := Fsu.afterReset }

/-- POWER_ON_RESET (R193): every block at its power-on values with PORST# asserted; the input levels, the timebase and what was sent on the link are not the part's to change. -/
def powerOnBody (s : State) : State :=
  { State.reset with
    porst := true
    pins := s.pins.map fun p => Pin.powerOn p.raw
    now := s.now
    free := s.free
    notifyWrites := s.notifyWrites
    answers := s.answers
    pending := s.pending }

/-- PORST_RELEASE (R201): the pins begin to follow their inputs (R40); the link trains on its own. -/
def porstReleaseBody (s : State) : State :=
  if s.porst then { s with porst := false, pins := s.pins.map (followInput s.now) } else s

/-- FUNCTION_RESET. -/
def execFunctionReset (link : LinkState) (s : State) : Host.Outcome State Fault Refusal :=
  .next (functionResetBody link s)

/-- POWER_ON_RESET. -/
def execPowerOnReset (s : State) : Host.Outcome State Fault Refusal := .next (powerOnBody s)

/-- PORST_RELEASE. -/
def execPorstRelease (s : State) : Host.Outcome State Fault Refusal := .next (porstReleaseBody s)

end Sys2Proof.Machine
end

