-- ==== Sys2Proof/Machine/Clock.lean ====
section
/-! DEFINITION. The hold-off expiry (R61) and the 1 µs timebase: what the part does of itself when no command waits (log entries 1, 2 and 25). -/

namespace Sys2Proof.Machine

/-- A running hold-off timer passes a test at the present time. -/
def holdOffTest (p : Timer → Nat → Bool) (now : Nat) (n : Notice) : Bool :=
  match n.phase with
  | .gathering _ (some x) => p x now
  | _ => false

/-- HOLD_OFF_EXPIRY: it occurs only once the timer has run for the hold-off (R61). -/
def holdOffBody (e : EntryId) (s : State) : State :=
  if entryIs s (holdOffTest Timer.due s.now) e then settle (ripen e s) else s

/-- An expiry, a level that enters its pin's filtered level, or a regain's dealing with a target, that can wait no longer. -/
inductive DueEvent where
  | holdOff (entry : EntryId)
  | deadline (target : TargetId)
  | wait
  | level (pin : PinId)
  | regain (target : TargetId)
deriving DecidableEq, Repr

/-- Everything at its last moment (R33, R61, R94, R150), with the targets that a regain has still to deal with (R92). -/
def dueEvents (s : State) : List DueEvent :=
  (ascending s (holdOffTest Timer.overdue s.now)).map .holdOff
    ++ (indicesWhere (fun c => deadlineOverdue c s.now) s.targets).map .deadline
    ++ (if s.port.waitTimer.any fun x => x.overdue s.now then [.wait] else [])
    ++ (if s.porst then [] else (indicesWhere (fun p => filterOverdue p s.now) s.pins).map .level)
    ++ s.link.regaining.map .regain

/-- What is due happens. -/
def runDue (d : DueEvent) (s : State) : State :=
  match d with
  | .holdOff e => holdOffBody e s
  | .deadline t => deadlineBody t s
  | .wait => waitBody s
  | .level p => filteredLevelBody p s
  | .regain t => regainOne s t

/-- No command waits: the timebase advances by 1 µs, unless something is at its last moment or a regain has a target still to deal with, which then happens; among several, which comes first is open (log entries 2 and 25). -/
def idle (s : State) : State :=
  match dueEvents s with
  | [] => { s with now := s.now + 1 }
  | [d] => runDue d s
  | d :: e :: ds => runDue ((d :: e :: ds).getD (Config.dueChoice s.free % (ds.length + 2)) d) (nextFree s)

/-- HOLD_OFF_EXPIRY. -/
def execHoldOffExpiry (entry : EntryId) (s : State) : Host.Outcome State Fault Refusal :=
  .next (holdOffBody entry s)

end Sys2Proof.Machine
end

