-- ==== Sys2Proof/Machine/Dispatch.lean ====
section
/-! DEFINITION. Which meaning each command has: one arm per constructor of Instr. -/

namespace Sys2Proof.Machine

def exec (i : Instr) (s : State) : Host.Outcome State Fault Refusal :=
  match i with
  | .eventMessage requester offset size data => Sys2Proof.Machine.execEventMessage requester offset size data s
  | .intakeHeadTaken => Sys2Proof.Machine.execIntakeHeadTaken s
  | .edgeLatchTaken pin => Sys2Proof.Machine.execEdgeLatchTaken pin s
  | .levelOfferTaken pin => Sys2Proof.Machine.execLevelOfferTaken pin s
  | .faultArrival cause => Sys2Proof.Machine.execFaultArrival cause s
  | .evtInputChange pin level => Sys2Proof.Machine.execEvtInputChange pin level s
  | .filteredLevelChange pin => Sys2Proof.Machine.execFilteredLevelChange pin s
  | .claim requester target form => Sys2Proof.Machine.execClaim requester target form s
  | .complete requester target value => Sys2Proof.Machine.execComplete requester target value s
  | .enable requester target value => Sys2Proof.Machine.execEnable requester target value s
  | .mask requester target value => Sys2Proof.Machine.execMask requester target value s
  | .install => Sys2Proof.Machine.execInstall s
  | .modify => Sys2Proof.Machine.execModify s
  | .hold => Sys2Proof.Machine.execHold s
  | .release => Sys2Proof.Machine.execRelease s
  | .query => Sys2Proof.Machine.execQuery s
  | .probe => Sys2Proof.Machine.execProbe s
  | .retire => Sys2Proof.Machine.execRetire s
  | .forceRetire => Sys2Proof.Machine.execForceRetire s
  | .groupHold => Sys2Proof.Machine.execGroupHold s
  | .groupRelease => Sys2Proof.Machine.execGroupRelease s
  | .groupRetire => Sys2Proof.Machine.execGroupRetire s
  | .groupWalkSlot => Sys2Proof.Machine.execGroupWalkSlot s
  | .targetSet => Sys2Proof.Machine.execTargetSet s
  | .targetOnline => Sys2Proof.Machine.execTargetOnline s
  | .targetOnlineWalkSlot => Sys2Proof.Machine.execTargetOnlineWalkSlot s
  | .targetOffline => Sys2Proof.Machine.execTargetOffline s
  | .pinSet => Sys2Proof.Machine.execPinSet s
  | .tableClear => Sys2Proof.Machine.execTableClear s
  | .unknownCommand code => Sys2Proof.Machine.execUnknownCommand code s
  | .abort => Sys2Proof.Machine.execAbort s
  | .faultClear value => Sys2Proof.Machine.execFaultClear value s
  | .operandWrite k value => Sys2Proof.Machine.execOperandWrite k value s
  | .refusedAccess access => Sys2Proof.Machine.execRefusedAccess access s
  | .holdOffExpiry entry => Sys2Proof.Machine.execHoldOffExpiry entry s
  | .claimDeadlineExpiry target => Sys2Proof.Machine.execClaimDeadlineExpiry target s
  | .waitTimerExpiry => Sys2Proof.Machine.execWaitTimerExpiry s
  | .linkUp => Sys2Proof.Machine.execLinkUp s
  | .linkDown => Sys2Proof.Machine.execLinkDown s
  | .busMasterEnableWrite on => Sys2Proof.Machine.execBusMasterEnableWrite on s
  | .functionReset link => Sys2Proof.Machine.execFunctionReset link s
  | .powerOnReset => Sys2Proof.Machine.execPowerOnReset s
  | .porstRelease => Sys2Proof.Machine.execPorstRelease s
  | .ownerRefusedRead requester target word => Sys2Proof.Machine.execOwnerRefusedRead requester target word s

end Sys2Proof.Machine
end

