-- ==== Sys2Proof/WellFormed.lean ====
section
/-! DEFINITION. Which commands are what their row of the opcode table says they are. The operands of most rows are bounded by their types; the rest is checked here. A command that is not well-formed still has a meaning: the Link Port decodes what it is given. -/

namespace Sys2Proof

/-- A code that names a command: 01H to 10H (R196). -/
def isCommandCode (code : BitVec 8) : Bool := 1 ≤ code.toNat && code.toNat ≤ 16

/-- A command is well-formed when it is the row it stands for: an event message lies in the event window and has a size, an unknown command has an unknown code, a refused access is one the Link Port refuses. -/
def Instr.wellFormed : Instr → Bool
  | .eventMessage _ offset size _ => 0x8000 ≤ offset.toNat && 0 < size
  | .unknownCommand code => !isCommandCode code
  | .refusedAccess access => 0 < access.size && (decodeAccess access).isRefused
  | .intakeHeadTaken | .edgeLatchTaken _ | .levelOfferTaken _ | .faultArrival _ => true
  | .evtInputChange _ _ | .filteredLevelChange _ => true
  | .claim _ _ _ | .complete _ _ _ | .enable _ _ _ | .mask _ _ _ => true
  | .install | .modify | .hold | .release | .query | .probe | .retire | .forceRetire => true
  | .groupHold | .groupRelease | .groupRetire | .groupWalkSlot => true
  | .targetSet | .targetOnline | .targetOnlineWalkSlot | .targetOffline => true
  | .pinSet | .tableClear | .abort | .faultClear _ | .operandWrite _ _ => true
  | .holdOffExpiry _ | .claimDeadlineExpiry _ | .waitTimerExpiry => true
  | .linkUp | .linkDown | .busMasterEnableWrite _ => true
  | .functionReset _ | .powerOnReset | .porstRelease => true
  | .ownerRefusedRead _ _ _ => true

end Sys2Proof
end

