-- ==== Sys2Proof/Safety.lean ====
section
/-! DEFINITION. What the statements speak of: when the link takes an access at once, the port after a command taken whole, and the invariants that every step keeps. -/

namespace Sys2Proof.Machine

/-! ### When an access or a command is taken at once -/

/-- The link is UP with PORST# released, and no access waits in it: a read is taken at once (R190). -/
def readReady (s : State) : Prop := s.link.state = .up ∧ s.porst = false ∧ s.link.waiting = []

/-- A posted write is taken at once: the intake queue has a free entry as well (R190). -/
def linkReady (s : State) : Prop := readReady s ∧ s.intake.length < 32

/-- A COMMAND write is taken as a command: the port is IDLE as well (R142). -/
def commandReady (s : State) : Prop := linkReady s ∧ s.port.flight = none

/-- The port once it has taken a command of a code (R144). -/
def Port.taken (p : Port) (code : BitVec 8) : Port :=
  { p with
    rejected := false, resultCode := .none, resultLength := 0, results := Vector.replicate 8 0,
    walkPosition := 0, code := code, flightOperands := p.operands }

/-- The port once the command in flight has ended with a result code and result words (R146). -/
def Port.concluded (p : Port) (c : ResultCode) (words : List Word) : Port :=
  { p with
    resultCode := c, resultLength := words.length, results := Vector.ofFn fun k => words.getD k 0,
    waitTimer := none, flight := none }

/-- The port once a command taken whole has ended (R144, R146, R148). -/
def Port.ended (p : Port) (code : BitVec 8) (c : ResultCode) (words : List Word) : Port :=
  (p.taken code).concluded c words

/-- The sixteen commands that COMMAND starts, with their codes (R196). -/
def commandCode : Instr → Option (BitVec 8)
  | .install => some 0x01
  | .modify => some 0x02
  | .hold => some 0x03
  | .release => some 0x04
  | .query => some 0x05
  | .probe => some 0x06
  | .retire => some 0x07
  | .forceRetire => some 0x08
  | .groupHold => some 0x09
  | .groupRelease => some 0x0A
  | .groupRetire => some 0x0B
  | .targetSet => some 0x0C
  | .targetOnline => some 0x0D
  | .targetOffline => some 0x0E
  | .pinSet => some 0x0F
  | .tableClear => some 0x10
  | .unknownCommand code => some code
  | _ => none

/-- The access to the 64 KiB window that a command makes (R187, R195, R196, R197); none for a command that is no access. -/
def accessOf (c : Instr) : Option LinkOp :=
  match c with
  | .eventMessage r off size data => some (decodeAccess { requester := r, offset := off, size := size, kind := .write data })
  | .claim r t form => some (.claim r t form)
  | .complete r t w => some (.complete r t w)
  | .enable r t w => some (.enableWrite r t w)
  | .mask r t w => some (.maskWrite r t w)
  | .abort => some .abort
  | .faultClear w => some (.faultClear w)
  | .operandWrite k w => some (.operandWrite k w)
  | .refusedAccess a => some (decodeAccess a)
  | .ownerRefusedRead r t w => some (.pageRead r t w)
  | _ => (commandCode c).map .command

/-- The code of the first condition that holds in a table of checks. -/
def firstFailing : List (Bool × ResultCode) → Option ResultCode
  | [] => none
  | x :: xs => if x.1 then some x.2 else firstFailing xs

/-! ### The checks of the commands, from the operand words -/

/-- The slot that operand word 1 names, once it has passed the BAD_SLOT check. -/
def namedSlot (s : State) : SlotId := Fin.ofNat 1024 (field s.port.operands[0] 0 11)

/-- The target that operand word 1 names, once it has passed the BAD_TARGET check. -/
def namedTarget (s : State) : TargetId := Fin.ofNat 8 (field s.port.operands[0] 0 4)

/-- The target numbers listed in operand word 4 of a record image (R198). -/
def listedTargets (w : Word) : List Nat := (List.range (field w 0 3)).map fun k => field w (4 + 4 * k) 4

/-- A bit of words 3 to 5 of a record image that belongs to no field is nonzero, or an entry beyond the list length (R198). -/
def imageBitsReserved (s : State) : Bool :=
  field s.port.operands[2] 6 2 != 0 || field s.port.operands[2] 10 2 != 0 || field s.port.operands[2] 14 2 != 0
    || field s.port.operands[2] 21 3 != 0 || field s.port.operands[3] 3 1 != 0 || field s.port.operands[3] 20 12 != 0
    || field s.port.operands[4] 16 16 != 0
    || (List.range 4).any fun k =>
        field s.port.operands[3] 0 3 ≤ k && field s.port.operands[3] (4 + 4 * k) 4 != 0

/-- Steps 7 to 11 of R21, which INSTALL and MODIFY share. -/
def imageChecks (s : State) : List (Bool × ResultCode) :=
  [(field s.port.operands[3] 0 3 = 0 || 4 < field s.port.operands[3] 0 3, .badField),
   ((listedTargets s.port.operands[3]).any (7 < ·), .badTarget),
   (!(listedTargets s.port.operands[3]).Nodup, .badTarget),
   (15 < field s.port.operands[2] 16 5 || field s.port.operands[2] 24 8 = 0, .badField),
   (32 < field s.port.operands[2] 0 6, .badField)]

/-- What each command checks, in order, with the code of each check (R21, R154, R155, R157, R159, R162, R170, R172, R79, R131, R134, R144). -/
def checks (c : Instr) (s : State) : List (Bool × ResultCode) :=
  let w1 := s.port.operands[0]
  let w2 := s.port.operands[1]
  let w3 := s.port.operands[2]
  let w5 := s.port.operands[4]
  let w6 := s.port.operands[5]
  let r := s.slots[namedSlot s]
  let target := s.targets[namedTarget s]
  let badSlot := (decide (1023 < field w1 0 11), ResultCode.badSlot)
  let badTarget := (decide (7 < field w1 0 4), ResultCode.badTarget)
  let slotAlone := (field w1 11 21 != 0, ResultCode.badField)
  match c with
  | .install =>
    [badSlot, (r.state != .free, .slotInUse),
     (field w1 11 17 != 0 || field w1 30 2 != 0 || imageBitsReserved s, .badField),
     (1 < field w1 28 2 || 2 < field w3 8 2 || 1 < field w3 12 2, .badField)]
      ++ imageChecks s
      ++ [(w2 <<< field w3 0 6 != 0, .nonzeroTail),
          (s.slots.toList.zipIdx.any fun x =>
            x.2 != (namedSlot s).val && x.1.state != .free && x.1.len == field w3 0 6 && x.1.key == w2,
           .duplicateMatch)]
  | .modify =>
    [badSlot, (r.state == .free, .slotFree), (w1.extractLsb' 16 8 != r.generation, .staleGeneration),
     (r.state == .retiring, .slotState),
     (field w1 11 5 != 0 || field w1 24 8 != 0 || imageBitsReserved s, .badField),
     (2 < field w3 8 2 || 1 < field w3 12 2, .badField)]
      ++ imageChecks s
      ++ [(field w3 0 6 != r.len || w2 != r.key, .badField)]
  | .hold => [badSlot, slotAlone, (r.state == .free, .slotFree), (r.state == .retiring, .slotState)]
  | .release => [badSlot, slotAlone, (r.state == .free, .slotFree), (r.state == .retiring, .slotState)]
  | .query => [badSlot, slotAlone]
  | .retire =>
    [badSlot,
     (field w1 11 5 != 0 || field w1 24 8 != 0 || field w2 18 14 != 0 || 1 < field w2 16 2 || 60000 < field w2 0 16,
      .badField),
     (r.state == .free, .slotFree), (w1.extractLsb' 16 8 != r.generation, .staleGeneration),
     (r.state == .retiring, .slotState)]
  | .forceRetire =>
    [badSlot, (field w1 11 5 != 0 || field w1 24 8 != 0, .badField), (r.state == .free, .slotFree),
     (w1.extractLsb' 16 8 != r.generation, .staleGeneration)]
  | .groupHold => [(field w2 6 26 != 0 || 32 < field w2 0 6, .badField)]
  | .groupRelease => [(field w2 6 26 != 0 || 32 < field w2 0 6, .badField)]
  | .groupRetire =>
    [(field w2 6 10 != 0 || field w2 18 14 != 0 || 32 < field w2 0 6 || 1 < field w2 16 2, .badField)]
  | .targetSet =>
    [badTarget, (target.state != .offline, .targetState),
     (field w1 4 4 != 0 || field w1 10 2 != 0 || field w1 14 18 != 0 || field w5 19 1 != 0 || field w5 23 1 != 0
        || field w5 27 1 != 0 || field w5 31 1 != 0
        || (if field w1 12 2 = 0 then w6 != 0 else field w6 16 16 != 0), .badField),
     (1 < field w1 8 2 || 1 < field w1 12 2, .badField),
     (field w2 0 2 != 0, .badField),
     (3 < field w5 16 3 || 3 < field w5 20 3 || 3 < field w5 24 3 || 3 < field w5 28 3
        || !([field w5 16 3, field w5 20 3, field w5 24 3, field w5 28 3] : List Nat).Nodup, .badField)]
  | .targetOnline => [badTarget, (field w1 4 28 != 0, .badField), (target.state == .quiescing, .targetState)]
  | .targetOffline =>
    [badTarget, (target.state == .offline, .targetState),
     (field w1 4 4 != 0 || field w1 10 2 != 0 || field w1 13 19 != 0 || field w2 16 16 != 0, .badField),
     (1 < field w1 8 2 || 60000 < field w2 0 16, .badField)]
  | .pinSet =>
    [(31 < field w1 0 6 || 5 < field w1 8 3 || 7 < field w1 12 4 || field w1 6 2 != 0 || field w1 11 1 != 0
        || field w1 16 16 != 0, .badField)]
  | .tableClear => [(s.targets.toList.any fun x => x.state != .offline, .targetState)]
  | .unknownCommand _ => [(true, .unknownCommand)]
  | _ => []

/-! ### The accesses that the maps of R196 and R197 accept -/

/-- The words of the management region: offset, readable, writable (R196). -/
def mgmtMap : List (Nat × Bool × Bool) :=
  [(0x000, true, false), (0x004, true, false), (0x008, true, false), (0x00C, true, false), (0x010, true, false),
   (0x014, false, true), (0x018, false, true), (0x01C, false, true)]
    ++ (List.range 8).map (fun k => (0x020 + 4 * k, true, true))
    ++ (List.range 8).map (fun k => (0x040 + 4 * k, true, false))

/-- The words of a target page: offset, readable, writable (R197). -/
def pageMap : List (Nat × Bool × Bool) :=
  [(0x000, true, false), (0x008, false, true), (0x00C, true, false), (0x010, true, true), (0x014, true, true),
   (0x018, true, false)]

/-- A word, readable and writable as given, takes a kind of access. -/
def takes (word : Bool × Bool) : AccessKind → Bool
  | .read => word.1
  | .write _ => word.2

/-- A 4-byte access to a word of a map at its own offset, of a kind that the word takes (R188). -/
def inMap (ws : List (Nat × Bool × Bool)) (base : Nat) (a : Access) : Prop :=
  a.size = 4 ∧ ∃ w ∈ ws, a.offset.toNat = base + w.1 ∧ takes w.2 a.kind = true

/-- An access that the Link Port serves: in the event window, or in the form its word accepts; CLAIM takes an 8-byte read as well (R187, R188, R189). -/
def servedForm (a : Access) : Prop :=
  0x8000 ≤ a.offset.toNat ∨ inMap mgmtMap 0 a ∨
    ∃ n : TargetId, inMap pageMap (0x1000 + n * 0x200) a ∨
      (a.kind = .read ∧ a.size = 8 ∧ a.offset.toNat = 0x1000 + n * 0x200)

/-! ### Arrivals offered to the RT -/

/-- What a command that takes an arrival finds offered: the arrival, and the state in which its producer's hold on it has ended (R27, R28). -/
def offered (c : Instr) (s : State) : Option (Arrival × State) :=
  match c with
  | .intakeHeadTaken =>
    match s.intake with
    | a :: rest => some (a, { s with intake := rest })
    | [] => none
  | .edgeLatchTaken pin =>
    if s.pins[pin].latch then
      some ({ key := 0xFF00#16 ++ BitVec.ofNat 16 pin, payload := 0, origin := none },
        modPin pin (fun p => { p with latch := false }) s)
    else none
  | .levelOfferTaken pin =>
    if s.pins[pin].offer then
      some ({ key := 0xFF00#16 ++ BitVec.ofNat 16 pin, payload := 1, origin := some pin },
        modPin pin (fun p => { p with offer := false }) s)
    else none
  | .faultArrival cause =>
    s.fsu.causes[causeIndex cause].offer.map fun payload =>
      ({ key := 0xFFFE#16 ++ BitVec.ofNat 16 (causeIndex cause + 1), payload := payload, origin := none },
        modCause cause (fun x => { x with offer := none }) s)
  | _ => none

/-- After its offer has been taken, a level-sensed pin that is armed and asserted offers again (R37); after the head of the intake queue has been taken, the accesses waiting in the link are taken (R190, log entry 15). -/
def afterTaking (c : Instr) (s : State) : State :=
  match c with
  | .intakeHeadTaken => drainWaiting s
  | .levelOfferTaken pin => modPin pin offerIfReady s
  | _ => s

/-- The pins that an arrival brings (R49). -/
def originPins (a : Arrival) : PinSet :=
  match a.origin with
  | some pin => BitVec.twoPow 32 pin
  | none => 0

/-! ### What a retirement discards -/

/-- The entries, ascending, of the GATHERING and PENDING notices of the record in a slot (R74, R164). -/
def discardable (s : State) (i : SlotId) : List EntryId :=
  (List.finRange 512).filter fun e =>
    (s.pool[e]).any fun n => !n.isInService && n.slot == i && n.generation == s.slots[i].generation

/-- How many of a record's held count, pairs, and GATHERING and PENDING notices carry a pin: each of them that is discarded makes its own re-arm request (R11, R37, R72). -/
def carriers (s : State) (i : SlotId) (pin : PinId) : Nat :=
  (s.slots[i].held.pins.getLsbD pin).toNat + (s.deferred.filter fun d => d.slot == i).countP (fun d => d.pins.getLsbD pin)
    + (discardable s i).countP fun e => (s.pool[e]).any fun n => n.pins.getLsbD pin

/-! ### What ceases when a target goes OFFLINE -/

/-- Among the pairs that pass a test and the notices in some entries there is an item of the record in a slot: a pair of it, or a notice of it that is no orphan (R16, R17, R73). -/
def losesItem (s : State) (goes : Pair → Bool) (es : List EntryId) (i : SlotId) : Bool :=
  (s.deferred.any fun d => goes d && d.slot == i)
    || es.any fun e => (s.pool[e]).any fun n => n.slot == i &&
        match n.phase with
        | .inService _ orphan => !orphan
        | _ => true

/-- A state once the pairs that pass a test and the notices in some entries have ceased: their entries, their places and their pairs are gone (R65, R68), each of them has made its own re-arm request at each of its pins (R37, R72), and each RETIRING record that has lost its last item so is FREE (R16, R73). -/
def ceased (goes : Pair → Bool) (es : List EntryId) (s : State) : State :=
  let left : State := { s with
    deferred := s.deferred.filter fun d => !goes d
    pool := Vector.ofFn fun e => if e ∈ es then none else s.pool[e]
    order := s.order.filter fun e => !es.contains e
    targets := s.targets.map fun c => { c with lists := c.lists.map (·.filter fun e => !es.contains e) }
    pins := Vector.ofFn fun p => Nat.repeat rearmPin
      ((s.deferred.filter goes).countP (fun d => d.pins.getLsbD p)
        + es.countP fun e => (s.pool[e]).any fun n => n.pins.getLsbD p) s.pins[p] }
  { left with slots := Vector.ofFn fun i =>
      if s.slots[i].state = .retiring ∧ losesItem s goes es i = true ∧ outstanding left i = 0 then
        Slot.freeOf s.slots[i].generation
      else s.slots[i] }

/-! ### The invariants -/

/-- "The intake queue holds at most 32 event messages" (R30). -/
def IntakeBounded (s : State) : Prop := s.intake.length ≤ 32

/-- "The capture is full while MISS is set and empty while MISS is clear"; the more-misses flag is set only with a full capture (R181). -/
def CaptureFollowsMiss (s : State) : Prop :=
  s.fsu.firstMiss.isSome = s.fsu.causes[causeIndex .miss].flag
    ∧ (s.fsu.moreMisses = true → s.fsu.firstMiss.isSome = true)

/-- "No two records outside FREE have equal match length and equal match key" (R22). -/
def MatchesDiffer (s : State) : Prop :=
  ∀ i j : SlotId, s.slots[i].state ≠ .free → s.slots[j].state ≠ .free →
    s.slots[i].len = s.slots[j].len → s.slots[i].key = s.slots[j].key → i = j

/-- The held count with its flag, payload and pin set is one unit (R11), saturating at 65535. -/
def Held.wf (h : Held) : Prop :=
  h.count ≤ 65535 ∧ (h.payload.isSome ↔ h.count ≠ 0) ∧ (h.count = 0 → h.pins = 0 ∧ h.overflow = false)

/-- A slot holds what its state says (R1, R2, R9): a FREE slot nothing but its generation, a record one to four distinct targets, a rotation index within them, a threshold of 1 to 255, a hold-off of at most 65535 µs, a match length of at most 32 with a zero tail, and a retire mode exactly while RETIRING. -/
def Slot.wf (r : Slot) : Prop :=
  (r.state = .free → r = Slot.freeOf r.generation)
    ∧ (r.state ≠ .free →
        1 ≤ r.targets.length ∧ r.targets.length ≤ 4 ∧ r.targets.Nodup ∧ r.rotation < r.targets.length
          ∧ 1 ≤ r.threshold ∧ r.threshold ≤ 255 ∧ r.holdOff ≤ 65535 ∧ r.len ≤ 32 ∧ r.key <<< r.len = 0)
    ∧ (r.retireMode.isSome ↔ r.state = .retiring)

/-- Every slot is well-formed. -/
def RecordsWellFormed (s : State) : Prop := ∀ i : SlotId, s.slots[i].wf

/-- Every held count is one unit. -/
def HeldCountsWhole (s : State) : Prop := ∀ i : SlotId, s.slots[i].held.wf

/-- The notify pin of a target follows its deliverability (R89), the judged deliverability is the deliverability, and the deadline timer runs exactly while the three conditions of R93 hold. -/
def SignalsFollow (s : State) : Prop :=
  ∀ t : TargetId,
    s.targets[t].deliverable = deliverable s t
      ∧ s.targets[t].ntf = (deliverable s t && s.targets[t].method == .pin)
      ∧ (s.targets[t].deadlineStart.isSome ↔
          s.targets[t].state = .online ∧ deliverable s t = true ∧ s.targets[t].deadline ≠ 0)

/-- "A target's in-service stack holds at most 4 entries" (R98). -/
def StacksBounded (s : State) : Prop := ∀ t : TargetId, s.targets[t].stack.length ≤ 4

/-- "A target's in-service stack holds at most 4 entries, each of a level strictly more urgent, under the target's group order, than the entry beneath it" (R98). -/
def StacksOrdered (s : State) : Prop :=
  ∀ t : TargetId, (s.targets[t].stack).Pairwise fun above beneath =>
    ∀ n m, s.pool[above] = some n → s.pool[beneath] = some m →
      rank s.targets[t].groupOrder n.level < rank s.targets[t].groupOrder m.level

/-- Every notice stands where its state says, and nowhere else: a PENDING one once in its target's list for its level (R63), one IN_SERVICE once on its target's stack (R98), and every notice once in the creation order (R46). -/
def NoticesStand (s : State) : Prop :=
  (∀ (t : TargetId) (l : Level) (e : EntryId), e ∈ s.targets[t].lists[l] ↔
      ∃ n, s.pool[e] = some n ∧ n.phase = .pending ∧ n.target = t ∧ n.level = l)
    ∧ (∀ (t : TargetId) (e : EntryId), e ∈ s.targets[t].stack ↔
        ∃ n, s.pool[e] = some n ∧ n.isInService = true ∧ n.target = t)
    ∧ (∀ e : EntryId, e ∈ s.order ↔ s.pool[e] ≠ none)
    ∧ (∀ (t : TargetId) (l : Level), (s.targets[t].lists[l]).Nodup)
    ∧ (∀ t : TargetId, (s.targets[t].stack).Nodup) ∧ s.order.Nodup

/-- "Every GATHERING or PENDING notice and every deferred pair lies with a target in state ONLINE or STALLED and belongs to a record that is not FREE" (R70); a notice IN_SERVICE is an orphan or belongs to such a record (R16, R17), and an OFFLINE target has an empty stack (R77). -/
def WorkBelongs (s : State) : Prop :=
  (∀ (e : EntryId) (n : Notice), s.pool[e] = some n → n.unclaimed = true → placeable s n.target = true)
    ∧ (∀ d ∈ s.deferred, placeable s d.target = true ∧ s.slots[d.slot].state ≠ .free)
    ∧ (∀ (e : EntryId) (n : Notice), s.pool[e] = some n → n.isOrphan = false →
        s.slots[n.slot].state ≠ .free ∧ n.generation = s.slots[n.slot].generation)
    ∧ (∀ t : TargetId, s.targets[t].state = .offline → s.targets[t].stack = [])

/-- "For each record and target there is at most one GATHERING or PENDING notice of that record for that target" (R56). The deferred list "holds each (record, target) pair at most once, and never a pair that has a GATHERING or PENDING notice", and it "is non-empty only while the pool has no free entry" (R64). -/
def WorkDistinct (s : State) : Prop :=
  (∀ (e f : EntryId) (n m : Notice), s.pool[e] = some n → s.pool[f] = some m → n.unclaimed = true → m.unclaimed = true →
      n.slot = m.slot → n.target = m.target → e = f)
    ∧ (s.deferred.map fun d => (d.slot, d.target)).Nodup
    ∧ (∀ d ∈ s.deferred, ∀ (e : EntryId) (n : Notice), s.pool[e] = some n → n.unclaimed = true → n.slot = d.slot →
        n.target ≠ d.target)
    ∧ (s.deferred ≠ [] → ∀ e : EntryId, s.pool[e] ≠ none)

/-- "A notice's count lies between 1 and 255, its late count between 0 and 255" (R48); a deferred pair has "a count of 1 to 255" (R64). -/
def CountsBounded (s : State) : Prop :=
  (∀ (e : EntryId) (n : Notice), s.pool[e] = some n → 1 ≤ n.count ∧ n.count ≤ 255 ∧ n.late.count ≤ 255)
    ∧ ∀ d ∈ s.deferred, 1 ≤ d.count ∧ d.count ≤ 255

/-- The configuration of a target holds only values that R76 gives: the group order is "a permutation of G0, G1, G2, G3", the notify address "a multiple of 4", and the claim deadline at most 65535 µs. -/
def Target.legal (c : Target) : Prop :=
  c.groupOrder.toList.Nodup ∧ c.address.extractLsb' 0 2 = 0 ∧ c.deadline ≤ 65535

/-- Every target's configuration is legal (R76). -/
def ConfigsLegal (s : State) : Prop := ∀ t : TargetId, s.targets[t].legal

/-- A walk is in flight. -/
def Flight.isWalk : Flight → Bool
  | .onlineWalk _ _ => true
  | .groupWalk _ _ _ _ _ => true
  | .retireWait _ _ => false
  | .offlineWait _ => false

/-- A BUSY port shows result code NONE and length 0 (R142); the wait timer runs only for a waiting command (R150); the walk position is at most 1024, and below it while a walk is in flight (R132, R173). -/
def PortConsistent (s : State) : Prop :=
  (busy s = true → s.port.resultCode = .none ∧ s.port.resultLength = 0)
    ∧ (s.port.waitTimer.isSome = true → ∃ f, s.port.flight = some f ∧ f.isWalk = false)
    ∧ s.port.walkPosition ≤ 1024
    ∧ (∀ f, s.port.flight = some f → f.isWalk = true → s.port.walkPosition < 1024)

end Sys2Proof.Machine
end

