-- ==== Sys2Proof/Certificates/Slice0/Obligations.lean ====
section
/-! DEFINITION. The statements for the provers. -/

open Sys2Proof Sys2Proof.Machine

/-! ### The step and the queue -/

/-- A step with a command at the front of the queue runs exactly that command on the state with the queue's rest. -/
def Obligations.StepRunsFrontCommand : Prop :=
  ∀ (c : Instr) (rest : List Instr) (s : State), s.pending = c :: rest →
    step s = exec c { s with pending := rest }

/-- The model's choice (log entries 1, 2 and 25): on an empty queue the timebase advances by 1 µs, unless something is at its last moment, or a regain of permission has a target still to deal with, which then happens; among several, which comes first is free. R61, R94, R150: a hold-off, deadline or wait timer is at its last moment 1 µs after its limit; R33: a change being timed at a pin is so 1 µs after the filter time, or at once with filter 0. What then happens is what HOLD_OFF_EXPIRY, CLAIM_DEADLINE_EXPIRY, WAIT_TIMER_EXPIRY and FILTERED_LEVEL_CHANGE do; LinkChanges says what the regain does. -/
def Obligations.EmptyQueueTicks : Prop :=
  (∀ s : State, s.pending = [] →
     (dueEvents s = [] → step s = .next { s with now := s.now + 1 })
       ∧ (∀ d, dueEvents s = [d] → step s = .next (runDue d s))
       ∧ (2 ≤ (dueEvents s).length →
           ∃ d ∈ dueEvents s, step s = .next (runDue d { s with free := s.free + 1 })))
    ∧ (∀ s : State,
         (∀ e, .holdOff e ∈ dueEvents s ↔
           ∃ n th x, s.pool[e] = some n ∧ n.phase = .gathering th (some x) ∧ x.start + x.limit + 1 ≤ s.now)
           ∧ (∀ t, .deadline t ∈ dueEvents s ↔
               ∃ start, s.targets[t].deadlineStart = some start ∧ start + s.targets[t].deadline + 1 ≤ s.now)
           ∧ (.wait ∈ dueEvents s ↔ ∃ x, s.port.waitTimer = some x ∧ x.start + x.limit + 1 ≤ s.now)
           ∧ (∀ p, .level p ∈ dueEvents s ↔ s.porst = false ∧
               ∃ start, s.pins[p].timing = some start
                 ∧ (s.pins[p].filter = 0 ∨ start + s.pins[p].filter + 1 ≤ s.now))
           ∧ (∀ t, .regain t ∈ dueEvents s ↔ t ∈ s.link.regaining))
    ∧ (∀ s : State,
         (∀ e, exec (.holdOffExpiry e) s = .next (runDue (.holdOff e) s))
           ∧ (∀ t, exec (.claimDeadlineExpiry t) s = .next (runDue (.deadline t) s))
           ∧ exec .waitTimerExpiry s = .next (runDue .wait s)
           ∧ (∀ p, exec (.filteredLevelChange p) s = .next (runDue (.level p) s)))

/-- No command stops the part, and no command touches the queue behind it. The model's choice (log entry 8): a command that names an event which cannot occur, the taking of an empty intake queue, of a clear latch or of an offer not pending, or a slot of a walk not in flight, leaves the state as it is. -/
def Obligations.EveryCommandCompletes : Prop :=
  (∀ (c : Instr) (s : State), ∃ t, exec c s = .next t ∧ t.pending = s.pending)
    ∧ (∀ s : State,
         (s.intake = [] → exec .intakeHeadTaken s = .next (drainWaiting s)
             ∧ (s.link.waiting = [] → exec .intakeHeadTaken s = .next s))
           ∧ (∀ pin : PinId, s.pins[pin].latch = false → exec (.edgeLatchTaken pin) s = .next s)
           ∧ (∀ pin : PinId, s.pins[pin].offer = false → exec (.levelOfferTaken pin) s = .next s)
           ∧ (∀ cause : Cause, s.fsu.causes[causeIndex cause].offer = none → exec (.faultArrival cause) s = .next s)
           ∧ ((∀ t n, s.port.flight ≠ some (.onlineWalk t n)) → exec .targetOnlineWalkSlot s = .next s)
           ∧ ((∀ kind key len changed skipped, s.port.flight ≠ some (.groupWalk kind key len changed skipped)) →
               exec .groupWalkSlot s = .next s))

/-! ### Accesses -/

/-- R188: exactly the accesses outside the maps of R196 and R197 are refused; a refused read returns zeros, a refused write is ignored, and either only raises REGISTER_ACCESS. -/
def Obligations.RefusedAccessOnlyRaises : Prop :=
  (∀ a : Access, (decodeAccess a).isRefused = true ↔ ¬ servedForm a)
    ∧ (∀ (a : Access) (s : State), ¬ servedForm a →
         (a.kind = .read → readReady s →
           exec (.refusedAccess a) s
             = .next { raise .registerAccess s with
                 answers := s.answers ++ [{ requester := a.requester, size := a.size, data := 0 }] })
           ∧ (∀ d, a.kind = .write d → linkReady s → exec (.refusedAccess a) s = .next (raise .registerAccess s)))

/-- Reads of the management region, and of a target page by a requester the owner check passes, return the word and do nothing else (R185, R196, R197); VIEW, ENABLE, MASK and LAST_PAYLOAD, bit by bit (R88, R84, R83, R105); DEVICE_STATUS, PORT_STATUS and FAULT_STATUS, field by field, with the codes of the target states and the result codes (R95, R196). The reads are carried by REFUSED_ACCESS and OWNER_REFUSED_READ, which the model serves by the access they carry (log entry 14). -/
def Obligations.ReadsReturnTheirWord : Prop :=
  (∀ (r : RequesterId) (s : State), readReady s →
     (∀ (off : BitVec 16) (v : Word),
       (off = 0x000 ∧ v = deviceStatusWord s ∨ off = 0x004 ∧ v = portStatusWord s
         ∨ off = 0x008 ∧ v = place 0 11 s.port.walkPosition ∨ off = 0x00C ∧ v = faultStatusWord s
         ∨ off = 0x010 ∧ v = s.fsu.firstMiss.getD 0
         ∨ (∃ k : Fin 8, off = 0x020 + 4 * BitVec.ofNat 16 k ∧ v = s.port.operands[k])
         ∨ (∃ k : Fin 8, off = 0x040 + 4 * BitVec.ofNat 16 k ∧ v = s.port.results[k])) →
       exec (.refusedAccess { requester := r, offset := off, size := 4, kind := .read }) s
         = .next { s with answers := s.answers ++ [{ requester := r, size := 4, data := v.setWidth 64 }] })
       ∧ (∀ (t : TargetId) (w : PageWord), s.targets[t].owner = none ∨ s.targets[t].owner = some r →
           exec (.ownerRefusedRead r t w) s
             = .next { s with
                 answers := s.answers ++ [{ requester := r, size := 4, data := (pageValue s t w).setWidth 64 }] }))
    ∧ (∀ (s : State) (t : TargetId),
         (∀ l : Level, (pageValue s t .view).getLsbD l = !(s.targets[t].lists[l]).isEmpty)
           ∧ (∀ k, 16 ≤ k → (pageValue s t .view).getLsbD k = false)
           ∧ pageValue s t .enable = (if s.targets[t].enabled then 1 else 0)
           ∧ (∀ k, (pageValue s t .mask).getLsbD k = (decide (k < 16) && s.targets[t].mask.getLsbD k))
           ∧ pageValue s t .lastPayload = s.targets[t].lastPayload)
    ∧ (∀ (s : State) (t : TargetId),
         let state := s.targets[t].state
         field (deviceStatusWord s) (2 * t) 2
             = (if state = .offline then 0 else if state = .online then 1 else if state = .stalled then 2 else 3)
           ∧ (deviceStatusWord s).getLsbD (16 + t) = s.targets[t].writeOwed
           ∧ ∀ k, 24 ≤ k → (deviceStatusWord s).getLsbD k = false)
    ∧ (∀ s : State, s.port.resultLength ≤ 8 →
         (portStatusWord s).getLsbD 0 = s.port.flight.isSome ∧ (portStatusWord s).getLsbD 1 = s.port.rejected
           ∧ field (portStatusWord s) 2 2 = 0 ∧ field (portStatusWord s) 4 4 = s.port.resultLength
           ∧ (s.port.resultCode, field (portStatusWord s) 8 8) ∈ ([(.none, 0x00), (.ok, 0x01), (.started, 0x02),
               (.unknownCommand, 0x03), (.badSlot, 0x04), (.slotInUse, 0x05), (.slotFree, 0x06), (.slotState, 0x07),
               (.staleGeneration, 0x08), (.badField, 0x09), (.nonzeroTail, 0x0A), (.duplicateMatch, 0x0B),
               (.badTarget, 0x0C), (.targetState, 0x0D), (.notFound, 0x0E), (.timeout, 0x0F),
               (.aborted, 0x10)] : List (ResultCode × Nat))
           ∧ (portStatusWord s).extractLsb' 16 8 = s.port.code ∧ field (portStatusWord s) 24 8 = 0)
    ∧ (∀ s : State,
         (∀ cause : Fin 8, (faultStatusWord s).getLsbD cause = s.fsu.causes[cause].flag)
           ∧ (faultStatusWord s).getLsbD 8 = s.fsu.moreMisses
           ∧ ∀ k, 9 ≤ k → (faultStatusWord s).getLsbD k = false)

/-- R29, R30, R195: a write to the event window is discarded with MALFORMED_EVENT when its size is not 8, its offset not a multiple of 8, its reserved field nonzero or its requester FF00H or FFFEH; otherwise its arrival joins the tail of the intake queue. R189: a read of the event window returns zeros and has no effect; no row of the opcode table is that read, and the model's choice (log entry 14) is that a REFUSED_ACCESS which carries it is served by the access it carries. -/
def Obligations.EventWindowAccesses : Prop :=
  ∀ (r : RequesterId) (off : BitVec 16) (size : Nat) (s : State), 0x8000 ≤ off.toNat →
    (∀ data : BitVec 64, linkReady s →
      (size ≠ 8 ∨ off.toNat % 8 ≠ 0 ∨ data.extractLsb' 16 16 ≠ 0 ∨ r = 0xFF00 ∨ r = 0xFFFE →
        exec (.eventMessage r off size data) s = .next (raise .malformedEvent s))
        ∧ (size = 8 → off.toNat % 8 = 0 → data.extractLsb' 16 16 = 0 → r ≠ 0xFF00 → r ≠ 0xFFFE →
            exec (.eventMessage r off size data) s
              = .next { s with intake := s.intake ++
                  [{ key := r ++ data.extractLsb' 0 16, payload := data.extractLsb' 32 32, origin := none }] }))
      ∧ (readReady s →
          exec (.refusedAccess { requester := r, offset := off, size := size, kind := .read }) s
            = .next { s with answers := s.answers ++ [{ requester := r, size := size, data := 0 }] })

/-- R31, R190: while the intake queue holds 32 arrivals every posted write waits in the link, whatever it addresses, and every access behind a waiting one waits, reads included; otherwise an access is taken at once. The waiting accesses are taken in link order until a posted write meets withheld credit; this happens within the INTAKE_HEAD_TAKEN that frees the entry (the model's reading, log entry 15); with one event message waiting, that lets the message in. -/
def Obligations.WithheldCreditHoldsAccesses : Prop :=
  (∀ s : State, s.link.state = .up → s.porst = false →
     (s.link.waiting = [] → s.intake.length = 32 →
       (∀ r t w, exec (.complete r t w) s = .next { s with link := { s.link with waiting := [.complete r t w] } })
         ∧ (∀ r t w, exec (.enable r t w) s = .next { s with link := { s.link with waiting := [.enableWrite r t w] } })
         ∧ (∀ r t w, exec (.mask r t w) s = .next { s with link := { s.link with waiting := [.maskWrite r t w] } })
         ∧ (∀ k w, exec (.operandWrite k w) s
             = .next { s with link := { s.link with waiting := [.operandWrite k w] } })
         ∧ (∀ w, exec (.faultClear w) s = .next { s with link := { s.link with waiting := [.faultClear w] } })
         ∧ exec .abort s = .next { s with link := { s.link with waiting := [.abort] } }
         ∧ (∀ c code, commandCode c = some code →
             exec c s = .next { s with link := { s.link with waiting := [.command code] } })
         ∧ (∀ r off size data, 0x8000 ≤ off.toNat →
             exec (.eventMessage r off size data) s
               = .next { s with link := { s.link with waiting := [.eventWrite r off size data] } })
         ∧ (∀ a d, a.kind = .write d → ¬ servedForm a →
             exec (.refusedAccess a) s = .next { s with link := { s.link with waiting := [.refusedWrite] } }))
       ∧ (s.link.waiting ≠ [] → ∀ r t form,
           exec (.claim r t form) s
             = .next { s with link := { s.link with waiting := s.link.waiting ++ [.claim r t form] } })
       ∧ (∀ c op, accessOf c = some op →
           (s.link.waiting ≠ [] ∨ op.isPosted = true ∧ 32 ≤ s.intake.length →
             exec c s = .next { s with link := { s.link with waiting := s.link.waiting ++ [op] } })
             ∧ (s.link.waiting = [] → op.isPosted = false ∨ s.intake.length < 32 → exec c s = .next (serve op s))))
    ∧ (∀ (s : State) (a : Arrival) (rest : List Arrival) (r : RequesterId) (off : BitVec 16) (data : BitVec 64),
         s.link.state = .up → s.porst = false → s.intake = a :: rest → rest.length = 31 →
         s.link.waiting = [.eventWrite r off 8 data] → off.toNat % 8 = 0 → data.extractLsb' 16 16 = 0 →
         r ≠ 0xFF00 → r ≠ 0xFFFE → lookup s a.key = none →
           exec .intakeHeadTaken s
             = .next (raiseMiss a.key { s with
                 intake := rest ++
                   [{ key := r ++ data.extractLsb' 0 16, payload := data.extractLsb' 32 32, origin := none }]
                 link := { s.link with waiting := [] } }))
    ∧ (∀ s : State,
         (s.link.state = .up → s.porst = false → drainWaiting s = takeWaiting s.link.waiting s)
           ∧ (s.link.state = .down ∨ s.porst = true → drainWaiting s = s)
           ∧ takeWaiting [] s = { s with link := { s.link with waiting := [] } }
           ∧ ∀ op ops,
               (op.isPosted = true → 32 ≤ s.intake.length →
                 takeWaiting (op :: ops) s = { s with link := { s.link with waiting := op :: ops } })
                 ∧ (op.isPosted = false ∨ s.intake.length < 32 →
                     takeWaiting (op :: ops) s = takeWaiting ops (serve op s)))

/-! ### Lookup and what an arrival does -/

/-- R5, R6: the match covers the key with the greatest match length; there is none exactly when no ACTIVE or HELD record agrees with the key in its first match-length bits. -/
def Obligations.LookupFindsTheLongestMatch : Prop :=
  ∀ (s : State) (key : Key),
    (∀ i, lookup s key = some i →
      covers key s.slots[i] = true ∧ ∀ j : SlotId, covers key s.slots[j] = true → s.slots[j].len ≤ s.slots[i].len)
      ∧ (lookup s key = none ↔ ∀ j : SlotId, covers key s.slots[j] = false)
      ∧ (∀ r : Slot, r.len ≤ 32 →
          (covers key r = true ↔
            (r.state = .active ∨ r.state = .held) ∧
              ∀ k, k < r.len → r.key.getMsbD k = key.getMsbD k))

/-- R43: an arrival that matches no record is discarded; from the intake queue or a pin it raises MISS with its key, a level-sensed pin becomes miss-disarmed, and a fault arrival leaves nothing. After the intake queue's head, the accesses waiting in the link are taken (log entry 15). -/
def Obligations.MissedArrival : Prop :=
  ∀ (c : Instr) (s u : State) (a : Arrival), offered c s = some (a, u) →
    lookup s a.key = none →
    exec c s = .next
      (match c with
        | .faultArrival _ => u
        | .levelOfferTaken pin =>
          { raiseMiss a.key u with pins := u.pins.set pin { u.pins[pin] with missDisarmed := true } }
        | .intakeHeadTaken => drainWaiting (raiseMiss a.key u)
        | _ => raiseMiss a.key u)

/-- R42, R44: an arrival to a HELD record, or to an ACTIVE one with no listed target ONLINE or STALLED, joins the held count. After the intake queue's head, the accesses waiting in the link are taken (log entry 15). -/
def Obligations.ArrivalJoinsHeldCount : Prop :=
  ∀ (c : Instr) (s u : State) (a : Arrival) (i : SlotId), offered c s = some (a, u) →
    lookup s a.key = some i →
    (s.slots[i].state = .held ∨ ∀ t ∈ s.slots[i].targets, s.targets[t].state ≠ .online ∧ s.targets[t].state ≠ .stalled) →
    exec c s = .next (afterTaking c (raiseIf (65535 ≤ s.slots[i].held.count) .countOverflow
      { u with slots := s.slots.set i { s.slots[i] with
          held := { count := min (s.slots[i].held.count + 1) 65535
                    overflow := s.slots[i].held.overflow || 65535 ≤ s.slots[i].held.count
                    payload := some a.payload
                    pins := s.slots[i].held.pins ||| originPins a } } }))

/-- R42, R49, R50: an arrival to an ACTIVE record with a placeable target is placed, with the held count folded in, and the targets are then judged; after the intake queue's head, the accesses waiting in the link are taken (log entry 15). R51: a held placement carries the held count clipped to 255 and hands the whole unit on; under ALL it goes to the first placeable target alone. -/
def Obligations.ArrivalsAndHeldCountsArePlaced : Prop :=
  (∀ (c : Instr) (s u : State) (a : Arrival) (i : SlotId), offered c s = some (a, u) →
     lookup s a.key = some i → s.slots[i].state = .active →
     (∃ t ∈ s.slots[i].targets, s.targets[t].state = .online ∨ s.targets[t].state = .stalled) →
     (s.slots[i].held.count = 0 →
       exec c s = .next (afterTaking c (settle (placeByMode i
         { count := 1, overflow := false, payload := a.payload, pins := originPins a } u))))
       ∧ (s.slots[i].held.count ≠ 0 →
           exec c s = .next (afterTaking c (settle (placeByMode i
             { count := min (1 + s.slots[i].held.count) 255, overflow := decide (255 < 1 + s.slots[i].held.count)
               payload := a.payload, pins := s.slots[i].held.pins ||| originPins a }
             (raiseIf (255 < 1 + s.slots[i].held.count) .countOverflow
               { u with slots := s.slots.set i { s.slots[i] with held := Held.empty } }))))))
    ∧ (∀ (s : State) (i : SlotId),
         let h := s.slots[i].held
         let p : Placement :=
           { count := min h.count 255, overflow := h.overflow || decide (255 < h.count)
             payload := h.payload.getD 0, pins := h.pins }
         let u := raiseIf (255 < h.count) .countOverflow
           { s with slots := s.slots.set i { s.slots[i] with held := Held.empty } }
         (s.slots[i].mode ≠ .all → placeHeld i s = placeByMode i p u)
           ∧ (∀ t ts, s.slots[i].mode = .all → s.slots[i].targets.filter (placeable s) = t :: ts →
               placeHeld i s = placeAt i t p u))

/-- R52, R53: FIRST takes the first ONLINE target in list order, else the first STALLED one; ROTATE merges into its oldest GATHERING or PENDING notice on a listed target, else takes the next ONLINE, else the next STALLED position after the rotation index, to which the index moves. R54, R50: under ALL every ONLINE or STALLED listed target gets its own placement, in list order; the first carries the fold and the origin pin, the others count 1 and no pin. R42: a placeable target is one ONLINE or STALLED. -/
def Obligations.ModesChooseTheirTargets : Prop :=
  (∀ (s : State) (i : SlotId) (p : Placement) (t : TargetId) (before after : List TargetId),
     flightFor s i none = none →
     (s.targets[t].state = .online ∧ (∀ u ∈ before, s.targets[u].state ≠ .online)
       ∨ s.targets[t].state = .stalled ∧ (∀ u ∈ before ++ after, s.targets[u].state ≠ .online)
         ∧ (∀ u ∈ before, s.targets[u].state ≠ .stalled)) →
     (s.slots[i].mode = .first → s.slots[i].targets = before ++ t :: after →
       placeByMode i p s = placeOn i t p s)
       ∧ (s.slots[i].mode = .rotate → rotateResident s i = none →
           s.slots[i].targets.drop (s.slots[i].rotation + 1) ++ s.slots[i].targets.take (s.slots[i].rotation + 1)
             = before ++ t :: after →
           placeByMode i p s = placeOn i t p
             { s with slots := s.slots.set i { s.slots[i] with rotation := s.slots[i].targets.idxOf t } })
       ∧ (∀ e, s.slots[i].mode = .rotate → rotateResident s i = some e → placeByMode i p s = mergeInto e p s))
    ∧ (∀ (s : State) (i : SlotId) (p : Placement) (t : TargetId) (ts : List TargetId),
         s.slots[i].mode = .all → s.slots[i].targets.filter (placeable s) = t :: ts →
           placeByMode i p s
             = settle (ts.foldl
                 (fun u t' => placeAt i t' { count := 1, overflow := false, payload := p.payload, pins := 0 } (settle u))
                 (placeAt i t p s)))
    ∧ (∀ (s : State) (i : SlotId),
         let sought (e : EntryId) : Prop :=
           ∃ n, s.pool[e] = some n ∧ (n.phase = .pending ∨ ∃ th x, n.phase = .gathering th x)
             ∧ n.slot = i ∧ n.generation = s.slots[i].generation ∧ n.target ∈ s.slots[i].targets
         (∀ e, rotateResident s i = some e ↔
           ∃ older younger, s.order = older ++ e :: younger ∧ sought e ∧ ∀ d ∈ older, ¬ sought d)
           ∧ (rotateResident s i = none ↔ ∀ e ∈ s.order, ¬ sought e))
    ∧ (∀ (s : State) (t : TargetId),
         placeable s t = true ↔ s.targets[t].state = .online ∨ s.targets[t].state = .stalled)

/-! ### Placements and notices -/

/-- R55: under EXPLICIT the oldest notice of the record in flight takes the placement into its late count, payload and pin set, and its count and flag stay; under ALL that is the oldest one on the placement's own target. There is none under AUTO, or where no such notice stands in the creation order; a placement under ALL then goes on to its target (R56 to R59), as ModesChooseTheirTargets says of the other modes. -/
def Obligations.InFlightNoticeTakesThePlacement : Prop :=
  (∀ (s : State) (i : SlotId) (p : Placement) (e : EntryId) (n : Notice) (late : Late) (older younger : List EntryId),
     s.slots[i].rearm = .explicit → s.order = older ++ e :: younger →
     s.pool[e] = some n → n.phase = .inService (some late) false → n.slot = i →
     n.generation = s.slots[i].generation → n.rearm = .explicit →
     let flies (m : Notice) : Prop :=
       m.isInService = true ∧ m.isOrphan = false ∧ m.slot = i ∧ m.generation = s.slots[i].generation
         ∧ m.rearm = .explicit
     let u := raiseIf (255 < late.count + p.count) .countOverflow
       { s with pool := s.pool.set e (some { n with
           payload := p.payload, pins := n.pins ||| p.pins
           phase := .inService (some { count := min (late.count + p.count) 255
                                       overflow := late.overflow || p.overflow || 255 < late.count + p.count }) false }) }
     (s.slots[i].mode ≠ .all → (∀ d ∈ older, ∀ m, s.pool[d] = some m → ¬ flies m) → placeByMode i p s = u)
       ∧ ((∀ d ∈ older, ∀ m, s.pool[d] = some m → m.target = n.target → ¬ flies m) → placeAt i n.target p s = u))
    ∧ (∀ (s : State) (i : SlotId) (onTarget : Option TargetId),
         flightFor s i onTarget = none ↔
           s.slots[i].rearm = .auto ∨ ∀ e ∈ s.order, ∀ m, s.pool[e] = some m →
             ¬ (m.isInService = true ∧ m.isOrphan = false ∧ m.slot = i ∧ m.generation = s.slots[i].generation
               ∧ m.rearm = .explicit ∧ ∀ t, onTarget = some t → m.target = t))
    ∧ (∀ (s : State) (i : SlotId) (t : TargetId) (p : Placement),
         flightFor s i (some t) = none → placeAt i t p s = placeOn i t p s)

/-- R56, R57, R48: a placement merges into the record's GATHERING or PENDING notice at the target, which ripens when its count reaches its threshold, or else into the record's deferred pair; counts saturate at 255 with the flag set and COUNT_OVERFLOW raised. Which notice is the record's at the target, and which pair (R56, R57, R74). -/
def Obligations.PlacementMerges : Prop :=
  ∀ (s : State) (i : SlotId) (t : TargetId) (p : Placement),
    (∀ e, residentAt s i t = some e → placeOn i t p s = mergeInto e p s)
      ∧ (∀ (e : EntryId) (n : Notice), s.pool[e] = some n →
          let m : Notice := { n with
            count := min (n.count + p.count) 255
            overflow := n.overflow || p.overflow || 255 < n.count + p.count
            payload := p.payload, pins := n.pins ||| p.pins }
          let u := raiseIf (255 < n.count + p.count) .countOverflow { s with pool := s.pool.set e (some m) }
          (n.phase = .pending → mergeInto e p s = u)
            ∧ ∀ th x, n.phase = .gathering th x →
                (m.count < th → mergeInto e p s = u)
                  ∧ (th ≤ m.count → mergeInto e p s = { u with
                      pool := s.pool.set e (some { m with phase := .pending })
                      targets := s.targets.set n.target { s.targets[n.target] with
                        lists := s.targets[n.target].lists.set n.level (s.targets[n.target].lists[n.level] ++ [e]) } }))
      ∧ (∀ d, residentAt s i t = none → pairAt s i t = some d →
          placeOn i t p s = raiseIf (255 < d.count + p.count) .countOverflow
            { s with deferred := s.deferred.map fun x =>
                if x.slot = i ∧ x.target = t then
                  { x with
                    count := min (x.count + p.count) 255
                    overflow := x.overflow || p.overflow || 255 < x.count + p.count
                    payload := p.payload, pins := x.pins ||| p.pins }
                else x })
      ∧ (let resident (e : EntryId) : Prop :=
           ∃ n, s.pool[e] = some n ∧ (n.phase = .pending ∨ ∃ th x, n.phase = .gathering th x)
             ∧ n.slot = i ∧ n.generation = s.slots[i].generation ∧ n.target = t
         (∀ e, residentAt s i t = some e ↔
           ∃ older younger, s.order = older ++ e :: younger ∧ resident e ∧ ∀ d ∈ older, ¬ resident d)
           ∧ (residentAt s i t = none ↔ ∀ e ∈ s.order, ¬ resident e))
      ∧ (∀ d, pairAt s i t = some d ↔
          ∃ before after, s.deferred = before ++ d :: after ∧ d.slot = i ∧ d.target = t
            ∧ ∀ x ∈ before, ¬ (x.slot = i ∧ x.target = t))
      ∧ (pairAt s i t = none ↔ ∀ x ∈ s.deferred, ¬ (x.slot = i ∧ x.target = t))

/-- R58, R59, R60, R62, R65, R66: with nothing to merge with, a placement makes a notice of the record as it stands in the lowest-numbered free entry, or, with no entry free, appends a pair to the deferred list and raises POOL_EMPTY; a freed entry goes to the head pair, which becomes a notice of the record as it stands, or returns to the free set; either notice joins the tail of the creation order and is PENDING at once, at the tail of its level list, when its count has reached its threshold or its record is RETIRING under DRAIN, and GATHERING otherwise, with its hold-off timer running if the hold-off is nonzero. The target of the granted pair is judged at the grant (R87; log entry 11), each freed entry in its turn (R69). -/
def Obligations.NewNoticesAndHandOver : Prop :=
  (∀ (s : State) (i : SlotId) (t : TargetId) (p : Placement), residentAt s i t = none → pairAt s i t = none →
     let r := s.slots[i]
     (∀ e : EntryId, s.pool[e] = none → (∀ d : EntryId, d < e → s.pool[d] ≠ none) →
       placeOn i t p s = startNotice e
         { slot := i, generation := r.generation, target := t, level := r.level
           phase := .gathering r.threshold (if r.holdOff = 0 then none else some { start := s.now, limit := r.holdOff })
           count := p.count, overflow := p.overflow, payload := p.payload, pins := p.pins, rearm := r.rearm } s)
       ∧ ((∀ d : EntryId, s.pool[d] ≠ none) →
           placeOn i t p s = raise .poolEmpty { s with deferred := s.deferred ++
             [{ slot := i, target := t, count := p.count, overflow := p.overflow, payload := p.payload, pins := p.pins }] }))
    ∧ (∀ (s : State) (e : EntryId),
         (s.deferred = [] → handOver e s = s)
           ∧ ∀ d rest, s.deferred = d :: rest →
               let r := s.slots[d.slot]
               handOver e s = startNotice e
                 { slot := d.slot, generation := r.generation, target := d.target, level := r.level
                   phase := .gathering r.threshold (if r.holdOff = 0 then none else some { start := s.now, limit := r.holdOff })
                   count := d.count, overflow := d.overflow, payload := d.payload, pins := d.pins, rearm := r.rearm }
                 { s with deferred := rest })
    ∧ (∀ (s : State) (e : EntryId) (n : Notice) (th : Nat) (x : Option Timer), n.phase = .gathering th x →
         let r := s.slots[n.slot]
         startNotice e n s =
           if th ≤ n.count ∨ r.state = .retiring ∧ r.retireMode = some .drain then
             { s with
               pool := s.pool.set e (some { n with phase := .pending })
               order := s.order.erase e ++ [e]
               targets := s.targets.set n.target { s.targets[n.target] with
                 lists := s.targets[n.target].lists.set n.level (s.targets[n.target].lists[n.level] ++ [e]) } }
           else { s with pool := s.pool.set e (some n), order := s.order.erase e ++ [e] })
    ∧ (∀ (s : State) (e : EntryId),
         (s.deferred = [] → handOverInTurn s e = s)
           ∧ (∀ d rest, s.deferred = d :: rest → handOverInTurn s e = judgeOne (handOver e s) d.target)
           ∧ ∀ es, handOverAll (e :: es) s = handOverAll es (handOverInTurn s e) ∧ handOverAll [] s = s)

/-- R16, R166, R168: a RETIRING record with nothing outstanding becomes FREE, and a RETIRE that waits for it ends with OK and its two words; a report of any other record changes nothing. What is outstanding are the record's notices that carry the slot and its generation and are no orphans, and its pairs. R1, R24: what a FREE slot holds, by its generation; R74, R17: which notices are a record's, and which are orphans, in service and GATHERING. -/
def Obligations.LastItemFreesTheRecord : Prop :=
  ∀ (s : State) (i : SlotId),
    (s.slots[i].state = .retiring → outstanding s i = 0 →
      (∀ f, s.port.flight = some (.retireWait i f) →
        reportCeased i s = { s with
          slots := s.slots.set i (Slot.freeOf s.slots[i].generation)
          port := s.port.concluded .ok f.words })
        ∧ ((∀ f, s.port.flight ≠ some (.retireWait i f)) →
            reportCeased i s = { s with slots := s.slots.set i (Slot.freeOf s.slots[i].generation) }))
      ∧ (s.slots[i].state ≠ .retiring ∨ outstanding s i ≠ 0 → reportCeased i s = s)
      ∧ outstanding s i
          = (List.finRange 512).countP (fun e : EntryId => (s.pool[e]).any fun n =>
              n.slot == i && n.generation == s.slots[i].generation &&
                match n.phase with
                | .inService _ orphan => !orphan
                | _ => true)
            + s.deferred.countP (fun d => d.slot == i)
      ∧ (∀ g : BitVec 8, Slot.freeOf g =
          { state := .free, generation := g, key := 0, len := 0, targets := [], mode := .first, rotation := 0, level := 0
            threshold := 0, holdOff := 0, rearm := .auto
            held := { count := 0, overflow := false, payload := none, pins := 0 }, retireMode := none })
      ∧ ∀ n : Notice,
          (ownedBy s i n = true ↔ n.slot = i ∧ n.generation = s.slots[i].generation ∧ n.isOrphan = false)
            ∧ (n.isOrphan = true ↔ ∃ late, n.phase = .inService late true)
            ∧ (n.isInService = true ↔ ∃ late orphan, n.phase = .inService late orphan)
            ∧ (n.isGathering = true ↔ ∃ th x, n.phase = .gathering th x)

/-- R127: the destination of a re-homed notice, by the mode of its record, is always an ONLINE target of its list. R128, R129: a notice with a destination that holds none of its record moves whole and absorbs the record's pair there; one whose record has a resident there is merged away into it, which keeps its payload and ripens if the notice was PENDING, and its entry is reported and handed over; one with no destination stays. R130: a re-homing takes the notices that stand on the source when it begins one by one in creation order, each seeing what the one before left; at the last move the targets it reached are judged in turn, and then the source (the order of judging is the model's reading of R87 and R130, log entry 11). R65, R60: a notice that is removed leaves its entry, its level list and the creation order; one that ripens is PENDING at the tail of its list. -/
def Obligations.RehomingMovesNotices : Prop :=
  (∀ (s : State) (source : TargetId) (n : Notice),
     let r := s.slots[n.slot]
     (∀ t, destination s source n = some t → s.targets[t].state = .online ∧ t ∈ r.targets)
       ∧ (r.mode = .all → destination s source n = none)
       ∧ (r.mode ≠ .all → (destination s source n = none ↔ ∀ t ∈ r.targets, s.targets[t].state ≠ .online))
       ∧ (∀ before t after, s.targets[t].state = .online → (∀ u ∈ before, s.targets[u].state ≠ .online) →
           (r.mode = .first ∨ r.mode = .rotate ∧ source ∉ r.targets → r.targets = before ++ t :: after →
             destination s source n = some t)
             ∧ (r.mode = .rotate → source ∈ r.targets →
                 r.targets.drop (r.targets.idxOf source + 1) ++ r.targets.take (r.targets.idxOf source + 1)
                   = before ++ t :: after →
                 destination s source n = some t)))
    ∧ (∀ (s : State) (source : TargetId) (e : EntryId) (n : Notice), s.pool[e] = some n →
         (destination s source n = none → rehomeOne source s e = s)
           ∧ (∀ t, destination s source n = some t → residentAt s n.slot t = none → (n.phase = .pending → t ≠ n.target) →
               let moved : State := { s with
                 pool := s.pool.set e (some { n with target := t })
                 targets := if n.phase = .pending then
                     (s.targets.set n.target { s.targets[n.target] with
                       lists := s.targets[n.target].lists.set n.level (s.targets[n.target].lists[n.level].erase e) }).set t
                     { s.targets[t] with lists := s.targets[t].lists.set n.level (s.targets[t].lists[n.level] ++ [e]) }
                   else s.targets }
               (pairAt s n.slot t = none → rehomeOne source s e = moved)
                 ∧ ∀ d, pairAt s n.slot t = some d →
                     rehomeOne source s e
                       = mergeInto e { count := d.count, overflow := d.overflow, payload := d.payload, pins := d.pins }
                           { moved with deferred := s.deferred.filter fun x => !(x.slot == n.slot && x.target == t) })
           ∧ (∀ t home m, destination s source n = some t → residentAt s n.slot t = some home → s.pool[home] = some m →
               let v := mergeInto home { count := n.count, overflow := n.overflow, payload := m.payload, pins := n.pins } s
               rehomeOne source s e = handOver e (reportCeased n.slot (removeNotice e
                 (if n.phase = .pending then ripen home v else v)))))
    ∧ (∀ (s : State) (source : TargetId),
         let standing := s.order.filter fun e => (s.pool[e]).any fun n => !n.isInService && n.target == source
         rehomeAll source s = standing.foldl (rehomeOne source) s
           ∧ rehomeAndJudge source s
               = (reached source standing s ++ [source]).foldl judgeOne (standing.foldl (rehomeOne source) s))
    ∧ (∀ (s : State) (source : TargetId) (e : EntryId) (es : List EntryId) (n : Notice), s.pool[e] = some n →
         reached source [] s = []
           ∧ (destination s source n = none → reached source (e :: es) s = reached source es (rehomeOne source s e))
           ∧ (∀ t, destination s source n = some t → residentAt s n.slot t = none ∨ s.deferred = [] →
               reached source (e :: es) s = t :: reached source es (rehomeOne source s e))
           ∧ (∀ t home d rest, destination s source n = some t → residentAt s n.slot t = some home →
               s.deferred = d :: rest →
               reached source (e :: es) s = t :: d.target :: reached source es (rehomeOne source s e)))
    ∧ (∀ (s : State) (e : EntryId),
         (s.pool[e] = none → removeNotice e s = s)
           ∧ ∀ n, s.pool[e] = some n →
               removeNotice e s = { s with
                 pool := s.pool.set e none
                 order := s.order.erase e
                 targets := s.targets.set n.target { s.targets[n.target] with
                   lists := s.targets[n.target].lists.set n.level (s.targets[n.target].lists[n.level].erase e) } }
                 ∧ (n.isGathering = false → ripen e s = s)
                 ∧ (n.isGathering = true → ripen e s = { s with
                     pool := s.pool.set e (some { n with phase := .pending })
                     targets := s.targets.set n.target { s.targets[n.target] with
                       lists := s.targets[n.target].lists.set n.level (s.targets[n.target].lists[n.level] ++ [e]) } }))

/-! ### Pins -/

/-- R33: a change of a filtered input is timed, and one that reverts before the filter time is ignored; with filter 0 the level enters directly, or is timed as a possible short pulse (the model's reading, log entry 9); a change held long enough has entered before a later change of the input is looked at. R33 to R36: a level held for the filter time enters the filtered level; an edge that qualifies under the sense sets the latch, and an armed level-sensed pin that is now asserted with no offer pending offers and disarms, unless it is miss-disarmed (R38; that R38 wins over R36 is the model's reading, log entry 18). Before that time FILTERED_LEVEL_CHANGE does nothing (the model's choice, log entry 8). -/
def Obligations.InputsEnterThroughTheFilter : Prop :=
  (∀ (s : State) (pin : PinId) (level : Bool), s.porst = false →
     let p := s.pins[pin]
     (p.raw = level → exec (.evtInputChange pin level) s = .next s)
       ∧ (p.raw ≠ level → 1 ≤ p.filter → p.timing = none → level ≠ p.filtered →
           exec (.evtInputChange pin level) s = .next { s with
             free := s.free + 1
             pins := s.pins.set pin { p with raw := level, timing := some s.now } })
       ∧ (∀ start, p.raw ≠ level → p.timing = some start → s.now < start + max p.filter 1 → level = p.filtered →
           exec (.evtInputChange pin level) s = .next { s with
             free := s.free + 1
             pins := s.pins.set pin { p with raw := level, timing := none } })
       ∧ (p.raw ≠ level → p.filter = 0 → p.timing = none → level ≠ p.filtered →
           exec (.evtInputChange pin level) s = .next { s with
               free := s.free + 1
               pins := s.pins.set pin { p with raw := level, timing := some s.now } }
             ∨ exec (.evtInputChange pin level) s = .next { s with
                 free := s.free + 1
                 pins := s.pins.set pin (enterLevel { p with raw := level }) })
       ∧ (∀ start, p.raw ≠ level → p.timing = some start → start + max p.filter 1 ≤ s.now →
           exec (.evtInputChange pin level) s
             = exec (.evtInputChange pin level) { s with pins := s.pins.set pin (enterLevel p) }))
    ∧ (∀ (s : State) (pin : PinId), s.porst = false →
         let p := s.pins[pin]
         (∀ start, p.timing = some start → start + p.filter ≤ s.now →
           let edge := p.raw != p.filtered &&
             (p.sense == .rising && p.raw || p.sense == .falling && !p.raw || p.sense == .both)
           let offers := (p.sense == .high && p.raw || p.sense == .low && !p.raw) && p.armed && !p.offer && !p.missDisarmed
           exec (.filteredLevelChange pin) s = .next { s with
             pins := s.pins.set pin { p with
               filtered := p.raw, timing := none, latch := p.latch || edge
               armed := p.armed && !offers, offer := p.offer || offers } })
           ∧ (p.timing = none ∨ (∃ start, p.timing = some start ∧ s.now < start + p.filter) →
               exec (.filteredLevelChange pin) s = .next s))
    ∧ (∀ p : Pin,
         let edge := p.raw != p.filtered &&
           (p.sense == .rising && p.raw || p.sense == .falling && !p.raw || p.sense == .both)
         let offers := (p.sense == .high && p.raw || p.sense == .low && !p.raw) && p.armed && !p.offer && !p.missDisarmed
         enterLevel p = { p with
           filtered := p.raw, timing := none, latch := p.latch || edge
           armed := p.armed && !offers, offer := p.offer || offers })

/-- R37, R34, R38: a re-arm request at a pin, and the clearing of a miss-disarmed pin by a table change. R39, R159: a PIN_SET that passes its checks sets sense and filter, withdraws latch and offer, clears miss-disarmed and arms the pin, which offers at once if asserted; the other pins are unchanged; whether a change under the same filter is timed again is open (log entry 10). R198: the sense codes; R36: when a pin offers. -/
def Obligations.RearmingAndPinSet : Prop :=
  (∀ p : Pin,
     let asserted := p.sense == .high && p.filtered || p.sense == .low && !p.filtered
     ((p.sense = .high ∨ p.sense = .low) →
       (p.missDisarmed = true ∨ p.armed = true → rearmPin p = p)
         ∧ (p.missDisarmed = false → p.armed = false →
             rearmPin p = if asserted && !p.offer then { p with offer := true } else { p with armed := true }))
       ∧ (p.sense ≠ .high → p.sense ≠ .low → rearmPin p = { p with armed := true })
       ∧ (p.missDisarmed = false → clearMissDisarmed p = p)
       ∧ (p.missDisarmed = true → p.offer = false →
           clearMissDisarmed p = { p with missDisarmed := false, armed := !asserted, offer := asserted })
       ∧ (p.missDisarmed = true → p.offer = true →
           clearMissDisarmed p = { p with missDisarmed := false, armed := true })
       ∧ offerIfReady p =
           if asserted && p.armed && !p.offer && !p.missDisarmed then { p with armed := false, offer := true } else p)
    ∧ (∀ (pin : PinId) (f : Pin → Pin) (s : State), modPin pin f s = { s with pins := s.pins.set pin (f s.pins[pin]) })
    ∧ (∀ s : State, commandReady s → firstFailing (checks .pinSet s) = none →
         let pin : PinId := Fin.ofNat 32 (field s.port.operands[0] 0 6)
         let p := s.pins[pin]
         let senseCode := field s.port.operands[0] 8 3
         let sense : Sense :=
           if senseCode = 0 then .disabled else if senseCode = 1 then .rising else if senseCode = 2 then .falling
           else if senseCode = 3 then .both else if senseCode = 4 then .high else .low
         let filter := field s.port.operands[0] 12 4
         let asserted := sense == .high && p.filtered || sense == .low && !p.filtered
         ∃ timing,
           exec .pinSet s = .next { s with
             pins := s.pins.set pin { p with
               sense := sense, filter := filter, latch := false, offer := asserted, armed := !asserted
               missDisarmed := false, timing := timing }
             port := s.port.ended 0x0F .ok [] }
             ∧ (filter ≠ p.filter → timing = p.timing.map fun _ => s.now)
             ∧ (filter = p.filter → timing = p.timing ∨ timing = p.timing.map fun _ => s.now))

/-! ### Targets -/

/-- R81: the rank of a level is 4 × the position of its group plus 3 − (level mod 4); ranks run from 0 to 15 and are distinct. -/
def Obligations.RankOfALevel : Prop :=
  ∀ (order : Vector Group 4), order.toList.Nodup →
    (∀ (position : Fin 4) (l : Level), l.val / 4 = (order[position]).val →
      rank order l = 4 * position.val + (3 - l.val % 4))
      ∧ (∀ l : Level, rank order l < 16)
      ∧ (∀ l m : Level, rank order l = rank order m → l = m)

/-- R85: the candidate is the head of the unmasked non-empty list whose level has the lowest rank; there is none exactly when every list is empty or masked. -/
def Obligations.CandidateIsTheMostUrgentHead : Prop :=
  ∀ c : Target, c.groupOrder.toList.Nodup →
    (∀ e l, candidate c = some (e, l) ↔
      c.mask.getLsbD l = false ∧ (c.lists[l]).head? = some e ∧
        ∀ m : Level, m ≠ l → c.mask.getLsbD m = false → c.lists[m] ≠ [] → rank c.groupOrder l < rank c.groupOrder m)
      ∧ (candidate c = none ↔ ∀ l : Level, c.mask.getLsbD l = true ∨ c.lists[l] = [])

/-- R86: a target has a deliverable notice when all five conditions hold. -/
def Obligations.DeliverableMeansFiveConditions : Prop :=
  ∀ (s : State) (t : TargetId),
    let c := s.targets[t]
    deliverable s t = true ↔
      (c.state = .online ∨ c.state = .stalled) ∧ c.enabled = true ∧ c.stack.length < 4 ∧
        ∃ e l, candidate c = some (e, l) ∧
          (c.stack = [] ∨ ∃ top below n, c.stack = top :: below ∧ s.pool[top] = some n
            ∧ rank c.groupOrder l < rank c.groupOrder n.level)

/-- R89, R90, R91, R93: when the targets are judged, each notify pin follows deliverability, each deadline timer starts, runs on or stops with its three conditions, and each WRITE-method target that has become deliverable gets one notification write while permission holds, and is owed one otherwise; nothing else changes; the judging of one target does the same at that target alone. R192: a notification write carries the target's notify address and data, in the short address form when the upper 32 bits are zero and the long form otherwise, with the function's own requester ID (a free value, log entry 13). R187: permission holds while the link is UP and bus-master enable is set. -/
def Obligations.JudgingTheTargets : Prop :=
  (∀ s : State, ∃ u, settle s = u
    ∧ u = { s with targets := u.targets, notifyWrites := u.notifyWrites, free := u.free }
    ∧ (∀ t : TargetId,
        let c := s.targets[t]
        let d := deliverable s t
        let requests := d && !c.deliverable && c.method == .write
        u.targets[t] = { c with
          deliverable := d
          ntf := d && c.method == .pin
          deadlineStart :=
            if d = true ∧ c.state = .online ∧ c.deadline ≠ 0 then some (c.deadlineStart.getD s.now) else none
          writeOwed := c.writeOwed || (requests && !permission s) })
    ∧ ∃ ws, u.notifyWrites = s.notifyWrites ++ ws ∧
        ws.Perm (((List.finRange 8).filter fun t : TargetId =>
          permission s && deliverable s t && !s.targets[t].deliverable && s.targets[t].method == .write).map
            fun t => notifyWrite s.targets[t]))
    ∧ (∀ (s : State) (t : TargetId),
         let c := s.targets[t]
         let d := deliverable s t
         let requests := d && !c.deliverable && c.method == .write
         judgeOne s t = { s with
           targets := s.targets.set t { c with
             deliverable := d
             ntf := d && c.method == .pin
             deadlineStart :=
               if d = true ∧ c.state = .online ∧ c.deadline ≠ 0 then some (c.deadlineStart.getD s.now) else none
             writeOwed := c.writeOwed || (requests && !permission s) }
           notifyWrites := s.notifyWrites ++ if requests && permission s then [notifyWrite c] else [] })
    ∧ (∀ c : Target, notifyWrite c =
         { requester := Config.functionRequesterId, address := c.address
           longForm := decide (c.address.toNat ≥ 2 ^ 32), data := c.data })
    ∧ (∀ s : State, permission s = true ↔ s.link.state = .up ∧ s.link.busMaster = true)

/-- R187, R191, R91: LINK_UP and a bus-master enable write, with the accesses waiting in the link taken after LINK_UP (log entry 15); a write taken with the link DOWN sets or clears the enable too (the model's choice, log entry 17). Where permission is regained, the regain deals with every target whose write-owed flag is set: the flag clears, and the owed write is issued if the target is deliverable; some of them it may deal with later, with those flags still set (R92; which, is free, log entry 25), unless permission is lost first. R191, R26, R160, R186: LINK_DOWN takes the link DOWN and changes nothing else of the part; how much of what waited in the link is still there is open (log entry 12). -/
def Obligations.LinkChanges : Prop :=
  (∀ (s : State) (c : Instr) (l : LinkPort), s.porst = false →
     (c = .linkUp ∧ l = { s.link with state := .up }
       ∨ ∃ on, c = .busMasterEnableWrite on ∧ l = { s.link with busMaster := on }) →
     let finish (u : State) : State := if c = .linkUp then drainWaiting u else u
     (l.state = .down ∨ l.busMaster = false →
       exec c s = .next (finish { s with link := { l with regaining := [] } }))
       ∧ (permission s = true → l.state = .up → l.busMaster = true → exec c s = .next (finish { s with link := l }))
       ∧ (permission s = false → l.state = .up → l.busMaster = true →
           ∃ u ws late, exec c s = .next (finish u)
             ∧ late.Nodup ∧ (∀ t ∈ late, s.targets[t].writeOwed = true)
             ∧ u = { s with
                 link := { l with regaining := late }
                 targets := u.targets
                 notifyWrites := s.notifyWrites ++ ws
                 free := u.free }
             ∧ (∀ t : TargetId, u.targets[t] = { s.targets[t] with writeOwed := decide (t ∈ late) })
             ∧ ws.Perm (((List.finRange 8).filter fun t : TargetId =>
                 s.targets[t].writeOwed && deliverable s t && !decide (t ∈ late)).map
                 fun t => notifyWrite s.targets[t])))
    ∧ (∀ s : State,
         (s.link.state = .down → exec .linkDown s = .next s)
           ∧ (s.link.state = .up → ∃ n, exec .linkDown s = .next { s with
               free := s.free + 1
               link := { s.link with state := .down, waiting := s.link.waiting.take n, regaining := [] } }))
    ∧ (∀ (s : State) (t : TargetId), runDue (.regain t) s = { s with
         link := { s.link with regaining := s.link.regaining.erase t }
         targets := s.targets.set t { s.targets[t] with writeOwed := false }
         notifyWrites := s.notifyWrites ++
           if s.targets[t].writeOwed && deliverable s t then [notifyWrite s.targets[t]] else [] })

/-! ### Claim and completion -/

/-- R100 to R103, R105, R93: a claim that finds its ONLINE or STALLED target deliverable takes the candidate from the head of its list onto the stack, IN_SERVICE, answers with it, latches the payload for the 4-byte form, leaves the target ONLINE and restarts the timer. -/
def Obligations.ClaimTakesTheCandidate : Prop :=
  ∀ (s : State) (r : RequesterId) (t : TargetId) (form : ClaimForm) (e : EntryId) (l : Level) (n : Notice),
    let c := s.targets[t]
    readReady s → (c.owner = none ∨ c.owner = some r) → (c.state = .online ∨ c.state = .stalled) →
    deliverable s t = true → candidate c = some (e, l) → s.pool[e] = some n → NoticesStand s →
    exec (.claim r t form) s = .next (settle { s with
      pool := s.pool.set e (some { n with
        phase := .inService (if n.rearm = .explicit then some { count := 0, overflow := false } else none) false })
      targets := s.targets.set t { c with
        state := .online
        lists := c.lists.set l (c.lists[l].tail)
        stack := e :: c.stack
        deadlineStart := none
        lastPayload := if form = .low then n.payload else c.lastPayload }
      answers := s.answers ++
        [if form = .low then { requester := r, size := 4, data := (claimWord n).setWidth 64 }
         else { requester := r, size := 8, data := n.payload ++ claimWord n }] })

/-- R101, R104, R105: a claim on an OFFLINE or QUIESCING target, or on one with no deliverable notice, answers valid = 0 with the stack-full flag at four entries; a STALLED target returns to ONLINE all the same. -/
def Obligations.ClaimTakesNothing : Prop :=
  ∀ (s : State) (r : RequesterId) (t : TargetId) (form : ClaimForm),
    let c := s.targets[t]
    readReady s → (c.owner = none ∨ c.owner = some r) → deliverable s t = false →
    exec (.claim r t form) s = .next (settle { s with
      targets := s.targets.set t { c with
        state := if c.state = .stalled then .online else c.state
        deadlineStart := none
        lastPayload := if form = .low then 0 else c.lastPayload }
      answers := s.answers ++
        [{ requester := r, size := if form = .low then 4 else 8
           data := if c.stack.length = 4 then 0x80000000 else 0 }] })

/-- R106: after a claim that takes a notice the target has no deliverable notice, its notify pin is deasserted, its deadline timer is stopped and no notification write is issued. -/
def Obligations.ClaimLeavesNothingDeliverable : Prop :=
  ∀ (s : State) (r : RequesterId) (t : TargetId) (form : ClaimForm) (u : State),
    let c := s.targets[t]
    readReady s → (c.owner = none ∨ c.owner = some r) → (c.state = .online ∨ c.state = .stalled) →
    deliverable s t = true → c.groupOrder.toList.Nodup → NoticesStand s →
    exec (.claim r t form) s = .next u →
    deliverable u t = false ∧ u.targets[t].ntf = false ∧ u.targets[t].deadlineStart = none
      ∧ (SignalsFollow s → u.notifyWrites = s.notifyWrites)

/-- R80: an access to a target page by a requester other than its present owner changes no state of the target: a read returns zeros, a write is ignored, and REGISTER_ACCESS is raised. -/
def Obligations.OwnerCheckRefuses : Prop :=
  ∀ (s : State) (r owner : RequesterId) (t : TargetId), s.targets[t].owner = some owner → owner ≠ r →
    (readReady s →
      (∀ w, exec (.ownerRefusedRead r t w) s = .next { raise .registerAccess s with
          answers := s.answers ++ [{ requester := r, size := 4, data := 0 }] })
        ∧ exec (.claim r t .low) s = .next { raise .registerAccess s with
            answers := s.answers ++ [{ requester := r, size := 4, data := 0 }] }
        ∧ exec (.claim r t .whole) s = .next { raise .registerAccess s with
            answers := s.answers ++ [{ requester := r, size := 8, data := 0 }] })
      ∧ (linkReady s → ∀ w,
          exec (.complete r t w) s = .next (raise .registerAccess s)
            ∧ exec (.enable r t w) s = .next (raise .registerAccess s)
            ∧ exec (.mask r t w) s = .next (raise .registerAccess s))

/-- R83, R84: a write of ENABLE sets the enable flag to bit 0 and a write of MASK replaces the sixteen flags, in every target state; the targets are then judged. -/
def Obligations.EnableAndMaskWrites : Prop :=
  ∀ (s : State) (r : RequesterId) (t : TargetId) (w : Word), linkReady s →
    (s.targets[t].owner = none ∨ s.targets[t].owner = some r) →
    exec (.enable r t w) s
        = .next (settle { s with targets := s.targets.set t { s.targets[t] with enabled := w.getLsbD 0 } })
      ∧ exec (.mask r t w) s
        = .next (settle { s with targets := s.targets.set t { s.targets[t] with mask := w.setWidth 16 } })

/-- R111, R112: a COMPLETE that finds an empty stack, or names other values than the top entry's, changes nothing but its cause. -/
def Obligations.RefusedCompleteOnlyRaises : Prop :=
  ∀ (s : State) (r : RequesterId) (t : TargetId) (w : Word), linkReady s →
    (s.targets[t].owner = none ∨ s.targets[t].owner = some r) →
    (s.targets[t].stack = [] → exec (.complete r t w) s = .next (raise .stackUnderflow s))
      ∧ (∀ top below n, s.targets[t].stack = top :: below → s.pool[top] = some n →
          (field w 1 10 ≠ n.slot.val ∨ w.extractLsb' 11 8 ≠ n.generation ∨ field w 19 4 ≠ n.level.val) →
          exec (.complete r t w) s = .next (raise .completeMismatch s))

/-- R113 to R119, R136: the outcomes of an accepted COMPLETE, by the popped notice, its late count, its record and its target: an orphan is freed with no report; an AUTO notice, one with late count 0 or one that cannot be re-raised is freed and reported; a late count is re-raised into the record's notice at the target or in place, absorbing the record's pair; on a QUIESCING target it returns to the held count. The last COMPLETE of a QUIESCING target ends its quiesce, and the targets are judged. R65, R129: a notice that is removed leaves its entry, its level list and the creation order, and re-arms nothing; R115: one that is dropped re-arms its pins. R67: an absorbed pair leaves the deferred list and merges into the notice. R136: a QUIESCING target with an empty stack goes OFFLINE with its write-owed flag clear, and ends a TARGET_OFFLINE that waits for it. -/
def Obligations.CompleteOutcomes : Prop :=
  (∀ (s : State) (r : RequesterId) (t : TargetId) (w : Word) (e : EntryId) (below : List EntryId) (n : Notice)
    (late : Option Late) (orphan : Bool),
    let c := s.targets[t]
    let record := s.slots[n.slot]
    linkReady s → (c.owner = none ∨ c.owner = some r) → c.stack = e :: below → s.pool[e] = some n → NoticesStand s →
    field w 1 10 = n.slot.val → w.extractLsb' 11 8 = n.generation → field w 19 4 = n.level.val →
    n.phase = .inService late orphan →
    let p := { s with targets := s.targets.set t { c with stack := below } }
    let l := late.getD { count := 0, overflow := false }
    let brings : Placement := { count := l.count, overflow := l.overflow, payload := n.payload, pins := n.pins }
    let dropped := record.state = .retiring ∧ record.retireMode = some .discard
    ∃ v, exec (.complete r t w) s = .next (settle (endQuiesceIfEmpty t v))
      ∧ (orphan = true → v = handOverInTurn (dropNotice e p) e)
      ∧ (orphan = false → (l.count = 0 ∨ dropped ∨ placeable s t = false ∧ record.state ≠ .active ∧ record.state ≠ .held) →
          v = handOverInTurn (reportCeased n.slot (dropNotice e p)) e)
      ∧ (orphan = false → l.count ≠ 0 → ¬ dropped → placeable s t = true →
          (∀ home, residentAt s n.slot t = some home →
            v = handOverInTurn (reportCeased n.slot (removeNotice e (mergeInto home brings p))) e)
            ∧ (residentAt s n.slot t = none →
                v = absorbPair e n.slot t (startNotice e
                  { n with
                    level := record.level, rearm := record.rearm, count := l.count, overflow := l.overflow
                    phase := .gathering record.threshold
                      (if record.holdOff = 0 then none else some { start := s.now, limit := record.holdOff }) } p)))
      ∧ (orphan = false → l.count ≠ 0 → placeable s t = false → (record.state = .active ∨ record.state = .held) →
          v = handOverInTurn (removeNotice e (raiseIf (65535 < record.held.count + l.count) .countOverflow
            { p with slots := s.slots.set n.slot { record with held :=
                { count := min (record.held.count + l.count) 65535
                  overflow := record.held.overflow || 65535 < record.held.count + l.count
                  payload := some n.payload, pins := record.held.pins ||| n.pins } } })) e))
    ∧ (∀ (s : State) (e : EntryId),
         (s.pool[e] = none → removeNotice e s = s ∧ dropNotice e s = s)
           ∧ ∀ n, s.pool[e] = some n →
               let removed : State := { s with
                 pool := s.pool.set e none
                 order := s.order.erase e
                 targets := s.targets.set n.target { s.targets[n.target] with
                   lists := s.targets[n.target].lists.set n.level (s.targets[n.target].lists[n.level].erase e) } }
               removeNotice e s = removed
                 ∧ dropNotice e s = { removed with
                     pins := Vector.ofFn fun i => if n.pins.getLsbD i then rearmPin s.pins[i] else s.pins[i] })
    ∧ (∀ (s : State) (e : EntryId) (i : SlotId) (t : TargetId),
         (pairAt s i t = none → absorbPair e i t s = s)
           ∧ ∀ d, pairAt s i t = some d →
               absorbPair e i t s
                 = mergeInto e { count := d.count, overflow := d.overflow, payload := d.payload, pins := d.pins }
                     { s with deferred := s.deferred.filter fun x => !(x.slot == i && x.target == t) })
    ∧ (∀ (s : State) (t : TargetId),
         (s.targets[t].state = .quiescing → s.targets[t].stack = [] →
           endQuiesceIfEmpty t s = { s with
             targets := s.targets.set t { s.targets[t] with state := .offline, writeOwed := false }
             port := if s.port.flight = some (.offlineWait t) then s.port.concluded .ok [] else s.port })
           ∧ (s.targets[t].state ≠ .quiescing ∨ s.targets[t].stack ≠ [] → endQuiesceIfEmpty t s = s))

/-- R113 to R115, R72: the accepted COMPLETE of an orphan, of an AUTO notice or of one with late count 0 pops it, frees its entry and re-arms its pins; here with no pair deferred and a record that is not RETIRING. R136: where it empties the stack of a QUIESCING target, the target goes OFFLINE with its write-owed flag clear, and a TARGET_OFFLINE that waits for it ends with OK. -/
def Obligations.CompleteFreesTheEntry : Prop :=
  (∀ (s : State) (r : RequesterId) (t : TargetId) (w : Word) (e : EntryId) (below : List EntryId) (n : Notice)
     (late : Option Late) (orphan : Bool),
     let c := s.targets[t]
     linkReady s → (c.owner = none ∨ c.owner = some r) → c.stack = e :: below → s.pool[e] = some n →
     field w 1 10 = n.slot.val → w.extractLsb' 11 8 = n.generation → field w 19 4 = n.level.val →
     n.phase = .inService late orphan →
     (orphan = true ∨ s.slots[n.slot].state ≠ .retiring ∧ ∀ x, late = some x → x.count = 0) →
     s.deferred = [] → c.state ≠ .quiescing → NoticesStand s →
     exec (.complete r t w) s = .next (settle { s with
       targets := s.targets.set t { c with stack := below }
       pool := s.pool.set e none
       order := s.order.erase e
       pins := Vector.ofFn fun i => if n.pins.getLsbD i then rearmPin s.pins[i] else s.pins[i] }))
    ∧ (∀ (s : State) (r : RequesterId) (t : TargetId) (w : Word) (e : EntryId) (n : Notice) (late : Option Late)
         (orphan : Bool),
         let c := s.targets[t]
         linkReady s → (c.owner = none ∨ c.owner = some r) → c.stack = [e] → s.pool[e] = some n →
         field w 1 10 = n.slot.val → w.extractLsb' 11 8 = n.generation → field w 19 4 = n.level.val →
         n.phase = .inService late orphan →
         (orphan = true ∨ s.slots[n.slot].state ≠ .retiring ∧ ∀ x, late = some x → x.count = 0) →
         s.deferred = [] → c.state = .quiescing → NoticesStand s →
         exec (.complete r t w) s = .next (settle { s with
           targets := s.targets.set t { c with stack := [], state := .offline, writeOwed := false }
           pool := s.pool.set e none
           order := s.order.erase e
           pins := Vector.ofFn fun i => if n.pins.getLsbD i then rearmPin s.pins[i] else s.pins[i]
           port := if s.port.flight = some (.offlineWait t) then s.port.concluded .ok [] else s.port }))

/-- R116: the accepted COMPLETE of an EXPLICIT notice with a late count above 0, of an ACTIVE or HELD record on an ONLINE or STALLED target that holds no other notice or pair of it, starts a new notice of the record in the same entry. -/
def Obligations.CompleteReraisesTheLateCount : Prop :=
  ∀ (s : State) (r : RequesterId) (t : TargetId) (w : Word) (e : EntryId) (below : List EntryId) (n : Notice)
    (late : Late),
    let c := s.targets[t]
    let record := s.slots[n.slot]
    linkReady s → (c.owner = none ∨ c.owner = some r) → c.stack = e :: below → s.pool[e] = some n →
    field w 1 10 = n.slot.val → w.extractLsb' 11 8 = n.generation → field w 19 4 = n.level.val →
    n.phase = .inService (some late) false → late.count ≠ 0 →
    (record.state = .active ∨ record.state = .held) → (c.state = .online ∨ c.state = .stalled) →
    NoticesStand s → residentAt s n.slot t = none → pairAt s n.slot t = none →
    exec (.complete r t w) s = .next (settle (startNotice e
      { n with
        level := record.level, rearm := record.rearm, count := late.count, overflow := late.overflow
        phase := .gathering record.threshold
          (if record.holdOff = 0 then none else some { start := s.now, limit := record.holdOff }) }
      { s with targets := s.targets.set t { c with stack := below } }))

/-! ### Timers -/

/-- R60, R61: the expiry of a hold-off timer that has run for its hold-off ripens the notice. R94, R126: the expiry of a deadline timer that has run for the claim deadline stalls the target, raises TARGET_STALLED and re-homes its notices. R150, R168, R137: the wait timer that has run for its limit ends the command with TIMEOUT and no result words. A stopped timer, or one that has not run for its time, does not expire. -/
def Obligations.TimersExpire : Prop :=
  (∀ (s : State) (e : EntryId),
     (∀ n th x, s.pool[e] = some n → n.phase = .gathering th (some x) → x.start + x.limit ≤ s.now →
       exec (.holdOffExpiry e) s = .next (settle { s with
         pool := s.pool.set e (some { n with phase := .pending })
         targets := s.targets.set n.target { s.targets[n.target] with
           lists := s.targets[n.target].lists.set n.level (s.targets[n.target].lists[n.level] ++ [e]) } }))
       ∧ ((∀ n th x, s.pool[e] = some n → n.phase = .gathering th (some x) → s.now < x.start + x.limit) →
           exec (.holdOffExpiry e) s = .next s))
    ∧ (∀ (s : State) (t : TargetId),
         (∀ start, s.targets[t].deadlineStart = some start → start + s.targets[t].deadline ≤ s.now →
           exec (.claimDeadlineExpiry t) s = .next (settle (rehomeAndJudge t (raise .targetStalled
             { s with targets := s.targets.set t { s.targets[t] with state := .stalled, deadlineStart := none } }))))
           ∧ ((∀ start, s.targets[t].deadlineStart = some start → s.now < start + s.targets[t].deadline) →
               exec (.claimDeadlineExpiry t) s = .next s))
    ∧ (∀ s : State,
         (∀ x, s.port.waitTimer = some x → x.start + x.limit ≤ s.now →
           exec .waitTimerExpiry s = .next { s with port := s.port.concluded .timeout [] })
           ∧ ((∀ x, s.port.waitTimer = some x → s.now < x.start + x.limit) → exec .waitTimerExpiry s = .next s))

/-! ### The command port -/

/-- R143: a COMMAND write taken while the port is BUSY sets REJECTED and changes nothing else. -/
def Obligations.BusyPortRejects : Prop :=
  ∀ (s : State) (c : Instr) (code : BitVec 8), commandCode c = some code → linkReady s → s.port.flight ≠ none →
    exec c s = .next { s with port := { s.port with rejected := true } }

/-- R144, R146, R147 and the rule of each command: a command that fails a check ends at once with the code of the first check that fails, no result words, and no change outside the port; an unknown code ends with UNKNOWN_COMMAND. -/
def Obligations.FailedCheckChangesOnlyThePort : Prop :=
  ∀ (s : State) (c : Instr) (code : BitVec 8) (r : ResultCode), c.wellFormed = true → commandCode c = some code →
    commandReady s → firstFailing (checks c s) = some r →
    exec c s = .next { s with port := s.port.ended code r [] }

/-- R145: a write of an operand word replaces that word, whether a command is in flight or not. R149, R133, R176: an ABORT ends the command in flight with ABORTED, the counts of a walk as its result word, and has no effect while the port is IDLE. -/
def Obligations.OperandWritesAndAbort : Prop :=
  (∀ (s : State) (k : Fin 8) (w : Word), linkReady s →
     exec (.operandWrite k w) s = .next { s with port := { s.port with operands := s.port.operands.set k w } })
    ∧ (∀ s : State, linkReady s →
         (s.port.flight = none → exec .abort s = .next s)
           ∧ (∀ i f, s.port.flight = some (.retireWait i f) →
               exec .abort s = .next { s with port := s.port.concluded .aborted [] })
           ∧ (∀ t, s.port.flight = some (.offlineWait t) →
               exec .abort s = .next { s with port := s.port.concluded .aborted [] })
           ∧ (∀ t n, s.port.flight = some (.onlineWalk t n) →
               exec .abort s = .next { s with port := s.port.concluded .aborted [place 0 11 n] })
           ∧ (∀ kind key len changed skipped, s.port.flight = some (.groupWalk kind key len changed skipped) →
               exec .abort s
                 = .next { s with port := s.port.concluded .aborted [place 0 11 changed ||| place 16 11 skipped] }))

/-- R183: FAULT_CLEAR clears each cause it names and, for MISS, the capture and the more-misses flag; the offers pending and everything else stay. -/
def Obligations.FaultClearClearsTheNamedCauses : Prop :=
  ∀ (s : State) (w : Word), linkReady s → ∃ u, exec (.faultClear w) s = .next u
    ∧ u = { s with fsu := u.fsu }
    ∧ (∀ k : Fin 8, u.fsu.causes[k] = { s.fsu.causes[k] with flag := s.fsu.causes[k].flag && !w.getLsbD k })
    ∧ u.fsu.firstMiss = (if w.getLsbD 0 then none else s.fsu.firstMiss)
    ∧ u.fsu.moreMisses = (s.fsu.moreMisses && !w.getLsbD 0)

/-- R180, R181: a raise sets a clear cause and makes its offer, a pending one keeping its payload, and leaves a set cause as it is; a raise of MISS carries its key, captured if the capture is empty, and sets more-misses otherwise. R179: the causes have the codes 1 to 8. -/
def Obligations.RaiseOfACause : Prop :=
  (∀ s : State,
    (∀ c : Cause,
      let x := s.fsu.causes[causeIndex c]
      let y : CauseState := if x.flag = true then x else { flag := true, offer := some (x.offer.getD 0) }
      raise c s = { s with fsu := { s.fsu with causes := s.fsu.causes.set (causeIndex c) y } })
      ∧ ∀ key : Key,
          let x := s.fsu.causes[(0 : Fin 8)]
          let y : CauseState := if x.flag = true then x else { flag := true, offer := some (x.offer.getD key) }
          raiseMiss key s = { s with fsu := {
            causes := s.fsu.causes.set (0 : Fin 8) y
            firstMiss := some (s.fsu.firstMiss.getD key)
            moreMisses := s.fsu.moreMisses || s.fsu.firstMiss.isSome } })
    ∧ (∀ (c : Cause) (s : State), raiseIf true c s = raise c s ∧ raiseIf false c s = s)
    ∧ (∀ (c : Cause) (f : CauseState → CauseState) (s : State), modCause c f s = { s with fsu := { s.fsu with
         causes := s.fsu.causes.set (causeIndex c) (f s.fsu.causes[causeIndex c]) } })
    ∧ ([Cause.miss, .malformedEvent, .poolEmpty, .countOverflow, .targetStalled, .completeMismatch, .stackUnderflow,
        .registerAccess].map fun c => (causeIndex c).val + 1) = [1, 2, 3, 4, 5, 6, 7, 8]

/-- R3, R12, R38, R152: an INSTALL that passes its checks fills the slot from the image with the next generation and an empty held count, and re-arms every miss-disarmed pin. -/
def Obligations.InstallFillsTheSlot : Prop :=
  ∀ s : State, commandReady s → firstFailing (checks .install s) = none →
    let i := namedSlot s
    let ops := s.port.operands
    exec .install s = .next { s with
      slots := s.slots.set i
        { state := if field ops[0] 28 2 = 0 then .active else .held
          generation := s.slots[i].generation + 1
          key := ops[1]
          len := field ops[2] 0 6
          targets := (listedTargets ops[3]).map (Fin.ofNat 8)
          mode := if field ops[2] 8 2 = 0 then .first else if field ops[2] 8 2 = 1 then .rotate else .all
          rotation := 0
          level := Fin.ofNat 16 (field ops[2] 16 5)
          threshold := field ops[2] 24 8
          holdOff := field ops[4] 0 16
          rearm := if field ops[2] 12 2 = 0 then .auto else .explicit
          held := Held.empty
          retireMode := none }
      pins := Vector.ofFn fun p => clearMissDisarmed s.pins[p]
      port := s.port.ended 0x01 .ok [installWord i (s.slots[i].generation + 1)] }

/-- R19, R153: a MODIFY that passes its checks replaces six fields and sets the rotation index to 0; it re-arms no pin. R13, R14, R38, R154: HOLD makes the record HELD; RELEASE makes it ACTIVE, places a nonzero held count that has a placeable target, reports it, and re-arms every miss-disarmed pin. -/
def Obligations.ModifyHoldAndRelease : Prop :=
  (∀ s : State, commandReady s → firstFailing (checks .modify s) = none →
     let i := namedSlot s
     let ops := s.port.operands
     exec .modify s = .next { s with
       slots := s.slots.set i { s.slots[i] with
         targets := (listedTargets ops[3]).map (Fin.ofNat 8)
         mode := if field ops[2] 8 2 = 0 then .first else if field ops[2] 8 2 = 1 then .rotate else .all
         rotation := 0
         level := Fin.ofNat 16 (field ops[2] 16 5)
         threshold := field ops[2] 24 8
         holdOff := field ops[4] 0 16
         rearm := if field ops[2] 12 2 = 0 then .auto else .explicit }
       port := s.port.ended 0x02 .ok [] })
    ∧ (∀ s : State, commandReady s →
         let i := namedSlot s
         let h := s.slots[i].held
         (firstFailing (checks .hold s) = none →
           exec .hold s = .next { s with
             slots := s.slots.set i { s.slots[i] with state := .held }
             port := s.port.ended 0x03 .ok [] })
           ∧ (firstFailing (checks .release s) = none →
               (s.slots[i].state = .active ∨ h.count = 0 ∨ (∀ t ∈ s.slots[i].targets, placeable s t = false) →
                 exec .release s = .next { s with
                   slots := s.slots.set i { s.slots[i] with state := .active }
                   pins := Vector.ofFn fun p => clearMissDisarmed s.pins[p]
                   port := s.port.ended 0x04 .ok [releaseWord h false] })
                 ∧ (s.slots[i].state = .held → h.count ≠ 0 → (∃ t ∈ s.slots[i].targets, placeable s t = true) →
                     let v := settle (placeHeld i { s with
                       slots := s.slots.set i { s.slots[i] with state := .active }
                       port := s.port.taken 0x04 })
                     exec .release s = .next { v with
                       pins := Vector.ofFn fun p => clearMissDisarmed v.pins[p]
                       port := s.port.ended 0x04 .ok [releaseWord h true] })))

/-- R155, R156: QUERY and PROBE report and change nothing outside the port. The numbers that QUERY reports count the notices that carry the slot and its present generation and are no orphans, by their state, and the pairs of the slot (R74, R155). -/
def Obligations.QueryAndProbeReport : Prop :=
  (∀ s : State, commandReady s →
    (firstFailing (checks .query s) = none →
      exec .query s = .next { s with
        port := s.port.ended 0x05 .ok (queryWords s.slots[namedSlot s] (itemCounts s (namedSlot s))) })
      ∧ (∀ i, lookup s s.port.operands[0] = some i →
          exec .probe s = .next { s with port := s.port.ended 0x06 .ok [probeWord i s.slots[i]] })
      ∧ (lookup s s.port.operands[0] = none →
          exec .probe s = .next { s with port := s.port.ended 0x06 .notFound [] }))
    ∧ (∀ (s : State) (i : SlotId),
         let counted (p : Phase → Bool) : Nat := (List.finRange 512).countP fun e : EntryId =>
           (s.pool[e]).any fun n => n.slot == i && n.generation == s.slots[i].generation && p n.phase
         itemCounts s i =
           { gathering := counted fun
               | .gathering _ _ => true
               | _ => false
             pending := counted fun
               | .pending => true
               | _ => false
             inService := counted fun
               | .inService _ orphan => !orphan
               | _ => false
             pairs := s.deferred.countP fun d => d.slot == i })

/-- R197, R199: the fields of the claim result, whose low word written back is the COMPLETE of the notice, and of the result words of every command, with the bounds that R155 and R166 give their figures. -/
def Obligations.ResultWordFields : Prop :=
  (∀ n : Notice, n.count < 256 →
     (claimWord n).getLsbD 0 = true ∧ field (claimWord n) 1 10 = n.slot.val
       ∧ (claimWord n).extractLsb' 11 8 = n.generation ∧ field (claimWord n) 19 4 = n.level.val
       ∧ field (claimWord n) 23 8 = n.count ∧ (claimWord n).getLsbD 31 = n.overflow
       ∧ completeNames (claimWord n) n = true)
    ∧ ((∀ (i : SlotId) (g : BitVec 8),
         field (installWord i g) 0 11 = i.val ∧ (installWord i g).extractLsb' 16 8 = g
           ∧ field (installWord i g) 11 5 = 0 ∧ field (installWord i g) 24 8 = 0)
         ∧ (∀ (h : Held) (placed : Bool), h.count ≤ 65535 →
             field (releaseWord h placed) 0 16 = h.count ∧ (releaseWord h placed).getLsbD 16 = h.overflow
               ∧ (releaseWord h placed).getLsbD 17 = placed ∧ field (releaseWord h placed) 18 14 = 0)
         ∧ (∀ (i : SlotId) (r : Slot), r.len ≤ 32 →
             field (probeWord i r) 0 11 = i.val ∧ (probeWord i r).extractLsb' 16 8 = r.generation
               ∧ field (probeWord i r) 24 6 = r.len)
         ∧ (∀ changed skipped, changed ≤ 1024 → skipped ≤ 1024 →
             field (groupWord changed skipped) 0 11 = changed ∧ field (groupWord changed skipped) 16 11 = skipped)
         ∧ (∀ n, n ≤ 1024 → field (countWord n) 0 11 = n ∧ field (countWord n) 11 21 = 0))
    ∧ (∀ f : RetireFigures, f.heldCount ≤ 65535 → f.notices ≤ 512 → f.pairs ≤ 8 →
         (∃ w1 w2, f.words = [w1, w2]
           ∧ field w1 0 16 = f.heldCount ∧ w1.getLsbD 16 = f.heldOverflow ∧ field w1 17 15 = 0
           ∧ field w2 0 10 = f.notices ∧ field w2 10 6 = 0 ∧ field w2 16 4 = f.pairs ∧ field w2 20 12 = 0)
           ∧ ∀ orphans, orphans ≤ 32 → ∃ w1 w2, forceRetireWords f orphans = [w1, w2]
               ∧ field w1 0 16 = f.heldCount ∧ w1.getLsbD 16 = f.heldOverflow ∧ field w1 17 15 = 0
               ∧ field w2 0 10 = f.notices ∧ field w2 10 6 = 0 ∧ field w2 16 4 = f.pairs ∧ field w2 20 4 = 0
               ∧ field w2 24 6 = orphans ∧ field w2 30 2 = 0)
    ∧ (∀ (r : Slot) (n : ItemCounts), r.len ≤ 32 → r.rotation < 4 → r.targets.length ≤ 4 → r.threshold ≤ 255 →
         r.holdOff ≤ 65535 → r.held.count ≤ 65535 → n.gathering ≤ 512 → n.pending ≤ 512 → n.inService ≤ 32 →
         n.pairs ≤ 8 →
         ∃ w1 w2 w3 w4 w5 w6 w7, queryWords r n = [w1, w2, w3, w4, w5, w6, w7]
           ∧ field w1 0 2 = (if r.state = .free then 0 else if r.state = .active then 1 else if r.state = .held then 2 else 3)
           ∧ w1.extractLsb' 2 8 = r.generation ∧ field w1 10 6 = r.len
           ∧ field w1 16 2 = (if r.mode = .first then 0 else if r.mode = .rotate then 1 else 2)
           ∧ field w1 18 2 = r.rotation ∧ field w1 20 4 = r.level.val
           ∧ w1.getLsbD 24 = decide (r.rearm = .explicit) ∧ w1.getLsbD 25 = r.retireMode.isSome
           ∧ w1.getLsbD 26 = decide (r.retireMode = some .drain) ∧ field w1 27 5 = 0
           ∧ w2 = r.key
           ∧ field w3 0 3 = r.targets.length ∧ field w3 3 1 = 0
           ∧ (∀ k, k < 4 → field w3 (4 + 4 * k) 4 = (r.targets[k]?.map Fin.val).getD 0)
           ∧ field w3 20 4 = 0 ∧ field w3 24 8 = r.threshold
           ∧ field w4 0 16 = r.holdOff ∧ field w4 16 16 = r.held.count
           ∧ w5.getLsbD 0 = r.held.overflow ∧ w5.getLsbD 1 = r.held.payload.isSome ∧ field w5 2 10 = n.gathering
           ∧ field w5 12 10 = n.pending ∧ field w5 22 6 = n.inService ∧ field w5 28 4 = n.pairs
           ∧ w6 = r.held.payload.getD 0 ∧ w7 = r.held.pins)

/-- R18, R157: TABLE_CLEAR, with every target OFFLINE, sends every record to FREE with its generation kept, and reports how many records it sent to FREE. R11, R37: each held count discarded makes its own re-arm request at each pin of its pin set. -/
def Obligations.TableClearFreesEveryRecord : Prop :=
  ∀ s : State, commandReady s → (∀ t : TargetId, s.targets[t].state = .offline) →
    ∃ u, exec .tableClear s = .next u
      ∧ u = { s with slots := u.slots, pins := u.pins, port := u.port }
      ∧ (∀ i : SlotId, u.slots[i] =
          { state := .free, generation := s.slots[i].generation, key := 0, len := 0, targets := [], mode := .first
            rotation := 0, level := 0, threshold := 0, holdOff := 0, rearm := .auto
            held := { count := 0, overflow := false, payload := none, pins := 0 }, retireMode := none })
      ∧ (∀ p : PinId, u.pins[p]
          = Nat.repeat rearmPin (s.slots.toList.countP fun r => r.held.pins.getLsbD p) s.pins[p])
      ∧ u.port = s.port.ended 0x10 .ok [countWord (s.slots.toList.countP fun r => r.state != .free)]

/-- R79, R158: a TARGET_SET that passes its checks replaces the six configuration fields and nothing else. -/
def Obligations.TargetSetConfigures : Prop :=
  ∀ s : State, commandReady s → firstFailing (checks .targetSet s) = none →
    let t := namedTarget s
    let ops := s.port.operands
    exec .targetSet s = .next { s with
      targets := s.targets.set t { s.targets[t] with
        method := if field ops[0] 8 2 = 0 then .pin else .write
        address := ops[2] ++ ops[1]
        data := ops[3]
        groupOrder := #v[Fin.ofNat 4 (field ops[4] 16 3), Fin.ofNat 4 (field ops[4] 20 3),
          Fin.ofNat 4 (field ops[4] 24 3), Fin.ofNat 4 (field ops[4] 28 3)]
        deadline := field ops[4] 0 16
        owner := if field ops[0] 12 2 = 0 then none else some (ops[5].setWidth 16) }
      port := s.port.ended 0x0C .ok [] }

/-- R131: TARGET_ONLINE of an ONLINE target ends at once with a converted count of 0; of an OFFLINE or STALLED one, the target is ONLINE and the walk is in flight from slot 0. R132, R51: the TARGET_ONLINE walk takes one slot: it places the held count of an ACTIVE record that lists the target and has a placeable target, passes over any other slot, and ends with OK and the converted count after slot 1023. -/
def Obligations.TargetOnlineAndItsWalk : Prop :=
  (∀ s : State, commandReady s → firstFailing (checks .targetOnline s) = none →
     let t := namedTarget s
     (s.targets[t].state = .online →
       exec .targetOnline s = .next { s with port := s.port.ended 0x0D .ok [0] })
       ∧ (s.targets[t].state ≠ .online →
           exec .targetOnline s = .next (settle { s with
             targets := s.targets.set t { s.targets[t] with state := .online }
             port := { s.port.taken 0x0D with flight := some (.onlineWalk t 0) } })))
    ∧ (∀ (s : State) (t : TargetId) (n : Nat), s.port.flight = some (.onlineWalk t n) → s.port.walkPosition < 1024 →
         let i : SlotId := Fin.ofNat 1024 s.port.walkPosition
         let r := s.slots[i]
         let qualifies := r.state = .active ∧ r.held.count ≠ 0 ∧ t ∈ r.targets ∧ ∃ u ∈ r.targets, placeable s u = true
         let after (p : Port) (k : Nat) : Port :=
           let q := { p with walkPosition := s.port.walkPosition + 1, flight := some (.onlineWalk t k) }
           if s.port.walkPosition = 1023 then q.concluded .ok [countWord k] else q
         (¬ qualifies → exec .targetOnlineWalkSlot s = .next { s with port := after s.port n })
           ∧ (qualifies → exec .targetOnlineWalkSlot s
               = .next { settle (placeHeld i s) with port := after s.port (n + 1) }))

/-- R172, R173: a group walk that passes its checks is in flight from slot 0 with nothing counted. R173: a group walk takes one slot: it passes over a slot outside its group, counts as skipped a member that is RETIRING or already in the state produced, changes any other member and counts it, and ends with OK after slot 1023. R174, R14: a released member is ACTIVE, and a nonzero held count that has a placeable target is placed. R175, R164, R165: a member retired under DISCARD or DRAIN is treated as a RETIRE treats its record (RetireTreatsTheRecord). -/
def Obligations.GroupWalks : Prop :=
  (∀ s : State, commandReady s →
     let key := s.port.operands[0]
     let len := field s.port.operands[1] 0 6
     (firstFailing (checks .groupHold s) = none → exec .groupHold s = .next { s with
       port := { s.port.taken 0x09 with flight := some (.groupWalk .hold key len 0 0) } })
       ∧ (firstFailing (checks .groupRelease s) = none → exec .groupRelease s = .next { s with
           port := { s.port.taken 0x0A with flight := some (.groupWalk .release key len 0 0) } })
       ∧ (firstFailing (checks .groupRetire s) = none → exec .groupRetire s = .next { s with
           port := { s.port.taken 0x0B with
             flight := some (.groupWalk
               (.retire (if field s.port.operands[1] 16 2 = 0 then .discard else .drain)) key len 0 0) } }))
    ∧ (∀ (s : State) (kind : GroupKind) (key : Key) (len changed skipped : Nat),
         s.port.flight = some (.groupWalk kind key len changed skipped) → s.port.walkPosition < 1024 → len ≤ 32 →
         let i : SlotId := Fin.ofNat 1024 s.port.walkPosition
         let r := s.slots[i]
         let isMember := r.state ≠ .free ∧ len ≤ r.len ∧ ∀ k, k < len → r.key.getMsbD k = key.getMsbD k
         let already := r.state = .retiring ∨ kind = .hold ∧ r.state = .held ∨ kind = .release ∧ r.state = .active
         let after (p : Port) (c k : Nat) : Port :=
           let q := { p with walkPosition := s.port.walkPosition + 1, flight := some (.groupWalk kind key len c k) }
           if s.port.walkPosition = 1023 then q.concluded .ok [groupWord c k] else q
         (¬ isMember → exec .groupWalkSlot s = .next { s with port := after s.port changed skipped })
           ∧ (isMember → already → exec .groupWalkSlot s = .next { s with port := after s.port changed (skipped + 1) })
           ∧ (isMember → ¬ already →
               (kind = .hold → exec .groupWalkSlot s = .next { s with
                 slots := s.slots.set i { r with state := .held }, port := after s.port (changed + 1) skipped })
                 ∧ (kind = .release → exec .groupWalkSlot s
                     = .next { releaseRecord i s with port := after s.port (changed + 1) skipped })
                 ∧ (∀ mode, kind = .retire mode → exec .groupWalkSlot s
                     = .next { retireRecord i mode s with port := after s.port (changed + 1) skipped })))
    ∧ (∀ (s : State) (i : SlotId),
         let h := s.slots[i].held
         let active : State := { s with slots := s.slots.set i { s.slots[i] with state := .active } }
         (s.slots[i].state = .held → h.count ≠ 0 → (∃ t ∈ s.slots[i].targets, placeable s t = true) →
           releaseRecord i s = settle (placeHeld i active))
           ∧ (s.slots[i].state ≠ .held ∨ h.count = 0 ∨ (∀ t ∈ s.slots[i].targets, placeable s t = false) →
               releaseRecord i s = active))
    ∧ (∀ (s : State) (i : SlotId), (∀ f, s.port.flight ≠ some (.retireWait i f)) →
         let r := s.slots[i]
         (NoticesStand s →
           let gone := discardable s i
           retireRecord i .discard s = settle (handOverAll gone (settle { s with
             slots := s.slots.set i (if (itemCounts s i).inService = 0 then Slot.freeOf r.generation
               else { r with state := .retiring, held := Held.empty, retireMode := some .discard })
             deferred := s.deferred.filter fun d => d.slot != i
             pool := Vector.ofFn fun e => if e ∈ gone then none else s.pool[e]
             order := s.order.filter fun e => !gone.contains e
             targets := s.targets.map fun c => { c with lists := c.lists.map (·.filter fun e => !gone.contains e) }
             pins := Vector.ofFn fun p => Nat.repeat rearmPin (carriers s i p) s.pins[p] })))
           ∧ retireRecord i .drain s
               = settle ((s.order.filter fun e => (s.pool[e]).any fun n => n.isGathering && ownedBy s i n).foldl
                   (fun v e => settle (ripen e v)) { s with
                     slots := s.slots.set i (if outstanding s i = 0 then Slot.freeOf r.generation
                       else { r with state := .retiring, held := Held.empty, retireMode := some .drain })
                     pins := Vector.ofFn fun p => if r.held.pins.getLsbD p then rearmPin s.pins[p] else s.pins[p] }))

/-- R163 to R166: a RETIRE that passes its checks leaves the record FREE, or RETIRING under its mode with an empty held count; under DISCARD no pair and no GATHERING or PENDING notice of it is left, under DRAIN its GATHERING notices are PENDING; the command ends with OK if the record is FREE, with STARTED if not and the wait limit is 0, and otherwise stays in flight with the wait timer started. No other slot, no target but in its lists and signals, and nothing of the link, the intake queue or the FSU changes. R164 to R166: a RETIRE of a record with no notice and no pair sends it to FREE at once, re-arms its held pins and reports the held count. R69, R72, R164: under DISCARD, exactly the record's pairs and its GATHERING and PENDING notices are gone, each carrier's pins re-armed by a request of its own, every other notice and pair kept; the record is FREE if it has no notice in service, and only then are the freed entries handed over. R165, R87: under DRAIN, its GATHERING notices ripen in creation order, each at the tail of its list, its target judged in its turn; the record is FREE if it has nothing outstanding. -/
def Obligations.RetireTreatsTheRecord : Prop :=
  (∀ s : State, commandReady s → firstFailing (checks .retire s) = none →
     let i := namedSlot s
     let wait := field s.port.operands[1] 0 16
     let mode : RetireMode := if field s.port.operands[1] 16 2 = 0 then .discard else .drain
     let f := retireFigures s i mode
     ∃ u, exec .retire s = .next u
       ∧ u = { s with
           slots := s.slots.set i u.slots[i]
           pool := u.pool, order := u.order, deferred := u.deferred, pins := u.pins, targets := u.targets
           port := u.port, notifyWrites := u.notifyWrites, free := u.free }
       ∧ (∀ t : TargetId, u.targets[t] = { s.targets[t] with
           lists := u.targets[t].lists, ntf := u.targets[t].ntf, deliverable := u.targets[t].deliverable
           deadlineStart := u.targets[t].deadlineStart, writeOwed := u.targets[t].writeOwed })
       ∧ (mode = .discard → (∀ d ∈ u.deferred, d.slot ≠ i) ∧
           ∀ (e : EntryId) (n : Notice), u.pool[e] = some n → n.slot = i → n.generation = s.slots[i].generation →
             n.isOrphan = false → n.isInService = true)
       ∧ (mode = .drain → u.deferred = s.deferred ∧ ∀ e ∈ s.order, u.pool[e] = (s.pool[e]).map fun n =>
           if n.isGathering && ownedBy s i n then { n with phase := .pending } else n)
       ∧ (u.slots[i] = Slot.freeOf s.slots[i].generation ∧ u.port = s.port.ended 0x07 .ok f.words
           ∨ u.slots[i] = { s.slots[i] with state := .retiring, held := Held.empty, retireMode := some mode }
             ∧ (wait = 0 → u.port = s.port.ended 0x07 .started f.words)
             ∧ (wait ≠ 0 → u.port = { s.port.taken 0x07 with
                 flight := some (.retireWait i f), waitTimer := some { start := s.now, limit := wait * 1000 } })))
    ∧ (∀ s : State, commandReady s → firstFailing (checks .retire s) = none →
         let i := namedSlot s
         outstanding s i = 0 →
         exec .retire s = .next { settle { s with
             slots := s.slots.set i (Slot.freeOf s.slots[i].generation)
             pins := Vector.ofFn fun p => if s.slots[i].held.pins.getLsbD p then rearmPin s.pins[p] else s.pins[p] } with
           port := s.port.ended 0x07 .ok
             [place 0 16 s.slots[i].held.count ||| placeFlag 16 s.slots[i].held.overflow, 0] })
    ∧ (∀ s : State, commandReady s → firstFailing (checks .retire s) = none → NoticesStand s →
         let i := namedSlot s
         let r := s.slots[i]
         let wait := field s.port.operands[1] 0 16
         let counts := itemCounts s i
         let ends (f : RetireFigures) (free : Bool) : Port :=
           if free then s.port.ended 0x07 .ok f.words
           else if wait = 0 then s.port.ended 0x07 .started f.words
           else { s.port.taken 0x07 with
             flight := some (.retireWait i f), waitTimer := some { start := s.now, limit := wait * 1000 } }
         (field s.port.operands[1] 16 2 = 0 →
           let gone := discardable s i
           let free := counts.inService == 0
           exec .retire s = .next { settle (handOverAll gone (settle { s with
               slots := s.slots.set i (if free then Slot.freeOf r.generation
                 else { r with state := .retiring, held := Held.empty, retireMode := some .discard })
               deferred := s.deferred.filter fun d => d.slot != i
               pool := Vector.ofFn fun e => if e ∈ gone then none else s.pool[e]
               order := s.order.filter fun e => !gone.contains e
               targets := s.targets.map fun c => { c with lists := c.lists.map (·.filter fun e => !gone.contains e) }
               pins := Vector.ofFn fun p => Nat.repeat rearmPin (carriers s i p) s.pins[p] })) with
             port := ends { heldCount := r.held.count, heldOverflow := r.held.overflow
                            notices := counts.gathering + counts.pending, pairs := counts.pairs } free })
           ∧ (field s.port.operands[1] 16 2 ≠ 0 →
               let ripening := s.order.filter fun e => (s.pool[e]).any fun n => n.isGathering && ownedBy s i n
               let free := outstanding s i == 0
               ∃ u, exec .retire s = .next u
                 ∧ u = { settle (ripening.foldl (fun v e => settle (ripen e v)) { s with
                       slots := s.slots.set i (if free then Slot.freeOf r.generation
                         else { r with state := .retiring, held := Held.empty, retireMode := some .drain })
                       pins := Vector.ofFn fun p =>
                         if r.held.pins.getLsbD p then rearmPin s.pins[p] else s.pins[p] }) with
                     port := ends { heldCount := r.held.count, heldOverflow := r.held.overflow
                                    notices := counts.gathering, pairs := 0 } free }
                 ∧ u.order = s.order
                 ∧ (∀ (t : TargetId) (l : Level), u.targets[t].lists[l]
                     = s.targets[t].lists[l] ++ ripening.filter fun e =>
                         (s.pool[e]).any fun n => n.target == t && n.level == l)))

/-- R170, R171: a FORCE_RETIRE that passes its checks sends the record to FREE with its generation kept, makes its IN_SERVICE notices orphans, and leaves no pair of it and no other notice of it. No other slot, no target but in its lists and signals, and nothing of the link, the intake queue or the FSU changes. R69, R72, R170: exactly the record's pairs and its GATHERING and PENDING notices are gone, each carrier's pins re-armed by a request of its own; its IN_SERVICE notices become orphans and the slot FREE; every other notice and pair is kept; then the freed entries are handed over. -/
def Obligations.ForceRetireFreesTheRecord : Prop :=
  (∀ s : State, commandReady s → firstFailing (checks .forceRetire s) = none →
    let i := namedSlot s
    ∃ u, exec .forceRetire s = .next u
      ∧ u = { s with
          slots := s.slots.set i (Slot.freeOf s.slots[i].generation)
          pool := u.pool, order := u.order, deferred := u.deferred, pins := u.pins, targets := u.targets
          port := s.port.ended 0x08 .ok (forceRetireWords (retireFigures s i .discard) (itemCounts s i).inService)
          notifyWrites := u.notifyWrites, free := u.free }
      ∧ (∀ t : TargetId, u.targets[t] = { s.targets[t] with
          lists := u.targets[t].lists, ntf := u.targets[t].ntf, deliverable := u.targets[t].deliverable
          deadlineStart := u.targets[t].deadlineStart, writeOwed := u.targets[t].writeOwed })
      ∧ (∀ d ∈ u.deferred, d.slot ≠ i)
      ∧ (∀ (e : EntryId) (n : Notice), u.pool[e] = some n → n.slot = i → n.generation = s.slots[i].generation →
          n.isOrphan = true)
      ∧ (∀ (e : EntryId) (n : Notice) (late : Option Late), s.pool[e] = some n → n.slot = i →
          n.generation = s.slots[i].generation → n.phase = .inService late false →
          u.pool[e] = some { n with phase := .inService late true }))
    ∧ (∀ s : State, commandReady s → firstFailing (checks .forceRetire s) = none → NoticesStand s →
         let i := namedSlot s
         let r := s.slots[i]
         let counts := itemCounts s i
         let gone := discardable s i
         let left := settle { s with
           slots := s.slots.set i { r with held := Held.empty }
           deferred := s.deferred.filter fun d => d.slot != i
           pool := Vector.ofFn fun e => if e ∈ gone then none else s.pool[e]
           order := s.order.filter fun e => !gone.contains e
           targets := s.targets.map fun c => { c with lists := c.lists.map (·.filter fun e => !gone.contains e) }
           pins := Vector.ofFn fun p => Nat.repeat rearmPin (carriers s i p) s.pins[p] }
         exec .forceRetire s = .next { settle (handOverAll gone { left with
             slots := s.slots.set i (Slot.freeOf r.generation)
             pool := left.pool.map fun o => o.map fun n =>
               match n.phase with
               | .inService late false =>
                 if n.slot = i ∧ n.generation = r.generation then { n with phase := .inService late true } else n
               | _ => n }) with
           port := s.port.ended 0x08 .ok (forceRetireWords
             { heldCount := r.held.count, heldOverflow := r.held.overflow
               notices := counts.gathering + counts.pending, pairs := counts.pairs } counts.inService) })

/-- R134 to R138: a TARGET_OFFLINE that passes its checks leaves the target OFFLINE with its write-owed flag clear when its stack was empty or FORCE is given, and QUIESCING otherwise, ended with STARTED or in flight with the wait timer by the wait limit; no pair for it and no GATHERING or PENDING notice on it is left; it keeps its configuration, enable flag, level mask and last payload. A record that changes is one that was RETIRING and has become FREE; of the FSU only COUNT_OVERFLOW may change, by a merge, and under DROP nothing; the other targets change in their lists and signals alone; nothing of the link or the intake queue changes. The pairs of other targets keep their order; each that leaves the list became, or was absorbed by, a notice of its record at its target. A notice that stands on another target stays in its entry with its record, target, level and re-arm mode, unchanged under DROP or in service, and so does a notice in service on the target unless FORCE is given. R135, R138, R69, R72, R16: the state that follows, step by step, for notices that stand in their places: the pairs for the target cease; under REHOME its notices are re-homed and the targets judged; what is left on it ceases and the freed entries are handed over; under FORCE so do the entries of its stack. What ceases re-arms its pins, once for each carrier, and frees a RETIRING record with its last item (`ceased`; order of judging and hand-over: log entries 11 and 20). -/
def Obligations.TargetOfflineQuiesces : Prop :=
  (∀ s : State, commandReady s → firstFailing (checks .targetOffline s) = none →
    let t := namedTarget s
    let force := s.port.operands[0].getLsbD 12
    let wait := field s.port.operands[1] 0 16
    ∃ u, exec .targetOffline s = .next u
      ∧ u = { s with
          slots := u.slots, pool := u.pool, order := u.order, deferred := u.deferred, pins := u.pins
          targets := u.targets, port := u.port, fsu := u.fsu, notifyWrites := u.notifyWrites, free := u.free }
      ∧ (∀ i : SlotId, u.slots[i] = s.slots[i]
          ∨ s.slots[i].state = .retiring ∧ u.slots[i] = Slot.freeOf s.slots[i].generation)
      ∧ (u.fsu = s.fsu ∨ field s.port.operands[0] 8 2 = 0 ∧ u.fsu = (raise .countOverflow s).fsu)
      ∧ (∀ k : TargetId, k ≠ t → u.targets[k] = { s.targets[k] with
          lists := u.targets[k].lists, ntf := u.targets[k].ntf, deliverable := u.targets[k].deliverable
          deadlineStart := u.targets[k].deadlineStart, writeOwed := u.targets[k].writeOwed })
      ∧ u.targets[t] = { s.targets[t] with
          state := u.targets[t].state, lists := u.targets[t].lists, stack := u.targets[t].stack
          writeOwed := u.targets[t].writeOwed, deadlineStart := none, ntf := false, deliverable := false }
      ∧ (∀ d ∈ u.deferred, d.target ≠ t)
      ∧ (∀ (e : EntryId) (n : Notice), u.pool[e] = some n → n.target = t → n.isInService = true)
      ∧ (force = true ∨ s.targets[t].stack = [] →
          u.targets[t].state = .offline ∧ u.targets[t].stack = [] ∧ u.targets[t].writeOwed = false
            ∧ u.port = s.port.ended 0x0E .ok [])
      ∧ (force = false → s.targets[t].stack ≠ [] →
          u.targets[t].state = .quiescing ∧ u.targets[t].stack = s.targets[t].stack
            ∧ (wait = 0 → u.port = s.port.ended 0x0E .started [])
            ∧ (wait ≠ 0 → u.port = { s.port.taken 0x0E with
                flight := some (.offlineWait t), waitTimer := some { start := s.now, limit := wait * 1000 } }))
      ∧ u.deferred.Sublist (s.deferred.filter fun d => d.target != t)
      ∧ (NoticesStand s →
          (∀ d ∈ s.deferred, d.target ≠ t → d ∈ u.deferred ∨
              ∃ (e : EntryId) (n : Notice), u.pool[e] = some n ∧ n.isInService = false ∧ n.slot = d.slot ∧ n.target = d.target)
            ∧ ∀ (e : EntryId) (n : Notice), s.pool[e] = some n →
                n.target ≠ t ∨ n.isInService = true ∧ force = false →
                (∃ m, u.pool[e] = some m ∧ m.slot = n.slot ∧ m.generation = n.generation ∧ m.target = n.target
                  ∧ m.level = n.level ∧ m.rearm = n.rearm)
                  ∧ (n.isInService = true ∨ field s.port.operands[0] 8 2 ≠ 0 → u.pool[e] = some n)))
    ∧ (∀ s : State, commandReady s → firstFailing (checks .targetOffline s) = none → NoticesStand s →
         let t := namedTarget s
         let force := s.port.operands[0].getLsbD 12
         let wait := field s.port.operands[1] 0 16
         let paired := ceased (fun d => d.target == t) [] { s with
           targets := s.targets.set t { s.targets[t] with state := .quiescing }
           port := s.port.taken 0x0E }
         let moved := if field s.port.operands[0] 8 2 = 0 then rehomeAndJudge t paired else paired
         let left := (List.finRange 512).filter fun e => (moved.pool[e]).any fun n => !n.isInService && n.target == t
         let cleared := handOverAll left (settle (ceased (fun _ => false) left moved))
         let stacked := (List.finRange 512).filter fun e => cleared.targets[t].stack.contains e
         let forced := handOverAll stacked (settle (ceased (fun _ => false) stacked { cleared with
           targets := cleared.targets.set t { cleared.targets[t] with stack := [] } }))
         let offline (u : State) : State := { u with
           targets := u.targets.set t { u.targets[t] with state := .offline, writeOwed := false }
           port := s.port.ended 0x0E .ok [] }
         cleared.targets[t].stack = s.targets[t].stack
           ∧ (force = true → exec .targetOffline s = .next (settle (offline forced)))
           ∧ (force = false → s.targets[t].stack = [] → exec .targetOffline s = .next (settle (offline cleared)))
           ∧ (force = false → s.targets[t].stack ≠ [] →
               (wait = 0 → exec .targetOffline s = .next (settle { cleared with port := s.port.ended 0x0E .started [] }))
                 ∧ (wait ≠ 0 → exec .targetOffline s = .next (settle { cleared with
                     port := { s.port.taken 0x0E with
                       flight := some (.offlineWait t), waitTimer := some { start := s.now, limit := wait * 1000 } } }))))

/-! ### Resets -/

/-- R25, R32, R40, R75, R97, R161, R186, R193: the values of a function reset. R191: bus-master enable is clear; the link state is the one the link retrains to, here the operand, and a function reset while PORST# is asserted changes nothing (the model's choices, log entry 16). The timebase, the record of what was sent and answered and the raw inputs are the model's own fields, kept (log entries 1, 4 and 5). -/
def Obligations.FunctionResetValues : Prop :=
  (∀ (s : State) (l : LinkState), s.porst = true → exec (.functionReset l) s = .next s)
    ∧ ∀ (s : State) (l : LinkState), s.porst = false → ∃ u, exec (.functionReset l) s = .next u
        ∧ u = { s with
            link := { state := l, busMaster := false, waiting := [], regaining := [] }
            intake := []
            pins := u.pins, slots := u.slots, targets := u.targets
            pool := Vector.replicate 512 none, order := [], deferred := []
            port :=
              { operands := Vector.replicate 8 0, code := 0, flightOperands := Vector.replicate 8 0, rejected := false
                resultCode := .none, resultLength := 0, results := Vector.replicate 8 0, walkPosition := 0
                waitTimer := none, flight := none }
            fsu :=
              { causes := Vector.replicate 8 { flag := false, offer := none }, firstMiss := none, moreMisses := false } }
        ∧ (∀ i : SlotId,
            ((s.slots[i].state = .active ∨ s.slots[i].state = .held) →
              u.slots[i] = { s.slots[i] with rotation := 0, held := Held.empty })
              ∧ (s.slots[i].state = .retiring → u.slots[i] = Slot.freeOf s.slots[i].generation)
              ∧ (s.slots[i].state = .free → u.slots[i] = s.slots[i]))
        ∧ (∀ t : TargetId,
            let c := s.targets[t]
            u.targets[t] =
              { state := .offline, method := c.method, address := c.address, data := c.data, groupOrder := c.groupOrder
                deadline := c.deadline, owner := c.owner, enabled := false, mask := 0, lists := Vector.replicate 16 []
                stack := [], deadlineStart := none, writeOwed := false, lastPayload := 0, ntf := false
                deliverable := false })
        ∧ (∀ p : PinId,
            let x := s.pins[p]
            let asserted := x.sense == .high && x.filtered || x.sense == .low && !x.filtered
            u.pins[p] = { x with latch := false, missDisarmed := false, armed := !asserted, offer := asserted })

/-- R24, R32, R40, R75, R96, R161, R186, R191, R193: the values of power-on reset of every block. The model's own: POWER_ON_RESET leaves PORST# asserted (log entry 22), and the timebase, the record of what was sent and answered and the raw inputs are kept (log entries 1, 4 and 5). -/
def Obligations.PowerOnResetValues : Prop :=
  ∀ s : State, ∃ u, exec .powerOnReset s = .next u
    ∧ u.porst = true ∧ u.link = { state := .down, busMaster := false, waiting := [], regaining := [] } ∧ u.intake = []
    ∧ (∀ i : SlotId, u.slots[i] =
        { state := .free, generation := 0, key := 0, len := 0, targets := [], mode := .first, rotation := 0, level := 0
          threshold := 0, holdOff := 0, rearm := .auto
          held := { count := 0, overflow := false, payload := none, pins := 0 }, retireMode := none })
    ∧ (∀ p : PinId, u.pins[p] =
        { raw := s.pins[p].raw, sense := .disabled, filter := 0, filtered := false, timing := none, latch := false
          armed := true, offer := false, missDisarmed := false })
    ∧ u.pool = Vector.replicate 512 none ∧ u.order = [] ∧ u.deferred = []
    ∧ (∀ t : TargetId, u.targets[t] =
        { state := .offline, method := .pin, address := 0, data := 0, groupOrder := #v[3, 2, 1, 0], deadline := 0
          owner := none, enabled := false, mask := 0, lists := Vector.replicate 16 [], stack := []
          deadlineStart := none, writeOwed := false, lastPayload := 0, ntf := false, deliverable := false })
    ∧ u.port =
        { operands := Vector.replicate 8 0, code := 0, flightOperands := Vector.replicate 8 0, rejected := false
          resultCode := .none, resultLength := 0, results := Vector.replicate 8 0, walkPosition := 0
          waitTimer := none, flight := none }
    ∧ u.fsu =
        { causes := Vector.replicate 8 { flag := false, offer := none }, firstMiss := none, moreMisses := false }
    ∧ u.pending = s.pending ∧ u.now = s.now ∧ u.notifyWrites = s.notifyWrites ∧ u.answers = s.answers

/-- R193, R201, R40: the release of PORST# starts the pins following their inputs and leaves every other value. R193, R191: while PORST# is asserted no access reaches the part, and while the link is DOWN none does; each access command then leaves the state as it is (log entries 8 and 22), as do LINK_UP, a bus-master enable write and a function reset while PORST# is asserted (log entries 17 and 16); a change of an input is then noted as its level alone, and no level enters a filtered level (R201, log entry 5). A PORST_RELEASE with PORST# released leaves the state as it is (log entry 8). The state after reset is the state a power-on reset leaves, with PORST# released (log entries 3 to 7 name the values that are the model's own). -/
def Obligations.PorstReleaseAndTheResetState : Prop :=
  (∀ s : State, s.porst = true →
     (∃ u, exec .porstRelease s = .next u ∧ u = { s with porst := false, pins := u.pins }
       ∧ ∀ p : PinId, u.pins[p] =
           if s.pins[p].raw = s.pins[p].filtered then s.pins[p] else { s.pins[p] with timing := some s.now })
       ∧ (∀ r t form, exec (.claim r t form) s = .next s) ∧ (∀ r t w, exec (.complete r t w) s = .next s)
       ∧ (∀ c code, commandCode c = some code → exec c s = .next s)
       ∧ exec .linkUp s = .next s ∧ (∀ on, exec (.busMasterEnableWrite on) s = .next s)
       ∧ (∀ l, exec (.functionReset l) s = .next s)
       ∧ (∀ pin level, exec (.evtInputChange pin level) s
           = .next { s with pins := s.pins.set pin { s.pins[pin] with raw := level } })
       ∧ (∀ pin, exec (.filteredLevelChange pin) s = .next s))
    ∧ (∀ s : State, s.porst = false → exec .porstRelease s = .next s)
    ∧ (∃ u, exec .powerOnReset State.reset = .next u ∧ exec .porstRelease u = .next State.reset)
    ∧ (∀ s : State, s.porst = true ∨ s.link.state = .down →
         (∀ r off size data, exec (.eventMessage r off size data) s = .next s)
           ∧ (∀ r t form, exec (.claim r t form) s = .next s) ∧ (∀ r t w, exec (.complete r t w) s = .next s)
           ∧ (∀ r t w, exec (.enable r t w) s = .next s) ∧ (∀ r t w, exec (.mask r t w) s = .next s)
           ∧ (∀ c code, commandCode c = some code → exec c s = .next s)
           ∧ (∀ k w, exec (.operandWrite k w) s = .next s) ∧ exec .abort s = .next s
           ∧ (∀ w, exec (.faultClear w) s = .next s) ∧ (∀ a, exec (.refusedAccess a) s = .next s)
           ∧ (∀ r t w, exec (.ownerRefusedRead r t w) s = .next s))
    ∧ (∀ s : State, s.porst = true → exec .porstRelease s = .next { s with
         porst := false
         pins := Vector.ofFn fun p =>
           if s.pins[p].raw = s.pins[p].filtered then s.pins[p] else { s.pins[p] with timing := some s.now } })

/-! ### Invariants -/

/-- The invariants hold after reset. -/
def Obligations.InvariantsHoldAfterReset : Prop :=
  IntakeBounded State.reset ∧ StacksBounded State.reset ∧ CaptureFollowsMiss State.reset ∧ MatchesDiffer State.reset
    ∧ RecordsWellFormed State.reset ∧ HeldCountsWhole State.reset ∧ SignalsFollow State.reset
    ∧ PortConsistent State.reset ∧ NoticesStand State.reset ∧ WorkBelongs State.reset ∧ StacksOrdered State.reset
    ∧ WorkDistinct State.reset ∧ CountsBounded State.reset ∧ ConfigsLegal State.reset

/-- R30, R98: every step keeps the intake queue at no more than 32 arrivals and every stack at no more than 4 entries. R181: every step keeps the first-miss capture full exactly while MISS is set. R76: every step keeps every target's group order a permutation of the four groups, its notify address a multiple of 4 and its claim deadline at most 65535 µs. -/
def Obligations.StepKeepsQueuesAndCapture : Prop :=
  (∀ s t : State, IntakeBounded s → StacksBounded s → step s = .next t → IntakeBounded t ∧ StacksBounded t)
    ∧ (∀ s t : State, CaptureFollowsMiss s → step s = .next t → CaptureFollowsMiss t)
    ∧ (∀ s t : State, ConfigsLegal s → step s = .next t → ConfigsLegal t)

/-- R22: every step keeps the match keys and lengths of the records outside FREE distinct. R1, R2, R9, R11: every step keeps every slot and every held count well-formed. -/
def Obligations.StepKeepsTheRouteTable : Prop :=
  (∀ s t : State, MatchesDiffer s → step s = .next t → MatchesDiffer t)
    ∧ (∀ s t : State, RecordsWellFormed s → HeldCountsWhole s → step s = .next t →
         RecordsWellFormed t ∧ HeldCountsWhole t)

/-- R87, R89, R93: every step keeps the notify pins, the judged deliverability and the deadline timers following deliverability. -/
def Obligations.StepKeepsSignalsFollowing : Prop :=
  ∀ s t : State, SignalsFollow s → step s = .next t → SignalsFollow t

/-- R142, R146, R150: every step keeps the command port consistent. -/
def Obligations.StepKeepsPortConsistent : Prop :=
  ∀ s t : State, PortConsistent s → step s = .next t → PortConsistent t

/-- R46, R63, R98: every step keeps every notice once in the creation order, a PENDING one once in its target's list for its level, an IN_SERVICE one once on its target's stack, and nothing else in any list or stack; and it keeps each entry of a stack strictly more urgent than every entry beneath it. R56, R64: it keeps at most one GATHERING or PENDING notice for each record and target, each deferred pair at most once and beside no such notice, and the deferred list empty while the pool has a free entry; R48, R64: every count at 1 to 255 and every late count at 0 to 255. -/
def Obligations.StepKeepsNoticesInTheirPlaces : Prop :=
  (∀ s t : State, NoticesStand s → step s = .next t → NoticesStand t)
    ∧ (∀ s t : State, NoticesStand s → WorkBelongs s → StacksOrdered s → step s = .next t → StacksOrdered t)
    ∧ (∀ s t : State, NoticesStand s → WorkBelongs s → WorkDistinct s → CountsBounded s → step s = .next t →
         WorkDistinct t ∧ CountsBounded t)

/-- R70, R16, R77: every step keeps every GATHERING or PENDING notice and every deferred pair with a target in state ONLINE or STALLED and with a record that is not FREE, every notice IN_SERVICE an orphan or of such a record, and the stack of an OFFLINE target empty. -/
def Obligations.StepKeepsWorkBelonging : Prop :=
  ∀ s t : State, NoticesStand s → WorkBelongs s → step s = .next t → WorkBelongs t
end

