-- ==== Sys2Proof/Laws/State.lean ====
section
/-! SUPPORT. The state field by field: what each small update leaves and what it sets, every lemma true by unfolding. -/

namespace Sys2Proof.Machine

/-! ### modSlot -/

@[simp] theorem modSlot_now (i : SlotId) (f : Slot → Slot) (s : State) : (modSlot i f s).now = s.now := rfl
@[simp] theorem modSlot_free (i : SlotId) (f : Slot → Slot) (s : State) : (modSlot i f s).free = s.free := rfl
@[simp] theorem modSlot_porst (i : SlotId) (f : Slot → Slot) (s : State) : (modSlot i f s).porst = s.porst := rfl
@[simp] theorem modSlot_link (i : SlotId) (f : Slot → Slot) (s : State) : (modSlot i f s).link = s.link := rfl
@[simp] theorem modSlot_intake (i : SlotId) (f : Slot → Slot) (s : State) : (modSlot i f s).intake = s.intake := rfl
@[simp] theorem modSlot_pins (i : SlotId) (f : Slot → Slot) (s : State) : (modSlot i f s).pins = s.pins := rfl
@[simp] theorem modSlot_slots (i : SlotId) (f : Slot → Slot) (s : State) : (modSlot i f s).slots = s.slots.set i (f s.slots[i]) := rfl
@[simp] theorem modSlot_pool (i : SlotId) (f : Slot → Slot) (s : State) : (modSlot i f s).pool = s.pool := rfl
@[simp] theorem modSlot_order (i : SlotId) (f : Slot → Slot) (s : State) : (modSlot i f s).order = s.order := rfl
@[simp] theorem modSlot_deferred (i : SlotId) (f : Slot → Slot) (s : State) : (modSlot i f s).deferred = s.deferred := rfl
@[simp] theorem modSlot_targets (i : SlotId) (f : Slot → Slot) (s : State) : (modSlot i f s).targets = s.targets := rfl
@[simp] theorem modSlot_port (i : SlotId) (f : Slot → Slot) (s : State) : (modSlot i f s).port = s.port := rfl
@[simp] theorem modSlot_fsu (i : SlotId) (f : Slot → Slot) (s : State) : (modSlot i f s).fsu = s.fsu := rfl
@[simp] theorem modSlot_notifyWrites (i : SlotId) (f : Slot → Slot) (s : State) : (modSlot i f s).notifyWrites = s.notifyWrites := rfl
@[simp] theorem modSlot_answers (i : SlotId) (f : Slot → Slot) (s : State) : (modSlot i f s).answers = s.answers := rfl
@[simp] theorem modSlot_pending (i : SlotId) (f : Slot → Slot) (s : State) : (modSlot i f s).pending = s.pending := rfl

/-! ### modPin -/

@[simp] theorem modPin_now (p : PinId) (f : Pin → Pin) (s : State) : (modPin p f s).now = s.now := rfl
@[simp] theorem modPin_free (p : PinId) (f : Pin → Pin) (s : State) : (modPin p f s).free = s.free := rfl
@[simp] theorem modPin_porst (p : PinId) (f : Pin → Pin) (s : State) : (modPin p f s).porst = s.porst := rfl
@[simp] theorem modPin_link (p : PinId) (f : Pin → Pin) (s : State) : (modPin p f s).link = s.link := rfl
@[simp] theorem modPin_intake (p : PinId) (f : Pin → Pin) (s : State) : (modPin p f s).intake = s.intake := rfl
@[simp] theorem modPin_pins (p : PinId) (f : Pin → Pin) (s : State) : (modPin p f s).pins = s.pins.set p (f s.pins[p]) := rfl
@[simp] theorem modPin_slots (p : PinId) (f : Pin → Pin) (s : State) : (modPin p f s).slots = s.slots := rfl
@[simp] theorem modPin_pool (p : PinId) (f : Pin → Pin) (s : State) : (modPin p f s).pool = s.pool := rfl
@[simp] theorem modPin_order (p : PinId) (f : Pin → Pin) (s : State) : (modPin p f s).order = s.order := rfl
@[simp] theorem modPin_deferred (p : PinId) (f : Pin → Pin) (s : State) : (modPin p f s).deferred = s.deferred := rfl
@[simp] theorem modPin_targets (p : PinId) (f : Pin → Pin) (s : State) : (modPin p f s).targets = s.targets := rfl
@[simp] theorem modPin_port (p : PinId) (f : Pin → Pin) (s : State) : (modPin p f s).port = s.port := rfl
@[simp] theorem modPin_fsu (p : PinId) (f : Pin → Pin) (s : State) : (modPin p f s).fsu = s.fsu := rfl
@[simp] theorem modPin_notifyWrites (p : PinId) (f : Pin → Pin) (s : State) : (modPin p f s).notifyWrites = s.notifyWrites := rfl
@[simp] theorem modPin_answers (p : PinId) (f : Pin → Pin) (s : State) : (modPin p f s).answers = s.answers := rfl
@[simp] theorem modPin_pending (p : PinId) (f : Pin → Pin) (s : State) : (modPin p f s).pending = s.pending := rfl

/-! ### modPins -/

@[simp] theorem modPins_now (f : PinId → Pin → Pin) (s : State) : (modPins f s).now = s.now := by simp only [modPins]
@[simp] theorem modPins_free (f : PinId → Pin → Pin) (s : State) : (modPins f s).free = s.free := by simp only [modPins]
@[simp] theorem modPins_porst (f : PinId → Pin → Pin) (s : State) : (modPins f s).porst = s.porst := by simp only [modPins]
@[simp] theorem modPins_link (f : PinId → Pin → Pin) (s : State) : (modPins f s).link = s.link := by simp only [modPins]
@[simp] theorem modPins_intake (f : PinId → Pin → Pin) (s : State) : (modPins f s).intake = s.intake := by simp only [modPins]
@[simp] theorem modPins_pins (f : PinId → Pin → Pin) (s : State) : (modPins f s).pins = Vector.ofFn fun p => f p s.pins[p] := by simp only [modPins]
@[simp] theorem modPins_slots (f : PinId → Pin → Pin) (s : State) : (modPins f s).slots = s.slots := by simp only [modPins]
@[simp] theorem modPins_pool (f : PinId → Pin → Pin) (s : State) : (modPins f s).pool = s.pool := by simp only [modPins]
@[simp] theorem modPins_order (f : PinId → Pin → Pin) (s : State) : (modPins f s).order = s.order := by simp only [modPins]
@[simp] theorem modPins_deferred (f : PinId → Pin → Pin) (s : State) : (modPins f s).deferred = s.deferred := by simp only [modPins]
@[simp] theorem modPins_targets (f : PinId → Pin → Pin) (s : State) : (modPins f s).targets = s.targets := by simp only [modPins]
@[simp] theorem modPins_port (f : PinId → Pin → Pin) (s : State) : (modPins f s).port = s.port := by simp only [modPins]
@[simp] theorem modPins_fsu (f : PinId → Pin → Pin) (s : State) : (modPins f s).fsu = s.fsu := by simp only [modPins]
@[simp] theorem modPins_notifyWrites (f : PinId → Pin → Pin) (s : State) : (modPins f s).notifyWrites = s.notifyWrites := by simp only [modPins]
@[simp] theorem modPins_answers (f : PinId → Pin → Pin) (s : State) : (modPins f s).answers = s.answers := by simp only [modPins]
@[simp] theorem modPins_pending (f : PinId → Pin → Pin) (s : State) : (modPins f s).pending = s.pending := by simp only [modPins]

/-! ### setEntry -/

@[simp] theorem setEntry_now (e : EntryId) (o : Option Notice) (s : State) : (setEntry e o s).now = s.now := rfl
@[simp] theorem setEntry_free (e : EntryId) (o : Option Notice) (s : State) : (setEntry e o s).free = s.free := rfl
@[simp] theorem setEntry_porst (e : EntryId) (o : Option Notice) (s : State) : (setEntry e o s).porst = s.porst := rfl
@[simp] theorem setEntry_link (e : EntryId) (o : Option Notice) (s : State) : (setEntry e o s).link = s.link := rfl
@[simp] theorem setEntry_intake (e : EntryId) (o : Option Notice) (s : State) : (setEntry e o s).intake = s.intake := rfl
@[simp] theorem setEntry_pins (e : EntryId) (o : Option Notice) (s : State) : (setEntry e o s).pins = s.pins := rfl
@[simp] theorem setEntry_slots (e : EntryId) (o : Option Notice) (s : State) : (setEntry e o s).slots = s.slots := rfl
@[simp] theorem setEntry_pool (e : EntryId) (o : Option Notice) (s : State) : (setEntry e o s).pool = s.pool.set e o := rfl
@[simp] theorem setEntry_order (e : EntryId) (o : Option Notice) (s : State) : (setEntry e o s).order = s.order := rfl
@[simp] theorem setEntry_deferred (e : EntryId) (o : Option Notice) (s : State) : (setEntry e o s).deferred = s.deferred := rfl
@[simp] theorem setEntry_targets (e : EntryId) (o : Option Notice) (s : State) : (setEntry e o s).targets = s.targets := rfl
@[simp] theorem setEntry_port (e : EntryId) (o : Option Notice) (s : State) : (setEntry e o s).port = s.port := rfl
@[simp] theorem setEntry_fsu (e : EntryId) (o : Option Notice) (s : State) : (setEntry e o s).fsu = s.fsu := rfl
@[simp] theorem setEntry_notifyWrites (e : EntryId) (o : Option Notice) (s : State) : (setEntry e o s).notifyWrites = s.notifyWrites := rfl
@[simp] theorem setEntry_answers (e : EntryId) (o : Option Notice) (s : State) : (setEntry e o s).answers = s.answers := rfl
@[simp] theorem setEntry_pending (e : EntryId) (o : Option Notice) (s : State) : (setEntry e o s).pending = s.pending := rfl

/-! ### modTarget -/

@[simp] theorem modTarget_now (t : TargetId) (f : Target → Target) (s : State) : (modTarget t f s).now = s.now := rfl
@[simp] theorem modTarget_free (t : TargetId) (f : Target → Target) (s : State) : (modTarget t f s).free = s.free := rfl
@[simp] theorem modTarget_porst (t : TargetId) (f : Target → Target) (s : State) : (modTarget t f s).porst = s.porst := rfl
@[simp] theorem modTarget_link (t : TargetId) (f : Target → Target) (s : State) : (modTarget t f s).link = s.link := rfl
@[simp] theorem modTarget_intake (t : TargetId) (f : Target → Target) (s : State) : (modTarget t f s).intake = s.intake := rfl
@[simp] theorem modTarget_pins (t : TargetId) (f : Target → Target) (s : State) : (modTarget t f s).pins = s.pins := rfl
@[simp] theorem modTarget_slots (t : TargetId) (f : Target → Target) (s : State) : (modTarget t f s).slots = s.slots := rfl
@[simp] theorem modTarget_pool (t : TargetId) (f : Target → Target) (s : State) : (modTarget t f s).pool = s.pool := rfl
@[simp] theorem modTarget_order (t : TargetId) (f : Target → Target) (s : State) : (modTarget t f s).order = s.order := rfl
@[simp] theorem modTarget_deferred (t : TargetId) (f : Target → Target) (s : State) : (modTarget t f s).deferred = s.deferred := rfl
@[simp] theorem modTarget_targets (t : TargetId) (f : Target → Target) (s : State) : (modTarget t f s).targets = s.targets.set t (f s.targets[t]) := rfl
@[simp] theorem modTarget_port (t : TargetId) (f : Target → Target) (s : State) : (modTarget t f s).port = s.port := rfl
@[simp] theorem modTarget_fsu (t : TargetId) (f : Target → Target) (s : State) : (modTarget t f s).fsu = s.fsu := rfl
@[simp] theorem modTarget_notifyWrites (t : TargetId) (f : Target → Target) (s : State) : (modTarget t f s).notifyWrites = s.notifyWrites := rfl
@[simp] theorem modTarget_answers (t : TargetId) (f : Target → Target) (s : State) : (modTarget t f s).answers = s.answers := rfl
@[simp] theorem modTarget_pending (t : TargetId) (f : Target → Target) (s : State) : (modTarget t f s).pending = s.pending := rfl

/-! ### modList -/

@[simp] theorem modList_now (t : TargetId) (l : Level) (f : List EntryId → List EntryId) (s : State) : (modList t l f s).now = s.now := rfl
@[simp] theorem modList_free (t : TargetId) (l : Level) (f : List EntryId → List EntryId) (s : State) : (modList t l f s).free = s.free := rfl
@[simp] theorem modList_porst (t : TargetId) (l : Level) (f : List EntryId → List EntryId) (s : State) : (modList t l f s).porst = s.porst := rfl
@[simp] theorem modList_link (t : TargetId) (l : Level) (f : List EntryId → List EntryId) (s : State) : (modList t l f s).link = s.link := rfl
@[simp] theorem modList_intake (t : TargetId) (l : Level) (f : List EntryId → List EntryId) (s : State) : (modList t l f s).intake = s.intake := rfl
@[simp] theorem modList_pins (t : TargetId) (l : Level) (f : List EntryId → List EntryId) (s : State) : (modList t l f s).pins = s.pins := rfl
@[simp] theorem modList_slots (t : TargetId) (l : Level) (f : List EntryId → List EntryId) (s : State) : (modList t l f s).slots = s.slots := rfl
@[simp] theorem modList_pool (t : TargetId) (l : Level) (f : List EntryId → List EntryId) (s : State) : (modList t l f s).pool = s.pool := rfl
@[simp] theorem modList_order (t : TargetId) (l : Level) (f : List EntryId → List EntryId) (s : State) : (modList t l f s).order = s.order := rfl
@[simp] theorem modList_deferred (t : TargetId) (l : Level) (f : List EntryId → List EntryId) (s : State) : (modList t l f s).deferred = s.deferred := rfl
@[simp] theorem modList_targets (t : TargetId) (l : Level) (f : List EntryId → List EntryId) (s : State) : (modList t l f s).targets = s.targets.set t { s.targets[t] with lists := s.targets[t].lists.set l (f s.targets[t].lists[l]) } := rfl
@[simp] theorem modList_port (t : TargetId) (l : Level) (f : List EntryId → List EntryId) (s : State) : (modList t l f s).port = s.port := rfl
@[simp] theorem modList_fsu (t : TargetId) (l : Level) (f : List EntryId → List EntryId) (s : State) : (modList t l f s).fsu = s.fsu := rfl
@[simp] theorem modList_notifyWrites (t : TargetId) (l : Level) (f : List EntryId → List EntryId) (s : State) : (modList t l f s).notifyWrites = s.notifyWrites := rfl
@[simp] theorem modList_answers (t : TargetId) (l : Level) (f : List EntryId → List EntryId) (s : State) : (modList t l f s).answers = s.answers := rfl
@[simp] theorem modList_pending (t : TargetId) (l : Level) (f : List EntryId → List EntryId) (s : State) : (modList t l f s).pending = s.pending := rfl

/-! ### modPort -/

@[simp] theorem modPort_now (f : Port → Port) (s : State) : (modPort f s).now = s.now := rfl
@[simp] theorem modPort_free (f : Port → Port) (s : State) : (modPort f s).free = s.free := rfl
@[simp] theorem modPort_porst (f : Port → Port) (s : State) : (modPort f s).porst = s.porst := rfl
@[simp] theorem modPort_link (f : Port → Port) (s : State) : (modPort f s).link = s.link := rfl
@[simp] theorem modPort_intake (f : Port → Port) (s : State) : (modPort f s).intake = s.intake := rfl
@[simp] theorem modPort_pins (f : Port → Port) (s : State) : (modPort f s).pins = s.pins := rfl
@[simp] theorem modPort_slots (f : Port → Port) (s : State) : (modPort f s).slots = s.slots := rfl
@[simp] theorem modPort_pool (f : Port → Port) (s : State) : (modPort f s).pool = s.pool := rfl
@[simp] theorem modPort_order (f : Port → Port) (s : State) : (modPort f s).order = s.order := rfl
@[simp] theorem modPort_deferred (f : Port → Port) (s : State) : (modPort f s).deferred = s.deferred := rfl
@[simp] theorem modPort_targets (f : Port → Port) (s : State) : (modPort f s).targets = s.targets := rfl
@[simp] theorem modPort_port (f : Port → Port) (s : State) : (modPort f s).port = f s.port := rfl
@[simp] theorem modPort_fsu (f : Port → Port) (s : State) : (modPort f s).fsu = s.fsu := rfl
@[simp] theorem modPort_notifyWrites (f : Port → Port) (s : State) : (modPort f s).notifyWrites = s.notifyWrites := rfl
@[simp] theorem modPort_answers (f : Port → Port) (s : State) : (modPort f s).answers = s.answers := rfl
@[simp] theorem modPort_pending (f : Port → Port) (s : State) : (modPort f s).pending = s.pending := rfl

/-! ### nextFree -/

@[simp] theorem nextFree_now (s : State) : (nextFree s).now = s.now := rfl
@[simp] theorem nextFree_free (s : State) : (nextFree s).free = s.free + 1 := rfl
@[simp] theorem nextFree_porst (s : State) : (nextFree s).porst = s.porst := rfl
@[simp] theorem nextFree_link (s : State) : (nextFree s).link = s.link := rfl
@[simp] theorem nextFree_intake (s : State) : (nextFree s).intake = s.intake := rfl
@[simp] theorem nextFree_pins (s : State) : (nextFree s).pins = s.pins := rfl
@[simp] theorem nextFree_slots (s : State) : (nextFree s).slots = s.slots := rfl
@[simp] theorem nextFree_pool (s : State) : (nextFree s).pool = s.pool := rfl
@[simp] theorem nextFree_order (s : State) : (nextFree s).order = s.order := rfl
@[simp] theorem nextFree_deferred (s : State) : (nextFree s).deferred = s.deferred := rfl
@[simp] theorem nextFree_targets (s : State) : (nextFree s).targets = s.targets := rfl
@[simp] theorem nextFree_port (s : State) : (nextFree s).port = s.port := rfl
@[simp] theorem nextFree_fsu (s : State) : (nextFree s).fsu = s.fsu := rfl
@[simp] theorem nextFree_notifyWrites (s : State) : (nextFree s).notifyWrites = s.notifyWrites := rfl
@[simp] theorem nextFree_answers (s : State) : (nextFree s).answers = s.answers := rfl
@[simp] theorem nextFree_pending (s : State) : (nextFree s).pending = s.pending := rfl

/-! ### answer -/

@[simp] theorem answer_now (r : RequesterId) (n : Nat) (d : BitVec 64) (s : State) : (answer r n d s).now = s.now := rfl
@[simp] theorem answer_free (r : RequesterId) (n : Nat) (d : BitVec 64) (s : State) : (answer r n d s).free = s.free := rfl
@[simp] theorem answer_porst (r : RequesterId) (n : Nat) (d : BitVec 64) (s : State) : (answer r n d s).porst = s.porst := rfl
@[simp] theorem answer_link (r : RequesterId) (n : Nat) (d : BitVec 64) (s : State) : (answer r n d s).link = s.link := rfl
@[simp] theorem answer_intake (r : RequesterId) (n : Nat) (d : BitVec 64) (s : State) : (answer r n d s).intake = s.intake := rfl
@[simp] theorem answer_pins (r : RequesterId) (n : Nat) (d : BitVec 64) (s : State) : (answer r n d s).pins = s.pins := rfl
@[simp] theorem answer_slots (r : RequesterId) (n : Nat) (d : BitVec 64) (s : State) : (answer r n d s).slots = s.slots := rfl
@[simp] theorem answer_pool (r : RequesterId) (n : Nat) (d : BitVec 64) (s : State) : (answer r n d s).pool = s.pool := rfl
@[simp] theorem answer_order (r : RequesterId) (n : Nat) (d : BitVec 64) (s : State) : (answer r n d s).order = s.order := rfl
@[simp] theorem answer_deferred (r : RequesterId) (n : Nat) (d : BitVec 64) (s : State) : (answer r n d s).deferred = s.deferred := rfl
@[simp] theorem answer_targets (r : RequesterId) (n : Nat) (d : BitVec 64) (s : State) : (answer r n d s).targets = s.targets := rfl
@[simp] theorem answer_port (r : RequesterId) (n : Nat) (d : BitVec 64) (s : State) : (answer r n d s).port = s.port := rfl
@[simp] theorem answer_fsu (r : RequesterId) (n : Nat) (d : BitVec 64) (s : State) : (answer r n d s).fsu = s.fsu := rfl
@[simp] theorem answer_notifyWrites (r : RequesterId) (n : Nat) (d : BitVec 64) (s : State) : (answer r n d s).notifyWrites = s.notifyWrites := rfl
@[simp] theorem answer_answers (r : RequesterId) (n : Nat) (d : BitVec 64) (s : State) : (answer r n d s).answers = s.answers ++ [{ requester := r, size := n, data := d }] := rfl
@[simp] theorem answer_pending (r : RequesterId) (n : Nat) (d : BitVec 64) (s : State) : (answer r n d s).pending = s.pending := rfl

/-! ### modCause -/

@[simp] theorem modCause_now (c : Cause) (f : CauseState → CauseState) (s : State) : (modCause c f s).now = s.now := rfl
@[simp] theorem modCause_free (c : Cause) (f : CauseState → CauseState) (s : State) : (modCause c f s).free = s.free := rfl
@[simp] theorem modCause_porst (c : Cause) (f : CauseState → CauseState) (s : State) : (modCause c f s).porst = s.porst := rfl
@[simp] theorem modCause_link (c : Cause) (f : CauseState → CauseState) (s : State) : (modCause c f s).link = s.link := rfl
@[simp] theorem modCause_intake (c : Cause) (f : CauseState → CauseState) (s : State) : (modCause c f s).intake = s.intake := rfl
@[simp] theorem modCause_pins (c : Cause) (f : CauseState → CauseState) (s : State) : (modCause c f s).pins = s.pins := rfl
@[simp] theorem modCause_slots (c : Cause) (f : CauseState → CauseState) (s : State) : (modCause c f s).slots = s.slots := rfl
@[simp] theorem modCause_pool (c : Cause) (f : CauseState → CauseState) (s : State) : (modCause c f s).pool = s.pool := rfl
@[simp] theorem modCause_order (c : Cause) (f : CauseState → CauseState) (s : State) : (modCause c f s).order = s.order := rfl
@[simp] theorem modCause_deferred (c : Cause) (f : CauseState → CauseState) (s : State) : (modCause c f s).deferred = s.deferred := rfl
@[simp] theorem modCause_targets (c : Cause) (f : CauseState → CauseState) (s : State) : (modCause c f s).targets = s.targets := rfl
@[simp] theorem modCause_port (c : Cause) (f : CauseState → CauseState) (s : State) : (modCause c f s).port = s.port := rfl
@[simp] theorem modCause_fsu (c : Cause) (f : CauseState → CauseState) (s : State) : (modCause c f s).fsu = { s.fsu with causes := s.fsu.causes.set (causeIndex c) (f s.fsu.causes[causeIndex c]) } := rfl
@[simp] theorem modCause_notifyWrites (c : Cause) (f : CauseState → CauseState) (s : State) : (modCause c f s).notifyWrites = s.notifyWrites := rfl
@[simp] theorem modCause_answers (c : Cause) (f : CauseState → CauseState) (s : State) : (modCause c f s).answers = s.answers := rfl
@[simp] theorem modCause_pending (c : Cause) (f : CauseState → CauseState) (s : State) : (modCause c f s).pending = s.pending := rfl

/-! ### raise -/

@[simp] theorem raise_now (c : Cause) (s : State) : (raise c s).now = s.now := rfl
@[simp] theorem raise_free (c : Cause) (s : State) : (raise c s).free = s.free := rfl
@[simp] theorem raise_porst (c : Cause) (s : State) : (raise c s).porst = s.porst := rfl
@[simp] theorem raise_link (c : Cause) (s : State) : (raise c s).link = s.link := rfl
@[simp] theorem raise_intake (c : Cause) (s : State) : (raise c s).intake = s.intake := rfl
@[simp] theorem raise_pins (c : Cause) (s : State) : (raise c s).pins = s.pins := rfl
@[simp] theorem raise_slots (c : Cause) (s : State) : (raise c s).slots = s.slots := rfl
@[simp] theorem raise_pool (c : Cause) (s : State) : (raise c s).pool = s.pool := rfl
@[simp] theorem raise_order (c : Cause) (s : State) : (raise c s).order = s.order := rfl
@[simp] theorem raise_deferred (c : Cause) (s : State) : (raise c s).deferred = s.deferred := rfl
@[simp] theorem raise_targets (c : Cause) (s : State) : (raise c s).targets = s.targets := rfl
@[simp] theorem raise_port (c : Cause) (s : State) : (raise c s).port = s.port := rfl
@[simp] theorem raise_fsu (c : Cause) (s : State) : (raise c s).fsu = { s.fsu with causes := s.fsu.causes.set (causeIndex c) (raiseCause 0 s.fsu.causes[causeIndex c]) } := rfl
@[simp] theorem raise_notifyWrites (c : Cause) (s : State) : (raise c s).notifyWrites = s.notifyWrites := rfl
@[simp] theorem raise_answers (c : Cause) (s : State) : (raise c s).answers = s.answers := rfl
@[simp] theorem raise_pending (c : Cause) (s : State) : (raise c s).pending = s.pending := rfl

/-! ### raiseMiss -/

@[simp] theorem raiseMiss_now (key : Key) (s : State) : (raiseMiss key s).now = s.now := rfl
@[simp] theorem raiseMiss_free (key : Key) (s : State) : (raiseMiss key s).free = s.free := rfl
@[simp] theorem raiseMiss_porst (key : Key) (s : State) : (raiseMiss key s).porst = s.porst := rfl
@[simp] theorem raiseMiss_link (key : Key) (s : State) : (raiseMiss key s).link = s.link := rfl
@[simp] theorem raiseMiss_intake (key : Key) (s : State) : (raiseMiss key s).intake = s.intake := rfl
@[simp] theorem raiseMiss_pins (key : Key) (s : State) : (raiseMiss key s).pins = s.pins := rfl
@[simp] theorem raiseMiss_slots (key : Key) (s : State) : (raiseMiss key s).slots = s.slots := rfl
@[simp] theorem raiseMiss_pool (key : Key) (s : State) : (raiseMiss key s).pool = s.pool := rfl
@[simp] theorem raiseMiss_order (key : Key) (s : State) : (raiseMiss key s).order = s.order := rfl
@[simp] theorem raiseMiss_deferred (key : Key) (s : State) : (raiseMiss key s).deferred = s.deferred := rfl
@[simp] theorem raiseMiss_targets (key : Key) (s : State) : (raiseMiss key s).targets = s.targets := rfl
@[simp] theorem raiseMiss_port (key : Key) (s : State) : (raiseMiss key s).port = s.port := rfl
@[simp] theorem raiseMiss_notifyWrites (key : Key) (s : State) : (raiseMiss key s).notifyWrites = s.notifyWrites := rfl
@[simp] theorem raiseMiss_answers (key : Key) (s : State) : (raiseMiss key s).answers = s.answers := rfl
@[simp] theorem raiseMiss_pending (key : Key) (s : State) : (raiseMiss key s).pending = s.pending := rfl

/-! ### raiseIf -/

@[simp] theorem raiseIf_now (b : Bool) (c : Cause) (s : State) : (raiseIf b c s).now = s.now := by cases b <;> rfl
@[simp] theorem raiseIf_free (b : Bool) (c : Cause) (s : State) : (raiseIf b c s).free = s.free := by cases b <;> rfl
@[simp] theorem raiseIf_porst (b : Bool) (c : Cause) (s : State) : (raiseIf b c s).porst = s.porst := by cases b <;> rfl
@[simp] theorem raiseIf_link (b : Bool) (c : Cause) (s : State) : (raiseIf b c s).link = s.link := by cases b <;> rfl
@[simp] theorem raiseIf_intake (b : Bool) (c : Cause) (s : State) : (raiseIf b c s).intake = s.intake := by cases b <;> rfl
@[simp] theorem raiseIf_pins (b : Bool) (c : Cause) (s : State) : (raiseIf b c s).pins = s.pins := by cases b <;> rfl
@[simp] theorem raiseIf_slots (b : Bool) (c : Cause) (s : State) : (raiseIf b c s).slots = s.slots := by cases b <;> rfl
@[simp] theorem raiseIf_pool (b : Bool) (c : Cause) (s : State) : (raiseIf b c s).pool = s.pool := by cases b <;> rfl
@[simp] theorem raiseIf_order (b : Bool) (c : Cause) (s : State) : (raiseIf b c s).order = s.order := by cases b <;> rfl
@[simp] theorem raiseIf_deferred (b : Bool) (c : Cause) (s : State) : (raiseIf b c s).deferred = s.deferred := by cases b <;> rfl
@[simp] theorem raiseIf_targets (b : Bool) (c : Cause) (s : State) : (raiseIf b c s).targets = s.targets := by cases b <;> rfl
@[simp] theorem raiseIf_port (b : Bool) (c : Cause) (s : State) : (raiseIf b c s).port = s.port := by cases b <;> rfl
@[simp] theorem raiseIf_notifyWrites (b : Bool) (c : Cause) (s : State) : (raiseIf b c s).notifyWrites = s.notifyWrites := by cases b <;> rfl
@[simp] theorem raiseIf_answers (b : Bool) (c : Cause) (s : State) : (raiseIf b c s).answers = s.answers := by cases b <;> rfl
@[simp] theorem raiseIf_pending (b : Bool) (c : Cause) (s : State) : (raiseIf b c s).pending = s.pending := by cases b <;> rfl

/-! ### setHeld -/

@[simp] theorem setHeld_now (i : SlotId) (h : Held) (s : State) : (setHeld i h s).now = s.now := rfl
@[simp] theorem setHeld_free (i : SlotId) (h : Held) (s : State) : (setHeld i h s).free = s.free := rfl
@[simp] theorem setHeld_porst (i : SlotId) (h : Held) (s : State) : (setHeld i h s).porst = s.porst := rfl
@[simp] theorem setHeld_link (i : SlotId) (h : Held) (s : State) : (setHeld i h s).link = s.link := rfl
@[simp] theorem setHeld_intake (i : SlotId) (h : Held) (s : State) : (setHeld i h s).intake = s.intake := rfl
@[simp] theorem setHeld_pins (i : SlotId) (h : Held) (s : State) : (setHeld i h s).pins = s.pins := rfl
@[simp] theorem setHeld_slots (i : SlotId) (h : Held) (s : State) : (setHeld i h s).slots = s.slots.set i { s.slots[i] with held := h } := rfl
@[simp] theorem setHeld_pool (i : SlotId) (h : Held) (s : State) : (setHeld i h s).pool = s.pool := rfl
@[simp] theorem setHeld_order (i : SlotId) (h : Held) (s : State) : (setHeld i h s).order = s.order := rfl
@[simp] theorem setHeld_deferred (i : SlotId) (h : Held) (s : State) : (setHeld i h s).deferred = s.deferred := rfl
@[simp] theorem setHeld_targets (i : SlotId) (h : Held) (s : State) : (setHeld i h s).targets = s.targets := rfl
@[simp] theorem setHeld_port (i : SlotId) (h : Held) (s : State) : (setHeld i h s).port = s.port := rfl
@[simp] theorem setHeld_fsu (i : SlotId) (h : Held) (s : State) : (setHeld i h s).fsu = s.fsu := rfl
@[simp] theorem setHeld_notifyWrites (i : SlotId) (h : Held) (s : State) : (setHeld i h s).notifyWrites = s.notifyWrites := rfl
@[simp] theorem setHeld_answers (i : SlotId) (h : Held) (s : State) : (setHeld i h s).answers = s.answers := rfl
@[simp] theorem setHeld_pending (i : SlotId) (h : Held) (s : State) : (setHeld i h s).pending = s.pending := rfl

/-! ### rearmPins -/

@[simp] theorem rearmPins_now (ps : PinSet) (s : State) : (rearmPins ps s).now = s.now := by simp only [rearmPins, modPins]
@[simp] theorem rearmPins_free (ps : PinSet) (s : State) : (rearmPins ps s).free = s.free := by simp only [rearmPins, modPins]
@[simp] theorem rearmPins_porst (ps : PinSet) (s : State) : (rearmPins ps s).porst = s.porst := by simp only [rearmPins, modPins]
@[simp] theorem rearmPins_link (ps : PinSet) (s : State) : (rearmPins ps s).link = s.link := by simp only [rearmPins, modPins]
@[simp] theorem rearmPins_intake (ps : PinSet) (s : State) : (rearmPins ps s).intake = s.intake := by simp only [rearmPins, modPins]
@[simp] theorem rearmPins_pins (ps : PinSet) (s : State) : (rearmPins ps s).pins = Vector.ofFn fun p => if ps.getLsbD p then rearmPin s.pins[p] else s.pins[p] := by simp only [rearmPins, modPins]
@[simp] theorem rearmPins_slots (ps : PinSet) (s : State) : (rearmPins ps s).slots = s.slots := by simp only [rearmPins, modPins]
@[simp] theorem rearmPins_pool (ps : PinSet) (s : State) : (rearmPins ps s).pool = s.pool := by simp only [rearmPins, modPins]
@[simp] theorem rearmPins_order (ps : PinSet) (s : State) : (rearmPins ps s).order = s.order := by simp only [rearmPins, modPins]
@[simp] theorem rearmPins_deferred (ps : PinSet) (s : State) : (rearmPins ps s).deferred = s.deferred := by simp only [rearmPins, modPins]
@[simp] theorem rearmPins_targets (ps : PinSet) (s : State) : (rearmPins ps s).targets = s.targets := by simp only [rearmPins, modPins]
@[simp] theorem rearmPins_port (ps : PinSet) (s : State) : (rearmPins ps s).port = s.port := by simp only [rearmPins, modPins]
@[simp] theorem rearmPins_fsu (ps : PinSet) (s : State) : (rearmPins ps s).fsu = s.fsu := by simp only [rearmPins, modPins]
@[simp] theorem rearmPins_notifyWrites (ps : PinSet) (s : State) : (rearmPins ps s).notifyWrites = s.notifyWrites := by simp only [rearmPins, modPins]
@[simp] theorem rearmPins_answers (ps : PinSet) (s : State) : (rearmPins ps s).answers = s.answers := by simp only [rearmPins, modPins]
@[simp] theorem rearmPins_pending (ps : PinSet) (s : State) : (rearmPins ps s).pending = s.pending := by simp only [rearmPins, modPins]

/-! ### rearmMissDisarmed -/

@[simp] theorem rearmMissDisarmed_now (s : State) : (rearmMissDisarmed s).now = s.now := by simp only [rearmMissDisarmed, modPins]
@[simp] theorem rearmMissDisarmed_free (s : State) : (rearmMissDisarmed s).free = s.free := by simp only [rearmMissDisarmed, modPins]
@[simp] theorem rearmMissDisarmed_porst (s : State) : (rearmMissDisarmed s).porst = s.porst := by simp only [rearmMissDisarmed, modPins]
@[simp] theorem rearmMissDisarmed_link (s : State) : (rearmMissDisarmed s).link = s.link := by simp only [rearmMissDisarmed, modPins]
@[simp] theorem rearmMissDisarmed_intake (s : State) : (rearmMissDisarmed s).intake = s.intake := by simp only [rearmMissDisarmed, modPins]
@[simp] theorem rearmMissDisarmed_pins (s : State) : (rearmMissDisarmed s).pins = Vector.ofFn fun p => clearMissDisarmed s.pins[p] := by simp only [rearmMissDisarmed, modPins]
@[simp] theorem rearmMissDisarmed_slots (s : State) : (rearmMissDisarmed s).slots = s.slots := by simp only [rearmMissDisarmed, modPins]
@[simp] theorem rearmMissDisarmed_pool (s : State) : (rearmMissDisarmed s).pool = s.pool := by simp only [rearmMissDisarmed, modPins]
@[simp] theorem rearmMissDisarmed_order (s : State) : (rearmMissDisarmed s).order = s.order := by simp only [rearmMissDisarmed, modPins]
@[simp] theorem rearmMissDisarmed_deferred (s : State) : (rearmMissDisarmed s).deferred = s.deferred := by simp only [rearmMissDisarmed, modPins]
@[simp] theorem rearmMissDisarmed_targets (s : State) : (rearmMissDisarmed s).targets = s.targets := by simp only [rearmMissDisarmed, modPins]
@[simp] theorem rearmMissDisarmed_port (s : State) : (rearmMissDisarmed s).port = s.port := by simp only [rearmMissDisarmed, modPins]
@[simp] theorem rearmMissDisarmed_fsu (s : State) : (rearmMissDisarmed s).fsu = s.fsu := by simp only [rearmMissDisarmed, modPins]
@[simp] theorem rearmMissDisarmed_notifyWrites (s : State) : (rearmMissDisarmed s).notifyWrites = s.notifyWrites := by simp only [rearmMissDisarmed, modPins]
@[simp] theorem rearmMissDisarmed_answers (s : State) : (rearmMissDisarmed s).answers = s.answers := by simp only [rearmMissDisarmed, modPins]
@[simp] theorem rearmMissDisarmed_pending (s : State) : (rearmMissDisarmed s).pending = s.pending := by simp only [rearmMissDisarmed, modPins]

/-! ### freeSlot -/

@[simp] theorem freeSlot_now (i : SlotId) (s : State) : (freeSlot i s).now = s.now := rfl
@[simp] theorem freeSlot_free (i : SlotId) (s : State) : (freeSlot i s).free = s.free := rfl
@[simp] theorem freeSlot_porst (i : SlotId) (s : State) : (freeSlot i s).porst = s.porst := rfl
@[simp] theorem freeSlot_link (i : SlotId) (s : State) : (freeSlot i s).link = s.link := rfl
@[simp] theorem freeSlot_intake (i : SlotId) (s : State) : (freeSlot i s).intake = s.intake := rfl
@[simp] theorem freeSlot_pins (i : SlotId) (s : State) : (freeSlot i s).pins = s.pins := rfl
@[simp] theorem freeSlot_slots (i : SlotId) (s : State) : (freeSlot i s).slots = s.slots.set i (Slot.freeOf s.slots[i].generation) := rfl
@[simp] theorem freeSlot_pool (i : SlotId) (s : State) : (freeSlot i s).pool = s.pool := rfl
@[simp] theorem freeSlot_order (i : SlotId) (s : State) : (freeSlot i s).order = s.order := rfl
@[simp] theorem freeSlot_deferred (i : SlotId) (s : State) : (freeSlot i s).deferred = s.deferred := rfl
@[simp] theorem freeSlot_targets (i : SlotId) (s : State) : (freeSlot i s).targets = s.targets := rfl
@[simp] theorem freeSlot_port (i : SlotId) (s : State) : (freeSlot i s).port = s.port := rfl
@[simp] theorem freeSlot_fsu (i : SlotId) (s : State) : (freeSlot i s).fsu = s.fsu := rfl
@[simp] theorem freeSlot_notifyWrites (i : SlotId) (s : State) : (freeSlot i s).notifyWrites = s.notifyWrites := rfl
@[simp] theorem freeSlot_answers (i : SlotId) (s : State) : (freeSlot i s).answers = s.answers := rfl
@[simp] theorem freeSlot_pending (i : SlotId) (s : State) : (freeSlot i s).pending = s.pending := rfl

/-! ### setWaiting -/

@[simp] theorem setWaiting_now (ops : List LinkOp) (s : State) : (setWaiting ops s).now = s.now := rfl
@[simp] theorem setWaiting_free (ops : List LinkOp) (s : State) : (setWaiting ops s).free = s.free := rfl
@[simp] theorem setWaiting_porst (ops : List LinkOp) (s : State) : (setWaiting ops s).porst = s.porst := rfl
@[simp] theorem setWaiting_link (ops : List LinkOp) (s : State) : (setWaiting ops s).link = { s.link with waiting := ops } := rfl
@[simp] theorem setWaiting_intake (ops : List LinkOp) (s : State) : (setWaiting ops s).intake = s.intake := rfl
@[simp] theorem setWaiting_pins (ops : List LinkOp) (s : State) : (setWaiting ops s).pins = s.pins := rfl
@[simp] theorem setWaiting_slots (ops : List LinkOp) (s : State) : (setWaiting ops s).slots = s.slots := rfl
@[simp] theorem setWaiting_pool (ops : List LinkOp) (s : State) : (setWaiting ops s).pool = s.pool := rfl
@[simp] theorem setWaiting_order (ops : List LinkOp) (s : State) : (setWaiting ops s).order = s.order := rfl
@[simp] theorem setWaiting_deferred (ops : List LinkOp) (s : State) : (setWaiting ops s).deferred = s.deferred := rfl
@[simp] theorem setWaiting_targets (ops : List LinkOp) (s : State) : (setWaiting ops s).targets = s.targets := rfl
@[simp] theorem setWaiting_port (ops : List LinkOp) (s : State) : (setWaiting ops s).port = s.port := rfl
@[simp] theorem setWaiting_fsu (ops : List LinkOp) (s : State) : (setWaiting ops s).fsu = s.fsu := rfl
@[simp] theorem setWaiting_notifyWrites (ops : List LinkOp) (s : State) : (setWaiting ops s).notifyWrites = s.notifyWrites := rfl
@[simp] theorem setWaiting_answers (ops : List LinkOp) (s : State) : (setWaiting ops s).answers = s.answers := rfl
@[simp] theorem setWaiting_pending (ops : List LinkOp) (s : State) : (setWaiting ops s).pending = s.pending := rfl

/-! ### setLink -/

@[simp] theorem setLink_now (l : LinkState) (s : State) : (setLink l s).now = s.now := rfl
@[simp] theorem setLink_free (l : LinkState) (s : State) : (setLink l s).free = s.free := rfl
@[simp] theorem setLink_porst (l : LinkState) (s : State) : (setLink l s).porst = s.porst := rfl
@[simp] theorem setLink_link (l : LinkState) (s : State) : (setLink l s).link = { s.link with state := l } := rfl
@[simp] theorem setLink_intake (l : LinkState) (s : State) : (setLink l s).intake = s.intake := rfl
@[simp] theorem setLink_pins (l : LinkState) (s : State) : (setLink l s).pins = s.pins := rfl
@[simp] theorem setLink_slots (l : LinkState) (s : State) : (setLink l s).slots = s.slots := rfl
@[simp] theorem setLink_pool (l : LinkState) (s : State) : (setLink l s).pool = s.pool := rfl
@[simp] theorem setLink_order (l : LinkState) (s : State) : (setLink l s).order = s.order := rfl
@[simp] theorem setLink_deferred (l : LinkState) (s : State) : (setLink l s).deferred = s.deferred := rfl
@[simp] theorem setLink_targets (l : LinkState) (s : State) : (setLink l s).targets = s.targets := rfl
@[simp] theorem setLink_port (l : LinkState) (s : State) : (setLink l s).port = s.port := rfl
@[simp] theorem setLink_fsu (l : LinkState) (s : State) : (setLink l s).fsu = s.fsu := rfl
@[simp] theorem setLink_notifyWrites (l : LinkState) (s : State) : (setLink l s).notifyWrites = s.notifyWrites := rfl
@[simp] theorem setLink_answers (l : LinkState) (s : State) : (setLink l s).answers = s.answers := rfl
@[simp] theorem setLink_pending (l : LinkState) (s : State) : (setLink l s).pending = s.pending := rfl

/-! ### setBusMaster -/

@[simp] theorem setBusMaster_now (on : Bool) (s : State) : (setBusMaster on s).now = s.now := rfl
@[simp] theorem setBusMaster_free (on : Bool) (s : State) : (setBusMaster on s).free = s.free := rfl
@[simp] theorem setBusMaster_porst (on : Bool) (s : State) : (setBusMaster on s).porst = s.porst := rfl
@[simp] theorem setBusMaster_link (on : Bool) (s : State) : (setBusMaster on s).link = { s.link with busMaster := on } := rfl
@[simp] theorem setBusMaster_intake (on : Bool) (s : State) : (setBusMaster on s).intake = s.intake := rfl
@[simp] theorem setBusMaster_pins (on : Bool) (s : State) : (setBusMaster on s).pins = s.pins := rfl
@[simp] theorem setBusMaster_slots (on : Bool) (s : State) : (setBusMaster on s).slots = s.slots := rfl
@[simp] theorem setBusMaster_pool (on : Bool) (s : State) : (setBusMaster on s).pool = s.pool := rfl
@[simp] theorem setBusMaster_order (on : Bool) (s : State) : (setBusMaster on s).order = s.order := rfl
@[simp] theorem setBusMaster_deferred (on : Bool) (s : State) : (setBusMaster on s).deferred = s.deferred := rfl
@[simp] theorem setBusMaster_targets (on : Bool) (s : State) : (setBusMaster on s).targets = s.targets := rfl
@[simp] theorem setBusMaster_port (on : Bool) (s : State) : (setBusMaster on s).port = s.port := rfl
@[simp] theorem setBusMaster_fsu (on : Bool) (s : State) : (setBusMaster on s).fsu = s.fsu := rfl
@[simp] theorem setBusMaster_notifyWrites (on : Bool) (s : State) : (setBusMaster on s).notifyWrites = s.notifyWrites := rfl
@[simp] theorem setBusMaster_answers (on : Bool) (s : State) : (setBusMaster on s).answers = s.answers := rfl
@[simp] theorem setBusMaster_pending (on : Bool) (s : State) : (setBusMaster on s).pending = s.pending := rfl

/-! ### startCommand -/

@[simp] theorem startCommand_now (code : BitVec 8) (s : State) : (startCommand code s).now = s.now := rfl
@[simp] theorem startCommand_free (code : BitVec 8) (s : State) : (startCommand code s).free = s.free := rfl
@[simp] theorem startCommand_porst (code : BitVec 8) (s : State) : (startCommand code s).porst = s.porst := rfl
@[simp] theorem startCommand_link (code : BitVec 8) (s : State) : (startCommand code s).link = s.link := rfl
@[simp] theorem startCommand_intake (code : BitVec 8) (s : State) : (startCommand code s).intake = s.intake := rfl
@[simp] theorem startCommand_pins (code : BitVec 8) (s : State) : (startCommand code s).pins = s.pins := rfl
@[simp] theorem startCommand_slots (code : BitVec 8) (s : State) : (startCommand code s).slots = s.slots := rfl
@[simp] theorem startCommand_pool (code : BitVec 8) (s : State) : (startCommand code s).pool = s.pool := rfl
@[simp] theorem startCommand_order (code : BitVec 8) (s : State) : (startCommand code s).order = s.order := rfl
@[simp] theorem startCommand_deferred (code : BitVec 8) (s : State) : (startCommand code s).deferred = s.deferred := rfl
@[simp] theorem startCommand_targets (code : BitVec 8) (s : State) : (startCommand code s).targets = s.targets := rfl
@[simp] theorem startCommand_fsu (code : BitVec 8) (s : State) : (startCommand code s).fsu = s.fsu := rfl
@[simp] theorem startCommand_notifyWrites (code : BitVec 8) (s : State) : (startCommand code s).notifyWrites = s.notifyWrites := rfl
@[simp] theorem startCommand_answers (code : BitVec 8) (s : State) : (startCommand code s).answers = s.answers := rfl
@[simp] theorem startCommand_pending (code : BitVec 8) (s : State) : (startCommand code s).pending = s.pending := rfl

/-! ### endCommand -/

@[simp] theorem endCommand_now (c : ResultCode) (ws : List Word) (s : State) : (endCommand c ws s).now = s.now := rfl
@[simp] theorem endCommand_free (c : ResultCode) (ws : List Word) (s : State) : (endCommand c ws s).free = s.free := rfl
@[simp] theorem endCommand_porst (c : ResultCode) (ws : List Word) (s : State) : (endCommand c ws s).porst = s.porst := rfl
@[simp] theorem endCommand_link (c : ResultCode) (ws : List Word) (s : State) : (endCommand c ws s).link = s.link := rfl
@[simp] theorem endCommand_intake (c : ResultCode) (ws : List Word) (s : State) : (endCommand c ws s).intake = s.intake := rfl
@[simp] theorem endCommand_pins (c : ResultCode) (ws : List Word) (s : State) : (endCommand c ws s).pins = s.pins := rfl
@[simp] theorem endCommand_slots (c : ResultCode) (ws : List Word) (s : State) : (endCommand c ws s).slots = s.slots := rfl
@[simp] theorem endCommand_pool (c : ResultCode) (ws : List Word) (s : State) : (endCommand c ws s).pool = s.pool := rfl
@[simp] theorem endCommand_order (c : ResultCode) (ws : List Word) (s : State) : (endCommand c ws s).order = s.order := rfl
@[simp] theorem endCommand_deferred (c : ResultCode) (ws : List Word) (s : State) : (endCommand c ws s).deferred = s.deferred := rfl
@[simp] theorem endCommand_targets (c : ResultCode) (ws : List Word) (s : State) : (endCommand c ws s).targets = s.targets := rfl
@[simp] theorem endCommand_fsu (c : ResultCode) (ws : List Word) (s : State) : (endCommand c ws s).fsu = s.fsu := rfl
@[simp] theorem endCommand_notifyWrites (c : ResultCode) (ws : List Word) (s : State) : (endCommand c ws s).notifyWrites = s.notifyWrites := rfl
@[simp] theorem endCommand_answers (c : ResultCode) (ws : List Word) (s : State) : (endCommand c ws s).answers = s.answers := rfl
@[simp] theorem endCommand_pending (c : ResultCode) (ws : List Word) (s : State) : (endCommand c ws s).pending = s.pending := rfl

/-! ### stayInFlight -/

@[simp] theorem stayInFlight_now (f : Flight) (s : State) : (stayInFlight f s).now = s.now := rfl
@[simp] theorem stayInFlight_free (f : Flight) (s : State) : (stayInFlight f s).free = s.free := rfl
@[simp] theorem stayInFlight_porst (f : Flight) (s : State) : (stayInFlight f s).porst = s.porst := rfl
@[simp] theorem stayInFlight_link (f : Flight) (s : State) : (stayInFlight f s).link = s.link := rfl
@[simp] theorem stayInFlight_intake (f : Flight) (s : State) : (stayInFlight f s).intake = s.intake := rfl
@[simp] theorem stayInFlight_pins (f : Flight) (s : State) : (stayInFlight f s).pins = s.pins := rfl
@[simp] theorem stayInFlight_slots (f : Flight) (s : State) : (stayInFlight f s).slots = s.slots := rfl
@[simp] theorem stayInFlight_pool (f : Flight) (s : State) : (stayInFlight f s).pool = s.pool := rfl
@[simp] theorem stayInFlight_order (f : Flight) (s : State) : (stayInFlight f s).order = s.order := rfl
@[simp] theorem stayInFlight_deferred (f : Flight) (s : State) : (stayInFlight f s).deferred = s.deferred := rfl
@[simp] theorem stayInFlight_targets (f : Flight) (s : State) : (stayInFlight f s).targets = s.targets := rfl
@[simp] theorem stayInFlight_port (f : Flight) (s : State) : (stayInFlight f s).port = { s.port with flight := some f } := rfl
@[simp] theorem stayInFlight_fsu (f : Flight) (s : State) : (stayInFlight f s).fsu = s.fsu := rfl
@[simp] theorem stayInFlight_notifyWrites (f : Flight) (s : State) : (stayInFlight f s).notifyWrites = s.notifyWrites := rfl
@[simp] theorem stayInFlight_answers (f : Flight) (s : State) : (stayInFlight f s).answers = s.answers := rfl
@[simp] theorem stayInFlight_pending (f : Flight) (s : State) : (stayInFlight f s).pending = s.pending := rfl

/-! ### startWait -/

@[simp] theorem startWait_now (ms : Nat) (s : State) : (startWait ms s).now = s.now := rfl
@[simp] theorem startWait_free (ms : Nat) (s : State) : (startWait ms s).free = s.free := rfl
@[simp] theorem startWait_porst (ms : Nat) (s : State) : (startWait ms s).porst = s.porst := rfl
@[simp] theorem startWait_link (ms : Nat) (s : State) : (startWait ms s).link = s.link := rfl
@[simp] theorem startWait_intake (ms : Nat) (s : State) : (startWait ms s).intake = s.intake := rfl
@[simp] theorem startWait_pins (ms : Nat) (s : State) : (startWait ms s).pins = s.pins := rfl
@[simp] theorem startWait_slots (ms : Nat) (s : State) : (startWait ms s).slots = s.slots := rfl
@[simp] theorem startWait_pool (ms : Nat) (s : State) : (startWait ms s).pool = s.pool := rfl
@[simp] theorem startWait_order (ms : Nat) (s : State) : (startWait ms s).order = s.order := rfl
@[simp] theorem startWait_deferred (ms : Nat) (s : State) : (startWait ms s).deferred = s.deferred := rfl
@[simp] theorem startWait_targets (ms : Nat) (s : State) : (startWait ms s).targets = s.targets := rfl
@[simp] theorem startWait_port (ms : Nat) (s : State) : (startWait ms s).port = { s.port with waitTimer := some { start := s.now, limit := ms * 1000 } } := rfl
@[simp] theorem startWait_fsu (ms : Nat) (s : State) : (startWait ms s).fsu = s.fsu := rfl
@[simp] theorem startWait_notifyWrites (ms : Nat) (s : State) : (startWait ms s).notifyWrites = s.notifyWrites := rfl
@[simp] theorem startWait_answers (ms : Nat) (s : State) : (startWait ms s).answers = s.answers := rfl
@[simp] theorem startWait_pending (ms : Nat) (s : State) : (startWait ms s).pending = s.pending := rfl

/-! ### issueWrite -/

@[simp] theorem issueWrite_now (t : TargetId) (s : State) : (issueWrite s t).now = s.now := rfl
@[simp] theorem issueWrite_free (t : TargetId) (s : State) : (issueWrite s t).free = s.free := rfl
@[simp] theorem issueWrite_porst (t : TargetId) (s : State) : (issueWrite s t).porst = s.porst := rfl
@[simp] theorem issueWrite_link (t : TargetId) (s : State) : (issueWrite s t).link = s.link := rfl
@[simp] theorem issueWrite_intake (t : TargetId) (s : State) : (issueWrite s t).intake = s.intake := rfl
@[simp] theorem issueWrite_pins (t : TargetId) (s : State) : (issueWrite s t).pins = s.pins := rfl
@[simp] theorem issueWrite_slots (t : TargetId) (s : State) : (issueWrite s t).slots = s.slots := rfl
@[simp] theorem issueWrite_pool (t : TargetId) (s : State) : (issueWrite s t).pool = s.pool := rfl
@[simp] theorem issueWrite_order (t : TargetId) (s : State) : (issueWrite s t).order = s.order := rfl
@[simp] theorem issueWrite_deferred (t : TargetId) (s : State) : (issueWrite s t).deferred = s.deferred := rfl
@[simp] theorem issueWrite_targets (t : TargetId) (s : State) : (issueWrite s t).targets = s.targets := rfl
@[simp] theorem issueWrite_port (t : TargetId) (s : State) : (issueWrite s t).port = s.port := rfl
@[simp] theorem issueWrite_fsu (t : TargetId) (s : State) : (issueWrite s t).fsu = s.fsu := rfl
@[simp] theorem issueWrite_notifyWrites (t : TargetId) (s : State) : (issueWrite s t).notifyWrites = s.notifyWrites ++ [notifyWrite s.targets[t]] := rfl
@[simp] theorem issueWrite_answers (t : TargetId) (s : State) : (issueWrite s t).answers = s.answers := rfl
@[simp] theorem issueWrite_pending (t : TargetId) (s : State) : (issueWrite s t).pending = s.pending := rfl

end Sys2Proof.Machine
end

