-- ==== Sys2Proof/Laws/Frames.lean ====
section
/-! SUPPORT. What the notice operations leave alone: one frame, reflexive and transitive, and for each shared operation the lemma that it keeps the frame. -/

namespace Sys2Proof.Machine

/-- A target context whose lists and signals alone may have changed. -/
def Target.same (a b : Target) : Prop :=
  b = { a with
    lists := b.lists, ntf := b.ntf, deliverable := b.deliverable, deadlineStart := b.deadlineStart,
    writeOwed := b.writeOwed }

theorem Target.same_refl (a : Target) : a.same a := rfl

theorem Target.same_trans {a b c : Target} (h : a.same b) (k : b.same c) : a.same c := by
  unfold Target.same at *; rw [k, h]

/-- The port unchanged, or a RETIRE that waited ended with OK. -/
def Port.keptOrRetired (a b : Port) : Prop :=
  b = a ∨ ∃ i f, a.flight = some (.retireWait i f) ∧ b = a.concluded .ok f.words

theorem Port.keptOrRetired_trans {a b c : Port} (h : a.keptOrRetired b) (k : b.keptOrRetired c) :
    a.keptOrRetired c := by
  rcases h with rfl | ⟨i, f, hf, rfl⟩
  · exact k
  · rcases k with rfl | ⟨j, g, hg, _⟩
    · exact Or.inr ⟨i, f, hf, rfl⟩
    · simp [Port.concluded] at hg

/-- A slot unchanged, or freed from RETIRING. -/
def Slot.keptOrFreed (a b : Slot) : Prop := b = a ∨ a.state = .retiring ∧ b = Slot.freeOf a.generation

theorem Slot.keptOrFreed_trans {a b c : Slot} (h : a.keptOrFreed b) (k : b.keptOrFreed c) : a.keptOrFreed c := by
  rcases h with rfl | ⟨ha, rfl⟩
  · exact k
  · rcases k with rfl | ⟨hb, _⟩
    · exact Or.inr ⟨ha, rfl⟩
    · simp [Slot.freeOf] at hb

/-- What every operation on notices, pairs, pins and signals leaves alone. -/
structure Frame (s t : State) : Prop where
  now : t.now = s.now
  porst : t.porst = s.porst
  link : t.link = s.link
  intake : t.intake = s.intake
  answers : t.answers = s.answers
  pending : t.pending = s.pending
  miss : t.fsu.causes[causeIndex .miss] = s.fsu.causes[causeIndex .miss]
  firstMiss : t.fsu.firstMiss = s.fsu.firstMiss
  moreMisses : t.fsu.moreMisses = s.fsu.moreMisses
  target : ∀ k : TargetId, (s.targets[k]).same t.targets[k]
  slot : ∀ i : SlotId, (s.slots[i]).keptOrFreed t.slots[i]
  port : s.port.keptOrRetired t.port

theorem Frame.refl (s : State) : Frame s s :=
  ⟨rfl, rfl, rfl, rfl, rfl, rfl, rfl, rfl, rfl, fun _ => rfl, fun _ => Or.inl rfl, Or.inl rfl⟩

theorem Frame.trans {s t u : State} (h : Frame s t) (k : Frame t u) : Frame s u :=
  ⟨k.now.trans h.now, k.porst.trans h.porst, k.link.trans h.link, k.intake.trans h.intake,
   k.answers.trans h.answers, k.pending.trans h.pending, k.miss.trans h.miss, k.firstMiss.trans h.firstMiss,
   k.moreMisses.trans h.moreMisses, fun i => Target.same_trans (h.target i) (k.target i),
   fun i => Slot.keptOrFreed_trans (h.slot i) (k.slot i), Port.keptOrRetired_trans h.port k.port⟩

/-- An operation that touches none of the framed fields keeps the frame. -/
theorem Frame.of_eq {s t : State} (now : t.now = s.now) (porst : t.porst = s.porst) (link : t.link = s.link)
    (intake : t.intake = s.intake) (answers : t.answers = s.answers) (pending : t.pending = s.pending)
    (fsu : t.fsu = s.fsu) (targets : t.targets = s.targets) (slots : t.slots = s.slots) (port : t.port = s.port) :
    Frame s t :=
  ⟨now, porst, link, intake, answers, pending, by rw [fsu], by rw [fsu], by rw [fsu],
   fun k => by rw [targets]; rfl, fun i => by rw [slots]; exact Or.inl rfl, by rw [port]; exact Or.inl rfl⟩

/-- A fold of operations that keep the frame keeps it. -/
theorem Frame.foldl {α : Type} (f : State → α → State) (h : ∀ s a, Frame s (f s a)) (l : List α) (s : State) :
    Frame s (l.foldl f s) := by
  induction l generalizing s with
  | nil => exact Frame.refl s
  | cons a as ih => exact (h s a).trans (ih (f s a))

/-! ### The small operations -/

theorem setEntry_frame (e : EntryId) (o : Option Notice) (s : State) : Frame s (setEntry e o s) :=
  Frame.of_eq rfl rfl rfl rfl rfl rfl rfl rfl rfl rfl

theorem order_frame (s : State) (l : List EntryId) : Frame s { s with order := l } :=
  Frame.of_eq rfl rfl rfl rfl rfl rfl rfl rfl rfl rfl

theorem deferred_frame (s : State) (l : List Pair) : Frame s { s with deferred := l } :=
  Frame.of_eq rfl rfl rfl rfl rfl rfl rfl rfl rfl rfl

theorem nextFree_frame (s : State) : Frame s (nextFree s) :=
  Frame.of_eq rfl rfl rfl rfl rfl rfl rfl rfl rfl rfl

theorem issueWrite_frame (s : State) (t : TargetId) : Frame s (issueWrite s t) :=
  Frame.of_eq rfl rfl rfl rfl rfl rfl rfl rfl rfl rfl

theorem modPins_frame (f : PinId → Pin → Pin) (s : State) : Frame s (modPins f s) :=
  Frame.of_eq (by simp) (by simp) (by simp) (by simp) (by simp) (by simp) (by simp) (by simp) (by simp) (by simp)

theorem rearmPins_frame (ps : PinSet) (s : State) : Frame s (rearmPins ps s) := modPins_frame _ s

theorem modPin_frame (p : PinId) (f : Pin → Pin) (s : State) : Frame s (modPin p f s) :=
  Frame.of_eq rfl rfl rfl rfl rfl rfl rfl rfl rfl rfl

theorem targets_frame (s : State) (v : Vector Target 8) (h : ∀ k : TargetId, (s.targets[k]).same v[k]) :
    Frame s { s with targets := v } :=
  ⟨rfl, rfl, rfl, rfl, rfl, rfl, rfl, rfl, rfl, h, fun _ => Or.inl rfl, Or.inl rfl⟩

theorem modTarget_frame (t : TargetId) (f : Target → Target) (s : State) (h : (s.targets[t]).same (f s.targets[t])) :
    Frame s (modTarget t f s) := by
  refine targets_frame s _ fun k => ?_
  by_cases hk : t = k
  · subst hk; simpa using h
  · have : (t : Nat) ≠ k := fun e => hk (Fin.ext e)
    simp [this, Target.same]

theorem modList_frame (t : TargetId) (l : Level) (f : List EntryId → List EntryId) (s : State) :
    Frame s (modList t l f s) := modTarget_frame t _ s rfl

theorem raise_frame (c : Cause) (hc : c ≠ .miss) (s : State) : Frame s (raise c s) := by
  refine ⟨rfl, rfl, rfl, rfl, rfl, rfl, ?_, rfl, rfl, fun _ => rfl, fun _ => Or.inl rfl, Or.inl rfl⟩
  cases c <;> simp_all [causeIndex]

theorem raiseIf_frame (b : Bool) (c : Cause) (hc : c ≠ .miss) (s : State) : Frame s (raiseIf b c s) := by
  cases b
  · exact Frame.refl s
  · exact raise_frame c hc s

/-! ### Signals -/

theorem requestWrite_frame (s : State) (t : TargetId) : Frame s (requestWrite s t) := by
  unfold requestWrite
  split
  · exact issueWrite_frame s t
  · exact modTarget_frame t _ s rfl

theorem handInTurn_frame (f : State → TargetId → State) (h : ∀ s t, Frame s (f s t)) (s : State) (ts : List TargetId) :
    Frame s (handInTurn f s ts) := by
  match ts with
  | [] => exact Frame.refl s
  | [t] => exact h s t
  | t :: u :: ts => exact (nextFree_frame s).trans (Frame.foldl f h _ _)

theorem settle_frame (s : State) : Frame s (settle s) :=
  (targets_frame s _ fun k => by simp [judge, Target.same]).trans (handInTurn_frame _ requestWrite_frame _ _)

/-- What judging one target leaves: its four signals, and the notification writes. -/
theorem judgeOne_parts (s : State) (t : TargetId) : ∃ u, judgeOne s t = u
    ∧ u = { s with targets := u.targets, notifyWrites := u.notifyWrites }
    ∧ ∀ k : TargetId, (s.targets[k]).same u.targets[k] ∧ u.targets[k].lists = s.targets[k].lists := by
  have h1 : ∀ k : TargetId, (s.targets[k]).same (modTarget t (fun _ => judge s t) s).targets[k]
      ∧ (modTarget t (fun _ => judge s t) s).targets[k].lists = s.targets[k].lists := by
    intro k
    by_cases hk : t = k
    · subst hk; simp [judge, Target.same]
    · have : (t : Nat) ≠ k := fun e => hk (Fin.ext e)
      simp [this, Target.same]
  unfold judgeOne requestWrite
  dsimp only
  split
  · split
    · exact ⟨_, rfl, rfl, h1⟩
    · refine ⟨_, rfl, rfl, fun k => ?_⟩
      obtain ⟨a, b⟩ := h1 k
      by_cases hk : t = k
      · subst hk; simp [judge, Target.same]
      · have : (t : Nat) ≠ k := fun e => hk (Fin.ext e)
        simp [this, Target.same]
  · exact ⟨_, rfl, rfl, h1⟩

/-- What judging several targets in turn leaves: their four signals, and the notification writes. -/
theorem judgeInTurn_parts (ts : List TargetId) (s : State) : ∃ u, judgeInTurn ts s = u
    ∧ u = { s with targets := u.targets, notifyWrites := u.notifyWrites }
    ∧ ∀ k : TargetId, (s.targets[k]).same u.targets[k] ∧ u.targets[k].lists = s.targets[k].lists := by
  induction ts generalizing s with
  | nil => exact ⟨s, rfl, rfl, fun k => ⟨Target.same_refl _, rfl⟩⟩
  | cons t ts ih =>
    obtain ⟨v, hv, ev, kv⟩ := judgeOne_parts s t
    obtain ⟨u, hu, eu, ku⟩ := ih v
    refine ⟨u, ?_, ?_, fun k => ⟨Target.same_trans (kv k).1 (ku k).1, (ku k).2.trans (kv k).2⟩⟩
    · rw [← hu, ← hv]; rfl
    · rw [eu, ev]

/-- Judging targets in turn changes no notice, pair, record, pin or cause, and not the port. -/
theorem judgeInTurn_pool (ts : List TargetId) (s : State) :
    (judgeInTurn ts s).pool = s.pool ∧ (judgeInTurn ts s).deferred = s.deferred ∧ (judgeInTurn ts s).order = s.order
      ∧ (judgeInTurn ts s).slots = s.slots ∧ (judgeInTurn ts s).pins = s.pins ∧ (judgeInTurn ts s).port = s.port
      ∧ (judgeInTurn ts s).fsu = s.fsu := by
  obtain ⟨u, hu, e, _⟩ := judgeInTurn_parts ts s
  rw [hu, e]; exact ⟨rfl, rfl, rfl, rfl, rfl, rfl, rfl⟩

theorem judgeInTurn_frame (ts : List TargetId) (s : State) : Frame s (judgeInTurn ts s) := by
  obtain ⟨u, hu, e, h⟩ := judgeInTurn_parts ts s
  rw [hu, e]
  exact ⟨rfl, rfl, rfl, rfl, rfl, rfl, rfl, rfl, rfl, fun k => (h k).1, fun _ => Or.inl rfl, Or.inl rfl⟩

/-! ### Notices -/

theorem ripen_frame (e : EntryId) (s : State) : Frame s (ripen e s) := by
  unfold ripen
  split
  · split
    · exact (setEntry_frame _ _ _).trans (modList_frame _ _ _ _)
    · exact Frame.refl s
  · exact Frame.refl s

theorem ripenIfReached_frame (e : EntryId) (s : State) : Frame s (ripenIfReached e s) := by
  unfold ripenIfReached
  split
  · exact ripen_frame e s
  · exact Frame.refl s

theorem mergeInto_frame (e : EntryId) (p : Placement) (s : State) : Frame s (mergeInto e p s) := by
  unfold mergeInto
  split
  · exact (setEntry_frame _ _ _).trans ((raiseIf_frame _ _ (by decide) _).trans (ripenIfReached_frame _ _))
  · exact Frame.refl s

theorem addLate_frame (e : EntryId) (p : Placement) (s : State) : Frame s (addLate e p s) := by
  unfold addLate
  split
  · exact (setEntry_frame _ _ _).trans (raiseIf_frame _ _ (by decide) _)
  · exact Frame.refl s

theorem mergeIntoPair_frame (i : SlotId) (t : TargetId) (d : Pair) (p : Placement) (s : State) :
    Frame s (mergeIntoPair i t d p s) := by
  unfold mergeIntoPair
  exact (deferred_frame _ _).trans (raiseIf_frame _ _ (by decide) _)

theorem startNotice_frame (e : EntryId) (n : Notice) (s : State) : Frame s (startNotice e n s) := by
  have h : Frame s { setEntry e (some n) s with order := s.order.erase e ++ [e] } :=
    Frame.of_eq rfl rfl rfl rfl rfl rfl rfl rfl rfl rfl
  unfold startNotice
  dsimp only
  split
  · exact h.trans (ripen_frame _ _)
  · exact h.trans (ripenIfReached_frame _ _)

theorem placeOn_frame (i : SlotId) (t : TargetId) (p : Placement) (s : State) : Frame s (placeOn i t p s) := by
  unfold placeOn
  split
  · exact mergeInto_frame _ _ _
  · split
    · exact mergeIntoPair_frame _ _ _ _ _
    · split
      · exact startNotice_frame _ _ _
      · exact (deferred_frame _ _).trans (raise_frame _ (by decide) _)

theorem removeNotice_frame (e : EntryId) (s : State) : Frame s (removeNotice e s) := by
  unfold removeNotice
  split
  · exact ((setEntry_frame _ _ _).trans (modList_frame _ _ _ _)).trans (order_frame _ _)
  · exact Frame.refl s

theorem endRetireWait_frame (i : SlotId) (s : State) : Frame s (endRetireWait i s) := by
  unfold endRetireWait
  split
  · split
    · rename_i j figures hf _
      exact ⟨rfl, rfl, rfl, rfl, rfl, rfl, rfl, rfl, rfl, fun _ => rfl, fun _ => Or.inl rfl,
        Or.inr ⟨_, _, hf, rfl⟩⟩
    · exact Frame.refl s
  · exact Frame.refl s

theorem freeSlot_frame (i : SlotId) (s : State) (h : s.slots[i].state = .retiring) : Frame s (freeSlot i s) := by
  refine ⟨rfl, rfl, rfl, rfl, rfl, rfl, rfl, rfl, rfl, fun _ => rfl, fun j => ?_, Or.inl rfl⟩
  by_cases hj : i = j
  · subst hj; exact Or.inr ⟨h, by simp⟩
  · have : (i : Nat) ≠ j := fun e => hj (Fin.ext e)
    exact Or.inl (by simp [this])

theorem reportCeased_frame (i : SlotId) (s : State) : Frame s (reportCeased i s) := by
  unfold reportCeased
  split
  · rename_i h
    simp only [Bool.and_eq_true, beq_iff_eq] at h
    exact (freeSlot_frame i s h.1).trans (endRetireWait_frame _ _)
  · exact Frame.refl s

theorem handOver_frame (e : EntryId) (s : State) : Frame s (handOver e s) := by
  unfold handOver
  split
  · exact Frame.refl s
  · exact (deferred_frame _ _).trans (startNotice_frame _ _ _)

theorem handOverInTurn_frame (s : State) (e : EntryId) : Frame s (handOverInTurn s e) :=
  (handOver_frame e s).trans (judgeInTurn_frame _ _)

theorem handOverAll_frame (es : List EntryId) (s : State) : Frame s (handOverAll es s) :=
  Frame.foldl _ handOverInTurn_frame es s

theorem dropNotice_frame (e : EntryId) (s : State) : Frame s (dropNotice e s) := by
  unfold dropNotice
  split
  · exact (removeNotice_frame _ _).trans (rearmPins_frame _ _)
  · exact Frame.refl s

theorem ceaseNotice_frame (e : EntryId) (s : State) : Frame s (ceaseNotice e s) := by
  unfold ceaseNotice
  split
  · split
    · exact dropNotice_frame _ _
    · exact (dropNotice_frame _ _).trans (reportCeased_frame _ _)
  · exact Frame.refl s

theorem ceaseAndHandOver_frame (e : EntryId) (s : State) : Frame s (ceaseAndHandOver e s) :=
  (ceaseNotice_frame e s).trans (handOverInTurn_frame _ _)

theorem ceaseAll_frame (es : List EntryId) (s : State) : Frame s (ceaseAll es s) :=
  ((Frame.foldl _ (fun s e => ceaseNotice_frame e s) es s).trans (settle_frame _)).trans (handOverAll_frame _ _)

theorem ceasePair_frame (s : State) (d : Pair) : Frame s (ceasePair s d) := by
  unfold ceasePair
  exact (rearmPins_frame d.pins s).trans (reportCeased_frame _ _)

theorem ceasePairs_frame (p : Pair → Bool) (s : State) : Frame s (ceasePairs p s) := by
  unfold ceasePairs
  exact (deferred_frame s _).trans (Frame.foldl ceasePair ceasePair_frame _ _)

theorem absorbPair_frame (e : EntryId) (i : SlotId) (t : TargetId) (s : State) : Frame s (absorbPair e i t s) := by
  unfold absorbPair
  split
  · exact (deferred_frame _ _).trans (mergeInto_frame _ _ _)
  · exact Frame.refl s

theorem moveWhole_frame (e : EntryId) (n : Notice) (t : TargetId) (s : State) : Frame s (moveWhole e n t s) := by
  unfold moveWhole
  dsimp only
  split
  · exact (((setEntry_frame _ _ _).trans (modList_frame _ _ _ _)).trans (modList_frame _ _ _ _)).trans
      (absorbPair_frame _ _ _ _)
  · exact (setEntry_frame _ _ _).trans (absorbPair_frame _ _ _ _)

theorem mergeAway_frame (e : EntryId) (n : Notice) (home : EntryId) (s : State) : Frame s (mergeAway e n home s) := by
  unfold mergeAway
  split
  · dsimp only
    refine Frame.trans ?_ (((removeNotice_frame _ _).trans (reportCeased_frame _ _)).trans (handOver_frame _ _))
    split
    · exact (mergeInto_frame _ _ _).trans (ripen_frame _ _)
    · exact mergeInto_frame _ _ _
  · exact Frame.refl s

theorem rehomeOne_frame (source : TargetId) (s : State) (e : EntryId) : Frame s (rehomeOne source s e) := by
  unfold rehomeOne
  split
  · split
    · split
      · exact mergeAway_frame _ _ _ _
      · exact moveWhole_frame _ _ _ _
    · exact Frame.refl s
  · exact Frame.refl s

theorem rehomeAll_frame (source : TargetId) (s : State) : Frame s (rehomeAll source s) :=
  Frame.foldl _ (fun s e => rehomeOne_frame source s e) _ s

theorem rehomeAndJudge_frame (source : TargetId) (s : State) : Frame s (rehomeAndJudge source s) :=
  (rehomeAll_frame source s).trans (judgeInTurn_frame _ _)

/-! ### Placements -/

theorem placeFirst_frame (i : SlotId) (p : Placement) (s : State) : Frame s (placeFirst i p s) := by
  unfold placeFirst
  split
  · exact placeOn_frame _ _ _ _
  · exact Frame.refl s

theorem placeAt_frame (i : SlotId) (t : TargetId) (p : Placement) (s : State) : Frame s (placeAt i t p s) := by
  unfold placeAt
  split
  · exact addLate_frame _ _ _
  · exact placeOn_frame _ _ _ _

theorem placeAll_frame (i : SlotId) (p : Placement) (s : State) (ts : List TargetId) :
    Frame s (placeAll i p s ts) := by
  induction ts generalizing p s with
  | nil => exact Frame.refl s
  | cons t ts ih => exact ((placeAt_frame i t p s).trans (settle_frame _)).trans (ih _ _)

/-! ### Retirement -/

theorem discardItems_frame (i : SlotId) (s : State) : Frame s (discardItems i s) :=
  (ceasePairs_frame _ _).trans (ceaseAll_frame _ _)

theorem drainItems_frame (i : SlotId) (s : State) : Frame s (drainItems i s) :=
  Frame.foldl _ (fun s e => (ripen_frame e s).trans (settle_frame _)) _ s

theorem treatItems_frame (i : SlotId) (mode : RetireMode) (s : State) : Frame s (treatItems i mode s) := by
  cases mode
  · exact discardItems_frame i s
  · exact drainItems_frame i s

theorem orphanItems_frame (i : SlotId) (s : State) : Frame s (orphanItems i s) := by
  unfold orphanItems
  exact Frame.foldl _ (fun s _ => setEntry_frame _ _ s) _ s

theorem dropPairs_frame (i : SlotId) (s : State) : Frame s (dropPairs i s) := by
  unfold dropPairs
  exact (deferred_frame s _).trans (Frame.foldl (fun s (d : Pair) => rearmPins d.pins s) (fun s d => rearmPins_frame d.pins s) _ _)

end Sys2Proof.Machine
end

