-- ==== Sys2Proof/Laws/Arrivals.lean ====
section
/-! SUPPORT. What the RT's taking of an arrival leaves alone, the arrival a command takes, and the link's taking of accesses. -/

namespace Sys2Proof.Machine

/-- What an arrival, a placement from a held count and a re-homing all leave alone. -/
structure Outer (s t : State) : Prop where
  now : t.now = s.now
  porst : t.porst = s.porst
  link : t.link = s.link
  intake : t.intake = s.intake
  answers : t.answers = s.answers
  pending : t.pending = s.pending
  target : ∀ k : TargetId, (s.targets[k]).same t.targets[k]
  port : s.port.keptOrRetired t.port

theorem Frame.outer {s t : State} (h : Frame s t) : Outer s t :=
  ⟨h.now, h.porst, h.link, h.intake, h.answers, h.pending, h.target, h.port⟩

theorem Outer.refl (s : State) : Outer s s := (Frame.refl s).outer

theorem Outer.trans {s t u : State} (h : Outer s t) (k : Outer t u) : Outer s u :=
  ⟨k.now.trans h.now, k.porst.trans h.porst, k.link.trans h.link, k.intake.trans h.intake,
   k.answers.trans h.answers, k.pending.trans h.pending, fun i => Target.same_trans (h.target i) (k.target i),
   Port.keptOrRetired_trans h.port k.port⟩

/-- An operation on slots or on the FSU alone. -/
theorem Outer.of_eq {s t : State} (now : t.now = s.now) (porst : t.porst = s.porst) (link : t.link = s.link)
    (intake : t.intake = s.intake) (answers : t.answers = s.answers) (pending : t.pending = s.pending)
    (targets : t.targets = s.targets) (port : t.port = s.port) : Outer s t :=
  ⟨now, porst, link, intake, answers, pending, fun k => by rw [targets]; rfl, by rw [port]; exact Or.inl rfl⟩

theorem modSlot_outer (i : SlotId) (f : Slot → Slot) (s : State) : Outer s (modSlot i f s) :=
  Outer.of_eq rfl rfl rfl rfl rfl rfl rfl rfl

theorem setHeld_outer (i : SlotId) (h : Held) (s : State) : Outer s (setHeld i h s) := modSlot_outer i _ s

theorem modCause_outer (c : Cause) (f : CauseState → CauseState) (s : State) : Outer s (modCause c f s) :=
  Outer.of_eq rfl rfl rfl rfl rfl rfl rfl rfl

theorem raise_outer (c : Cause) (s : State) : Outer s (raise c s) := modCause_outer c _ s

theorem raiseIf_outer (b : Bool) (c : Cause) (s : State) : Outer s (raiseIf b c s) := by
  cases b
  · exact Outer.refl s
  · exact raise_outer c s

theorem raiseMiss_outer (key : Key) (s : State) : Outer s (raiseMiss key s) :=
  Outer.of_eq rfl rfl rfl rfl rfl rfl rfl rfl

theorem joinHeld_outer (i : SlotId) (a : Arrival) (s : State) : Outer s (joinHeld i a s) :=
  (setHeld_outer _ _ _).trans (raiseIf_outer _ _ _)

theorem discardHeld_outer (i : SlotId) (s : State) : Outer s (discardHeld i s) :=
  (setHeld_outer _ _ _).trans (rearmPins_frame _ _).outer

theorem placeRotate_outer (i : SlotId) (p : Placement) (s : State) : Outer s (placeRotate i p s) := by
  unfold placeRotate
  split
  · exact (mergeInto_frame _ _ _).outer
  · dsimp only
    split
    · exact (modSlot_outer _ _ _).trans (placeOn_frame _ _ _ _).outer
    · exact Outer.refl s

theorem placeSingle_outer (i : SlotId) (p : Placement) (s : State) : Outer s (placeSingle i p s) := by
  unfold placeSingle
  split
  · exact (addLate_frame _ _ _).outer
  · split
    · exact placeRotate_outer _ _ _
    · exact (placeFirst_frame _ _ _).outer

theorem placeByMode_outer (i : SlotId) (p : Placement) (s : State) : Outer s (placeByMode i p s) := by
  unfold placeByMode
  split
  · exact (placeAll_frame _ _ _ _).outer
  · exact placeSingle_outer _ _ _

theorem placeArrival_outer (i : SlotId) (a : Arrival) (s : State) : Outer s (placeArrival i a s) := by
  unfold placeArrival
  dsimp only
  split
  · exact placeByMode_outer _ _ _
  · exact ((setHeld_outer _ _ _).trans (raiseIf_outer _ _ _)).trans (placeByMode_outer _ _ _)

theorem placeHeld_outer (i : SlotId) (s : State) : Outer s (placeHeld i s) := by
  unfold placeHeld
  dsimp only
  refine ((setHeld_outer i Held.empty s).trans (raiseIf_outer (decide (255 < s.slots[i].held.count)) .countOverflow _)).trans ?_
  split
  · split
    · exact (placeAt_frame _ _ _ _).outer
    · exact Outer.refl _
  · exact placeSingle_outer _ _ _

theorem applyArrival_outer (i : SlotId) (a : Arrival) (s : State) : Outer s (applyArrival i a s) := by
  unfold applyArrival
  split
  · exact (placeArrival_outer _ _ _).trans (settle_frame _).outer
  · exact joinHeld_outer _ _ _

theorem missed_outer (p : Producer) (key : Key) (s : State) : Outer s (missed p key s) := by
  cases p
  · exact raiseMiss_outer key s
  · exact raiseMiss_outer key s
  · unfold missed
    exact (raiseMiss_outer key s).trans (modPin_frame _ _ _).outer
  · exact Outer.refl s

theorem arrive_outer (p : Producer) (a : Arrival) (s : State) : Outer s (arrive p a s) := by
  unfold arrive
  split
  · exact applyArrival_outer _ _ _
  · exact missed_outer _ _ _

/-! ### Which arrival a command takes -/

/-- The producer of the arrival that a command takes. -/
def producerOf : Instr → Producer
  | .intakeHeadTaken => .intake
  | .edgeLatchTaken _ => .edge
  | .levelOfferTaken pin => .level pin
  | _ => .fault

theorem pinKey_eq (pin : PinId) : pinKey pin = 0xFF00#16 ++ BitVec.ofNat 16 pin := by
  have h : ∀ pin : PinId, pinKey pin = 0xFF00#16 ++ BitVec.ofNat 16 pin := by decide
  exact h pin

theorem faultKey_eq (c : Cause) : faultKey c = 0xFFFE#16 ++ BitVec.ofNat 16 (causeIndex c + 1) := by
  cases c <;> decide

/-- With no access waiting in the link there is nothing to take from it. -/
theorem drainWaiting_of_none (s : State) (h : s.link.waiting = []) : drainWaiting s = s := by
  unfold drainWaiting
  split
  · obtain ⟨now, free, porst, ⟨ls, bm, w⟩, rest⟩ := s
    simp only at h
    subst h
    rfl
  · rfl

/-- A command that takes an arrival runs it through the RT (R42). -/
theorem exec_of_offered (c : Instr) (s u : State) (a : Arrival) (h : offered c s = some (a, u)) : exec c s = .next (afterTaking c (arrive (producerOf c) a u)) := by
  cases c <;> simp only [offered, reduceCtorEq] at h
  · split at h <;> simp only [Option.some.injEq, Prod.mk.injEq, reduceCtorEq] at h
    obtain ⟨rfl, rfl⟩ := h
    rename_i h
    simp only [exec, execIntakeHeadTaken, intakeTakenBody, intakeBody, h, producerOf, afterTaking]
  · split at h <;> simp only [Option.some.injEq, Prod.mk.injEq, reduceCtorEq] at h
    obtain ⟨rfl, rfl⟩ := h
    rename_i h
    simp only [exec, execEdgeLatchTaken, edgeBody, h, if_true, pinKey_eq, producerOf, afterTaking]
  · split at h <;> simp only [Option.some.injEq, Prod.mk.injEq, reduceCtorEq] at h
    obtain ⟨rfl, rfl⟩ := h
    rename_i h
    simp only [exec, execLevelOfferTaken, levelBody, h, if_true, pinKey_eq, producerOf, afterTaking]
  · simp only [Option.map_eq_some_iff, Prod.mk.injEq] at h
    obtain ⟨p, h, rfl, rfl⟩ := h
    simp only [exec, execFaultArrival, faultBody, h, faultKey_eq, producerOf, afterTaking]

/-- The taking of an offer leaves the table, the targets and the pool as they are. -/
theorem offered_keeps (c : Instr) (s u : State) (a : Arrival) (h : offered c s = some (a, u)) :
    u.slots = s.slots ∧ u.targets = s.targets ∧ u.pool = s.pool ∧ u.order = s.order ∧ u.deferred = s.deferred
      ∧ u.link = s.link ∧ u.port = s.port ∧ u.now = s.now := by
  cases c <;> simp only [offered, reduceCtorEq] at h
  · split at h <;> simp only [Option.some.injEq, Prod.mk.injEq, reduceCtorEq] at h
    obtain ⟨-, rfl⟩ := h
    exact ⟨rfl, rfl, rfl, rfl, rfl, rfl, rfl, rfl⟩
  · split at h <;> simp only [Option.some.injEq, Prod.mk.injEq, reduceCtorEq] at h
    obtain ⟨-, rfl⟩ := h
    exact ⟨rfl, rfl, rfl, rfl, rfl, rfl, rfl, rfl⟩
  · split at h <;> simp only [Option.some.injEq, Prod.mk.injEq, reduceCtorEq] at h
    obtain ⟨-, rfl⟩ := h
    exact ⟨rfl, rfl, rfl, rfl, rfl, rfl, rfl, rfl⟩
  · simp only [Option.map_eq_some_iff, Prod.mk.injEq] at h
    obtain ⟨p, -, -, rfl⟩ := h
    exact ⟨rfl, rfl, rfl, rfl, rfl, rfl, rfl, rfl⟩

/-! ### The link's taking of an access -/

/-- A command that is an access is what the link delivers (R187). -/
theorem exec_of_access {c : Instr} {op : LinkOp} (h : accessOf c = some op) (s : State) :
    exec c s = .next (linkDeliver op s) := by
  unfold accessOf commandCode at h
  cases c <;> dsimp only [Option.map] at h <;> cases h <;> rfl

/-- With the link DOWN or PORST# asserted no access reaches the part (R191, R193). -/
theorem linkDeliver_of_unserved {s : State} (h : s.porst = true ∨ s.link.state = .down) (op : LinkOp) : linkDeliver op s = s := by
  unfold linkDeliver linkServes
  rcases h with h | h <;> simp [h]

/-- An access waits behind one that waits, and a posted write while credit is withheld (R31, R190). -/
theorem linkDeliver_of_waits {s : State} (hu : s.link.state = .up) (hp : s.porst = false) {op : LinkOp}
    (h : s.link.waiting ≠ [] ∨ op.isPosted = true ∧ 32 ≤ s.intake.length) :
    linkDeliver op s = { s with link := { s.link with waiting := s.link.waiting ++ [op] } } := by
  have hm : mustWait op s = true := by
    unfold mustWait withheld
    rcases h with h | ⟨h, k⟩
    · simp [h]
    · simp [h, k]
  simp [linkDeliver, linkServes, hu, hp, hm, setWaiting]

/-- An access that need not wait is taken at once (R190). -/
theorem linkDeliver_of_taken {s : State} (hu : s.link.state = .up) (hp : s.porst = false) {op : LinkOp}
    (hw : s.link.waiting = []) (h : op.isPosted = false ∨ s.intake.length < 32) : linkDeliver op s = serve op s := by
  have hm : mustWait op s = false := by
    unfold mustWait withheld
    rcases h with h | h
    · simp [hw, h]
    · simp [hw, h]
  simp [linkDeliver, linkServes, hu, hp, hm]

/-- A posted write is taken at once (R190). -/
theorem linkDeliver_of_linkReady {s : State} (h : linkReady s) (op : LinkOp) : linkDeliver op s = serve op s := by
  obtain ⟨⟨h1, h2, h3⟩, h4⟩ := h
  have h5 : ¬ 32 ≤ s.intake.length := by omega
  simp [linkDeliver, linkServes, mustWait, h1, h2, h3, withheld, h5]

/-- A read is taken at once with no access waiting (R190). -/
theorem linkDeliver_of_readReady {s : State} (h : readReady s) (op : LinkOp) (hp : op.isPosted = false) :
    linkDeliver op s = serve op s := by
  obtain ⟨h1, h2, h3⟩ := h
  simp [linkDeliver, linkServes, mustWait, h1, h2, h3, hp]

/-- A COMMAND write taken by an IDLE port (R142, R144). -/
theorem serve_command_of_commandReady {s : State} (h : commandReady s) (code : BitVec 8) :
    linkDeliver (.command code) s = commandBody code.toNat (startCommand code s) := by
  rw [linkDeliver_of_linkReady h.1]
  simp [serve, commandWrite, takeCommand, busy, h.2]

end Sys2Proof.Machine
end

