-- ==== Sys2Proof/Laws/Lookup.lean ====
section
/-! SUPPORT. The lookup (R5, R6): what it finds, when it finds nothing, and what the leading bits of two keys being equal means bit by bit. -/

namespace Sys2Proof.Machine

/-- What the search for the longest match holds after any part of the table. -/
def Best (key : Key) (s : State) (done : List (Slot × Nat)) (best : Option (SlotId × Nat)) : Prop :=
  match best with
  | none => ∀ x ∈ done, covers key x.1 = false
  | some b => covers key s.slots[b.1] = true ∧ s.slots[b.1].len = b.2
      ∧ ∀ x ∈ done, covers key x.1 = true → x.1.len ≤ b.2

/-- One more slot looked at. -/
theorem longer_best (key : Key) (s : State) (done : List (Slot × Nat)) (best : Option (SlotId × Nat))
    (x : Slot × Nat) (hx : s.slots[Fin.ofNat 1024 x.2] = x.1) (h : Best key s done best) :
    Best key s (done ++ [x]) (longer key best x) := by
  unfold longer
  split
  · rename_i hc
    split
    · rename_i b
      split
      · rename_i hl
        refine ⟨by rw [hx]; exact hc, by rw [hx], ?_⟩
        intro y hy hcy
        rcases List.mem_append.mp hy with hy | hy
        · exact le_trans (h.2.2 y hy hcy) (le_of_lt hl)
        · simp at hy; subst hy; exact le_refl _
      · rename_i hl
        refine ⟨h.1, h.2.1, ?_⟩
        intro y hy hcy
        rcases List.mem_append.mp hy with hy | hy
        · exact h.2.2 y hy hcy
        · simp at hy; subst hy; omega
    · refine ⟨by rw [hx]; exact hc, by rw [hx], ?_⟩
      intro y hy hcy
      rcases List.mem_append.mp hy with hy | hy
      · have := h y hy; rw [this] at hcy; cases hcy
      · simp at hy; subst hy; exact le_refl _
  · rename_i hc
    cases best with
    | none =>
      intro y hy
      rcases List.mem_append.mp hy with hy | hy
      · exact h y hy
      · simp at hy; subst hy; simpa using hc
    | some b =>
      refine ⟨h.1, h.2.1, ?_⟩
      intro y hy hcy
      rcases List.mem_append.mp hy with hy | hy
      · exact h.2.2 y hy hcy
      · simp at hy; subst hy; exact absurd hcy hc

/-- The search over a whole part of the table. -/
theorem foldl_best (key : Key) (s : State) (xs done : List (Slot × Nat)) (best : Option (SlotId × Nat))
    (hx : ∀ x ∈ xs, s.slots[Fin.ofNat 1024 x.2] = x.1) (h : Best key s done best) :
    Best key s (done ++ xs) (xs.foldl (longer key) best) := by
  induction xs generalizing done best with
  | nil => simpa using h
  | cons x xs ih =>
    have := ih (done ++ [x]) _ (fun y hy => hx y (List.mem_cons_of_mem _ hy))
      (longer_best key s done best x (hx x List.mem_cons_self) h)
    simpa using this

theorem mem_slots_zipIdx (v : Vector Slot 1024) (x : Slot × Nat) :
    x ∈ v.toList.zipIdx ↔ ∃ i : SlotId, x = (v[i], i.val) := by
  constructor
  · intro h
    rw [List.mem_zipIdx_iff_getElem?] at h
    have h' := List.getElem?_eq_some_iff.mp h
    obtain ⟨hl, he⟩ := h'
    have hl' : x.2 < 1024 := by simpa using hl
    exact ⟨⟨x.2, hl'⟩, by rcases x with ⟨a, b⟩; simpa using he.symm⟩
  · rintro ⟨i, rfl⟩
    rw [List.mem_zipIdx_iff_getElem?]
    simp

theorem lookup_best (s : State) (key : Key) :
    Best key s s.slots.toList.zipIdx (s.slots.toList.zipIdx.foldl (longer key) none) := by
  have := foldl_best key s s.slots.toList.zipIdx [] none ?_ (by intro x hx; cases hx)
  · simpa using this
  · intro x hx
    obtain ⟨i, rfl⟩ := (mem_slots_zipIdx _ _).mp hx
    have : Fin.ofNat 1024 i.val = i := by ext; simp
    simp only [this]

theorem lookup_some {s : State} {key : Key} {i : SlotId} (h : lookup s key = some i) :
    covers key s.slots[i] = true ∧ ∀ j : SlotId, covers key s.slots[j] = true → s.slots[j].len ≤ s.slots[i].len := by
  unfold lookup at h
  obtain ⟨b, hb, rfl⟩ := Option.map_eq_some_iff.mp h
  have := lookup_best s key
  rw [hb] at this
  obtain ⟨h1, h2, h3⟩ := this
  exact ⟨h1, fun j hj => h2 ▸ h3 _ ((mem_slots_zipIdx _ _).mpr ⟨j, rfl⟩) hj⟩

theorem lookup_none {s : State} {key : Key} : lookup s key = none ↔ ∀ j : SlotId, covers key s.slots[j] = false := by
  have := lookup_best s key
  unfold lookup
  rw [Option.map_eq_none_iff]
  constructor
  · intro h j
    rw [h] at this
    exact this _ ((mem_slots_zipIdx _ _).mpr ⟨j, rfl⟩)
  · intro h
    cases hb : s.slots.toList.zipIdx.foldl (longer key) none with
    | none => rfl
    | some b =>
      rw [hb] at this
      have h1 := this.1
      rw [h] at h1
      cases h1

theorem sameLeading_iff (n : Nat) (hn : n ≤ 32) (a b : Key) :
    sameLeading n a b = true ↔ ∀ k, k < n → a.getMsbD k = b.getMsbD k := by
  unfold sameLeading
  rw [beq_iff_eq]
  constructor
  · intro h k hk
    have := congrArg (fun x => x.getLsbD (n - 1 - k)) h
    simp only [BitVec.getLsbD_ushiftRight, BitVec.getLsbD_xor] at this
    have e : 32 - n + (n - 1 - k) = 32 - 1 - k := by omega
    rw [e] at this
    have hk' : k < 32 := by omega
    simp only [BitVec.getMsbD, hk', decide_true, Bool.true_and]
    revert this; cases a.getLsbD (32 - 1 - k) <;> cases b.getLsbD (32 - 1 - k) <;> simp
  · intro h
    apply BitVec.eq_of_getLsbD_eq
    intro i hi
    simp only [BitVec.getLsbD_ushiftRight, BitVec.getLsbD_xor]
    by_cases hb : 32 - n + i < 32
    · have := h (32 - 1 - (32 - n + i)) (by omega)
      have hk' : 32 - 1 - (32 - n + i) < 32 := by omega
      simp only [BitVec.getMsbD, hk', decide_true, Bool.true_and] at this
      have e : 32 - 1 - (32 - 1 - (32 - n + i)) = 32 - n + i := by omega
      rw [e] at this
      rw [this]; simp
    · rw [BitVec.getLsbD_of_ge _ _ (by omega), BitVec.getLsbD_of_ge _ _ (by omega)]; simp

theorem covers_iff (key : Key) (r : Slot) (h : r.len ≤ 32) :
    covers key r = true ↔ (r.state = .active ∨ r.state = .held) ∧ ∀ k, k < r.len → r.key.getMsbD k = key.getMsbD k := by
  simp [covers, sameLeading_iff _ h]

theorem covers_not_free {key : Key} {r : Slot} (h : covers key r = true) : r.state = .active ∨ r.state = .held := by
  simp only [covers, Bool.and_eq_true, Bool.or_eq_true, beq_iff_eq] at h
  exact h.1

end Sys2Proof.Machine
end

