-- ==== Sys2Proof/Laws/Keeps.lean ====
section
/-! SUPPORT. The invariants but for that of the signals, as one relation between a state and the next, reflexive and transitive; each shared operation that changes slots, held counts or the FSU keeps it. -/

namespace Sys2Proof.Machine

theorem slot_get_set (v : Vector Slot 1024) (i j : SlotId) (x : Slot) :
    (v.set i x)[j] = if i = j then x else v[j] := by
  by_cases h : i = j
  · subst h; simp
  · have : (i : Nat) ≠ j := fun e => h (Fin.ext e)
    simp [h, this]

theorem target_get_set (v : Vector Target 8) (i j : TargetId) (x : Target) :
    (v.set i x)[j] = if i = j then x else v[j] := by
  by_cases h : i = j
  · subst h; simp
  · have : (i : Nat) ≠ j := fun e => h (Fin.ext e)
    simp [h, this]

theorem Held.wf_empty : Held.empty.wf := by simp [Held.wf, Held.empty]

theorem Slot.wf_freeOf (g : BitVec 8) : (Slot.freeOf g).wf := by simp [Slot.wf, Slot.freeOf]

/-- The invariants but for the signals' one. -/
structure Keeps (s t : State) : Prop where
  pending : t.pending = s.pending
  intake : IntakeBounded s → IntakeBounded t
  bounded : StacksBounded s → StacksBounded t
  configs : ConfigsLegal s → ConfigsLegal t
  capture : CaptureFollowsMiss s → CaptureFollowsMiss t
  distinct : MatchesDiffer s → MatchesDiffer t
  records : RecordsWellFormed s ∧ HeldCountsWhole s → RecordsWellFormed t ∧ HeldCountsWhole t
  port : PortConsistent s → PortConsistent t

theorem Keeps.refl (s : State) : Keeps s s := ⟨rfl, id, id, id, id, id, id, id⟩

theorem Keeps.trans {s t u : State} (h : Keeps s t) (k : Keeps t u) : Keeps s u :=
  ⟨k.pending.trans h.pending, k.intake ∘ h.intake, k.bounded ∘ h.bounded, k.configs ∘ h.configs, k.capture ∘ h.capture,
   k.distinct ∘ h.distinct, k.records ∘ h.records, k.port ∘ h.port⟩

theorem Port.concluded_consistent (p : Port) (c : ResultCode) (ws : List Word) (s : State)
    (h : p.walkPosition ≤ 1024) (hs : s.port = p.concluded c ws) : PortConsistent s := by
  simp [PortConsistent, busy, hs, Port.concluded, h]

theorem Frame.keeps {s t : State} (h : Frame s t) : Keeps s t where
  pending := h.pending
  intake := by intro k; unfold IntakeBounded; rw [h.intake]; exact k
  bounded := by
    intro k i
    have := h.target i
    rw [this]; exact k i
  configs := by
    intro k i
    rw [show t.targets[i] = _ from h.target i]; exact k i
  capture := by
    intro k
    unfold CaptureFollowsMiss
    rw [h.firstMiss, h.miss, h.moreMisses]; exact k
  distinct := by
    intro k i j hi hj
    rcases h.slot i with h1 | ⟨_, h1⟩
    · rcases h.slot j with h2 | ⟨_, h2⟩
      · rw [h1] at hi ⊢; rw [h2] at hj ⊢; exact k i j hi hj
      · rw [h2] at hj; simp [Slot.freeOf] at hj
    · rw [h1] at hi; simp [Slot.freeOf] at hi
  records := by
    rintro ⟨k1, k2⟩
    constructor
    · intro i
      rcases h.slot i with h1 | ⟨_, h1⟩
      · rw [h1]; exact k1 i
      · rw [h1]; exact Slot.wf_freeOf _
    · intro i
      rcases h.slot i with h1 | ⟨_, h1⟩
      · rw [h1]; exact k2 i
      · rw [h1]; exact Held.wf_empty
  port := by
    intro k
    rcases h.port with h1 | ⟨i, f, hf, h1⟩
    · unfold PortConsistent busy; rw [h1]; exact k
    · exact Port.concluded_consistent _ _ _ _ k.2.2.1 h1

/-- A change of one slot to a well-formed one that keeps key and length where not free. -/
theorem modSlot_keeps (i : SlotId) (f : Slot → Slot) (s : State)
    (h1 : s.slots[i].wf → s.slots[i].held.wf → (f s.slots[i]).wf ∧ (f s.slots[i]).held.wf)
    (h2 : (f s.slots[i]).state ≠ .free →
      s.slots[i].state ≠ .free ∧ (f s.slots[i]).len = s.slots[i].len ∧ (f s.slots[i]).key = s.slots[i].key) :
    Keeps s (modSlot i f s) where
  pending := rfl
  intake := id
  bounded := id
  configs := id
  capture := id
  port := id
  distinct := by
    intro k a b ha hb hl hk
    simp only [modSlot_slots, slot_get_set] at ha hb hl hk
    split at ha <;> split at hb
    · simp_all
    · rename_i e1 e2
      subst e1
      simp only [if_true, e2, if_false] at hl hk
      obtain ⟨x1, x2, x3⟩ := h2 ha
      exact k _ _ x1 hb (x2 ▸ hl) (x3 ▸ hk)
    · rename_i e1 e2
      subst e2
      simp only [if_true, e1, if_false] at hl hk
      obtain ⟨x1, x2, x3⟩ := h2 hb
      exact k _ _ ha x1 (x2 ▸ hl) (x3 ▸ hk)
    · rename_i e1 e2
      simp only [e1, e2, if_false] at hl hk
      exact k _ _ ha hb hl hk
  records := by
    rintro ⟨k1, k2⟩
    have := h1 (k1 i) (k2 i)
    constructor <;> intro j <;> simp only [modSlot_slots, slot_get_set] <;> split
    · exact this.1
    · exact k1 j
    · exact this.2
    · exact k2 j

theorem modPort_keeps (f : Port → Port) (s : State)
    (h : PortConsistent s → PortConsistent (modPort f s)) : Keeps s (modPort f s) :=
  ⟨rfl, id, id, id, id, id, id, h⟩

theorem raise_keeps (c : Cause) (hc : c ≠ .miss) (s : State) : Keeps s (raise c s) := (raise_frame c hc s).keeps
theorem raiseIf_keeps (b : Bool) (c : Cause) (hc : c ≠ .miss) (s : State) : Keeps s (raiseIf b c s) :=
  (raiseIf_frame b c hc s).keeps

theorem captureMiss_firstMiss (k : Key) (f : Fsu) : (captureMiss k f).firstMiss = some (f.firstMiss.getD k) := by
  unfold captureMiss; split <;> simp_all
theorem captureMiss_moreMisses (k : Key) (f : Fsu) :
    (captureMiss k f).moreMisses = (f.moreMisses || f.firstMiss.isSome) := by
  unfold captureMiss; split <;> simp_all
theorem captureMiss_causes (k : Key) (f : Fsu) : (captureMiss k f).causes = f.causes := by
  unfold captureMiss; split <;> rfl
theorem raiseCause_flag (p : Word) (c : CauseState) : (raiseCause p c).flag = true := by
  unfold raiseCause; split <;> simp_all

theorem raiseMiss_keeps (key : Key) (s : State) : Keeps s (raiseMiss key s) where
  pending := rfl
  intake := id
  bounded := id
  configs := id
  distinct := id
  records := id
  port := id
  capture := by
    intro _
    unfold CaptureFollowsMiss raiseMiss
    simp only [captureMiss_firstMiss, captureMiss_causes]
    refine ⟨?_, fun _ => rfl⟩
    simp [modCause, raiseCause_flag]

theorem setHeld_keeps (i : SlotId) (h : Held) (s : State) (hf : s.slots[i].state ≠ .free) (hw : s.slots[i].held.wf → h.wf) :
    Keeps s (setHeld i h s) := by
  refine modSlot_keeps i _ s (fun w v => ⟨?_, hw v⟩) fun _ => ⟨hf, rfl, rfl⟩
  obtain ⟨w1, w2, w3⟩ := w
  exact ⟨fun e => absurd e hf, fun _ => w2 hf, w3⟩

theorem Held.wf_join (h : Held) (a : Arrival) (w : h.wf) : (h.join a).wf := by
  obtain ⟨w1, w2, w3⟩ := w
  refine ⟨by simp [Held.join], ?_, ?_⟩ <;> simp [Held.join]

theorem joinHeld_keeps (i : SlotId) (a : Arrival) (s : State) (hf : s.slots[i].state ≠ .free) :
    Keeps s (joinHeld i a s) :=
  (setHeld_keeps i _ s hf (Held.wf_join _ a)).trans (raiseIf_keeps _ _ (by decide) _)

theorem discardHeld_keeps (i : SlotId) (s : State) (hf : s.slots[i].state ≠ .free) : Keeps s (discardHeld i s) :=
  (setHeld_keeps i _ s hf fun _ => Held.wf_empty).trans (rearmPins_frame _ _).keeps

theorem find?_mem_searchFrom {p : TargetId → Bool} {k : Nat} {ts : List TargetId} {t : TargetId}
    (h : (searchFrom k ts).find? p = some t) : t ∈ ts := by
  have := List.mem_of_find?_eq_some h
  simp only [searchFrom, List.mem_append] at this
  rcases this with h | h
  · exact List.mem_of_mem_drop h
  · exact List.mem_of_mem_take h

theorem preferOnline_mem {s : State} {ts : List TargetId} {t : TargetId} (h : preferOnline s ts = some t) :
    t ∈ ts ∧ placeable s t = true := by
  unfold preferOnline at h
  split at h
  · rename_i h1
    cases h
    have := List.find?_some h1
    exact ⟨List.mem_of_find?_eq_some h1, by simp_all [placeable, online]⟩
  · have := List.find?_some h
    exact ⟨List.mem_of_find?_eq_some h, by simp_all [placeable, stalled]⟩

theorem searchFrom_mem {k : Nat} {ts : List TargetId} {t : TargetId} : t ∈ searchFrom k ts ↔ t ∈ ts := by
  unfold searchFrom
  rw [List.mem_append, or_comm, ← List.mem_append, List.take_append_drop]

theorem placeRotate_keeps (i : SlotId) (p : Placement) (s : State) (hf : s.slots[i].state ≠ .free) :
    Keeps s (placeRotate i p s) := by
  unfold placeRotate
  split
  · exact (mergeInto_frame _ _ _).keeps
  · dsimp only
    split
    · rename_i t ht
      have hm := searchFrom_mem.mp (preferOnline_mem ht).1
      refine (modSlot_keeps i _ s (fun w v => ⟨?_, v⟩) fun _ => ⟨hf, rfl, rfl⟩).trans (placeOn_frame _ _ _ _).keeps
      obtain ⟨w1, w2, w3⟩ := w
      refine ⟨fun e => absurd e hf, fun _ => ?_, w3⟩
      obtain ⟨a1, a2, a3, a4, a5⟩ := w2 hf
      exact ⟨a1, a2, a3, List.idxOf_lt_length_iff.mpr hm, a5⟩
    · exact Keeps.refl s

theorem placeSingle_keeps (i : SlotId) (p : Placement) (s : State) (hf : s.slots[i].state ≠ .free) :
    Keeps s (placeSingle i p s) := by
  unfold placeSingle
  split
  · exact (addLate_frame _ _ _).keeps
  · split
    · exact placeRotate_keeps _ _ _ hf
    · exact (placeFirst_frame _ _ _).keeps

theorem placeByMode_keeps (i : SlotId) (p : Placement) (s : State) (hf : s.slots[i].state ≠ .free) :
    Keeps s (placeByMode i p s) := by
  unfold placeByMode
  split
  · exact (placeAll_frame _ _ _ _).keeps
  · exact placeSingle_keeps _ _ _ hf

theorem fold_slot_state (i : SlotId) (h : Held) (b : Bool) (c : Cause) (s : State) :
    (raiseIf b c (setHeld i h s)).slots[i].state = s.slots[i].state := by
  simp [setHeld]

theorem placeArrival_keeps (i : SlotId) (a : Arrival) (s : State) (hf : s.slots[i].state ≠ .free) :
    Keeps s (placeArrival i a s) := by
  unfold placeArrival
  dsimp only
  split
  · exact placeByMode_keeps _ _ _ hf
  · exact ((setHeld_keeps _ _ _ hf fun _ => Held.wf_empty).trans (raiseIf_keeps _ _ (by decide) _)).trans
      (placeByMode_keeps _ _ _ (by rw [fold_slot_state]; exact hf))

theorem placeHeld_keeps (i : SlotId) (s : State) (hf : s.slots[i].state ≠ .free) : Keeps s (placeHeld i s) := by
  unfold placeHeld
  dsimp only
  refine ((setHeld_keeps i Held.empty s hf fun _ => Held.wf_empty).trans (raiseIf_keeps (decide (255 < s.slots[i].held.count)) .countOverflow (by decide) _)).trans ?_
  split
  · split
    · exact (placeAt_frame _ _ _ _).keeps
    · exact Keeps.refl _
  · exact placeSingle_keeps _ _ _ (by rw [fold_slot_state]; exact hf)

theorem applyArrival_keeps (i : SlotId) (a : Arrival) (s : State) (hf : s.slots[i].state ≠ .free) :
    Keeps s (applyArrival i a s) := by
  unfold applyArrival
  split
  · exact (placeArrival_keeps _ _ _ hf).trans (settle_frame _).keeps
  · exact joinHeld_keeps _ _ _ hf

theorem missed_keeps (p : Producer) (key : Key) (s : State) : Keeps s (missed p key s) := by
  cases p
  · exact raiseMiss_keeps key s
  · exact raiseMiss_keeps key s
  · unfold missed
    exact (raiseMiss_keeps key s).trans (modPin_frame _ _ _).keeps
  · exact Keeps.refl s

end Sys2Proof.Machine
end

