-- ==== Sys2Proof/Laws/Signals.lean ====
section
/-! SUPPORT. Urgency, deliverability and what judging the targets does: the candidate by rank, the order in which writes are handed in, and the targets after a judgement. -/

open Sys2Proof

namespace Sys2Proof.Machine

theorem insertByRank_perm (key : TargetId → Nat) (t : TargetId) (l : List TargetId) :
    (insertByRank key t l).Perm (t :: l) := by
  induction l with
  | nil => exact List.Perm.refl _
  | cons u us ih =>
    unfold insertByRank
    split
    · exact List.Perm.refl _
    · exact (ih.cons u).trans (List.Perm.swap t u us)

theorem orderByRank_perm (key : TargetId → Nat) (l : List TargetId) : (orderByRank key l).Perm l := by
  induction l with
  | nil => exact List.Perm.refl _
  | cons t ts ih => exact (insertByRank_perm key t _).trans (ih.cons t)

/-- Handing in turn is a fold over some ordering of the targets, on the state with some counter. -/
theorem handInTurn_eq (f : State → TargetId → State) (s : State) (ts : List TargetId) :
    ∃ (us : List TargetId) (k : Nat), us.Perm ts ∧ handInTurn f s ts = us.foldl f { s with free := k } := by
  match ts with
  | [] => exact ⟨[], s.free, List.Perm.refl _, rfl⟩
  | [t] => exact ⟨[t], s.free, List.Perm.refl _, rfl⟩
  | t :: u :: ts => exact ⟨_, s.free + 1, orderByRank_perm _ _, rfl⟩

theorem foldl_issueWrite (us : List TargetId) (s : State) :
    us.foldl issueWrite s = { s with notifyWrites := s.notifyWrites ++ us.map fun t => notifyWrite s.targets[t] } := by
  induction us generalizing s with
  | nil => simp
  | cons u us ih => simp [ih, issueWrite]

theorem foldl_requestWrite_of_permission (us : List TargetId) (s : State) (h : permission s = true) :
    us.foldl requestWrite s = { s with notifyWrites := s.notifyWrites ++ us.map fun t => notifyWrite s.targets[t] } := by
  rw [← foldl_issueWrite]
  induction us generalizing s with
  | nil => rfl
  | cons u us ih =>
    have : requestWrite s u = issueWrite s u := by simp [requestWrite, h]
    rw [List.foldl_cons, List.foldl_cons, this]
    exact ih _ h

theorem foldl_requestWrite_of_none (us : List TargetId) (s : State) (h : permission s = false) :
    us.foldl requestWrite s = { s with targets := Vector.ofFn fun t => { s.targets[t] with writeOwed := s.targets[t].writeOwed || us.contains t } } := by
  induction us generalizing s with
  | nil =>
    have : (Vector.ofFn fun t : TargetId => { s.targets[t] with writeOwed := s.targets[t].writeOwed || ([] : List TargetId).contains t }) = s.targets := by
      ext i hi <;> simp
    rw [List.foldl_nil, this]
  | cons u us ih =>
    have e : requestWrite s u = modTarget u (fun c => { c with writeOwed := true }) s := by simp [requestWrite, h]
    rw [List.foldl_cons, e, ih (modTarget u (fun c => { c with writeOwed := true }) s) h]
    unfold modTarget
    dsimp only
    congr 1
    ext i hi
    all_goals
      simp only [Vector.getElem_ofFn, target_get_set, List.contains_cons]
      by_cases hu : u = ⟨i, hi⟩
      · subst hu; simp
      · have e2 : ((⟨i, hi⟩ : TargetId) == u) = false := beq_eq_false_iff_ne.mpr fun e => hu e.symm
        simp [hu, e2]

/-- Two states whose targets differ only in what deliverability does not read have the same deliverability. -/
theorem deliverable_congr {s u : State} {t : TargetId} (hp : u.pool = s.pool)
    (h : u.targets[t] = { u.targets[t] with state := s.targets[t].state, groupOrder := s.targets[t].groupOrder, enabled := s.targets[t].enabled, mask := s.targets[t].mask, lists := s.targets[t].lists, stack := s.targets[t].stack }) :
    deliverable u t = deliverable s t := by
  unfold deliverable placeable candidate candidateLevel overTop topLevel
  dsimp only
  rw [hp]
  have h1 : u.targets[t].state = s.targets[t].state := by rw [h]
  have h2 : u.targets[t].groupOrder = s.targets[t].groupOrder := by rw [h]
  have h3 : u.targets[t].enabled = s.targets[t].enabled := by rw [h]
  have h4 : u.targets[t].mask = s.targets[t].mask := by rw [h]
  have h5 : u.targets[t].lists = s.targets[t].lists := by rw [h]
  have h6 : u.targets[t].stack = s.targets[t].stack := by rw [h]
  have h7 : eligible u.targets[t] = eligible s.targets[t] := by
    funext l; unfold eligible; rw [h4, h5]
  have h8 : ∀ a b, moreUrgent u.targets[t] a b = moreUrgent s.targets[t] a b := by
    intro a b; unfold moreUrgent; rw [h2]
  simp only [h1, h2, h3, h5, h6, h7, h8]

theorem settle_eq (s : State) : ∃ (us : List TargetId) (k : Nat), us.Perm ((List.finRange 8).filter (newlyDeliverable s)) ∧
    settle s = us.foldl requestWrite { s with targets := Vector.ofFn (judge s), free := k } := by
  obtain ⟨us, k, hperm, he⟩ := handInTurn_eq requestWrite { s with targets := Vector.ofFn (judge s) }
    ((List.finRange 8).filter (newlyDeliverable s))
  exact ⟨us, k, hperm, he⟩

/-- What judging the targets leaves, but for the order and content of the notification writes: each target as `judge` gives it, owed a write where it requests one without permission; all else as before. -/
theorem settle_parts (s : State) : ∃ u, settle s = u
    ∧ u = { s with targets := u.targets, notifyWrites := u.notifyWrites, free := u.free }
    ∧ ∀ t : TargetId, u.targets[t] = { s.targets[t] with
        deliverable := deliverable s t
        ntf := deliverable s t && s.targets[t].method == .pin
        deadlineStart :=
          if deliverable s t = true ∧ s.targets[t].state = .online ∧ s.targets[t].deadline ≠ 0 then
            some (s.targets[t].deadlineStart.getD s.now)
          else none
        writeOwed := s.targets[t].writeOwed
          || (deliverable s t && !s.targets[t].deliverable && s.targets[t].method == .write && !permission s) } := by
  obtain ⟨us, k, hperm, he⟩ := settle_eq s
  have hj : ∀ t : TargetId, (Vector.ofFn (judge s))[t] = judge s t := by intro t; simp
  by_cases hp : permission s = true
  · refine ⟨_, he.trans (foldl_requestWrite_of_permission us { s with targets := Vector.ofFn (judge s), free := k } hp), rfl, ?_⟩
    intro t
    simp only [hj, judge, hp]
    simp [and_assoc]
  · have hp' : permission s = false := by simpa using hp
    refine ⟨_, he.trans (foldl_requestWrite_of_none us { s with targets := Vector.ofFn (judge s), free := k } hp'), rfl, ?_⟩
    intro t
    have hc : us.contains t = newlyDeliverable s t := by
      rw [Bool.eq_iff_iff, List.contains_iff_mem, hperm.mem_iff]; simp
    simp only [Fin.getElem_fin, Vector.getElem_ofFn, hc]
    simp only [judge, newlyDeliverable, hp']
    simp [and_assoc]

theorem settle_signals (s : State) : SignalsFollow (settle s) := by
  obtain ⟨u, hu, e, ht⟩ := settle_parts s
  rw [hu]
  intro t
  have h := ht t
  have hd : deliverable u t = deliverable s t := by
    refine deliverable_congr (by rw [e]) ?_
    rw [h]
  rw [hd, h]
  dsimp only
  refine ⟨rfl, rfl, ?_⟩
  by_cases c : deliverable s t = true ∧ s.targets[t].state = TargetState.online ∧ s.targets[t].deadline ≠ 0
  · rw [if_pos c]; exact ⟨fun _ => ⟨c.2.1, c.1, c.2.2⟩, fun _ => rfl⟩
  · rw [if_neg c]; simp; intro a b; by_contra hh; exact c ⟨b, a, hh⟩

/-- A target whose signals follow its deliverability is judged as it is. -/
theorem judge_of_signals {s : State} (h : SignalsFollow s) (t : TargetId) : judge s t = s.targets[t] := by
  obtain ⟨a, b, c⟩ := h t
  have hs : (if (deliverable s t && s.targets[t].state == .online && s.targets[t].deadline != 0) = true then
      some (s.targets[t].deadlineStart.getD s.now) else none) = s.targets[t].deadlineStart := by
    cases hd : s.targets[t].deadlineStart with
    | none =>
      rw [hd, Option.isSome_none] at c
      refine if_neg fun hc => Bool.false_ne_true (c.mpr ?_)
      simpa [and_assoc, and_comm, and_left_comm] using hc
    | some x =>
      rw [hd, Option.isSome_some] at c
      refine if_pos ?_
      simpa [and_assoc, and_comm, and_left_comm] using c.mp rfl
  unfold judge
  dsimp only
  rw [hs, ← a, ← (a ▸ b :)]

/-- Judging changes nothing where the signals follow deliverability already. -/
theorem settle_of_signals {s : State} (h : SignalsFollow s) : settle s = s := by
  have hn : (List.finRange 8).filter (newlyDeliverable s) = [] := by
    refine List.filter_eq_nil_iff.mpr fun t _ => ?_
    unfold newlyDeliverable
    rw [(h t).1]
    simp
  have hj : Vector.ofFn (judge s) = s.targets := by
    ext i hi
    rw [Vector.getElem_ofFn]
    exact judge_of_signals h ⟨i, hi⟩
  unfold settle
  rw [hn, hj]
  rfl

/-- A judgement leaves nothing more to judge. -/
theorem settle_settle (s : State) : settle (settle s) = settle s := settle_of_signals (settle_signals s)

/-- A change that touches neither the targets nor the pool. -/
theorem signals_congr {s u : State} (hp : u.pool = s.pool) (ht : u.targets = s.targets) (h : SignalsFollow s) : SignalsFollow u := by
  intro t
  have hd : deliverable u t = deliverable s t := by
    refine deliverable_congr hp ?_; rw [ht]
  rw [hd, ht]; exact h t

theorem settle_fsu (s : State) : (settle s).fsu = s.fsu := by
  obtain ⟨u, hu, e, _⟩ := settle_parts s
  rw [hu, e]

theorem settle_pool (s : State) : (settle s).pool = s.pool ∧ (settle s).deferred = s.deferred ∧ (settle s).order = s.order ∧ (settle s).slots = s.slots ∧ (settle s).pins = s.pins ∧ (settle s).port = s.port := by
  obtain ⟨u, hu, e, _⟩ := settle_parts s
  rw [hu, e]; exact ⟨rfl, rfl, rfl, rfl, rfl, rfl⟩

theorem mem_levelsByRank (order : Vector Group 4) (hn : order.toList.Nodup) (l : Level) : l ∈ levelsByRank order := by
  obtain ⟨⟨xs⟩, hl⟩ := order
  have hl' : xs.length = 4 := hl
  match xs, hl' with
  | [a, b, c, d], _ =>
    have key : ∀ a b c d : Group, [a, b, c, d].Nodup → ∀ l : Level, l ∈ levelsByRank #v[a, b, c, d] := by decide +kernel
    exact key a b c d hn l

theorem levelsByRank_sorted (order : Vector Group 4) (hn : order.toList.Nodup) :
    (levelsByRank order).Pairwise fun a b => rank order a < rank order b := by
  obtain ⟨⟨xs⟩, hl⟩ := order
  have hl' : xs.length = 4 := hl
  match xs, hl' with
  | [a, b, c, d], _ =>
    have key : ∀ a b c d : Group, [a, b, c, d].Nodup → (levelsByRank #v[a, b, c, d]).Pairwise fun x y => rank #v[a, b, c, d] x < rank #v[a, b, c, d] y := by decide +kernel
    exact key a b c d hn

theorem candidateLevel_some {c : Target} (hn : c.groupOrder.toList.Nodup) (l : Level) :
    candidateLevel c = some l ↔ eligible c l = true ∧ ∀ m : Level, m ≠ l → eligible c m = true → rank c.groupOrder l < rank c.groupOrder m := by
  unfold candidateLevel
  have hs := levelsByRank_sorted c.groupOrder hn
  have hm := mem_levelsByRank c.groupOrder hn
  constructor
  · intro h
    refine ⟨List.find?_some h, ?_⟩
    intro m hne he
    obtain ⟨_, as, bs, hl, hb⟩ := List.find?_eq_some_iff_append.mp h
    have := hm m
    rw [hl] at this hs
    rcases List.mem_append.mp this with h1 | h1
    · have := hb m h1; rw [he] at this; simp at this
    · rcases List.mem_cons.mp h1 with h1 | h1
      · exact absurd h1 hne
      · exact List.rel_of_pairwise_cons (List.pairwise_append.mp hs).2.1 h1
  · rintro ⟨he, hlt⟩
    cases hf : (levelsByRank c.groupOrder).find? (eligible c) with
    | none => have := List.find?_eq_none.mp hf l (hm l); exact absurd he this
    | some m =>
      by_cases hml : m = l
      · rw [hml]
      · exfalso
        have h1 := hlt m hml (List.find?_some hf)
        obtain ⟨_, as, bs, hl, hb⟩ := List.find?_eq_some_iff_append.mp hf
        have h2 := hm l
        rw [hl] at h2 hs
        rcases List.mem_append.mp h2 with h3 | h3
        · have := hb l h3; rw [he] at this; simp at this
        · rcases List.mem_cons.mp h3 with h3 | h3
          · exact hml h3.symm
          · have := List.rel_of_pairwise_cons (List.pairwise_append.mp hs).2.1 h3
            omega

theorem eligible_iff (c : Target) (l : Level) : eligible c l = true ↔ c.mask.getLsbD l = false ∧ c.lists[l] ≠ [] := by
  unfold eligible
  rw [Bool.and_eq_true, Bool.not_eq_true', Bool.not_eq_true', List.isEmpty_eq_false_iff]

theorem placeable_iff (s : State) (t : TargetId) : placeable s t = true ↔ s.targets[t].state = .online ∨ s.targets[t].state = .stalled := by
  unfold placeable; rw [Bool.or_eq_true, beq_iff_eq, beq_iff_eq]

theorem cand_head {c : Target} {e : EntryId} {l : Level} (h : candidate c = some (e, l)) : (c.lists[l]).head? = some e := by
  unfold candidate at h
  split at h
  · cases hh : (c.lists[‹Level›]).head? with
    | none => rw [hh] at h; cases h
    | some x => rw [hh] at h; simp only [Option.map_some, Option.some.injEq, Prod.mk.injEq] at h; obtain ⟨rfl, rfl⟩ := h; exact hh
  · cases h

theorem deliverable_of_state {s : State} {t : TargetId} (h : s.targets[t].state = .offline ∨ s.targets[t].state = .quiescing) : deliverable s t = false := by
  unfold deliverable placeable
  rcases h with h | h <;> rw [h] <;> rfl

/-- After judging, a target that is not placeable. -/
theorem settled_target {s : State} {t : TargetId} (h : s.targets[t].state = .offline ∨ s.targets[t].state = .quiescing) :
    (settle s).targets[t] = { s.targets[t] with deliverable := false, ntf := false, deadlineStart := none } := by
  obtain ⟨u, hu, e, ht⟩ := settle_parts s
  rw [hu, ht, deliverable_of_state h]
  simp

theorem foldl_request_port (p : Port) (us : List TargetId) (s : State) :
    us.foldl requestWrite { s with port := p } = { us.foldl requestWrite s with port := p } := by
  induction us generalizing s with
  | nil => rfl
  | cons t ts ih =>
    rw [List.foldl_cons, List.foldl_cons, ← ih]
    congr 1
    unfold requestWrite
    by_cases h : permission s = true
    · rw [if_pos h, if_pos (show permission { s with port := p } = true from h)]; rfl
    · rw [if_neg h, if_neg (show ¬ permission { s with port := p } = true from h)]; rfl

theorem settle_port (p : Port) (s : State) : settle { s with port := p } = { settle s with port := p } := by
  have hj : judge { s with port := p } = judge s := rfl
  have hn : newlyDeliverable { s with port := p } = newlyDeliverable s := rfl
  unfold settle
  rw [hj, hn]
  generalize (List.finRange 8).filter (newlyDeliverable s) = ts
  match ts with
  | [] => rfl
  | [t] => exact foldl_request_port p [t] { s with targets := Vector.ofFn (judge s) }
  | t :: u :: ts => exact foldl_request_port p _ (nextFree { s with targets := Vector.ofFn (judge s) })

/-- Judging reads and changes no slot. -/
theorem settle_slots (v : Vector Slot 1024) (s : State) : settle { s with slots := v } = { settle s with slots := v } := by
  have hr (us : List TargetId) (x : State) :
      us.foldl requestWrite { x with slots := v } = { us.foldl requestWrite x with slots := v } := by
    induction us generalizing x with
    | nil => rfl
    | cons t ts ih =>
      rw [List.foldl_cons, List.foldl_cons, ← ih]
      congr 1
      unfold requestWrite
      by_cases h : permission x = true
      · rw [if_pos h, if_pos (show permission { x with slots := v } = true from h)]; rfl
      · rw [if_neg h, if_neg (show ¬ permission { x with slots := v } = true from h)]; rfl
  have hj : judge { s with slots := v } = judge s := rfl
  have hn : newlyDeliverable { s with slots := v } = newlyDeliverable s := rfl
  unfold settle
  rw [hj, hn]
  generalize (List.finRange 8).filter (newlyDeliverable s) = ts
  match ts with
  | [] => rfl
  | [t] => exact hr [t] { s with targets := Vector.ofFn (judge s) }
  | t :: u :: ts => exact hr _ (nextFree { s with targets := Vector.ofFn (judge s) })

/-! ### Judging in turn -/

/-- The judging of one target, written out (R87, R89 to R93). -/
theorem judgeOne_eq (s : State) (t : TargetId) : judgeOne s t = { s with
    targets := s.targets.set t { s.targets[t] with
      deliverable := deliverable s t
      ntf := deliverable s t && s.targets[t].method == .pin
      deadlineStart :=
        if deliverable s t = true ∧ s.targets[t].state = .online ∧ s.targets[t].deadline ≠ 0 then
          some (s.targets[t].deadlineStart.getD s.now)
        else none
      writeOwed := s.targets[t].writeOwed
        || ((deliverable s t && !s.targets[t].deliverable && s.targets[t].method == .write) && !permission s) }
    notifyWrites := s.notifyWrites ++
      if (deliverable s t && !s.targets[t].deliverable && s.targets[t].method == .write) && permission s then
        [notifyWrite s.targets[t]]
      else [] } := by
  have hj : judge s t = { s.targets[t] with
      deliverable := deliverable s t
      ntf := deliverable s t && s.targets[t].method == .pin
      deadlineStart :=
        if deliverable s t = true ∧ s.targets[t].state = .online ∧ s.targets[t].deadline ≠ 0 then
          some (s.targets[t].deadlineStart.getD s.now)
        else none } := by
    unfold judge
    simp [and_assoc]
  unfold judgeOne requestWrite newlyDeliverable modTarget issueWrite
  dsimp only
  rw [hj]
  have hp : permission ({ s with targets := s.targets.set t { s.targets[t] with
      deliverable := deliverable s t
      ntf := deliverable s t && s.targets[t].method == .pin
      deadlineStart :=
        if deliverable s t = true ∧ s.targets[t].state = .online ∧ s.targets[t].deadline ≠ 0 then
          some (s.targets[t].deadlineStart.getD s.now)
        else none } } : State) = permission s := rfl
  by_cases hr : (deliverable s t && !s.targets[t].deliverable && s.targets[t].method == .write) = true
  · rw [if_pos hr, hp, hr]
    cases hq : permission s
    · simp [target_get_set]
    · simp [target_get_set]
      rfl
  · rw [if_neg hr, eq_false_of_ne_true hr, Bool.false_and, Bool.false_and, Bool.or_false, if_neg Bool.false_ne_true, List.append_nil]

/-- Judging one target changes what no target's deliverability reads. -/
theorem judgeOne_deliverable (s : State) (t k : TargetId) : deliverable (judgeOne s t) k = deliverable s k := by
  obtain ⟨u, hu, e, h⟩ := judgeOne_parts s t
  rw [hu]
  refine deliverable_congr (by rw [e]) ?_
  obtain ⟨a, b⟩ := h k
  unfold Target.same at a
  rw [b] at a
  exact a.trans (by rw [a])

/-- Judging targets in turn changes what no target's deliverability reads. -/
theorem judgeInTurn_deliverable (ts : List TargetId) (s : State) (k : TargetId) :
    deliverable (judgeInTurn ts s) k = deliverable s k := by
  induction ts generalizing s with
  | nil => rfl
  | cons t ts ih => exact (ih (judgeOne s t)).trans (judgeOne_deliverable s t k)

/-! ### The regain of permission -/

theorem regainOne_eq (s : State) (t : TargetId) : regainOne s t = { s with
    link := { s.link with regaining := s.link.regaining.erase t }
    targets := s.targets.set t { s.targets[t] with writeOwed := false }
    notifyWrites := s.notifyWrites ++
      if s.targets[t].writeOwed && deliverable s t then [notifyWrite s.targets[t]] else [] } := by
  unfold regainOne issueWrite modTarget
  dsimp only
  split
  · rw [target_get_set, if_pos rfl]; rfl
  · rw [List.append_nil]

theorem regainOne_deliverable (s : State) (t k : TargetId) : deliverable (regainOne s t) k = deliverable s k := by
  rw [regainOne_eq]
  refine deliverable_congr rfl ?_
  dsimp only
  rw [target_get_set]
  split
  · rename_i h; subst h; rfl
  · rfl

/-- A regain's dealing with several targets: each flag clears, and each owed write of a deliverable target is issued. -/
theorem foldl_regainOne (us : List TargetId) (s : State) (hn : us.Nodup) : ∃ v, us.foldl regainOne s = { s with
      link := { s.link with regaining := us.foldl List.erase s.link.regaining }
      targets := v
      notifyWrites := s.notifyWrites ++
        (us.filter fun t => s.targets[t].writeOwed && deliverable s t).map fun t => notifyWrite s.targets[t] }
    ∧ ∀ k : TargetId, v[k] = { s.targets[k] with writeOwed := s.targets[k].writeOwed && !us.contains k } := by
  induction us generalizing s with
  | nil => exact ⟨s.targets, by simp, fun k => by simp⟩
  | cons t us ih =>
    obtain ⟨hnt, hnu⟩ := List.nodup_cons.mp hn
    obtain ⟨v, hv, hk⟩ := ih (regainOne s t) hnu
    have ht : ∀ k : TargetId, (regainOne s t).targets[k] = if t = k then { s.targets[t] with writeOwed := false } else s.targets[k] := by
      intro k; rw [regainOne_eq]; exact target_get_set _ _ _ _
    refine ⟨v, ?_, ?_⟩
    · have hf : (us.filter fun k => (regainOne s t).targets[k].writeOwed && deliverable (regainOne s t) k)
          = us.filter fun k => s.targets[k].writeOwed && deliverable s k := by
        refine List.filter_congr fun k hk' => ?_
        rw [regainOne_deliverable, ht, if_neg (fun h => by subst h; exact hnt hk')]
      have hm : (us.filter fun k => s.targets[k].writeOwed && deliverable s k).map (fun k => notifyWrite (regainOne s t).targets[k])
          = (us.filter fun k => s.targets[k].writeOwed && deliverable s k).map fun k => notifyWrite s.targets[k] := by
        refine List.map_congr_left fun k hk' => ?_
        rw [ht, if_neg (fun h => by subst h; exact hnt (List.mem_filter.mp hk').1)]
      rw [List.foldl_cons, hv, hf, hm, regainOne_eq]
      dsimp only
      rw [List.foldl_cons, List.filter_cons]
      by_cases hc : (s.targets[t].writeOwed && deliverable s t) = true
      · rw [if_pos hc, if_pos hc, List.map_cons, List.append_assoc]; rfl
      · rw [if_neg hc, if_neg hc, List.append_nil]
    · intro k
      rw [hk k, ht k]
      by_cases h : t = k
      · subst h; simp
      · have h' : (k == t) = false := beq_eq_false_iff_ne.mpr fun e => h e.symm
        rw [if_neg h, List.contains_cons, h', Bool.false_or]

/-- A regain is its dealing with the targets that are not left for later, in some order, on the state with some counter. -/
theorem regain_eq (s : State) : ∃ (us : List TargetId) (k : Nat),
    us.Perm ((owing s).filter fun t => !Config.regainLater s.free t) ∧
    regain s = us.foldl regainOne { s with link := { s.link with regaining := owing s }, free := k } := by
  obtain ⟨us, k, hp, he⟩ := handInTurn_eq regainOne (nextFree { s with link := { s.link with regaining := owing s } })
    ((owing s).filter fun t => !Config.regainLater s.free t)
  exact ⟨us, k, hp, he⟩

/-- What a regain, or its absence, leaves: the list of targets still to be dealt with, the write-owed flags and the notification writes. -/
theorem regainIf_parts (b s : State) : ∃ u, regainIf b s = u
    ∧ u = { s with
        link := { s.link with regaining := u.link.regaining }
        targets := u.targets, notifyWrites := u.notifyWrites, free := u.free }
    ∧ ∀ k : TargetId, u.targets[k] = { s.targets[k] with writeOwed := u.targets[k].writeOwed } := by
  unfold regainIf
  split
  · split
    · exact ⟨_, rfl, rfl, fun k => rfl⟩
    · obtain ⟨us, k, hp, he⟩ := regain_eq s
      have hn : us.Nodup := hp.nodup_iff.mpr (((List.nodup_finRange 8).filter _).filter _)
      obtain ⟨v, hv, hk⟩ := foldl_regainOne us { s with link := { s.link with regaining := owing s }, free := k } hn
      refine ⟨_, he.trans hv, rfl, fun j => ?_⟩
      dsimp only
      rw [hk j]
  · exact ⟨_, rfl, rfl, fun k => rfl⟩

end Sys2Proof.Machine
end

