-- ==== Sys2Proof/Laws/Notices.lean ====
section
/-! SUPPORT. The notice pool: which entry a search finds, ripening, removal, freeing and hand-over, what a discard and a re-homing leave, and which slots, causes and pairs each of them may change. -/

open Sys2Proof

namespace Sys2Proof.Machine

theorem placeable_of_targets {s u : State} (h : u.targets = s.targets) : placeable u = placeable s := by
  funext t; simp only [placeable, h]

theorem find?_append_of {p : TargetId → Bool} {b : List TargetId} {t : TargetId} {a : List TargetId} (ht : p t = true)
    (hb : ∀ u ∈ b, p u = false) : (b ++ t :: a).find? p = some t := by
  rw [List.find?_append, List.find?_eq_none.mpr (by simpa using hb)]
  simp [ht]

theorem preferOnline_eq {s : State} {b a : List TargetId} {t : TargetId}
    (h : s.targets[t].state = .online ∧ (∀ u ∈ b, s.targets[u].state ≠ .online)
      ∨ s.targets[t].state = .stalled ∧ (∀ u ∈ b ++ a, s.targets[u].state ≠ .online)
        ∧ (∀ u ∈ b, s.targets[u].state ≠ .stalled)) : preferOnline s (b ++ t :: a) = some t := by
  unfold preferOnline
  rcases h with ⟨h1, h2⟩ | ⟨h1, h2, h3⟩
  · rw [find?_append_of (by simp only [online, h1]; rfl) (by intro u hu; simpa [online] using h2 u hu)]
  · have : (b ++ t :: a).find? (online s) = none := by
      rw [List.find?_eq_none]
      intro u hu
      rw [List.mem_append, List.mem_cons] at hu
      have hn : s.targets[u].state ≠ .online := by
        rcases hu with hu | rfl | hu
        · exact h2 u (List.mem_append_left _ hu)
        · rw [h1]; decide
        · exact h2 u (List.mem_append_right _ hu)
      unfold online; simpa using hn
    rw [this]
    exact find?_append_of (by simp only [stalled, h1]; rfl) (by intro u hu; simpa [stalled] using h3 u hu)

theorem oldest_eq {s : State} {q : Notice → Bool} {older younger : List EntryId} {e : EntryId} {n : Notice}
    (h : s.order = older ++ e :: younger) (he : s.pool[e] = some n) (hn : q n = true)
    (ho : ∀ d ∈ older, ∀ m, s.pool[d] = some m → q m = false) : oldest s q = some e := by
  unfold oldest
  rw [h, List.find?_append, List.find?_eq_none.mpr]
  · have : entryIs s q e = true := by unfold entryIs; rw [he]; exact hn
    simp [this]
  · intro d hd
    unfold entryIs
    cases hm : s.pool[d] with
    | none => simp
    | some m => simpa using ho d hd m hm

/-- The oldest notice that passes a test stands before every other that passes it in the creation order (R46). -/
theorem oldest_some (s : State) (p : Notice → Bool) (e : EntryId) :
    oldest s p = some e ↔ ∃ older younger, s.order = older ++ e :: younger ∧ entryIs s p e = true ∧ ∀ d ∈ older, entryIs s p d = false := by
  unfold oldest
  rw [List.find?_eq_some_iff_append]
  constructor
  · rintro ⟨h, a, b, ho, hn⟩; exact ⟨a, b, ho, h, fun d hd => by simpa using hn d hd⟩
  · rintro ⟨a, b, ho, h, hn⟩; exact ⟨h, a, b, ho, fun d hd => by simpa using hn d hd⟩

/-- No notice that passes a test stands in the creation order. -/
theorem oldest_none (s : State) (p : Notice → Bool) : oldest s p = none ↔ ∀ e ∈ s.order, entryIs s p e = false := by
  unfold oldest
  rw [List.find?_eq_none]
  simp

/-- A notice that is not IN_SERVICE is GATHERING or PENDING. -/
theorem unclaimed_iff (n : Notice) : n.unclaimed = true ↔ n.phase = .pending ∨ ∃ th x, n.phase = .gathering th x := by
  unfold Notice.unclaimed
  cases n.phase <;> simp

/-- A GATHERING or PENDING notice belongs to the record whose slot and generation it carries (R74). -/
theorem resident_test (s : State) (i : SlotId) (q : Notice → Bool) (e : EntryId) :
    entryIs s (fun n => n.unclaimed && ownedBy s i n && q n) e = true ↔
      ∃ n, s.pool[e] = some n ∧ (n.phase = .pending ∨ ∃ th x, n.phase = .gathering th x)
        ∧ n.slot = i ∧ n.generation = s.slots[i].generation ∧ q n = true := by
  unfold entryIs
  rw [Option.any_eq_true]
  refine exists_congr fun n => and_congr_right fun _ => ?_
  rw [Bool.and_eq_true, Bool.and_eq_true, unclaimed_iff, and_assoc]
  refine and_congr_right fun h => ?_
  have ho : n.isOrphan = false := by
    unfold Notice.isOrphan
    rcases h with h | ⟨_, _, h⟩ <;> rw [h]
  unfold ownedBy
  rw [ho]
  simp [and_assoc]

/-- A count of notices, entry by entry. -/
theorem countNotices_eq (s : State) (p : Notice → Bool) : countNotices s p = (List.finRange 512).countP fun e : EntryId => (s.pool[e]).any p := by
  unfold countNotices
  have h : s.pool.toList = (List.finRange 512).map fun e : EntryId => s.pool[e] := by
    apply List.ext_getElem <;> simp
  rw [h, List.countP_map]
  rfl

theorem lookup_congr (s u : State) (h : u.slots = s.slots) (k : Key) : lookup u k = lookup s k := by
  simp only [lookup, h]

theorem pool_get_set (v : Vector (Option Notice) 512) (i j : EntryId) (x : Option Notice) :
    (v.set i x)[j] = if i = j then x else v[j] := by
  by_cases h : i = j
  · subst h; simp
  · have : (i : Nat) ≠ j := fun e => h (Fin.ext e)
    simp [h, this]

theorem pool_get_self (v : Vector (Option Notice) 512) (i : EntryId) (x : Option Notice) : (v.set i x)[i] = x := by
  rw [pool_get_set, if_pos rfl]

theorem pool_set_set (v : Vector (Option Notice) 512) (i : EntryId) (x y : Option Notice) : (v.set i x).set i y = v.set i y := by
  simp

/-- A GATHERING notice that ripens. -/
theorem ripen_gathering {e : EntryId} {s : State} {n : Notice} {th : Nat} {x : Option Timer} (he : s.pool[e] = some n)
    (hp : n.phase = .gathering th x) :
    ripen e s = { s with
      pool := s.pool.set e (some { n with phase := .pending })
      targets := s.targets.set n.target { s.targets[n.target] with
        lists := s.targets[n.target].lists.set n.level (s.targets[n.target].lists[n.level] ++ [e]) } } := by
  have hg : n.isGathering = true := by unfold Notice.isGathering; rw [hp]
  unfold ripen
  rw [he]
  dsimp only
  rw [if_pos hg]
  rfl

theorem ripen_pending {e : EntryId} {s : State} {n : Notice} (he : s.pool[e] = some n)
    (hp : n.phase = .pending) : ripen e s = s := by
  unfold ripen
  rw [he]
  dsimp only
  rw [if_neg]
  unfold Notice.isGathering; rw [hp]; simp

theorem ripenIfReached_eq {e : EntryId} {s : State} {n : Notice} {th : Nat} {x : Option Timer} (he : s.pool[e] = some n)
    (hp : n.phase = .gathering th x) : ripenIfReached e s = if th ≤ n.count then ripen e s else s := by
  unfold ripenIfReached entryIs
  rw [he]
  simp only [Option.any_some, Notice.reached, hp, decide_eq_true_eq]

theorem ripenIfReached_pending {e : EntryId} {s : State} {n : Notice} (he : s.pool[e] = some n)
    (hp : n.phase = .pending) : ripenIfReached e s = s := by
  unfold ripenIfReached entryIs
  rw [he]
  simp [Option.any_some, Notice.reached, hp]

theorem mem_indicesWhere {α : Type} {n : Nat} [NeZero n] (p : α → Bool) (v : Vector α n) (i : Fin n) :
    i ∈ indicesWhere p v ↔ p v[i] = true := by
  unfold indicesWhere
  rw [List.mem_filterMap]
  constructor
  · rintro ⟨⟨a, k⟩, h1, h2⟩
    split at h2
    · rename_i hp
      rw [List.mem_zipIdx_iff_getElem?] at h1
      obtain ⟨hl, he⟩ := List.getElem?_eq_some_iff.mp h1
      have hl' : k < n := by simpa using hl
      have : (Fin.ofNat n k : Fin n) = ⟨k, hl'⟩ := by ext; simp [Nat.mod_eq_of_lt hl']
      simp only [Option.some.injEq] at h2
      rw [this] at h2
      subst h2
      have : v[(⟨k, hl'⟩ : Fin n)] = a := by simpa using he
      rw [this]; exact hp
    · cases h2
  · intro h
    refine ⟨(v[i], i.val), ?_, ?_⟩
    · rw [List.mem_zipIdx_iff_getElem?]; simp
    · rw [if_pos h]
      congr 1
      ext; simp [Nat.mod_eq_of_lt i.isLt]

theorem indicesWhere_sorted {α : Type} {n : Nat} [NeZero n] (p : α → Bool) (v : Vector α n) :
    (indicesWhere p v).Pairwise (· < ·) := by
  unfold indicesWhere
  rw [List.pairwise_filterMap]
  have hs : (v.toList.zipIdx).Pairwise (fun a b => a.2 < b.2) := by
    rw [List.pairwise_iff_getElem]
    intro i j hi hj hij
    simpa using hij
  have hb : ∀ x ∈ v.toList.zipIdx, x.2 < n := by
    intro x hx
    rw [List.mem_zipIdx_iff_getElem?] at hx
    obtain ⟨hl, he⟩ := List.getElem?_eq_some_iff.mp hx
    simpa using hl
  refine hs.imp_of_mem ?_
  intro a b ha hb' hab x hx y hy
  split at hx
  · split at hy
    · simp only [Option.some.injEq] at hx hy
      subst hx; subst hy
      show (Fin.ofNat n a.2).val < (Fin.ofNat n b.2).val
      simp [Nat.mod_eq_of_lt (hb a ha), Nat.mod_eq_of_lt (hb b hb'), hab]
    · cases hy
  · cases hx

theorem lowestFree_eq {s : State} {e : EntryId} (he : s.pool[e] = none) (hl : ∀ d : EntryId, d < e → s.pool[d] ≠ none) :
    lowestFree s = some e := by
  unfold lowestFree
  have hm : e ∈ indicesWhere Option.isNone s.pool := (mem_indicesWhere _ _ _).mpr (by rw [he]; rfl)
  have hs := indicesWhere_sorted Option.isNone s.pool
  have ha := mem_indicesWhere Option.isNone s.pool
  generalize indicesWhere Option.isNone s.pool = l at *
  cases l with
  | nil => cases hm
  | cons a as =>
    rw [List.head?_cons]
    rcases List.mem_cons.mp hm with rfl | h
    · rfl
    · exfalso
      have h1 := List.rel_of_pairwise_cons hs h
      have h2 := (ha a).mp List.mem_cons_self
      exact hl a h1 (by simpa using h2)

theorem lowestFree_none {s : State} (h : ∀ d : EntryId, s.pool[d] ≠ none) : lowestFree s = none := by
  unfold lowestFree
  rw [List.head?_eq_none_iff, List.eq_nil_iff_forall_not_mem]
  intro a ha
  exact h a (by simpa using (mem_indicesWhere _ _ _).mp ha)

theorem absorb_none {e : EntryId} {i : SlotId} {t : TargetId} {s : State} (h : pairAt s i t = none) : absorbPair e i t s = s := by
  unfold absorbPair; rw [h]

theorem target_set_set (v : Vector Target 8) (i : TargetId) (x y : Target) : (v.set i x).set i y = v.set i y := by simp

theorem target_get_self (v : Vector Target 8) (i : TargetId) (x : Target) : (v.set i x)[i] = x := by simp

theorem erase_not_mem {l : List EntryId} {e : EntryId} (h : e ∉ l) : l.erase e = l := List.erase_of_not_mem h

theorem list_set_self (v : Vector (List EntryId) 16) (l : Level) : v.set l v[l] = v := by
  ext j hj
  simp

theorem target_eta (s : State) (c : Target) (t : TargetId) (l : Level) (e : EntryId) (h : e ∉ c.lists[l]) :
    c.lists.set l (c.lists[l].erase e) = c.lists := by
  rw [erase_not_mem h]; exact list_set_self _ _

/-- popping and freeing an entry that nothing waits for -/
theorem cease_popped {s : State} {t : TargetId} {e : EntryId} {below : List EntryId} {n : Notice} {late : Option Late} {orphan : Bool}
    (hs : s.targets[t].stack = e :: below) (hp : s.pool[e] = some n) (hph : n.phase = .inService late orphan)
    (hq : orphan = true ∨ s.slots[n.slot].state ≠ .retiring ∧ ∀ x, late = some x → x.count = 0)
    (hd : s.deferred = []) (ht : n.target = t) (hl : e ∉ s.targets[t].lists[n.level]) :
    completeNotice e n (popStack t s) = { s with
      targets := s.targets.set t { s.targets[t] with stack := below }
      pool := s.pool.set e none
      order := s.order.erase e
      pins := Vector.ofFn fun i => if n.pins.getLsbD i then rearmPin s.pins[i] else s.pins[i] } := by
  have hc : completeNotice e n (popStack t s) = ceaseAndHandOver e (popStack t s) := by
    unfold completeNotice
    rw [if_pos]
    unfold Notice.isOrphan Notice.late
    rw [hph]
    rcases hq with h | ⟨_, h⟩
    · rw [h]; simp
    · cases late with
      | none => simp
      | some x => rw [h x rfl]; simp
  have hpop : popStack t s = { s with targets := s.targets.set t { s.targets[t] with stack := below } } := by
    unfold popStack modTarget; dsimp only; rw [hs]; rfl
  have hdrop : dropNotice e (popStack t s) = { s with
      targets := s.targets.set t { s.targets[t] with stack := below }
      pool := s.pool.set e none
      order := s.order.erase e
      pins := Vector.ofFn fun i => if n.pins.getLsbD i then rearmPin s.pins[i] else s.pins[i] } := by
    rw [hpop]
    unfold dropNotice removeNotice
    dsimp only
    rw [hp]
    dsimp only
    unfold modList modTarget setEntry rearmPins modPins
    dsimp only
    subst ht
    simp only [target_get_self, target_set_set]
    rw [target_eta s s.targets[n.target] n.target n.level e hl]
  have hcease : ceaseNotice e (popStack t s) = dropNotice e (popStack t s) := by
    unfold ceaseNotice
    rw [show (popStack t s).pool[e] = some n from hp]
    dsimp only
    unfold Notice.isOrphan
    rw [hph]
    dsimp only
    rcases hq with h | ⟨h, _⟩
    · rw [if_pos h]
    · cases orphan
      · rw [if_neg (by simp)]
        unfold reportCeased
        rw [if_neg]
        rw [hdrop]
        simp only [Bool.and_eq_true, beq_iff_eq, not_and]
        intro hh; exact absurd hh h
      · rw [if_pos rfl]
  rw [hc]
  unfold ceaseAndHandOver
  rw [hcease, hdrop]
  unfold handOverInTurn handOver
  dsimp only
  rw [hd]
  rfl

theorem repeat_comm {α : Type} (f : α → α) (n : Nat) (a : α) : Nat.repeat f n (f a) = Nat.repeat f (n + 1) a := by
  induction n with
  | zero => rfl
  | succ n ih => show f _ = f _; rw [ih]

/-- Several pin sets re-armed one after another: a pin gets a request for each of the sets that names it. -/
theorem foldl_rearmPins_pins (l : List PinSet) (s : State) (p : PinId) :
    (l.foldl (fun s ps => rearmPins ps s) s).pins[p] = Nat.repeat rearmPin (l.countP fun ps => ps.getLsbD p) s.pins[p] := by
  induction l generalizing s with
  | nil => rfl
  | cons ps l ih =>
    rw [List.foldl_cons, ih, List.countP_cons]
    have h : (rearmPins ps s).pins[p] = if ps.getLsbD p then rearmPin s.pins[p] else s.pins[p] := by
      simp [rearmPins, modPins]
    rw [h]
    split
    · exact repeat_comm rearmPin _ _
    · rfl

/-- Several pin sets re-armed one after another touch the pins alone. -/
theorem foldl_rearmPins_rest (l : List PinSet) (s : State) :
    ∃ v, l.foldl (fun s ps => rearmPins ps s) s = { s with pins := v } := by
  induction l generalizing s with
  | nil => exact ⟨s.pins, rfl⟩
  | cons ps l ih =>
    obtain ⟨v, hv⟩ := ih (rearmPins ps s)
    rw [List.foldl_cons, hv]
    exact ⟨v, by simp [rearmPins]⟩

theorem ripen_fsu (e : EntryId) (s : State) : (ripen e s).fsu = s.fsu := by
  unfold ripen; split
  · split <;> rfl
  · rfl

theorem ripenIfReached_fsu (e : EntryId) (s : State) : (ripenIfReached e s).fsu = s.fsu := by
  unfold ripenIfReached; split
  · exact ripen_fsu _ _
  · rfl

theorem startNotice_fsu (e : EntryId) (n : Notice) (s : State) : (startNotice e n s).fsu = s.fsu := by
  unfold startNotice; dsimp only; split
  · rw [ripen_fsu]; rfl
  · rw [ripenIfReached_fsu]; rfl

theorem removeNotice_fsu (e : EntryId) (s : State) : (removeNotice e s).fsu = s.fsu := by
  unfold removeNotice; split <;> rfl

theorem dropNotice_fsu (e : EntryId) (s : State) : (dropNotice e s).fsu = s.fsu := by
  unfold dropNotice; split
  · rw [rearmPins_fsu, removeNotice_fsu]
  · rfl

theorem endRetireWait_fsu (i : SlotId) (s : State) : (endRetireWait i s).fsu = s.fsu := by
  unfold endRetireWait; split
  · split <;> rfl
  · rfl

theorem reportCeased_fsu (i : SlotId) (s : State) : (reportCeased i s).fsu = s.fsu := by
  unfold reportCeased; split
  · rw [endRetireWait_fsu]; rfl
  · rfl

theorem ceaseNotice_fsu (e : EntryId) (s : State) : (ceaseNotice e s).fsu = s.fsu := by
  unfold ceaseNotice; split
  · split
    · exact dropNotice_fsu _ _
    · rw [reportCeased_fsu, dropNotice_fsu]
  · rfl

theorem handOver_fsu (e : EntryId) (s : State) : (handOver e s).fsu = s.fsu := by
  unfold handOver; split
  · rfl
  · rw [startNotice_fsu]

theorem foldl_fsu {α : Type} (f : State → α → State) (h : ∀ s a, (f s a).fsu = s.fsu) (l : List α) (s : State) : (l.foldl f s).fsu = s.fsu := by
  induction l generalizing s with
  | nil => rfl
  | cons a as ih => rw [List.foldl_cons, ih, h]

theorem handOverInTurn_fsu (s : State) (e : EntryId) : (handOverInTurn s e).fsu = s.fsu := by
  unfold handOverInTurn; rw [(judgeInTurn_pool _ _).2.2.2.2.2.2, handOver_fsu]

theorem handOverAll_fsu (es : List EntryId) (s : State) : (handOverAll es s).fsu = s.fsu := foldl_fsu _ handOverInTurn_fsu _ _

theorem ceaseAll_fsu (es : List EntryId) (s : State) : (ceaseAll es s).fsu = s.fsu := by
  unfold ceaseAll; rw [handOverAll_fsu, settle_fsu, foldl_fsu _ (fun s e => ceaseNotice_fsu e s)]

theorem ceasePairs_fsu (p : Pair → Bool) (s : State) : (ceasePairs p s).fsu = s.fsu := by
  unfold ceasePairs
  rw [foldl_fsu]
  intro s d; unfold ceasePair; rw [reportCeased_fsu, rearmPins_fsu]

theorem treatItems_fsu (i : SlotId) (m : RetireMode) (s : State) : (treatItems i m s).fsu = s.fsu := by
  cases m
  · show (discardItems i s).fsu = _
    unfold discardItems; dsimp only; rw [ceaseAll_fsu, ceasePairs_fsu]
  · show (drainItems i s).fsu = _
    unfold drainItems
    rw [foldl_fsu]
    intro s e; rw [settle_fsu, ripen_fsu]

/-- Only removals from the pool. -/
structure Shrinks (s t : State) : Prop where
  deferred : t.deferred = s.deferred
  pool : ∀ (e : EntryId) (n : Notice), t.pool[e] = some n → s.pool[e] = some n
  order : ∀ e, e ∈ t.order → e ∈ s.order

theorem Shrinks.refl (s : State) : Shrinks s s := ⟨rfl, fun _ _ h => h, fun _ h => h⟩

theorem Shrinks.trans {s t u : State} (h : Shrinks s t) (k : Shrinks t u) : Shrinks s u :=
  ⟨k.deferred.trans h.deferred, fun e n x => h.pool e n (k.pool e n x), fun e x => h.order e (k.order e x)⟩

theorem reportCeased_same (i : SlotId) (s : State) : (reportCeased i s).deferred = s.deferred ∧ (reportCeased i s).pool = s.pool ∧ (reportCeased i s).order = s.order := by
  unfold reportCeased endRetireWait
  split
  · split
    · split <;> exact ⟨rfl, rfl, rfl⟩
    · exact ⟨rfl, rfl, rfl⟩
  · exact ⟨rfl, rfl, rfl⟩

theorem reportCeased_shrinks (i : SlotId) (s : State) : Shrinks s (reportCeased i s) := by
  obtain ⟨a, b, c⟩ := reportCeased_same i s
  exact ⟨a, fun e n h => by rw [b] at h; exact h, fun e h => by rw [c] at h; exact h⟩

theorem removeNotice_pool (e : EntryId) (s : State) : (removeNotice e s).pool = s.pool.set e none := by
  unfold removeNotice
  split
  · rfl
  · rename_i h
    ext j hj : 1
    by_cases hje : e.val = j
    · subst hje
      simpa using h
    · simp [hje]

theorem removeNotice_shrinks (e : EntryId) (s : State) : Shrinks s (removeNotice e s) := by
  refine ⟨?_, ?_, ?_⟩
  · unfold removeNotice; split <;> rfl
  · intro d n h
    rw [removeNotice_pool, pool_get_set] at h
    split at h
    · cases h
    · exact h
  · intro d h
    unfold removeNotice at h
    split at h
    · exact List.mem_of_mem_erase h
    · exact h

theorem dropNotice_shrinks (e : EntryId) (s : State) : Shrinks s (dropNotice e s) := by
  unfold dropNotice; split
  · refine (removeNotice_shrinks e s).trans ⟨?_, ?_, ?_⟩
    · simp [rearmPins]
    · intro d n h; simpa [rearmPins] using h
    · intro d h; simpa [rearmPins] using h
  · exact Shrinks.refl s

theorem dropNotice_gone (e : EntryId) (s : State) : (dropNotice e s).pool[e] = none := by
  unfold dropNotice; split
  · rw [show (rearmPins _ (removeNotice e s)).pool = (removeNotice e s).pool by simp [rearmPins], removeNotice_pool, pool_get_self]
  · assumption

theorem ceaseNotice_shrinks (e : EntryId) (s : State) : Shrinks s (ceaseNotice e s) := by
  unfold ceaseNotice; split
  · split
    · exact dropNotice_shrinks _ _
    · exact (dropNotice_shrinks _ _).trans (reportCeased_shrinks _ _)
  · exact Shrinks.refl s

theorem ceaseNotice_gone (e : EntryId) (s : State) : (ceaseNotice e s).pool[e] = none := by
  unfold ceaseNotice; split
  · split
    · exact dropNotice_gone _ _
    · have h := dropNotice_gone e s
      rw [← (reportCeased_same ‹Notice›.slot (dropNotice e s)).2.1] at h; exact h
  · assumption

theorem foldl_shrinks (f : State → EntryId → State) (hf : ∀ s e, Shrinks s (f s e)) (es : List EntryId) (s : State) :
    Shrinks s (es.foldl f s) := by
  induction es generalizing s with
  | nil => exact Shrinks.refl s
  | cons e es ih => exact (hf s e).trans (ih _)

theorem foldl_gone (f : State → EntryId → State) (hf : ∀ s e, Shrinks s (f s e)) (hg : ∀ s e, (f s e).pool[e] = none) (es : List EntryId) (s : State) :
    ∀ e ∈ es, (es.foldl f s).pool[e] = none := by
  induction es generalizing s with
  | nil => intro e h; cases h
  | cons a es ih =>
    intro e he
    rcases List.mem_cons.mp he with rfl | h
    · rw [List.foldl_cons]
      have := (foldl_shrinks f hf es (f s e)).pool e
      cases hh : (es.foldl f (f s e)).pool[e] with
      | none => rfl
      | some n => have := this n hh; rw [hg] at this; cases this
    · exact ih _ e h

/-- Notices alike but for what ripening changes. -/
def Notice.like (a b : Notice) : Prop :=
  b.slot = a.slot ∧ b.target = a.target ∧ b.generation = a.generation ∧ b.isOrphan = a.isOrphan ∧ b.isInService = a.isInService

/-- Each notice was there, or comes from a pair. -/
structure Descends (s t : State) : Prop where
  deferred : ∀ d, d ∈ t.deferred → d ∈ s.deferred
  pool : ∀ (e : EntryId) (n : Notice), t.pool[e] = some n → (∃ m, s.pool[e] = some m ∧ m.like n) ∨
    ∃ d ∈ s.deferred, n.slot = d.slot ∧ n.target = d.target ∧ n.isInService = false

theorem Descends.refl (s : State) : Descends s s := ⟨fun _ h => h, fun e n h => Or.inl ⟨n, h, rfl, rfl, rfl, rfl, rfl⟩⟩

theorem Descends.trans {s t u : State} (h : Descends s t) (k : Descends t u) : Descends s u := by
  refine ⟨fun d x => h.deferred d (k.deferred d x), fun e n x => ?_⟩
  rcases k.pool e n x with ⟨m, hm, l1, l2, l3, l4, l5⟩ | ⟨d, hd, hh⟩
  · rcases h.pool e m hm with ⟨m', hm', k1, k2, k3, k4, k5⟩ | ⟨d, hd, h1, h2, h3⟩
    · exact Or.inl ⟨m', hm', l1.trans k1, l2.trans k2, l3.trans k3, l4.trans k4, l5.trans k5⟩
    · exact Or.inr ⟨d, hd, l1.trans h1, l2.trans h2, l5.trans h3⟩
  · exact Or.inr ⟨d, h.deferred d hd, hh⟩

theorem Shrinks.descends {s t : State} (h : Shrinks s t) : Descends s t :=
  ⟨fun d x => by rw [h.deferred] at x; exact x, fun e n x => Or.inl ⟨n, h.pool e n x, rfl, rfl, rfl, rfl, rfl⟩⟩

theorem Descends.same {s t : State} (h1 : t.deferred = s.deferred) (h2 : t.pool = s.pool) : Descends s t :=
  ⟨fun d x => by rw [h1] at x; exact x, fun e n x => Or.inl ⟨n, by rw [h2] at x; exact x, rfl, rfl, rfl, rfl, rfl⟩⟩

theorem ripen_descends (e : EntryId) (s : State) : Descends s (ripen e s) := by
  unfold ripen
  split
  · rename_i n hn
    split
    · rename_i hg
      refine ⟨fun d x => x, fun d m x => ?_⟩
      have x : (s.pool.set e (some { n with phase := .pending }))[d] = some m := x
      rw [pool_get_set] at x
      by_cases h : e = d
      · subst h
        rw [if_pos rfl] at x
        have x := Option.some.inj x
        subst x
        left
        refine ⟨n, hn, rfl, rfl, rfl, ?_, ?_⟩
        · unfold Notice.isGathering at hg; unfold Notice.isOrphan; split at hg <;> simp_all
        · unfold Notice.isGathering at hg; unfold Notice.isInService; split at hg <;> simp_all
      · rw [if_neg h] at x
        exact Or.inl ⟨m, x, rfl, rfl, rfl, rfl, rfl⟩
    · exact Descends.refl s
  · exact Descends.refl s

theorem ripenIfReached_descends (e : EntryId) (s : State) : Descends s (ripenIfReached e s) := by
  unfold ripenIfReached; split
  · exact ripen_descends _ _
  · exact Descends.refl s

theorem handOver_descends (e : EntryId) (s : State) : Descends s (handOver e s) := by
  unfold handOver
  split
  · exact Descends.refl s
  · rename_i d rest hd
    have h1 : Descends s { setEntry e (some (freshNotice s d.slot d.target d.placement)) { s with deferred := rest } with order := s.order.erase e ++ [e] } := by
      refine ⟨fun x hx => by rw [hd]; exact List.mem_cons_of_mem _ hx, fun f n x => ?_⟩
      have x : (s.pool.set e (some (freshNotice s d.slot d.target d.placement)))[f] = some n := x
      rw [pool_get_set] at x
      split at x
      · cases x
        exact Or.inr ⟨d, by rw [hd]; exact List.mem_cons_self, rfl, rfl, rfl⟩
      · exact Or.inl ⟨n, x, rfl, rfl, rfl, rfl, rfl⟩
    unfold startNotice
    dsimp only
    split
    · exact h1.trans (ripen_descends _ _)
    · exact h1.trans (ripenIfReached_descends _ _)

theorem foldl_descends {α : Type} (f : State → α → State) (hf : ∀ s e, Descends s (f s e)) (es : List α) (s : State) :
    Descends s (es.foldl f s) := by
  induction es generalizing s with
  | nil => exact Descends.refl s
  | cons e es ih => exact (hf s e).trans (ih _)

theorem settle_descends (s : State) : Descends s (settle s) := Descends.same (settle_pool s).2.1 (settle_pool s).1

theorem judgeInTurn_descends (ts : List TargetId) (s : State) : Descends s (judgeInTurn ts s) :=
  Descends.same (judgeInTurn_pool ts s).2.1 (judgeInTurn_pool ts s).1

theorem handOverInTurn_descends (s : State) (e : EntryId) : Descends s (handOverInTurn s e) :=
  (handOver_descends e s).trans (judgeInTurn_descends _ _)

theorem handOverAll_descends (es : List EntryId) (s : State) : Descends s (handOverAll es s) :=
  foldl_descends _ handOverInTurn_descends _ _

/-- After several notices have ceased: none of them is left, and what came in came from pairs. -/
theorem ceaseAll_pool (es : List EntryId) (s : State) (e : EntryId) (n : Notice) (h : (ceaseAll es s).pool[e] = some n) :
    (∃ m, s.pool[e] = some m ∧ m.like n ∧ e ∉ es) ∨ ∃ d ∈ s.deferred, n.slot = d.slot ∧ n.target = d.target ∧ n.isInService = false := by
  have hs := foldl_shrinks (fun s e => ceaseNotice e s) (fun s e => ceaseNotice_shrinks e s) es s
  have hg := foldl_gone (fun s e => ceaseNotice e s) (fun s e => ceaseNotice_shrinks e s) (fun s e => ceaseNotice_gone e s) es s
  have hd := (settle_descends (es.foldl (fun s e => ceaseNotice e s) s)).trans (handOverAll_descends es _)
  rcases hd.pool e n h with ⟨m, hm, hl⟩ | ⟨d, hd, hh⟩
  · left
    refine ⟨m, hs.pool e m hm, hl, ?_⟩
    intro he
    rw [hg e he] at hm; cases hm
  · right
    rw [hs.deferred] at hd
    exact ⟨d, hd, hh⟩

theorem ceasePairs_shape (p : Pair → Bool) (s : State) : (ceasePairs p s).deferred = s.deferred.filter (fun d => !p d) ∧ (ceasePairs p s).pool = s.pool ∧ (ceasePairs p s).order = s.order := by
  unfold ceasePairs
  have key : ∀ (l : List Pair) (x : State), (l.foldl ceasePair x).deferred = x.deferred ∧ (l.foldl ceasePair x).pool = x.pool ∧ (l.foldl ceasePair x).order = x.order := by
    intro l
    induction l with
    | nil => intro x; exact ⟨rfl, rfl, rfl⟩
    | cons d ds ih =>
      intro x
      rw [List.foldl_cons]
      obtain ⟨a, b, c⟩ := ih (ceasePair x d)
      unfold ceasePair at a b c ⊢
      obtain ⟨a', b', c'⟩ := reportCeased_same d.slot (rearmPins d.pins x)
      rw [a, b, c, a', b', c']
      simp [rearmPins]
  obtain ⟨a, b, c⟩ := key (s.deferred.filter p) { s with deferred := s.deferred.filter fun d => !p d }
  exact ⟨a, b, c⟩

theorem mem_ascending (s : State) (p : Notice → Bool) (e : EntryId) : e ∈ ascending s p ↔ ∃ n, s.pool[e] = some n ∧ p n = true := by
  unfold ascending
  rw [mem_indicesWhere]
  cases s.pool[e] with
  | none => simp
  | some n => simp

/-- Under DISCARD nothing unclaimed of the record is left. -/
theorem discardItems_gone (i : SlotId) (s : State) :
    (∀ d ∈ (discardItems i s).deferred, d.slot ≠ i) ∧
    ∀ (e : EntryId) (n : Notice), (discardItems i s).pool[e] = some n → n.slot = i → n.generation = s.slots[i].generation → n.isOrphan = false → n.isInService = true := by
  unfold discardItems
  dsimp only
  obtain ⟨hd, hp, _⟩ := ceasePairs_shape (fun d => d.slot == i) s
  generalize ceasePairs (fun d => d.slot == i) s = s1 at *
  have hdi : ∀ d ∈ s1.deferred, d.slot ≠ i := by
    intro d h; rw [hd] at h; simpa using (List.mem_filter.mp h).2
  refine ⟨?_, ?_⟩
  · intro d h
    have h1 := ((settle_descends (((ascending s fun n => n.unclaimed && ownedBy s i n)).foldl (fun s e => ceaseNotice e s) s1)).trans (handOverAll_descends (ascending s fun n => n.unclaimed && ownedBy s i n) _)).deferred d h
    rw [(foldl_shrinks (fun s e => ceaseNotice e s) (fun s e => ceaseNotice_shrinks e s) _ s1).deferred] at h1
    exact hdi d h1
  · intro e n h h1 h2 h3
    rcases ceaseAll_pool _ _ e n h with ⟨m, hm, ⟨l1, l2, l3, l4, l5⟩, hne⟩ | ⟨d, hd', k1, _⟩
    · rw [mem_ascending] at hne
      by_contra hc
      apply hne
      refine ⟨m, by rw [← hp]; exact hm, ?_⟩
      rw [l5] at hc
      have : m.unclaimed = true := by
        unfold Notice.isInService at hc; unfold Notice.unclaimed
        cases hph : m.phase <;> simp_all
      rw [this]
      unfold ownedBy
      rw [← l1, h1, ← l3, h2, ← l4, h3]
      simp
    · exact absurd (k1 ▸ h1) (hdi d hd')

def SlotsBut (i : SlotId) (s t : State) : Prop := ∀ j : SlotId, j ≠ i → t.slots[j] = s.slots[j]

theorem SlotsBut.refl (i) (s : State) : SlotsBut i s s := fun _ _ => rfl

theorem SlotsBut.trans {i} {s t u : State} (h : SlotsBut i s t) (k : SlotsBut i t u) : SlotsBut i s u := fun j hj => (k j hj).trans (h j hj)

theorem SlotsBut.same {i} {s t : State} (h : t.slots = s.slots) : SlotsBut i s t := fun _ _ => by rw [h]

theorem modSlot_but (i : SlotId) (f : Slot → Slot) (s : State) : SlotsBut i s (modSlot i f s) := by
  intro j hj
  show (s.slots.set i _)[j] = _
  rw [slot_get_set, if_neg (fun h => hj h.symm)]

theorem reportCeased_but (i : SlotId) (s : State) : SlotsBut i s (reportCeased i s) := by
  unfold reportCeased
  split
  · have : SlotsBut i s (freeSlot i s) := modSlot_but _ _ _
    refine this.trans (SlotsBut.same ?_)
    unfold endRetireWait
    split
    · split <;> rfl
    · rfl
  · exact SlotsBut.refl _ _

theorem ripen_slots (e : EntryId) (s : State) : (ripen e s).slots = s.slots := by
  unfold ripen; split
  · split <;> rfl
  · rfl

theorem ripenIfReached_slots (e : EntryId) (s : State) : (ripenIfReached e s).slots = s.slots := by
  unfold ripenIfReached; split
  · exact ripen_slots _ _
  · rfl

theorem startNotice_slots (e : EntryId) (n : Notice) (s : State) : (startNotice e n s).slots = s.slots := by
  unfold startNotice; dsimp only; split
  · rw [ripen_slots]; rfl
  · rw [ripenIfReached_slots]; rfl

theorem handOver_slots (e : EntryId) (s : State) : (handOver e s).slots = s.slots := by
  unfold handOver; split
  · rfl
  · rw [startNotice_slots]

theorem foldl_slots {α : Type} (f : State → α → State) (h : ∀ s a, (f s a).slots = s.slots) (l : List α) (s : State) : (l.foldl f s).slots = s.slots := by
  induction l generalizing s with
  | nil => rfl
  | cons a as ih => rw [List.foldl_cons, ih, h]

theorem handOverInTurn_slots (s : State) (e : EntryId) : (handOverInTurn s e).slots = s.slots := by
  unfold handOverInTurn; rw [(judgeInTurn_pool _ _).2.2.2.1, handOver_slots]

theorem handOverAll_slots (es : List EntryId) (s : State) : (handOverAll es s).slots = s.slots := foldl_slots _ handOverInTurn_slots _ _

theorem dropNotice_slots (e : EntryId) (s : State) : (dropNotice e s).slots = s.slots := by
  unfold dropNotice; split
  · unfold removeNotice
    split
    · simp [rearmPins]
    · simp [rearmPins]
  · rfl

theorem ceaseNotice_but (i : SlotId) (e : EntryId) (s : State) (h : ∀ n, s.pool[e] = some n → n.slot = i) : SlotsBut i s (ceaseNotice e s) := by
  unfold ceaseNotice
  split
  · rename_i n hn
    split
    · exact SlotsBut.same (dropNotice_slots _ _)
    · rw [h n hn]
      exact (SlotsBut.same (dropNotice_slots _ _)).trans (reportCeased_but _ _)
  · exact SlotsBut.refl _ _

theorem ceaseNotices_but (i : SlotId) (es : List EntryId) (s : State) (h : ∀ e ∈ es, ∀ n, s.pool[e] = some n → n.slot = i) :
    SlotsBut i s (es.foldl (fun s e => ceaseNotice e s) s) := by
  induction es generalizing s with
  | nil => exact SlotsBut.refl _ _
  | cons e es ih =>
    rw [List.foldl_cons]
    refine (ceaseNotice_but i e s (h e List.mem_cons_self)).trans (ih _ ?_)
    intro a ha n hn
    exact h a (List.mem_cons_of_mem _ ha) n ((ceaseNotice_shrinks e s).pool a n hn)

theorem ceasePairs_but (i : SlotId) (s : State) : SlotsBut i s (ceasePairs (fun d => d.slot == i) s) := by
  unfold ceasePairs
  have key : ∀ (l : List Pair) (x : State), (∀ d ∈ l, d.slot = i) → SlotsBut i x (l.foldl ceasePair x) := by
    intro l
    induction l with
    | nil => intro x _; exact SlotsBut.refl _ _
    | cons d ds ih =>
      intro x hx
      rw [List.foldl_cons]
      refine SlotsBut.trans ?_ (ih _ fun e he => hx e (List.mem_cons_of_mem _ he))
      unfold ceasePair
      rw [hx d List.mem_cons_self]
      exact (SlotsBut.same (by simp [rearmPins])).trans (reportCeased_but _ _)
  have := key (s.deferred.filter fun d => d.slot == i) { s with deferred := s.deferred.filter fun d => !(d.slot == i) }
    (by intro d hd; simpa using (List.mem_filter.mp hd).2)
  exact (SlotsBut.same rfl).trans this

theorem discardItems_but (i : SlotId) (s : State) : SlotsBut i s (discardItems i s) := by
  unfold discardItems ceaseAll
  dsimp only
  refine ((ceasePairs_but i s).trans (ceaseNotices_but i _ _ ?_)).trans ((SlotsBut.same (settle_pool _).2.2.2.1).trans (SlotsBut.same (handOverAll_slots _ _)))
  intro e he n hn
  rw [mem_ascending] at he
  obtain ⟨m, hm, hp⟩ := he
  rw [(ceasePairs_shape _ s).2.1, hm] at hn
  cases hn
  simp only [ownedBy, Bool.and_eq_true, beq_iff_eq] at hp
  exact hp.2.1.1

theorem treatItems_but (i : SlotId) (m : RetireMode) (s : State) : SlotsBut i s (treatItems i m s) := by
  cases m
  · exact discardItems_but i s
  · refine SlotsBut.same (foldl_slots _ ?_ _ _)
    intro s e; rw [(settle_pool _).2.2.2.1, ripen_slots]

theorem retireRecord_but (i : SlotId) (m : RetireMode) (s : State) : SlotsBut i s (retireRecord i m s) := by
  unfold retireRecord
  dsimp only
  refine SlotsBut.trans ?_ (SlotsBut.same (settle_pool _).2.2.2.1)
  refine SlotsBut.trans ?_ (reportCeased_but _ _)
  refine SlotsBut.trans ?_ (treatItems_but _ _ _)
  refine (modSlot_but i (fun r => { r with state := .retiring, retireMode := some m }) s).trans ?_
  unfold discardHeld setHeld
  exact (modSlot_but i (fun r => { r with held := Held.empty }) _).trans (SlotsBut.same (by simp [rearmPins]))

def Notice.ripened (n : Notice) : Notice := if n.isGathering then { n with phase := .pending } else n

theorem ripen_pool (e d : EntryId) (s : State) : (ripen e s).pool[d] = if d = e then (s.pool[d]).map Notice.ripened else s.pool[d] := by
  unfold ripen
  split
  · rename_i n hn
    split
    · rename_i hg
      show (s.pool.set e _)[d] = _
      rw [pool_get_set]
      by_cases h : e = d
      · subst h; rw [if_pos rfl, if_pos rfl, hn]; simp [Notice.ripened, hg]
      · rw [if_neg h, if_neg (fun hh => h hh.symm)]
    · rename_i hg
      split
      · rename_i h; subst h; rw [hn]; simp [Notice.ripened, hg]
      · rfl
  · rename_i hn
    split
    · rename_i h; subst h; rw [hn]; rfl
    · rfl

theorem ripened_ripened (n : Notice) : n.ripened.ripened = n.ripened := by
  by_cases h : n.isGathering = true
  · have e : n.ripened = { n with phase := .pending } := by unfold Notice.ripened; rw [if_pos h]
    rw [e]; rfl
  · have e : n.ripened = n := by unfold Notice.ripened; rw [if_neg h]
    rw [e, e]

theorem drain_pool (es : List EntryId) (s : State) (d : EntryId) :
    (es.foldl (fun s e => settle (ripen e s)) s).pool[d] = if d ∈ es then (s.pool[d]).map Notice.ripened else s.pool[d] := by
  induction es generalizing s with
  | nil => rw [if_neg (by simp)]; rfl
  | cons e es ih =>
    rw [List.foldl_cons, ih, (settle_pool _).1, ripen_pool]
    by_cases h : d = e
    · subst h
      simp only [if_true, List.mem_cons, true_or]
      split
      · cases s.pool[d] with
        | none => rfl
        | some n => simp [ripened_ripened]
      · rfl
    · simp only [h, if_false, List.mem_cons, false_or]

theorem drain_deferred (es : List EntryId) (s : State) :
    (es.foldl (fun s e => settle (ripen e s)) s).deferred = s.deferred := by
  induction es generalizing s with
  | nil => rfl
  | cons e es ih =>
    rw [List.foldl_cons, ih, (settle_pool _).2.1]
    unfold ripen
    split
    · split <;> rfl
    · rfl

theorem discardHeld_slot (i : SlotId) (s : State) : (discardHeld i s).slots = s.slots.set i { s.slots[i] with held := Held.empty } := by
  simp [discardHeld, setHeld, rearmPins, modSlot]

theorem discardHeld_rest (i : SlotId) (s : State) : (discardHeld i s).pool = s.pool ∧ (discardHeld i s).deferred = s.deferred ∧ (discardHeld i s).order = s.order ∧ (discardHeld i s).fsu = s.fsu ∧ (discardHeld i s).port = s.port := by
  simp [discardHeld, setHeld, rearmPins, modSlot]

theorem slots_eq_set {v w : Vector Slot 1024} (i : SlotId) (h : ∀ j : SlotId, j ≠ i → w[j] = v[j]) : w = v.set i w[i] := by
  apply Vector.ext
  intro j hj
  have := slot_get_set v i ⟨j, hj⟩ w[i]
  rw [show (v.set i w[i])[j] = (v.set i w[i])[(⟨j, hj⟩ : SlotId)] from rfl, this]
  split
  · rename_i h2; subst h2; rfl
  · rename_i h2; exact h ⟨j, hj⟩ (fun hh => h2 hh.symm)

theorem countNotices_zero {s : State} {p : Notice → Bool} : countNotices s p = 0 ↔ ∀ (e : EntryId) n, s.pool[e] = some n → p n = false := by
  unfold countNotices
  rw [List.countP_eq_zero]
  constructor
  · intro h e n he
    have := h (some n) (by rw [← he]; simp)
    simpa using this
  · intro h o ho
    rw [Vector.mem_toList_iff, Vector.mem_iff_getElem] at ho
    obtain ⟨e, he, hh⟩ := ho
    cases o with
    | none => simp
    | some n => simpa using h ⟨e, he⟩ n hh

theorem dropPairs_shape (i : SlotId) (s : State) : (dropPairs i s).deferred = s.deferred.filter (fun d => !(d.slot == i)) ∧ (dropPairs i s).pool = s.pool ∧ (dropPairs i s).slots = s.slots ∧ (dropPairs i s).fsu = s.fsu := by
  unfold dropPairs
  have key : ∀ (l : List Pair) (x : State), (l.foldl (fun s (d : Pair) => rearmPins d.pins s) x).deferred = x.deferred ∧ (l.foldl (fun s (d : Pair) => rearmPins d.pins s) x).pool = x.pool ∧ (l.foldl (fun s (d : Pair) => rearmPins d.pins s) x).slots = x.slots ∧ (l.foldl (fun s (d : Pair) => rearmPins d.pins s) x).fsu = x.fsu := by
    intro l
    induction l with
    | nil => intro x; exact ⟨rfl, rfl, rfl, rfl⟩
    | cons d ds ih =>
      intro x
      rw [List.foldl_cons]
      obtain ⟨a, b, c, e⟩ := ih (rearmPins d.pins x)
      rw [a, b, c, e]
      simp [rearmPins]
  obtain ⟨a, b, c, e⟩ := key (s.deferred.filter fun d => d.slot == i) { s with deferred := s.deferred.filter fun d => !(d.slot == i) }
  exact ⟨a, b, c, e⟩

theorem dropNotice_other (e d : EntryId) (s : State) (h : d ≠ e) : (dropNotice e s).pool[d] = s.pool[d] := by
  unfold dropNotice
  split
  · rw [show (rearmPins _ (removeNotice e s)).pool = (removeNotice e s).pool by simp [rearmPins], removeNotice_pool, pool_get_set, if_neg (fun hh => h hh.symm)]
  · rfl

theorem foldl_pool_other {f : State → EntryId → State} (hf : ∀ s e d, d ≠ e → (f s e).pool[d] = s.pool[d]) (es : List EntryId) (s : State) (d : EntryId) (h : d ∉ es) :
    (es.foldl f s).pool[d] = s.pool[d] := by
  induction es generalizing s with
  | nil => rfl
  | cons e es ih =>
    rw [List.foldl_cons, ih _ (fun hh => h (List.mem_cons_of_mem _ hh)), hf]
    intro hh; exact h (hh ▸ List.mem_cons_self)

theorem handOver_other (e d : EntryId) (s : State) (h : d ≠ e) : (handOver e s).pool[d] = s.pool[d] := by
  have hr : ∀ s, (ripen e s).pool[d] = s.pool[d] := by intro s; rw [ripen_pool, if_neg h]
  unfold handOver
  split
  · rfl
  · unfold startNotice
    dsimp only
    split
    · rw [hr]
      show (s.pool.set e _)[d] = _
      rw [pool_get_set, if_neg (fun hh => h hh.symm)]
    · unfold ripenIfReached
      split
      · rw [hr]
        show (s.pool.set e _)[d] = _
        rw [pool_get_set, if_neg (fun hh => h hh.symm)]
      · show (s.pool.set e _)[d] = _
        rw [pool_get_set, if_neg (fun hh => h hh.symm)]

theorem handOverInTurn_other (e d : EntryId) (s : State) (h : d ≠ e) : (handOverInTurn s e).pool[d] = s.pool[d] := by
  unfold handOverInTurn; rw [(judgeInTurn_pool _ _).1, handOver_other e d s h]

theorem orphaned_orphaned (n : Notice) : n.orphaned.orphaned = n.orphaned := by
  unfold Notice.orphaned
  cases h : n.phase <;> simp [h]

theorem orphan_pool (es : List EntryId) (s : State) (d : EntryId) :
    (es.foldl (fun s e => setEntry e (s.pool[e].map Notice.orphaned) s) s).pool[d] = if d ∈ es then (s.pool[d]).map Notice.orphaned else s.pool[d] := by
  induction es generalizing s with
  | nil => rw [if_neg (by simp)]; rfl
  | cons e es ih =>
    rw [List.foldl_cons, ih]
    show (if _ then ((s.pool.set e _)[d]).map _ else (s.pool.set e _)[d]) = _
    rw [pool_get_set]
    by_cases h : e = d
    · subst h
      simp only [if_true, List.mem_cons, true_or]
      split
      · cases s.pool[e] with
        | none => rfl
        | some n => simp [orphaned_orphaned]
      · rfl
    · have h' : ¬ d = e := fun hh => h hh.symm
      simp only [h, if_false, List.mem_cons, h', false_or]

theorem orphan_rest (i : SlotId) (s : State) : (orphanItems i s).deferred = s.deferred ∧ (orphanItems i s).slots = s.slots ∧ (orphanItems i s).fsu = s.fsu := by
  unfold orphanItems
  generalize (ascending s fun n => n.isInService && ownedBy s i n) = l
  have key : ∀ (l : List EntryId) (s : State), (l.foldl (fun s e => setEntry e (s.pool[e].map Notice.orphaned) s) s).deferred = s.deferred ∧ (l.foldl (fun s e => setEntry e (s.pool[e].map Notice.orphaned) s) s).slots = s.slots ∧ (l.foldl (fun s e => setEntry e (s.pool[e].map Notice.orphaned) s) s).fsu = s.fsu := by
    intro l
    induction l with
    | nil => intro s; exact ⟨rfl, rfl, rfl⟩
    | cons x xs ih => intro s; rw [List.foldl_cons]; exact ih _
  exact key l s

/-- fsu kept, or COUNT_OVERFLOW raised. -/
def Over (s t : State) : Prop := t.fsu = s.fsu ∨ t.fsu = (raise .countOverflow s).fsu

theorem Over.refl (s : State) : Over s s := Or.inl rfl

theorem raiseCause_twice (p : Word) (c : CauseState) : raiseCause p (raiseCause p c) = raiseCause p c := by
  unfold raiseCause; split
  · rename_i h; simp [h]
  · simp

theorem raise_fsu_congr (c : Cause) {s t : State} (h : t.fsu = s.fsu) : (raise c t).fsu = (raise c s).fsu := by
  unfold raise modCause; dsimp only; rw [h]

theorem raise_twice (c : Cause) (s : State) : (raise c (raise c s)).fsu = (raise c s).fsu := by
  unfold raise modCause
  dsimp only
  simp [raiseCause_twice]

theorem Over.trans {s t u : State} (h : Over s t) (k : Over t u) : Over s u := by
  rcases h with h | h <;> rcases k with k | k
  · exact Or.inl (k.trans h)
  · exact Or.inr (k.trans (raise_fsu_congr _ h))
  · exact Or.inr (k.trans h)
  · refine Or.inr (k.trans ?_)
    rw [raise_fsu_congr _ h, raise_twice]

theorem Over.same {s t : State} (h : t.fsu = s.fsu) : Over s t := Or.inl h

theorem raiseIf_over (b : Bool) (s : State) : Over s (raiseIf b .countOverflow s) := by
  cases b
  · exact Or.inl rfl
  · exact Or.inr rfl

theorem mergeInto_over (e : EntryId) (p : Placement) (s : State) : Over s (mergeInto e p s) := by
  unfold mergeInto; split
  · refine Over.trans ?_ (Over.same (ripenIfReached_fsu _ _))
    exact (Over.same (t := setEntry _ _ s) rfl).trans (raiseIf_over _ _)
  · exact Over.refl s

theorem mergeAway_over (e : EntryId) (n : Notice) (h : EntryId) (s : State) : Over s (mergeAway e n h s) := by
  unfold mergeAway
  split
  · rename_i r _
    refine Over.trans ?_ (Over.same (handOver_fsu _ _))
    refine Over.trans ?_ (Over.same (reportCeased_fsu _ _))
    refine Over.trans ?_ (Over.same (removeNotice_fsu _ _))
    refine Over.trans (mergeInto_over h (awayPlacement n r) s) ?_
    split
    · exact Over.same (ripen_fsu _ _)
    · exact Over.refl _
  · exact Over.refl _

theorem absorbPair_over (e : EntryId) (i : SlotId) (t : TargetId) (s : State) : Over s (absorbPair e i t s) := by
  unfold absorbPair
  split
  · rename_i d _
    exact Over.trans (t := { s with deferred := s.deferred.filter fun x => !(x.slot == i && x.target == t) }) (Over.same rfl) (mergeInto_over e d.placement _)
  · exact Over.refl _

theorem moveWhole_over (e : EntryId) (n : Notice) (t : TargetId) (s : State) : Over s (moveWhole e n t s) := by
  unfold moveWhole
  dsimp only
  split
  · exact Over.trans (t := modList t n.level (· ++ [e]) (modList n.target n.level (·.erase e) (setEntry e (some { n with target := t }) s))) (Over.same rfl) (absorbPair_over _ _ _ _)
  · exact Over.trans (t := setEntry e (some { n with target := t }) s) (Over.same rfl) (absorbPair_over _ _ _ _)

theorem rehomeOne_over (t : TargetId) (s : State) (e : EntryId) : Over s (rehomeOne t s e) := by
  unfold rehomeOne
  split
  · split
    · split
      · exact mergeAway_over _ _ _ _
      · exact moveWhole_over _ _ _ _
    · exact Over.refl s
  · exact Over.refl s

theorem foldl_over {α : Type} (f : State → α → State) (h : ∀ s a, Over s (f s a)) (l : List α) (s : State) : Over s (l.foldl f s) := by
  induction l generalizing s with
  | nil => exact Over.refl s
  | cons a as ih => exact (h s a).trans (ih _)

theorem rehomeAll_over (t : TargetId) (s : State) : Over s (rehomeAll t s) := foldl_over _ (rehomeOne_over t) _ s

/-! ### The deferred list only loses pairs -/

theorem ripen_deferred (e : EntryId) (s : State) : (ripen e s).deferred = s.deferred := by
  unfold ripen
  split
  · split <;> rfl
  · rfl

theorem ripenIfReached_deferred (e : EntryId) (s : State) : (ripenIfReached e s).deferred = s.deferred := by
  unfold ripenIfReached
  split
  · exact ripen_deferred e s
  · rfl

theorem mergeInto_deferred (e : EntryId) (p : Placement) (s : State) : (mergeInto e p s).deferred = s.deferred := by
  unfold mergeInto
  split
  · rw [ripenIfReached_deferred, raiseIf_deferred]; rfl
  · rfl

theorem startNotice_deferred (e : EntryId) (n : Notice) (s : State) : (startNotice e n s).deferred = s.deferred := by
  unfold startNotice
  dsimp only
  split
  · rw [ripen_deferred]; rfl
  · rw [ripenIfReached_deferred]; rfl

theorem handOver_sublist (e : EntryId) (s : State) : (handOver e s).deferred.Sublist s.deferred := by
  unfold handOver
  split
  · exact List.Sublist.refl _
  · rename_i d rest h
    rw [startNotice_deferred, h]
    exact List.sublist_cons_self d rest

theorem absorbPair_sublist (e : EntryId) (i : SlotId) (t : TargetId) (s : State) : (absorbPair e i t s).deferred.Sublist s.deferred := by
  unfold absorbPair
  split
  · rw [mergeInto_deferred]; exact List.filter_sublist
  · exact List.Sublist.refl _

theorem rehomeOne_sublist (source : TargetId) (s : State) (e : EntryId) : (rehomeOne source s e).deferred.Sublist s.deferred := by
  unfold rehomeOne
  split
  · rename_i n _
    split
    · rename_i t _
      split
      · rename_i home _
        unfold mergeAway
        split
        · refine (handOver_sublist e _).trans ?_
          rw [(reportCeased_same _ _).1, (removeNotice_shrinks e _).deferred]
          split
          · rw [ripen_deferred, mergeInto_deferred]
          · rw [mergeInto_deferred]
        · exact List.Sublist.refl _
      · unfold moveWhole
        dsimp only
        refine (absorbPair_sublist e n.slot t _).trans ?_
        split <;> exact List.Sublist.refl _
    · exact List.Sublist.refl _
  · exact List.Sublist.refl _

theorem rehomeAndJudge_sublist (source : TargetId) (s : State) : (rehomeAndJudge source s).deferred.Sublist s.deferred := by
  unfold rehomeAndJudge
  rw [(judgeInTurn_pool _ _).2.1]
  unfold rehomeAll
  generalize inCreationOrder s (standsOn source) = es
  induction es generalizing s with
  | nil => exact List.Sublist.refl _
  | cons e es ih => exact (ih _).trans (rehomeOne_sublist source s e)

theorem rehomeAndJudge_over (t : TargetId) (s : State) : Over s (rehomeAndJudge t s) :=
  (rehomeAll_over t s).trans (Over.same (judgeInTurn_pool _ _).2.2.2.2.2.2)

/-- The quiesce: from the state with the target QUIESCING, a frame; nothing unclaimed is left on the target. -/
theorem quiesce_done (t : TargetId) (b : Bool) (s0 : State) :
    Frame (modTarget t (fun c => { c with state := .quiescing }) s0) (startQuiesce t b s0)
      ∧ (∀ d ∈ (startQuiesce t b s0).deferred, d.target ≠ t)
      ∧ (∀ (e : EntryId) (n : Notice), (startQuiesce t b s0).pool[e] = some n → n.target = t → n.isInService = true)
      ∧ ((startQuiesce t b s0).fsu = s0.fsu ∨ b = true ∧ (startQuiesce t b s0).fsu = (raise .countOverflow s0).fsu) := by
  unfold startQuiesce
  dsimp only
  generalize h1 : modTarget t (fun c => { c with state := .quiescing }) s0 = s1
  have f1 : s1.fsu = s0.fsu := by rw [← h1]; rfl
  obtain ⟨q1, q2, _⟩ := ceasePairs_shape (fun d => d.target == t) s1
  have fr2 := ceasePairs_frame (fun d => d.target == t) s1
  have fs2 := ceasePairs_fsu (fun d => d.target == t) s1
  generalize ceasePairs (fun d => d.target == t) s1 = s2 at *
  generalize h3 : (if b = true then rehomeAndJudge t s2 else s2) = s3
  have fr3 : Frame s2 s3 := by
    rw [← h3]; split
    · exact rehomeAndJudge_frame _ _
    · exact Frame.refl _
  have p3 : s3.deferred.Sublist s2.deferred := by
    rw [← h3]; split
    · exact rehomeAndJudge_sublist _ _
    · exact List.Sublist.refl _
  have o3 : s3.fsu = s2.fsu ∨ b = true ∧ s3.fsu = (raise .countOverflow s2).fsu := by
    rw [← h3]; cases b
    · exact Or.inl rfl
    · rcases rehomeAndJudge_over t s2 with h | h
      · exact Or.inl h
      · exact Or.inr ⟨rfl, h⟩
  have hd3 : ∀ d ∈ s3.deferred, d.target ≠ t := by
    intro d hd
    have := p3.subset hd
    rw [q1] at this
    simpa using (List.mem_filter.mp this).2
  refine ⟨(fr2.trans fr3).trans (ceaseAll_frame _ _), ?_, ?_, ?_⟩
  · intro d hd
    refine hd3 d ?_
    have h := ((settle_descends _).trans (handOverAll_descends _ _)).deferred d hd
    rw [(foldl_shrinks (fun s e => ceaseNotice e s) (fun s e => ceaseNotice_shrinks e s) _ s3).deferred] at h
    exact h
  · intro e n hn ht
    rcases ceaseAll_pool _ _ e n hn with ⟨m, hm, ⟨l1, l2, l3, l4, l5⟩, hne⟩ | ⟨d, hd, _, k2, _⟩
    · rw [mem_ascending] at hne
      rw [l5]
      by_contra hc
      apply hne
      refine ⟨m, hm, ?_⟩
      unfold standsOn
      rw [← l2, ht]
      unfold Notice.isInService at hc; unfold Notice.unclaimed
      cases hph : m.phase <;> simp_all
    · exact absurd (k2 ▸ ht) (hd3 d hd)
  · rw [ceaseAll_fsu]
    rcases o3 with h | ⟨hb, h⟩
    · exact Or.inl (by rw [h, fs2, f1])
    · exact Or.inr ⟨hb, by rw [h]; exact raise_fsu_congr _ (by rw [fs2, f1])⟩

theorem quiesceEnd_cases (t : TargetId) (force : Bool) (wait : Nat) (q : State) :
    (force = true → quiesceEnd t force wait q = endCommand .ok [] (goOffline t (forceStack t q)))
    ∧ (force = false → q.targets[t].stack = [] → quiesceEnd t force wait q = endCommand .ok [] (goOffline t q))
    ∧ (force = false → q.targets[t].stack ≠ [] → wait = 0 → quiesceEnd t force wait q = endCommand .started [] q)
    ∧ (force = false → q.targets[t].stack ≠ [] → wait ≠ 0 → quiesceEnd t force wait q = startWait wait (stayInFlight (.offlineWait t) q)) := by
  refine ⟨?_, ?_, ?_, ?_⟩
  · rintro rfl; rfl
  · rintro rfl h; unfold quiesceEnd; rw [h]; rfl
  · rintro rfl h hw; unfold quiesceEnd
    rw [List.isEmpty_eq_false_iff.mpr h, if_pos hw]; rfl
  · rintro rfl h hw; unfold quiesceEnd
    rw [List.isEmpty_eq_false_iff.mpr h, if_neg hw]; rfl

/-- What a TARGET_OFFLINE establishes before the last judging. -/
structure Quiesced (s x : State) (t : TargetId) : Prop where
  now : x.now = s.now
  porst : x.porst = s.porst
  link : x.link = s.link
  intake : x.intake = s.intake
  answers : x.answers = s.answers
  pending : x.pending = s.pending
  slots : ∀ i : SlotId, (s.slots[i]).keptOrFreed x.slots[i]
  fsu : x.fsu = s.fsu ∨ field s.port.operands[0] 8 2 = 0 ∧ x.fsu = (raise .countOverflow s).fsu
  others : ∀ k : TargetId, k ≠ t → (s.targets[k]).same x.targets[k]
  pairs : ∀ d ∈ x.deferred, d.target ≠ t
  pool : ∀ (e : EntryId) (n : Notice), x.pool[e] = some n → n.target = t → n.isInService = true

theorem Quiesced.frame {s x y : State} {t : TargetId} (q : Quiesced s x t) (h : Frame x y) (hf : y.fsu = x.fsu)
    (hd : ∀ d ∈ y.deferred, d ∈ x.deferred)
    (hp : ∀ (e : EntryId) (n : Notice), y.pool[e] = some n → (∃ m, x.pool[e] = some m ∧ m.like n) ∨ ∃ d ∈ x.deferred, n.slot = d.slot ∧ n.target = d.target ∧ n.isInService = false) :
    Quiesced s y t where
  now := h.now.trans q.now
  porst := h.porst.trans q.porst
  link := h.link.trans q.link
  intake := h.intake.trans q.intake
  answers := h.answers.trans q.answers
  pending := h.pending.trans q.pending
  slots := fun i => Slot.keptOrFreed_trans (q.slots i) (h.slot i)
  fsu := by rw [hf]; exact q.fsu
  others := fun k hk => Target.same_trans (q.others k hk) (h.target k)
  pairs := fun d hdd => q.pairs d (hd d hdd)
  pool := by
    intro e n hn ht
    rcases hp e n hn with ⟨m, hm, ⟨l1, l2, l3, l4, l5⟩⟩ | ⟨d, hdd, _, k, _⟩
    · rw [l5]; exact q.pool e m hm (by rw [← l2]; exact ht)
    · exact absurd (k ▸ ht) (q.pairs d hdd)

theorem Quiesced.target {s x : State} {t : TargetId} (q : Quiesced s x t) (f : Target → Target) : Quiesced s (modTarget t f x) t :=
  ⟨q.now, q.porst, q.link, q.intake, q.answers, q.pending, q.slots, q.fsu, fun k hk => by
    show (s.targets[k]).same ((x.targets.set t _)[k])
    rw [target_get_set, if_neg (fun h => hk h.symm)]; exact q.others k hk, q.pairs, q.pool⟩

theorem Quiesced.port {s x : State} {t : TargetId} (q : Quiesced s x t) (f : Port → Port) : Quiesced s (modPort f x) t :=
  ⟨q.now, q.porst, q.link, q.intake, q.answers, q.pending, q.slots, q.fsu, q.others, q.pairs, q.pool⟩

theorem quiesced_start (s : State) (t : TargetId) :
    Quiesced s (startQuiesce t (field s.port.operands[0] 8 2 == 0) (startCommand 0x0E s)) t := by
  obtain ⟨fr, hd, hp, hf⟩ := quiesce_done t (field s.port.operands[0] 8 2 == 0) (startCommand 0x0E s)
  refine ⟨fr.now, fr.porst, fr.link, fr.intake, fr.answers, fr.pending, fr.slot, ?_, ?_, hd, hp⟩
  · rcases hf with h | ⟨hb, h⟩
    · exact Or.inl h
    · exact Or.inr ⟨by simpa using hb, h⟩
  · intro k hk
    have := fr.target k
    have e : (modTarget t (fun c => { c with state := .quiescing }) (startCommand 0x0E s)).targets[k] = s.targets[k] := by
      show (s.targets.set t _)[k] = _
      rw [target_get_set, if_neg (fun h => hk h.symm)]
    rw [e] at this; exact this

theorem ceaseAll_quiesced {s x : State} {t : TargetId} (q : Quiesced s x t) (es : List EntryId) : Quiesced s (ceaseAll es x) t := by
  refine q.frame (ceaseAll_frame es x) (ceaseAll_fsu es x) ?_ ?_
  · intro d hd
    have h := ((settle_descends _).trans (handOverAll_descends _ _)).deferred d hd
    rw [(foldl_shrinks (fun s e => ceaseNotice e s) (fun s e => ceaseNotice_shrinks e s) es x).deferred] at h
    exact h
  · intro e n hn
    rcases ceaseAll_pool es x e n hn with ⟨m, hm, hl, _⟩ | h
    · exact Or.inl ⟨m, hm, hl⟩
    · exact Or.inr h

/-- The end. -/
theorem quiesced_end {s x : State} {t : TargetId} (q : Quiesced s x t) (hst : x.targets[t].state = .offline ∨ x.targets[t].state = .quiescing) :
    let u := settle x
    u = { s with
          slots := u.slots, pool := u.pool, order := u.order, deferred := u.deferred, pins := u.pins
          targets := u.targets, port := u.port, fsu := u.fsu, notifyWrites := u.notifyWrites, free := u.free }
      ∧ (∀ i : SlotId, u.slots[i] = s.slots[i]
          ∨ s.slots[i].state = .retiring ∧ u.slots[i] = Slot.freeOf s.slots[i].generation)
      ∧ (u.fsu = s.fsu ∨ field s.port.operands[0] 8 2 = 0 ∧ u.fsu = (raise .countOverflow s).fsu)
      ∧ (∀ k : TargetId, k ≠ t → u.targets[k] = { s.targets[k] with
          lists := u.targets[k].lists, ntf := u.targets[k].ntf, deliverable := u.targets[k].deliverable
          deadlineStart := u.targets[k].deadlineStart, writeOwed := u.targets[k].writeOwed })
      ∧ u.targets[t].ntf = false ∧ u.targets[t].deadlineStart = none
      ∧ (∀ d ∈ u.deferred, d.target ≠ t)
      ∧ (∀ (e : EntryId) (n : Notice), u.pool[e] = some n → n.target = t → n.isInService = true) := by
  intro u
  have hs := settle_pool x
  have q' : Quiesced s u t := q.frame (settle_frame x) (settle_fsu x) (fun d h => by rw [hs.2.1] at h; exact h)
    (fun e n h => Or.inl ⟨n, by rw [hs.1] at h; exact h, rfl, rfl, rfl, rfl, rfl⟩)
  have ht := settled_target hst
  have ht : u.targets[t] = _ := ht
  refine ⟨?_, q'.slots, q'.fsu, q'.others, by rw [ht], by rw [ht], q'.pairs, q'.pool⟩
  rw [← q'.now, ← q'.porst, ← q'.link, ← q'.intake, ← q'.answers, ← q'.pending]

end Sys2Proof.Machine
end

