-- ==== Sys2Proof/Laws/Stands.lean ====
section
/-! SUPPORT. Every notice stands where its state says: the shared operations and the bodies of the commands, with the entries excepted that an operation has taken off a stack and not yet removed. -/

open Sys2Proof

namespace Sys2Proof.Machine

theorem list_get_set (v : Vector (List EntryId) 16) (i j : Level) (x : List EntryId) : (v.set i x)[j] = if i = j then x else v[j] := by
  by_cases h : i = j
  · subst h; simp
  · have : i.val ≠ j.val := fun e => h (Fin.ext e)
    simp [h, this]

/-- The level lists after a change of one of them. -/
theorem modList_lists (t : TargetId) (l : Level) (f : List EntryId → List EntryId) (s : State) (k : TargetId) (m : Level) :
    (modList t l f s).targets[k].lists[m] = if t = k ∧ l = m then f (s.targets[k].lists[m]) else s.targets[k].lists[m] := by
  rw [show (modList t l f s).targets = s.targets.set t { s.targets[t] with lists := s.targets[t].lists.set l (f s.targets[t].lists[l]) } from rfl, target_get_set]
  by_cases h : t = k
  · subst h
    rw [if_pos rfl]
    rw [list_get_set]
    by_cases h2 : l = m
    · subst h2; rw [if_pos rfl, if_pos ⟨rfl, rfl⟩]
    · rw [if_neg h2, if_neg (fun hh => h2 hh.2)]
  · rw [if_neg h, if_neg (fun hh => h hh.1)]

theorem modList_stack (t : TargetId) (l : Level) (f : List EntryId → List EntryId) (s : State) (k : TargetId) :
    (modList t l f s).targets[k].stack = s.targets[k].stack := by
  rw [show (modList t l f s).targets = s.targets.set t { s.targets[t] with lists := s.targets[t].lists.set l (f s.targets[t].lists[l]) } from rfl, target_get_set]
  by_cases h : t = k
  · subst h; rw [if_pos rfl]
  · rw [if_neg h]

/-- Every notice stands where its state says, but for entries X that are off every stack. -/
structure StandBut (X : EntryId → Prop) (s : State) : Prop where
  list : ∀ (t : TargetId) (l : Level) (e : EntryId), e ∈ s.targets[t].lists[l] ↔
    ∃ n, s.pool[e] = some n ∧ n.phase = .pending ∧ n.target = t ∧ n.level = l
  stack : ∀ (t : TargetId) (e : EntryId), e ∈ s.targets[t].stack →
    ∃ n, s.pool[e] = some n ∧ n.isInService = true ∧ n.target = t
  stacked : ∀ (e : EntryId) (n : Notice), s.pool[e] = some n → n.isInService = true → ¬ X e → e ∈ s.targets[n.target].stack
  off : ∀ e, X e → ∀ t : TargetId, e ∉ s.targets[t].stack
  order : ∀ e : EntryId, e ∈ s.order ↔ s.pool[e] ≠ none
  listNodup : ∀ (t : TargetId) (l : Level), (s.targets[t].lists[l]).Nodup
  stackNodup : ∀ t : TargetId, (s.targets[t].stack).Nodup
  orderNodup : s.order.Nodup

theorem stand_iff (s : State) : StandBut (fun _ => False) s ↔ NoticesStand s := by
  constructor
  · intro h
    refine ⟨h.list, ?_, h.order, h.listNodup, h.stackNodup, h.orderNodup⟩
    intro t e
    refine ⟨h.stack t e, ?_⟩
    rintro ⟨n, h1, h2, rfl⟩
    exact h.stacked e n h1 h2 id
  · rintro ⟨h1, h2, h3, h4, h5, h6⟩
    exact ⟨h1, fun t e => (h2 t e).mp, fun e n a b _ => (h2 _ e).mpr ⟨n, a, b, rfl⟩, fun _ h => h.elim, h3, h4, h5, h6⟩

/-- What the notices' standing does not look at. -/
theorem StandBut.same {X : EntryId → Prop} {s t : State} (h : StandBut X s) (hp : t.pool = s.pool) (ho : t.order = s.order)
    (hl : ∀ (k : TargetId), t.targets[k].lists = s.targets[k].lists) (hs : ∀ k : TargetId, t.targets[k].stack = s.targets[k].stack) : StandBut X t := by
  refine ⟨?_, ?_, ?_, ?_, ?_, ?_, ?_, ?_⟩
  · intro k l e; rw [hl k, hp]; exact h.list k l e
  · intro k e; rw [hs k, hp]; exact h.stack k e
  · intro e n; rw [hp, hs]; exact h.stacked e n
  · intro e he k; rw [hs]; exact h.off e he k
  · intro e; rw [ho, hp]; exact h.order e
  · intro k l; rw [hl k]; exact h.listNodup k l
  · intro k; rw [hs]; exact h.stackNodup k
  · rw [ho]; exact h.orderNodup

theorem StandBut.targets {X : EntryId → Prop} {s t : State} (h : StandBut X s) (hp : t.pool = s.pool) (ho : t.order = s.order) (hl : t.targets = s.targets) : StandBut X t :=
  h.same hp ho (fun k => by rw [hl]) (fun k => by rw [hl])

/-- Entries may be dropped from the exception once they hold nothing in service. -/
theorem StandBut.shrink {X Y : EntryId → Prop} {s : State} (h : StandBut X s) (hsub : ∀ e, Y e → X e)
    (hd : ∀ e n, X e → ¬ Y e → s.pool[e] = some n → n.isInService = false) : StandBut Y s := by
  refine ⟨h.list, h.stack, ?_, fun e he => h.off e (hsub e he), h.order, h.listNodup, h.stackNodup, h.orderNodup⟩
  intro e n hp hs hy
  by_cases hx : X e
  · rw [hd e n hx hy hp] at hs; cases hs
  · exact h.stacked e n hp hs hx

/-- A notice replaced by one of the same standing. -/
theorem StandBut.replace {X : EntryId → Prop} {s : State} (h : StandBut X s) (e : EntryId) (n m : Notice) (hp : s.pool[e] = some n)
    (h1 : m.phase = .pending ↔ n.phase = .pending) (h2 : m.isInService = n.isInService) (h3 : m.target = n.target) (h4 : m.level = n.level) :
    StandBut X (setEntry e (some m) s) := by
  have hg : ∀ d : EntryId, (setEntry e (some m) s).pool[d] = if e = d then some m else s.pool[d] := fun d => pool_get_set _ _ _ _
  refine ⟨?_, ?_, ?_, h.off, ?_, h.listNodup, h.stackNodup, h.orderNodup⟩
  · intro t l d
    rw [hg]
    refine (h.list t l d).trans ?_
    by_cases hd : e = d
    · subst hd
      rw [if_pos rfl, hp]
      constructor
      · rintro ⟨x, hx, a, b, c⟩; cases hx; exact ⟨m, rfl, h1.mpr a, h3.trans b, h4.trans c⟩
      · rintro ⟨x, hx, a, b, c⟩; cases hx; exact ⟨n, rfl, h1.mp a, h3 ▸ b, h4 ▸ c⟩
    · rw [if_neg hd]
  · intro t d hd
    obtain ⟨x, hx, a, b⟩ := h.stack t d hd
    rw [hg]
    by_cases hed : e = d
    · subst hed
      rw [hp] at hx; cases hx
      exact ⟨m, if_pos rfl, h2.trans a, h3.trans b⟩
    · exact ⟨x, by rw [if_neg hed]; exact hx, a, b⟩
  · intro d x hx a b
    rw [hg] at hx
    by_cases hed : e = d
    · subst hed
      rw [if_pos rfl] at hx; cases hx
      have := h.stacked e n hp (h2 ▸ a) b
      simp only [h3]; exact this
    · rw [if_neg hed] at hx
      exact h.stacked d x hx a b
  · intro d
    rw [hg]
    refine (h.order d).trans ?_
    by_cases hed : e = d
    · subst hed; rw [if_pos rfl, hp]; simp
    · rw [if_neg hed]

theorem pending_not_service {n : Notice} (h : n.phase = .pending) : n.isInService = false := by
  unfold Notice.isInService; rw [h]

theorem gathering_not_pending {n : Notice} (h : n.isGathering = true) : n.phase ≠ .pending := by
  intro hp; unfold Notice.isGathering at h; rw [hp] at h; cases h

theorem gathering_not_service {n : Notice} (h : n.isGathering = true) : n.isInService = false := by
  unfold Notice.isGathering at h; unfold Notice.isInService
  cases hp : n.phase <;> simp_all

/-- A GATHERING notice made PENDING at the tail of its list. -/
theorem ripen_stand {X : EntryId → Prop} {s : State} (e : EntryId) (h : StandBut X s) : StandBut X (ripen e s) := by
  unfold ripen
  split
  · rename_i n hn
    split
    · rename_i hg
      have hg' : ∀ d : EntryId, (modList n.target n.level (· ++ [e]) (setEntry e (some { n with phase := .pending }) s)).pool[d] = if e = d then some { n with phase := .pending } else s.pool[d] := fun d => pool_get_set _ _ _ _
      have hl : ∀ (t : TargetId) (l : Level), (modList n.target n.level (· ++ [e]) (setEntry e (some { n with phase := .pending }) s)).targets[t].lists[l] = if n.target = t ∧ n.level = l then s.targets[t].lists[l] ++ [e] else s.targets[t].lists[l] := fun t l => modList_lists _ _ _ _ _ _
      have hs : ∀ (t : TargetId), (modList n.target n.level (· ++ [e]) (setEntry e (some { n with phase := .pending }) s)).targets[t].stack = s.targets[t].stack := fun t => modList_stack _ _ _ _ _
      have hnot : ∀ (t : TargetId) (l : Level), e ∉ s.targets[t].lists[l] := by
        intro t l hm
        obtain ⟨x, hx, a, _⟩ := (h.list t l e).mp hm
        rw [hn] at hx; cases hx
        exact gathering_not_pending hg a
      refine ⟨?_, ?_, ?_, ?_, ?_, ?_, ?_, h.orderNodup⟩
      · intro t l d
        rw [hl, hg']
        by_cases hd : e = d
        · subst hd
          rw [if_pos rfl]
          by_cases hc : n.target = t ∧ n.level = l
          · rw [if_pos hc]
            exact ⟨fun _ => ⟨_, rfl, rfl, hc.1, hc.2⟩, fun _ => by simp⟩
          · rw [if_neg hc]
            constructor
            · intro hm; exact absurd hm (hnot t l)
            · rintro ⟨x, hx, _, a, b⟩; cases hx; exact absurd ⟨a, b⟩ hc
        · rw [if_neg hd, ← h.list t l d]
          split
          · simp; intro hh; exact absurd hh.symm hd
          · exact Iff.rfl
      · intro t d hd
        rw [hs] at hd
        obtain ⟨x, hx, a, b⟩ := h.stack t d hd
        rw [hg']
        have hne : e ≠ d := by
          rintro rfl; rw [hn] at hx; cases hx; rw [gathering_not_service hg] at a; cases a
        exact ⟨x, by rw [if_neg hne]; exact hx, a, b⟩
      · intro d x hx a b
        rw [hg'] at hx
        rw [hs]
        by_cases hne : e = d
        · subst hne; rw [if_pos rfl] at hx; cases hx; cases a
        · rw [if_neg hne] at hx; exact h.stacked d x hx a b
      · intro d hd t; rw [hs]; exact h.off d hd t
      · intro d; rw [hg']
        refine (h.order d).trans ?_
        by_cases hd : e = d
        · subst hd; rw [if_pos rfl, hn]; simp
        · rw [if_neg hd]
      · intro t l; rw [hl]; split
        · exact List.nodup_append.mpr ⟨h.listNodup t l, by simp, by intro a ha b hb; simp at hb; subst hb; rintro rfl; exact hnot t l ha⟩
        · exact h.listNodup t l
      · intro t; rw [hs]; exact h.stackNodup t
    · exact h
  · exact h

theorem ripenIfReached_stand {X : EntryId → Prop} {s : State} (e : EntryId) (h : StandBut X s) : StandBut X (ripenIfReached e s) := by
  unfold ripenIfReached; split
  · exact ripen_stand e h
  · exact h

theorem raise_stand {X : EntryId → Prop} {s : State} (c : Cause) (h : StandBut X s) : StandBut X (raise c s) := h.targets rfl rfl rfl

theorem raiseIf_stand {X : EntryId → Prop} {s : State} (b : Bool) (c : Cause) (h : StandBut X s) : StandBut X (raiseIf b c s) := by
  cases b
  · exact h
  · exact raise_stand c h

theorem mergeInto_stand {X : EntryId → Prop} {s : State} (e : EntryId) (p : Placement) (h : StandBut X s) : StandBut X (mergeInto e p s) := by
  unfold mergeInto; split
  · rename_i n hn
    exact ripenIfReached_stand e (raiseIf_stand _ _ (h.replace e n (n.merged p) hn Iff.rfl rfl rfl rfl))
  · exact h

theorem mergedLate_phase (n : Notice) (p : Placement) : ((n.mergedLate p).phase = .pending ↔ n.phase = .pending) ∧ (n.mergedLate p).isInService = n.isInService ∧ (n.mergedLate p).isOrphan = n.isOrphan := by
  unfold Notice.mergedLate Notice.isInService Notice.isOrphan
  rcases n with ⟨_, _, _, _, ph, _, _, _, _, _⟩
  cases ph with
  | gathering a b => simp
  | pending => simp
  | inService late o => cases late <;> simp

theorem addLate_stand {X : EntryId → Prop} {s : State} (e : EntryId) (p : Placement) (h : StandBut X s) : StandBut X (addLate e p s) := by
  unfold addLate; split
  · rename_i n hn
    exact raiseIf_stand _ _ (h.replace e n (n.mergedLate p) hn (mergedLate_phase n p).1 (mergedLate_phase n p).2.1 rfl rfl)
  · exact h

/-- A GATHERING notice put into an entry that is free, or whose notice in service is off every stack. -/
theorem put_stand {X : EntryId → Prop} {s : State} (e : EntryId) (n : Notice) (h : StandBut X s) (hg : n.isGathering = true)
    (he : ∀ m, s.pool[e] = some m → m.isInService = true ∧ X e) :
    StandBut (fun x => X x ∧ x ≠ e) { setEntry e (some n) s with order := s.order.erase e ++ [e] } := by
  have hg' : ∀ d : EntryId, ({ setEntry e (some n) s with order := s.order.erase e ++ [e] } : State).pool[d] = if e = d then some n else s.pool[d] := fun d => pool_get_set _ _ _ _
  refine ⟨?_, ?_, ?_, ?_, ?_, h.listNodup, h.stackNodup, ?_⟩
  · intro t l d
    rw [hg']
    refine (h.list t l d).trans ?_
    by_cases hd : e = d
    · subst hd
      rw [if_pos rfl]
      constructor
      · rintro ⟨x, hx, a, _⟩; have := (he x hx).1; rw [pending_not_service a] at this; cases this
      · rintro ⟨x, hx, a, _⟩; cases hx; exact absurd a (gathering_not_pending hg)
    · rw [if_neg hd]
  · intro t d hd
    obtain ⟨x, hx, a, b⟩ := h.stack t d hd
    have hne : e ≠ d := by
      rintro rfl; exact h.off e (he x hx).2 t hd
    exact ⟨x, by rw [hg', if_neg hne]; exact hx, a, b⟩
  · intro d x hx a b
    rw [hg'] at hx
    by_cases hne : e = d
    · subst hne; rw [if_pos rfl] at hx; cases hx; rw [gathering_not_service hg] at a; cases a
    · rw [if_neg hne] at hx
      exact h.stacked d x hx a (fun hX => b ⟨hX, fun hh => hne hh.symm⟩)
  · intro d hd t; exact h.off d hd.1 t
  · intro d; rw [hg']
    show d ∈ s.order.erase e ++ [e] ↔ _
    by_cases hne : e = d
    · subst hne; simp
    · rw [if_neg hne, ← h.order d, List.mem_append, List.Nodup.mem_erase_iff h.orderNodup]
      simp
      constructor
      · rintro (⟨_, a⟩ | a)
        · exact a
        · exact absurd a.symm hne
      · intro a; exact Or.inl ⟨fun hh => hne hh.symm, a⟩
  · show (s.order.erase e ++ [e]).Nodup
    refine List.nodup_append.mpr ⟨h.orderNodup.erase e, by simp, ?_⟩
    intro a ha b hb
    simp at hb; subst hb
    rintro rfl
    exact (List.Nodup.mem_erase_iff h.orderNodup).mp ha |>.1 rfl

theorem startNotice_stand {X : EntryId → Prop} {s : State} (e : EntryId) (n : Notice) (h : StandBut X s) (hg : n.isGathering = true)
    (he : ∀ m, s.pool[e] = some m → m.isInService = true ∧ X e) : StandBut (fun x => X x ∧ x ≠ e) (startNotice e n s) := by
  have := put_stand e n h hg he
  unfold startNotice
  dsimp only
  split
  · exact ripen_stand e this
  · exact ripenIfReached_stand e this

theorem removeNotice_some {s : State} {e : EntryId} {n : Notice} (h : s.pool[e] = some n) :
    (removeNotice e s).pool = s.pool.set e none ∧ (removeNotice e s).order = s.order.erase e
      ∧ (removeNotice e s).targets = (modList n.target n.level (·.erase e) s).targets := by
  unfold removeNotice
  rw [h]
  exact ⟨rfl, rfl, rfl⟩

theorem removeNotice_none {s : State} {e : EntryId} (h : s.pool[e] = none) : removeNotice e s = s := by
  unfold removeNotice; rw [h]

/-- A notice removed. -/
theorem removeNotice_stand {X : EntryId → Prop} {s : State} (e : EntryId) (h : StandBut X s)
    (he : ∀ m, s.pool[e] = some m → m.isInService = true → X e) : StandBut (fun x => X x ∧ x ≠ e) (removeNotice e s) := by
  cases hn : s.pool[e] with
  | some n =>
    obtain ⟨hp, ho, ht⟩ := removeNotice_some hn
    have hg' : ∀ d : EntryId, (removeNotice e s).pool[d] = if e = d then none else s.pool[d] := fun d => by rw [hp]; exact pool_get_set _ _ _ _
    have hl : ∀ (t : TargetId) (l : Level), (removeNotice e s).targets[t].lists[l] = if n.target = t ∧ n.level = l then (s.targets[t].lists[l]).erase e else s.targets[t].lists[l] := fun t l => by rw [ht]; exact modList_lists _ _ _ _ _ _
    have hs : ∀ (t : TargetId), (removeNotice e s).targets[t].stack = s.targets[t].stack := fun t => by rw [ht]; exact modList_stack _ _ _ _ _
    generalize removeNotice e s = u at *
    refine ⟨?_, ?_, ?_, ?_, ?_, ?_, ?_, by rw [ho]; exact h.orderNodup.erase e⟩
    · intro t l d
      rw [hl, hg']
      by_cases hd : e = d
      · subst hd
        rw [if_pos rfl]
        constructor
        · intro hm
          exfalso
          split at hm
          · exact ((List.Nodup.mem_erase_iff (h.listNodup t l)).mp hm).1 rfl
          · rename_i hc
            obtain ⟨x, hx, _, a, b⟩ := (h.list t l e).mp hm
            rw [hn] at hx; cases hx; exact hc ⟨a, b⟩
        · rintro ⟨x, hx, _⟩; cases hx
      · rw [if_neg hd, ← h.list t l d]
        split
        · rw [List.Nodup.mem_erase_iff (h.listNodup t l)]
          exact ⟨fun a => a.2, fun a => ⟨fun hh => hd hh.symm, a⟩⟩
        · exact Iff.rfl
    · intro t d hd
      rw [hs] at hd
      obtain ⟨x, hx, a, b⟩ := h.stack t d hd
      have hne : e ≠ d := by
        rintro rfl; rw [hn] at hx; cases hx; exact h.off e (he n hn a) t hd
      exact ⟨x, by rw [hg', if_neg hne]; exact hx, a, b⟩
    · intro d x hx a b
      rw [hg'] at hx
      rw [hs]
      by_cases hne : e = d
      · subst hne; rw [if_pos rfl] at hx; cases hx
      · rw [if_neg hne] at hx
        exact h.stacked d x hx a (fun hX => b ⟨hX, fun hh => hne hh.symm⟩)
    · intro d hd t; rw [hs]; exact h.off d hd.1 t
    · intro d; rw [hg', ho]
      rw [List.Nodup.mem_erase_iff h.orderNodup, h.order d]
      by_cases hne : e = d
      · subst hne; simp
      · rw [if_neg hne]; exact ⟨fun a => a.2, fun a => ⟨fun hh => hne hh.symm, a⟩⟩
    · intro t l; rw [hl]; split
      · exact (h.listNodup t l).erase e
      · exact h.listNodup t l
    · intro t; rw [hs]; exact h.stackNodup t
  | none =>
    rw [removeNotice_none hn]
    refine h.shrink (fun d hd => hd.1) ?_
    intro d n hX hY hp
    by_cases hde : d = e
    · subst hde; rw [hn] at hp; cases hp
    · exact absurd ⟨hX, hde⟩ hY

theorem StandBut.weaken {X Y : EntryId → Prop} {s : State} (h : StandBut X s) (e : ∀ x, X x ↔ Y x) : StandBut Y s := by
  have : X = Y := funext fun x => propext (e x)
  rw [← this]; exact h

theorem rearmPins_stand {X : EntryId → Prop} {s : State} (ps : PinSet) (h : StandBut X s) : StandBut X (rearmPins ps s) :=
  h.targets (by simp [rearmPins]) (by simp [rearmPins]) (by simp [rearmPins])

theorem reportCeased_stand {X : EntryId → Prop} {s : State} (i : SlotId) (h : StandBut X s) : StandBut X (reportCeased i s) := by
  have ht : (reportCeased i s).targets = s.targets := by
    unfold reportCeased endRetireWait
    split
    · split
      · split <;> rfl
      · rfl
    · rfl
  exact h.targets (reportCeased_same i s).2.1 (reportCeased_same i s).2.2 ht

theorem handOver_stand {X : EntryId → Prop} {s : State} (e : EntryId) (h : StandBut X s) (he : s.pool[e] = none) :
    StandBut (fun x => X x ∧ x ≠ e) (handOver e s) := by
  unfold handOver
  split
  · refine h.shrink (fun d hd => hd.1) ?_
    intro d n hX hY hp
    by_cases hde : d = e
    · subst hde; rw [he] at hp; cases hp
    · exact absurd ⟨hX, hde⟩ hY
  · rename_i d rest hd
    exact startNotice_stand e _ (h.targets (t := { s with deferred := rest }) rfl rfl rfl) rfl (fun m hm => by
      have hm : s.pool[e] = some m := hm
      rw [he] at hm; cases hm)

theorem dropNotice_stand {X : EntryId → Prop} {s : State} (e : EntryId) (h : StandBut X s)
    (he : ∀ m, s.pool[e] = some m → m.isInService = true → X e) : StandBut (fun x => X x ∧ x ≠ e) (dropNotice e s) := by
  have hr := removeNotice_stand e h he
  unfold dropNotice
  split
  · exact rearmPins_stand _ hr
  · rename_i hn
    rw [removeNotice_none hn] at hr; exact hr

theorem ceaseNotice_stand {X : EntryId → Prop} {s : State} (e : EntryId) (h : StandBut X s)
    (he : ∀ m, s.pool[e] = some m → m.isInService = true → X e) : StandBut (fun x => X x ∧ x ≠ e) (ceaseNotice e s) := by
  have hd := dropNotice_stand e h he
  unfold ceaseNotice
  split
  · split
    · exact hd
    · exact reportCeased_stand _ hd
  · rename_i hn
    have hr := removeNotice_stand e h he
    rw [removeNotice_none hn] at hr; exact hr

theorem foldl_remove_stand {f : State → EntryId → State} (hf : ∀ s e, Shrinks s (f s e))
    (hs : ∀ {X : EntryId → Prop} {s : State} (e : EntryId), StandBut X s → (∀ m, s.pool[e] = some m → m.isInService = true → X e) → StandBut (fun x => X x ∧ x ≠ e) (f s e))
    (es : List EntryId) {X : EntryId → Prop} {s : State} (h : StandBut X s) (hn : es.Nodup)
    (he : ∀ e ∈ es, ∀ m, s.pool[e] = some m → m.isInService = true → X e) :
    StandBut (fun x => X x ∧ x ∉ es) (es.foldl f s) := by
  induction es generalizing s X with
  | nil => exact h.weaken fun x => by simp
  | cons e es ih =>
    rw [List.foldl_cons]
    have h1 := hs e h (he e List.mem_cons_self)
    have h2 := ih h1 (List.nodup_cons.mp hn).2 (fun d hd m hm hsv =>
      ⟨he d (List.mem_cons_of_mem _ hd) m ((hf s e).pool d m hm) hsv, fun hde => (List.nodup_cons.mp hn).1 (hde ▸ hd)⟩)
    refine h2.weaken fun x => ?_
    simp only [List.mem_cons, not_or, and_assoc]

theorem settle_stand {X : EntryId → Prop} {s : State} (h : StandBut X s) : StandBut X (settle s) := by
  obtain ⟨u, hu, e, ht⟩ := settle_parts s
  refine h.same (settle_pool s).1 (settle_pool s).2.2.1 ?_ ?_
  · intro k; rw [hu, ht]
  · intro k; rw [hu, ht]

theorem judgeInTurn_stand {X : EntryId → Prop} {s : State} (ts : List TargetId) (h : StandBut X s) :
    StandBut X (judgeInTurn ts s) := by
  obtain ⟨u, hu, e, ht⟩ := judgeInTurn_parts ts s
  refine h.same (judgeInTurn_pool ts s).1 (judgeInTurn_pool ts s).2.2.1 ?_ ?_
  · intro k; rw [hu]; exact (ht k).2
  · intro k; rw [hu, (ht k).1]

theorem handOverInTurn_stand {X : EntryId → Prop} {s : State} (e : EntryId) (h : StandBut X s) (he : s.pool[e] = none) :
    StandBut (fun x => X x ∧ x ≠ e) (handOverInTurn s e) := judgeInTurn_stand _ (handOver_stand e h he)

theorem handOverAll_stand (es : List EntryId) {X : EntryId → Prop} {s : State} (h : StandBut X s) (hn : es.Nodup)
    (he : ∀ e ∈ es, s.pool[e] = none) : StandBut (fun x => X x ∧ x ∉ es) (handOverAll es s) := by
  unfold handOverAll
  induction es generalizing s X with
  | nil => exact h.weaken fun x => by simp
  | cons e es ih =>
    rw [List.foldl_cons]
    have h1 := handOverInTurn_stand e h (he e List.mem_cons_self)
    have h2 := ih h1 (List.nodup_cons.mp hn).2 (fun d hd => by
      rw [handOverInTurn_other e d s (fun hde => (List.nodup_cons.mp hn).1 (hde ▸ hd))]
      exact he d (List.mem_cons_of_mem _ hd))
    refine h2.weaken fun x => ?_
    simp only [List.mem_cons, not_or, and_assoc]

theorem ceaseAll_stand (es : List EntryId) {X : EntryId → Prop} {s : State} (h : StandBut X s) (hn : es.Nodup)
    (he : ∀ e ∈ es, ∀ m, s.pool[e] = some m → m.isInService = true → X e) :
    StandBut (fun x => X x ∧ x ∉ es) (ceaseAll es s) := by
  have h1 := foldl_remove_stand (fun s e => ceaseNotice_shrinks e s) (fun e hs => ceaseNotice_stand e hs) es h hn he
  have hg := foldl_gone (fun s e => ceaseNotice e s) (fun s e => ceaseNotice_shrinks e s) (fun s e => ceaseNotice_gone e s) es s
  have h2 := handOverAll_stand es (settle_stand h1) hn (by rw [(settle_pool _).1]; exact hg)
  exact h2.weaken fun x => by constructor <;> (intro hh; simp_all)

theorem ceasePair_stand {X : EntryId → Prop} {s : State} (d : Pair) (h : StandBut X s) : StandBut X (ceasePair s d) :=
  reportCeased_stand _ (rearmPins_stand _ h)

theorem foldl_stand {α : Type} {X : EntryId → Prop} (f : State → α → State) (hf : ∀ s a, StandBut X s → StandBut X (f s a)) (l : List α) {s : State} (h : StandBut X s) :
    StandBut X (l.foldl f s) := by
  induction l generalizing s with
  | nil => exact h
  | cons a as ih => exact ih (hf s a h)

theorem ceasePairs_stand {X : EntryId → Prop} {s : State} (p : Pair → Bool) (h : StandBut X s) : StandBut X (ceasePairs p s) := by
  unfold ceasePairs
  exact foldl_stand _ (fun s d => ceasePair_stand d) _ (h.targets (t := { s with deferred := s.deferred.filter fun d => !p d }) rfl rfl rfl)

abbrev Standing (s : State) : Prop := StandBut (fun _ => False) s

theorem Standing.of {X : EntryId → Prop} {s : State} (h : StandBut X s) (hx : ∀ x, ¬ X x) : Standing s := h.weaken fun x => ⟨fun a => hx x a, False.elim⟩

theorem Standing.to {X : EntryId → Prop} {s : State} (h : Standing s) (hx : ∀ x, ¬ X x) : StandBut X s := StandBut.weaken h fun x => ⟨False.elim, fun a => hx x a⟩

theorem setSlots_stand {X : EntryId → Prop} {s : State} (i : SlotId) (f : Slot → Slot) (h : StandBut X s) : StandBut X (modSlot i f s) := h.targets rfl rfl rfl

theorem lowestFree_free {s : State} {e : EntryId} (h : lowestFree s = some e) : s.pool[e] = none := by
  unfold lowestFree at h
  have := List.mem_of_head? h
  rw [mem_indicesWhere] at this
  simpa using this

theorem placeOn_st {s : State} (i : SlotId) (t : TargetId) (p : Placement) (h : Standing s) : Standing (placeOn i t p s) := by
  unfold placeOn
  split
  · exact mergeInto_stand _ _ h
  · split
    · unfold mergeIntoPair
      exact raiseIf_stand _ _ (h.targets (t := { s with deferred := _ }) rfl rfl rfl)
    · split
      · rename_i e he
        refine Standing.of (startNotice_stand e _ h rfl ?_) (fun x hx => hx.1)
        intro m hm; rw [lowestFree_free he] at hm; cases hm
      · exact raise_stand _ (h.targets (t := { s with deferred := _ }) rfl rfl rfl)

theorem placeSingle_st {s : State} (i : SlotId) (p : Placement) (h : Standing s) : Standing (placeSingle i p s) := by
  unfold placeSingle
  split
  · exact addLate_stand _ _ h
  · split
    · unfold placeRotate
      split
      · exact mergeInto_stand _ _ h
      · dsimp only
        split
        · exact placeOn_st _ _ _ (setSlots_stand _ _ h)
        · exact h
    · unfold placeFirst
      split
      · exact placeOn_st _ _ _ h
      · exact h

theorem placeAt_st {s : State} (i : SlotId) (t : TargetId) (p : Placement) (h : Standing s) : Standing (placeAt i t p s) := by
  unfold placeAt
  split
  · exact addLate_stand _ _ h
  · exact placeOn_st _ _ _ h

theorem placeAll_st {s : State} (i : SlotId) (p : Placement) (ts : List TargetId) (h : Standing s) : Standing (placeAll i p s ts) := by
  induction ts generalizing s p with
  | nil => exact h
  | cons t ts ih => exact ih _ (settle_stand (placeAt_st _ _ _ h))

theorem placeByMode_st {s : State} (i : SlotId) (p : Placement) (h : Standing s) : Standing (placeByMode i p s) := by
  unfold placeByMode
  split
  · exact placeAll_st _ _ _ h
  · exact placeSingle_st _ _ h

theorem setHeld_st {X : EntryId → Prop} {s : State} (i : SlotId) (x : Held) (h : StandBut X s) : StandBut X (setHeld i x s) := setSlots_stand _ _ h

theorem placeArrival_st {s : State} (i : SlotId) (a : Arrival) (h : Standing s) : Standing (placeArrival i a s) := by
  unfold placeArrival
  dsimp only
  split
  · exact placeByMode_st _ _ h
  · exact placeByMode_st _ _ (raiseIf_stand _ _ (setHeld_st _ _ h))

theorem placeHeld_st {s : State} (i : SlotId) (h : Standing s) : Standing (placeHeld i s) := by
  have h1 := raiseIf_stand (decide (255 < s.slots[i].held.count)) .countOverflow (setHeld_st i Held.empty h)
  unfold placeHeld
  dsimp only
  split
  · split
    · exact placeAt_st _ _ _ h1
    · exact h1
  · exact placeSingle_st _ _ h1

theorem arrive_st {s : State} (p : Producer) (a : Arrival) (h : Standing s) : Standing (arrive p a s) := by
  unfold arrive
  split
  · unfold applyArrival
    split
    · exact settle_stand (placeArrival_st _ _ h)
    · exact raiseIf_stand _ _ (setHeld_st _ _ h)
  · cases p
    · exact h.targets rfl rfl rfl
    · exact h.targets rfl rfl rfl
    · exact h.targets rfl rfl rfl
    · exact h

theorem modList_same (t : TargetId) (l : Level) (f : List EntryId → List EntryId) (s : State) : (modList t l f s).pool = s.pool ∧ (modList t l f s).order = s.order := ⟨rfl, rfl⟩

/-- A notice moved to another target: with its list if it is PENDING. -/
theorem moved_stand {X : EntryId → Prop} {s : State} (e : EntryId) (n : Notice) (t : TargetId) (h : StandBut X s) (hn : s.pool[e] = some n) (hu : n.unclaimed = true) :
    StandBut X (if n.isPending then modList t n.level (· ++ [e]) (modList n.target n.level (·.erase e) (setEntry e (some { n with target := t }) s))
      else setEntry e (some { n with target := t }) s) := by
  have hsv : n.isInService = false := by
    unfold Notice.unclaimed at hu; unfold Notice.isInService
    cases hp : n.phase <;> simp_all
  split
  · rename_i hp
    have hp : n.phase = .pending := by simpa [Notice.isPending] using hp
    have hg' : ∀ d : EntryId, (modList t n.level (· ++ [e]) (modList n.target n.level (·.erase e) (setEntry e (some { n with target := t }) s))).pool[d] = if e = d then some { n with target := t } else s.pool[d] := fun d => pool_get_set _ _ _ _
    have hl : ∀ (k : TargetId) (l : Level), (modList t n.level (· ++ [e]) (modList n.target n.level (·.erase e) (setEntry e (some { n with target := t }) s))).targets[k].lists[l] =
        if t = k ∧ n.level = l then (if n.target = k ∧ n.level = l then (s.targets[k].lists[l]).erase e else s.targets[k].lists[l]) ++ [e]
        else if n.target = k ∧ n.level = l then (s.targets[k].lists[l]).erase e else s.targets[k].lists[l] := by
      intro k l
      rw [modList_lists, modList_lists]
      rfl
    have hs : ∀ (k : TargetId), (modList t n.level (· ++ [e]) (modList n.target n.level (·.erase e) (setEntry e (some { n with target := t }) s))).targets[k].stack = s.targets[k].stack := by
      intro k; rw [modList_stack, modList_stack]; rfl
    have ho : (modList t n.level (· ++ [e]) (modList n.target n.level (·.erase e) (setEntry e (some { n with target := t }) s))).order = s.order := rfl
    generalize modList t n.level (· ++ [e]) (modList n.target n.level (·.erase e) (setEntry e (some { n with target := t }) s)) = u at *
    -- the list of the notice before, without it
    have hwithout : ∀ (k : TargetId) (l : Level), e ∉ (if n.target = k ∧ n.level = l then (s.targets[k].lists[l]).erase e else s.targets[k].lists[l]) := by
      intro k l
      split
      · intro hm; exact ((List.Nodup.mem_erase_iff (h.listNodup k l)).mp hm).1 rfl
      · rename_i hc
        intro hm
        obtain ⟨x, hx, _, a, b⟩ := (h.list k l e).mp hm
        rw [hn] at hx; cases hx; exact hc ⟨a, b⟩
    have hmem : ∀ (k : TargetId) (l : Level) (d : EntryId), e ≠ d → (d ∈ (if n.target = k ∧ n.level = l then (s.targets[k].lists[l]).erase e else s.targets[k].lists[l]) ↔ d ∈ s.targets[k].lists[l]) := by
      intro k l d hd
      split
      · rw [List.Nodup.mem_erase_iff (h.listNodup k l)]
        exact ⟨fun a => a.2, fun a => ⟨fun hh => hd hh.symm, a⟩⟩
      · exact Iff.rfl
    refine ⟨?_, ?_, ?_, ?_, ?_, ?_, ?_, by rw [ho]; exact h.orderNodup⟩
    · intro k l d
      rw [hl, hg']
      by_cases hd : e = d
      · subst hd
        rw [if_pos rfl]
        by_cases hc : t = k ∧ n.level = l
        · rw [if_pos hc]
          exact ⟨fun _ => ⟨_, rfl, hp, hc.1, hc.2⟩, fun _ => by simp⟩
        · rw [if_neg hc]
          constructor
          · intro hm; exact absurd hm (hwithout k l)
          · rintro ⟨x, hx, _, a, b⟩; cases hx; exact absurd ⟨a, b⟩ hc
      · rw [if_neg hd, ← h.list k l d]
        split
        · rw [List.mem_append, hmem k l d hd]
          simp; intro hh; exact absurd hh.symm hd
        · exact hmem k l d hd
    · intro k d hd
      rw [hs] at hd
      obtain ⟨x, hx, a, b⟩ := h.stack k d hd
      have hne : e ≠ d := by
        rintro rfl; rw [hn] at hx; cases hx; rw [hsv] at a; cases a
      exact ⟨x, by rw [hg', if_neg hne]; exact hx, a, b⟩
    · intro d x hx a b
      rw [hg'] at hx
      rw [hs]
      by_cases hne : e = d
      · subst hne; rw [if_pos rfl] at hx; cases hx
        have a : n.isInService = true := a
        rw [hsv] at a; cases a
      · rw [if_neg hne] at hx; exact h.stacked d x hx a b
    · intro d hd k; rw [hs]; exact h.off d hd k
    · intro d; rw [hg', ho]
      refine (h.order d).trans ?_
      by_cases hd : e = d
      · subst hd; rw [if_pos rfl, hn]; simp
      · rw [if_neg hd]
    · intro k l; rw [hl]
      have hnd : (if n.target = k ∧ n.level = l then (s.targets[k].lists[l]).erase e else s.targets[k].lists[l]).Nodup := by
        split
        · exact (h.listNodup k l).erase e
        · exact h.listNodup k l
      split
      · exact List.nodup_append.mpr ⟨hnd, by simp, by intro a ha b hb; simp at hb; subst hb; rintro rfl; exact hwithout k l ha⟩
      · exact hnd
    · intro k; rw [hs]; exact h.stackNodup k
  · rename_i hp
    have hp : n.phase ≠ .pending := by simpa [Notice.isPending] using hp
    have hg' : ∀ d : EntryId, (setEntry e (some { n with target := t }) s).pool[d] = if e = d then some { n with target := t } else s.pool[d] := fun d => pool_get_set _ _ _ _
    refine ⟨?_, ?_, ?_, h.off, ?_, h.listNodup, h.stackNodup, h.orderNodup⟩
    · intro k l d
      rw [hg']
      refine (h.list k l d).trans ?_
      by_cases hd : e = d
      · subst hd
        rw [if_pos rfl]
        constructor
        · rintro ⟨x, hx, a, _⟩; rw [hn] at hx; cases hx; exact absurd a hp
        · rintro ⟨x, hx, a, _⟩; cases hx; exact absurd a hp
      · rw [if_neg hd]
    · intro k d hd
      obtain ⟨x, hx, a, b⟩ := h.stack k d hd
      have hne : e ≠ d := by
        rintro rfl; rw [hn] at hx; cases hx; rw [hsv] at a; cases a
      exact ⟨x, by rw [hg', if_neg hne]; exact hx, a, b⟩
    · intro d x hx a b
      rw [hg'] at hx
      by_cases hne : e = d
      · subst hne; rw [if_pos rfl] at hx; cases hx
        have a : n.isInService = true := a
        rw [hsv] at a; cases a
      · rw [if_neg hne] at hx; exact h.stacked d x hx a b
    · intro d; rw [hg']
      refine (h.order d).trans ?_
      by_cases hd : e = d
      · subst hd; rw [if_pos rfl, hn]; simp
      · rw [if_neg hd]

theorem absorbPair_stand {X : EntryId → Prop} {s : State} (e : EntryId) (i : SlotId) (t : TargetId) (h : StandBut X s) : StandBut X (absorbPair e i t s) := by
  unfold absorbPair
  split
  · exact mergeInto_stand _ _ (h.targets (t := { s with deferred := _ }) rfl rfl rfl)
  · exact h

theorem moveWhole_stand {X : EntryId → Prop} {s : State} (e : EntryId) (n : Notice) (t : TargetId) (h : StandBut X s) (hn : s.pool[e] = some n) (hu : n.unclaimed = true) :
    StandBut X (moveWhole e n t s) := absorbPair_stand _ _ _ (moved_stand e n t h hn hu)

theorem ripened_kind (n : Notice) : n.ripened.isInService = n.isInService ∧ n.ripened.target = n.target ∧ n.ripened.slot = n.slot
    ∧ n.ripened.generation = n.generation ∧ n.ripened.isOrphan = n.isOrphan ∧ n.ripened.unclaimed = n.unclaimed := by
  unfold Notice.ripened
  rcases n with ⟨_, _, _, _, ph, _, _, _, _, _⟩
  cases ph <;> simp [Notice.isGathering, Notice.isInService, Notice.isOrphan, Notice.unclaimed]

/-- What ripening and merging leave of a notice. -/
def Notice.alike (m n : Notice) : Prop :=
  n.isInService = m.isInService ∧ n.target = m.target ∧ n.slot = m.slot ∧ n.generation = m.generation ∧ n.isOrphan = m.isOrphan ∧ n.unclaimed = m.unclaimed

theorem Notice.alike_refl (n : Notice) : n.alike n := ⟨rfl, rfl, rfl, rfl, rfl, rfl⟩

theorem Notice.alike_trans {a b c : Notice} (h : a.alike b) (k : b.alike c) : a.alike c :=
  ⟨k.1.trans h.1, k.2.1.trans h.2.1, k.2.2.1.trans h.2.2.1, k.2.2.2.1.trans h.2.2.2.1, k.2.2.2.2.1.trans h.2.2.2.2.1, k.2.2.2.2.2.trans h.2.2.2.2.2⟩

theorem ripen_alike (e d : EntryId) (s : State) (n : Notice) (h : (ripen e s).pool[d] = some n) : ∃ m, s.pool[d] = some m ∧ m.alike n := by
  rw [ripen_pool] at h
  split at h
  · cases hm : s.pool[d] with
    | none => rw [hm] at h; cases h
    | some m =>
      rw [hm] at h
      have h : m.ripened = n := by simpa using h
      subst h
      exact ⟨m, rfl, ripened_kind m⟩
  · exact ⟨n, h, n.alike_refl⟩

theorem ripenIfReached_alike (e d : EntryId) (s : State) (n : Notice) (h : (ripenIfReached e s).pool[d] = some n) : ∃ m, s.pool[d] = some m ∧ m.alike n := by
  unfold ripenIfReached at h
  split at h
  · exact ripen_alike e d s n h
  · exact ⟨n, h, n.alike_refl⟩

theorem setEntry_alike {e d : EntryId} {s : State} {x y n : Notice} (hx : s.pool[e] = some x) (hxy : x.alike y) (h : (setEntry e (some y) s).pool[d] = some n) :
    ∃ m, s.pool[d] = some m ∧ m.alike n := by
  rw [show (setEntry e (some y) s).pool[d] = if e = d then some y else s.pool[d] from pool_get_set _ _ _ _] at h
  by_cases hed : e = d
  · rw [if_pos hed] at h
    have hh := Option.some.inj h
    subst hh; subst hed
    exact ⟨x, hx, hxy⟩
  · rw [if_neg hed] at h
    exact ⟨n, h, n.alike_refl⟩

theorem mergeInto_alike (e d : EntryId) (p : Placement) (s : State) (n : Notice) (h : (mergeInto e p s).pool[d] = some n) :
    ∃ m, s.pool[d] = some m ∧ m.alike n := by
  unfold mergeInto at h
  split at h
  · rename_i x hx
    obtain ⟨m, hm, hl⟩ := ripenIfReached_alike e d _ n h
    rw [raiseIf_pool] at hm
    obtain ⟨k, hk, hkl⟩ := setEntry_alike hx (⟨rfl, rfl, rfl, rfl, rfl, rfl⟩ : x.alike (x.merged p)) hm
    exact ⟨k, hk, Notice.alike_trans hkl hl⟩
  · exact ⟨n, h, n.alike_refl⟩

theorem addLate_alike (e d : EntryId) (p : Placement) (s : State) (n : Notice) (h : (addLate e p s).pool[d] = some n) :
    ∃ m, s.pool[d] = some m ∧ m.alike n := by
  unfold addLate at h
  split at h
  · rename_i x hx
    rw [raiseIf_pool] at h
    have hk := mergedLate_phase x p
    have hu : (x.mergedLate p).unclaimed = x.unclaimed := by
      unfold Notice.mergedLate Notice.unclaimed
      rcases x with ⟨_, _, _, _, ph, _, _, _, _, _⟩
      cases ph with
      | gathering a b => rfl
      | pending => rfl
      | inService late o => cases late <;> rfl
    exact setEntry_alike hx ⟨hk.2.1, rfl, rfl, rfl, hk.2.2, hu⟩ h
  · exact ⟨n, h, n.alike_refl⟩

theorem mergeAway_stand {s : State} (e : EntryId) (n : Notice) (home : EntryId) (h : Standing s) (hn : s.pool[e] = some n) (hu : n.unclaimed = true) : Standing (mergeAway e n home s) := by
  unfold mergeAway
  split
  · rename_i r hr
    dsimp only
    have h1 : Standing (mergeInto home (awayPlacement n r) s) := mergeInto_stand _ _ h
    have hs1 : ∀ m, (mergeInto home (awayPlacement n r) s).pool[e] = some m → m.isInService = false := by
      intro m hm
      obtain ⟨k, hk, hl⟩ := mergeInto_alike _ _ _ _ _ hm
      rw [hn] at hk; cases hk
      rw [hl.1]
      unfold Notice.unclaimed at hu; unfold Notice.isInService
      cases hp : n.phase <;> simp_all
    generalize mergeInto home (awayPlacement n r) s = u at *
    have h2 : Standing (if n.isPending then ripen home u else u) := by
      split
      · exact ripen_stand _ h1
      · exact h1
    have hs2 : ∀ m, (if n.isPending then ripen home u else u).pool[e] = some m → m.isInService = false := by
      intro m hm
      split at hm
      · obtain ⟨k, hk, hl⟩ := ripen_alike _ _ _ _ hm
        rw [hl.1]; exact hs1 k hk
      · exact hs1 m hm
    generalize (if n.isPending then ripen home u else u) = v at *
    have h3 := removeNotice_stand e h2 (fun m hm hs => by rw [hs2 m hm] at hs; cases hs)
    have h4 := reportCeased_stand n.slot h3
    refine Standing.of (handOver_stand e h4 ?_) (fun x hx => hx.1.1)
    rw [(reportCeased_same _ _).2.1, removeNotice_pool, pool_get_set, if_pos rfl]
  · exact h

theorem rehomeOne_st {s : State} (t : TargetId) (e : EntryId) (h : Standing s) (hu : ∀ n, s.pool[e] = some n → n.unclaimed = true) : Standing (rehomeOne t s e) := by
  unfold rehomeOne
  split
  · rename_i n hn
    split
    · split
      · exact mergeAway_stand e n _ h hn (hu n hn)
      · exact moveWhole_stand e n _ h hn (hu n hn)
    · exact h
  · exact h

/-- New notices are unclaimed; the others are kept alike. -/
def PoolKept (s t : State) : Prop :=
  ∀ (d : EntryId) (n : Notice), t.pool[d] = some n → n.unclaimed = true ∨ ∃ m, s.pool[d] = some m ∧ m.alike n

theorem PoolKept.refl (s : State) : PoolKept s s := fun _ n h => Or.inr ⟨n, h, n.alike_refl⟩

theorem PoolKept.trans {s t u : State} (h : PoolKept s t) (k : PoolKept t u) : PoolKept s u := by
  intro d n hn
  rcases k d n hn with a | ⟨m, hm, hl⟩
  · exact Or.inl a
  · rcases h d m hm with a | ⟨m', hm', hl'⟩
    · exact Or.inl (hl.2.2.2.2.2 ▸ a)
    · exact Or.inr ⟨m', hm', Notice.alike_trans hl' hl⟩

theorem PoolKept.same {s t : State} (h : t.pool = s.pool) : PoolKept s t := fun d n hn => Or.inr ⟨n, by rw [h] at hn; exact hn, n.alike_refl⟩

theorem PoolKept.shrinks {s t : State} (h : Shrinks s t) : PoolKept s t := fun d n hn => Or.inr ⟨n, h.pool d n hn, n.alike_refl⟩

theorem PoolKept.alike {s t : State} (h : ∀ (d : EntryId) (n : Notice), t.pool[d] = some n → ∃ m, s.pool[d] = some m ∧ m.alike n) : PoolKept s t := fun d n hn => Or.inr (h d n hn)

theorem PoolKept.unclaimed {s t : State} (h : PoolKept s t) {d : EntryId} (hu : ∀ n, s.pool[d] = some n → n.unclaimed = true) : ∀ n, t.pool[d] = some n → n.unclaimed = true := by
  intro n hn
  rcases h d n hn with a | ⟨m, hm, hl⟩
  · exact a
  · rw [hl.2.2.2.2.2]; exact hu m hm

theorem startNotice_kept (e : EntryId) (n : Notice) (s : State) (hn : n.unclaimed = true) : PoolKept s (startNotice e n s) := by
  have h1 : PoolKept s { setEntry e (some n) s with order := s.order.erase e ++ [e] } := by
    intro d m hm
    rw [show ({ setEntry e (some n) s with order := s.order.erase e ++ [e] } : State).pool[d] = if e = d then some n else s.pool[d] from pool_get_set _ _ _ _] at hm
    by_cases hed : e = d
    · rw [if_pos hed] at hm
      have := Option.some.inj hm; subst this
      exact Or.inl hn
    · rw [if_neg hed] at hm
      exact Or.inr ⟨m, hm, m.alike_refl⟩
  unfold startNotice
  dsimp only
  split
  · exact h1.trans (PoolKept.alike fun d n h => ripen_alike _ _ _ _ h)
  · exact h1.trans (PoolKept.alike fun d n h => ripenIfReached_alike _ _ _ _ h)

theorem handOver_kept (e : EntryId) (s : State) : PoolKept s (handOver e s) := by
  unfold handOver
  split
  · exact PoolKept.refl s
  · exact (PoolKept.same rfl).trans (startNotice_kept _ _ _ rfl)

theorem mergeAway_kept (e : EntryId) (n : Notice) (home : EntryId) (s : State) : PoolKept s (mergeAway e n home s) := by
  unfold mergeAway
  split
  · rename_i r _
    dsimp only
    refine PoolKept.trans ?_ (handOver_kept _ _)
    refine PoolKept.trans ?_ (PoolKept.shrinks (reportCeased_shrinks _ _))
    refine PoolKept.trans ?_ (PoolKept.shrinks (removeNotice_shrinks _ _))
    refine PoolKept.trans (t := mergeInto home (awayPlacement n r) s) (PoolKept.alike fun d n h => mergeInto_alike _ _ _ _ _ h) ?_
    split
    · exact PoolKept.alike fun d n h => ripen_alike _ _ _ _ h
    · exact PoolKept.refl _
  · exact PoolKept.refl s

theorem moveWhole_unclaimed (e : EntryId) (n : Notice) (t : TargetId) (s : State) (hn : s.pool[e] = some n) {d : EntryId}
    (hu : ∀ n, s.pool[d] = some n → n.unclaimed = true) : ∀ m, (moveWhole e n t s).pool[d] = some m → m.unclaimed = true := by
  have h1 : ∀ u : State, u.pool = s.pool.set e (some { n with target := t }) → ∀ m, u.pool[d] = some m → m.unclaimed = true := by
    intro u hp m hm
    rw [show u.pool[d] = if e = d then some { n with target := t } else s.pool[d] by rw [hp]; exact pool_get_set _ _ _ _] at hm
    by_cases hed : e = d
    · rw [if_pos hed] at hm
      have := Option.some.inj hm; subst this
      subst hed
      exact hu n hn
    · rw [if_neg hed] at hm; exact hu m hm
  have h2 : ∀ u : State, (∀ m, u.pool[d] = some m → m.unclaimed = true) → ∀ m, (absorbPair e n.slot t u).pool[d] = some m → m.unclaimed = true := by
    intro u hu' m hm
    unfold absorbPair at hm
    split at hm
    · obtain ⟨k, hk, hl⟩ := mergeInto_alike _ _ _ _ _ hm
      rw [hl.2.2.2.2.2]; exact hu' k hk
    · exact hu' m hm
  unfold moveWhole
  dsimp only
  apply h2
  apply h1
  split <;> rfl

theorem rehomeOne_unclaimed (t : TargetId) (e d : EntryId) (s : State)
    (hu : ∀ n, s.pool[d] = some n → n.unclaimed = true) : ∀ m, (rehomeOne t s e).pool[d] = some m → m.unclaimed = true := by
  unfold rehomeOne
  split
  · rename_i n hn
    split
    · split
      · exact (mergeAway_kept _ _ _ _).unclaimed hu
      · exact moveWhole_unclaimed _ _ _ _ hn hu
    · exact hu
  · exact hu

theorem rehomeAll_st {s : State} (t : TargetId) (h : Standing s) : Standing (rehomeAll t s) := by
  unfold rehomeAll
  have hl : ∀ e ∈ inCreationOrder s (standsOn t), ∀ n, s.pool[e] = some n → n.unclaimed = true := by
    intro e he n hn
    unfold inCreationOrder entryIs at he
    have := (List.mem_filter.mp he).2
    rw [hn] at this
    simp [standsOn] at this
    exact this.1
  generalize inCreationOrder s (standsOn t) = l at hl
  induction l generalizing s with
  | nil => exact h
  | cons e es ih =>
    rw [List.foldl_cons]
    refine ih (rehomeOne_st t e h (hl e List.mem_cons_self)) ?_
    intro d hd
    exact rehomeOne_unclaimed t e d s (hl d (List.mem_cons_of_mem _ hd))

theorem ascending_nodup (s : State) (p : Notice → Bool) : (ascending s p).Nodup :=
  (indicesWhere_sorted _ _).imp (fun h => ne_of_lt h)

/-- Changes of one target that keep its lists and its stack. -/
theorem modTarget_stand {X : EntryId → Prop} {s : State} (t : TargetId) (f : Target → Target) (h : StandBut X s)
    (hl : (f s.targets[t]).lists = s.targets[t].lists) (hs : (f s.targets[t]).stack = s.targets[t].stack) : StandBut X (modTarget t f s) := by
  refine h.same rfl rfl ?_ ?_
  · intro k
    rw [show (modTarget t f s).targets = s.targets.set t (f s.targets[t]) from rfl, target_get_set]
    split
    · rename_i hk; subst hk; exact hl
    · rfl
  · intro k
    rw [show (modTarget t f s).targets = s.targets.set t (f s.targets[t]) from rfl, target_get_set]
    split
    · rename_i hk; subst hk; exact hs
    · rfl

/-- A stack replaced: the entries that leave it become exceptions. -/
theorem cutStack_stand {X : EntryId → Prop} {s : State} (t : TargetId) (f : Target → Target) (h : StandBut X s)
    (hl : (f s.targets[t]).lists = s.targets[t].lists) (hs : (f s.targets[t]).stack.Sublist s.targets[t].stack) :
    StandBut (fun e => X e ∨ e ∈ s.targets[t].stack ∧ e ∉ (f s.targets[t]).stack) (modTarget t f s) := by
  have hg : ∀ k : TargetId, (modTarget t f s).targets[k] = if t = k then f s.targets[t] else s.targets[k] := fun k => target_get_set _ _ _ _
  have hlists : ∀ k : TargetId, (modTarget t f s).targets[k].lists = s.targets[k].lists := by
    intro k; rw [hg]; split
    · rename_i hk; subst hk; exact hl
    · rfl
  have hstack : ∀ k : TargetId, (modTarget t f s).targets[k].stack = if t = k then (f s.targets[t]).stack else s.targets[k].stack := by
    intro k; rw [hg]; split <;> rfl
  refine ⟨?_, ?_, ?_, ?_, h.order, ?_, ?_, h.orderNodup⟩
  · intro k l e; rw [hlists]; exact h.list k l e
  · intro k e he
    rw [hstack] at he
    split at he
    · rename_i hk; subst hk; exact h.stack t e (hs.subset he)
    · exact h.stack k e he
  · intro e n hn hsv hx
    rw [hstack]
    have := h.stacked e n hn hsv (fun hX => hx (Or.inl hX))
    split
    · rename_i hk
      by_contra hc
      refine hx (Or.inr ⟨?_, hc⟩)
      simp only [hk]; exact this
    · exact this
  · intro e he k
    rw [hstack]
    split
    · rename_i hk
      rcases he with he | ⟨_, he⟩
      · intro hh; exact h.off e he t (hs.subset hh)
      · exact he
    · rename_i hk
      rcases he with he | ⟨he, _⟩
      · exact h.off e he k
      · intro hh
        obtain ⟨n, hn, _, ht⟩ := h.stack t e he
        obtain ⟨m, hm, _, ht'⟩ := h.stack k e hh
        rw [hn] at hm; cases hm
        exact hk (ht.symm.trans ht')
  · intro k l; rw [hlists]; exact h.listNodup k l
  · intro k; rw [hstack]; split
    · exact (h.stackNodup t).sublist hs
    · exact h.stackNodup k

theorem claim_stand {s : State} (t : TargetId) (e : EntryId) (l : Level) (n : Notice) (h : Standing s) (hc : candidate s.targets[t] = some (e, l)) (hn : s.pool[e] = some n) :
    Standing (takeCandidate t e n s) := by
  have hm : e ∈ s.targets[t].lists[l] := by
    have := cand_head hc
    exact List.mem_of_head? this
  obtain ⟨x, hx, hp, ht, hlv⟩ := (h.list t l e).mp hm
  rw [hn] at hx
  have := Option.some.inj hx; subst this
  have hsv := pending_not_service hp
  have hph : n.claimed.phase ≠ .pending := by unfold Notice.claimed; simp
  have hserv : n.claimed.isInService = true := rfl
  unfold takeCandidate
  have hg' : ∀ d : EntryId, (modTarget t (fun c => { c with stack := e :: c.stack }) (modList t n.level (·.erase e) (setEntry e (some n.claimed) s))).pool[d] = if e = d then some n.claimed else s.pool[d] := fun d => pool_get_set _ _ _ _
  have hT : ∀ k : TargetId, (modTarget t (fun c => { c with stack := e :: c.stack }) (modList t n.level (·.erase e) (setEntry e (some n.claimed) s))).targets[k] =
      if t = k then { (modList t n.level (·.erase e) (setEntry e (some n.claimed) s)).targets[k] with stack := e :: (modList t n.level (·.erase e) (setEntry e (some n.claimed) s)).targets[k].stack }
      else (modList t n.level (·.erase e) (setEntry e (some n.claimed) s)).targets[k] := by
    intro k
    rw [show (modTarget t (fun c => { c with stack := e :: c.stack }) (modList t n.level (·.erase e) (setEntry e (some n.claimed) s))).targets = _ from rfl, modTarget_targets, target_get_set]
    split
    · rename_i hk; subst hk; rfl
    · rfl
  have hl : ∀ (k : TargetId) (m : Level), (modTarget t (fun c => { c with stack := e :: c.stack }) (modList t n.level (·.erase e) (setEntry e (some n.claimed) s))).targets[k].lists[m] =
      if t = k ∧ n.level = m then (s.targets[k].lists[m]).erase e else s.targets[k].lists[m] := by
    intro k m
    have : (modTarget t (fun c => { c with stack := e :: c.stack }) (modList t n.level (·.erase e) (setEntry e (some n.claimed) s))).targets[k].lists = (modList t n.level (·.erase e) (setEntry e (some n.claimed) s)).targets[k].lists := by
      rw [hT]; split <;> rfl
    rw [this, modList_lists]; rfl
  have hs : ∀ (k : TargetId), (modTarget t (fun c => { c with stack := e :: c.stack }) (modList t n.level (·.erase e) (setEntry e (some n.claimed) s))).targets[k].stack =
      if t = k then e :: s.targets[k].stack else s.targets[k].stack := by
    intro k
    rw [hT]
    split
    · rw [modList_stack]; rfl
    · rw [modList_stack]; rfl
  have ho : (modTarget t (fun c => { c with stack := e :: c.stack }) (modList t n.level (·.erase e) (setEntry e (some n.claimed) s))).order = s.order := rfl
  generalize modTarget t (fun c => { c with stack := e :: c.stack }) (modList t n.level (·.erase e) (setEntry e (some n.claimed) s)) = u at *
  have hnot : ∀ k : TargetId, e ∉ s.targets[k].stack := by
    intro k hk
    obtain ⟨x, hx, a, _⟩ := h.stack k e hk
    rw [hn] at hx; cases hx; rw [hsv] at a; cases a
  refine ⟨?_, ?_, ?_, fun _ hf => hf.elim, ?_, ?_, ?_, by rw [ho]; exact h.orderNodup⟩
  · intro k m d
    rw [hl, hg']
    by_cases hd : e = d
    · subst hd
      rw [if_pos rfl]
      constructor
      · intro hmm
        exfalso
        split at hmm
        · exact ((List.Nodup.mem_erase_iff (h.listNodup k m)).mp hmm).1 rfl
        · rename_i hcc
          obtain ⟨x, hx, _, a, b⟩ := (h.list k m e).mp hmm
          rw [hn] at hx; cases hx; exact hcc ⟨ht.symm.trans a, b⟩
      · rintro ⟨x, hx, a, _⟩; cases hx; exact absurd a hph
    · rw [if_neg hd, ← h.list k m d]
      split
      · rw [List.Nodup.mem_erase_iff (h.listNodup k m)]
        exact ⟨fun a => a.2, fun a => ⟨fun hh => hd hh.symm, a⟩⟩
      · exact Iff.rfl
  · intro k d hd
    rw [hs] at hd
    rw [hg']
    have hold : d ∈ s.targets[k].stack → ∃ m, (if e = d then some n.claimed else s.pool[d]) = some m ∧ m.isInService = true ∧ m.target = k := by
      intro hk
      have hne : e ≠ d := by rintro rfl; exact hnot k hk
      rw [if_neg hne]; exact h.stack k d hk
    split at hd
    · rename_i hk
      rcases List.mem_cons.mp hd with rfl | hd
      · exact ⟨n.claimed, if_pos rfl, hserv, ht.trans hk⟩
      · exact hold hd
    · exact hold hd
  · intro d m hmm a _
    rw [hg'] at hmm
    rw [hs]
    by_cases hd : e = d
    · rw [if_pos hd] at hmm
      have := Option.some.inj hmm; subst this
      rw [if_pos (show t = n.claimed.target from ht.symm), hd]
      exact List.mem_cons_self
    · rw [if_neg hd] at hmm
      have := h.stacked d m hmm a id
      split
      · exact List.mem_cons_of_mem _ this
      · exact this
  · intro d; rw [hg', ho]
    refine (h.order d).trans ?_
    by_cases hd : e = d
    · subst hd; rw [if_pos rfl, hn]; simp
    · rw [if_neg hd]
  · intro k m; rw [hl]; split
    · exact (h.listNodup k m).erase e
    · exact h.listNodup k m
  · intro k; rw [hs]; split
    · exact List.nodup_cons.mpr ⟨hnot k, h.stackNodup k⟩
    · exact h.stackNodup k

theorem claimBody_st {s : State} (r : RequesterId) (t : TargetId) (f : ClaimForm) (h : Standing s) : Standing (claimBody r t f s) := by
  unfold claimBody
  split
  · exact h.targets rfl rfl rfl
  · refine settle_stand ?_
    unfold servedClaim
    dsimp only
    have h1 : Standing (stopDeadline t (returnToOnline t s)) := by
      refine modTarget_stand _ _ (modTarget_stand _ _ h ?_ ?_) rfl rfl
      · split <;> rfl
      · split <;> rfl
    generalize stopDeadline t (returnToOnline t s) = u at *
    have hans : ∀ (low p : Word) (v : State), Standing v → Standing (claimAnswer r f low p v) := by
      intro low p v hv; cases f <;> exact hv.targets rfl rfl rfl
    have hlat : ∀ (p : Word) (v : State), Standing v → Standing (latchPayload t f p v) := by
      intro p v hv; cases f
      · exact modTarget_stand t (fun c => { c with lastPayload := p }) hv rfl rfl
      · exact hv
    split
    · rename_i x hx
      refine hans _ _ _ (hlat _ _ ?_)
      unfold claimable at hx
      split at hx
      · split at hx
        · rename_i y hy
          cases hp : u.pool[y.1] with
          | none => rw [hp] at hx; cases hx
          | some n =>
            rw [hp] at hx
            have hx : (y.1, n) = x := by simpa using hx
            subst hx
            exact claim_stand t y.1 y.2 n h1 hy hp
        · cases hx
      · cases hx
    · exact hans _ _ _ (hlat _ _ h1)

theorem ceaseAndHandOver_stand {X : EntryId → Prop} {s : State} (e : EntryId) (h : StandBut X s)
    (he : ∀ m, s.pool[e] = some m → m.isInService = true → X e) : StandBut (fun x => X x ∧ x ≠ e) (ceaseAndHandOver e s) := by
  unfold ceaseAndHandOver
  exact (handOverInTurn_stand e (ceaseNotice_stand e h he) (ceaseNotice_gone e s)).weaken fun x => by constructor <;> (intro hh; simp_all)

theorem mergeInto_pool_none {e d : EntryId} {p : Placement} {s : State} (h : s.pool[d] = none) : (mergeInto e p s).pool[d] = none := by
  cases hh : (mergeInto e p s).pool[d] with
  | none => rfl
  | some n =>
    obtain ⟨m, hm, _⟩ := mergeInto_alike _ _ _ _ _ hh
    rw [h] at hm; cases hm

theorem completeNotice_stand {s : State} (e : EntryId) (n : Notice) (h : StandBut (fun x => x = e) s)
    (hin : ∀ m, s.pool[e] = some m → m.isInService = true) :
    Standing (completeNotice e n s) := by
  have hc : Standing (ceaseAndHandOver e s) := Standing.of (ceaseAndHandOver_stand e h (fun _ _ _ => rfl)) (fun x hx => hx.2 hx.1)
  unfold completeNotice
  split
  · exact hc
  · unfold completeLate
    dsimp only
    split
    · exact hc
    · split
      · unfold reraise
        split
        · rename_i home _
          unfold reraiseInto
          have h1 : StandBut (fun x => x = e) (mergeInto home (latePlacement n) s) := mergeInto_stand _ _ h
          have h2 := removeNotice_stand e h1 (fun _ _ _ => rfl)
          have h3 := reportCeased_stand n.slot h2
          refine Standing.of (handOverInTurn_stand e h3 ?_) (fun x hx => hx.1.2 hx.1.1)
          rw [(reportCeased_same _ _).2.1, removeNotice_pool, pool_get_set, if_pos rfl]
        · unfold reraiseInPlace
          refine absorbPair_stand _ _ _ ?_
          exact Standing.of (startNotice_stand e _ h rfl (fun m hm => ⟨hin m hm, rfl⟩)) (fun x hx => hx.2 hx.1)
      · split
        · unfold returnLate
          dsimp only
          have h1 : StandBut (fun x => x = e) (raiseIf (65535 < s.slots[n.slot].held.count + n.late.count) .countOverflow (setHeld n.slot (s.slots[n.slot].held.plusLate n) s)) := raiseIf_stand _ _ (setHeld_st _ _ h)
          have h2 := removeNotice_stand e h1 (fun _ _ _ => rfl)
          refine Standing.of (handOverInTurn_stand e h2 ?_) (fun x hx => hx.1.2 hx.1.1)
          rw [removeNotice_pool, pool_get_set, if_pos rfl]
        · exact hc

theorem port_st {X : EntryId → Prop} {s : State} (f : Port → Port) (h : StandBut X s) : StandBut X (modPort f s) := h.targets rfl rfl rfl

theorem end_st {X : EntryId → Prop} {s : State} (c : ResultCode) (w : List Word) (h : StandBut X s) : StandBut X (endCommand c w s) := h.targets rfl rfl rfl

theorem stay_st {X : EntryId → Prop} {s : State} (f : Flight) (h : StandBut X s) : StandBut X (stayInFlight f s) := h.targets rfl rfl rfl

theorem pins_st {X : EntryId → Prop} {s : State} (f : PinId → Pin → Pin) (h : StandBut X s) : StandBut X (modPins f s) := h.targets (by simp) (by simp) (by simp)

theorem pin_st {X : EntryId → Prop} {s : State} (p : PinId) (f : Pin → Pin) (h : StandBut X s) : StandBut X (modPin p f s) := h.targets rfl rfl rfl

theorem goOffline_st {X : EntryId → Prop} {s : State} (t : TargetId) (h : StandBut X s) : StandBut X (goOffline t s) := modTarget_stand t _ h rfl rfl

theorem endQuiesce_st {s : State} (t : TargetId) (h : Standing s) : Standing (endQuiesceIfEmpty t s) := by
  unfold endQuiesceIfEmpty
  split
  · unfold endOfflineWait
    split
    · split
      · exact end_st _ _ (goOffline_st t h)
      · exact goOffline_st t h
    · exact goOffline_st t h
  · exact h

theorem completeBody_st {s : State} (r : RequesterId) (t : TargetId) (w : Word) (h : Standing s) : Standing (completeBody r t w s) := by
  unfold completeBody
  split
  · exact raise_stand _ h
  · split
    · exact raise_stand _ h
    · rename_i e rest hs
      split
      · rename_i n hn
        split
        · refine settle_stand (endQuiesce_st t ?_)
          refine completeNotice_stand e n ?_ ?_
          · refine (cutStack_stand t (fun c => { c with stack := c.stack.tail }) h rfl (List.tail_sublist _)).weaken fun x => ?_
            have hnd := h.stackNodup t
            simp only [hs, List.tail_cons, List.mem_cons, false_or] at *
            constructor
            · rintro ⟨a | a, b⟩
              · exact a
              · exact absurd a b
            · rintro rfl
              exact ⟨Or.inl rfl, (List.nodup_cons.mp hnd).1⟩
          · intro m hm
            obtain ⟨n', hn', a, _⟩ := h.stack t e (by rw [hs]; exact List.mem_cons_self)
            rw [show (popStack t s).pool = s.pool from rfl, hn'] at hm
            cases hm; exact a
        · exact raise_stand _ h
      · exact raise_stand _ h

theorem rehomeAndJudge_st {s : State} (t : TargetId) (h : Standing s) : Standing (rehomeAndJudge t s) :=
  judgeInTurn_stand _ (rehomeAll_st t h)

theorem ceaseUnclaimed_st {s : State} (p : Notice → Bool) (hp : ∀ n, p n = true → n.unclaimed = true) (h : Standing s) : Standing (ceaseAll (ascending s p) s) := by
  refine Standing.of (ceaseAll_stand _ h (ascending_nodup _ _) ?_) (fun x hx => hx.1)
  intro e he m hm hsv
  have := (mem_ascending s p e).mp he
  rw [hm] at this
  obtain ⟨n, hn, hpn⟩ := this
  cases hn
  have := hp _ hpn
  unfold Notice.unclaimed at this; unfold Notice.isInService at hsv
  cases hph : m.phase <;> simp_all

theorem startQuiesce_st {s : State} (t : TargetId) (b : Bool) (h : Standing s) : Standing (startQuiesce t b s) := by
  unfold startQuiesce
  dsimp only
  have h1 : Standing (ceasePairs (fun d => d.target == t) (modTarget t (fun c => { c with state := .quiescing }) s)) :=
    ceasePairs_stand _ (modTarget_stand t _ h rfl rfl)
  refine ceaseUnclaimed_st _ (fun n hn => ?_) ?_
  · simp [standsOn] at hn; exact hn.1
  · split
    · exact rehomeAndJudge_st t h1
    · exact h1

theorem forceStack_st {s : State} (t : TargetId) (h : Standing s) : Standing (forceStack t s) := by
  unfold forceStack
  dsimp only
  have h1 := cutStack_stand t (fun c => { c with stack := [] }) h rfl (List.nil_sublist _)
  refine Standing.of (ceaseAll_stand _ h1 ((ascending_nodup _ _).filter _) ?_) ?_
  · intro e he m hm _
    refine Or.inr ⟨?_, by simp⟩
    have := (List.mem_filter.mp he).2
    exact List.contains_iff_mem.mp this
  · rintro x ⟨h1 | ⟨h1, _⟩, h2⟩
    · exact h1
    · refine h2 (List.mem_filter.mpr ⟨?_, by simpa using h1⟩)
      rw [mem_ascending]
      obtain ⟨n, hn, _⟩ := h.stack t x h1
      exact ⟨n, hn, rfl⟩

theorem targetOffline_st {s : State} (h : Standing s) : Standing (targetOfflineBody s) := by
  unfold targetOfflineBody
  split
  · exact end_st _ _ h
  · refine settle_stand ?_
    have h1 := startQuiesce_st (targetId s) (targetCode s == 0) h
    unfold quiesceEnd
    split
    · exact end_st _ _ (goOffline_st _ (forceStack_st _ h1))
    · split
      · exact end_st _ _ (goOffline_st _ h1)
      · split
        · exact end_st _ _ h1
        · exact port_st _ (port_st _ h1)

theorem drain_st {s : State} (i : SlotId) (h : Standing s) : Standing (drainItems i s) := by
  unfold drainItems
  exact foldl_stand _ (fun s e hs => settle_stand (ripen_stand e hs)) _ h

theorem discardHeld_st {X : EntryId → Prop} {s : State} (i : SlotId) (h : StandBut X s) : StandBut X (discardHeld i s) := rearmPins_stand _ (setHeld_st _ _ h)

theorem discardItems_st {s : State} (i : SlotId) (h : Standing s) : Standing (discardItems i s) := by
  unfold discardItems
  have h1 := ceasePairs_stand (fun d => d.slot == i) h
  dsimp only
  have e : (ascending s fun n => n.unclaimed && ownedBy s i n).Nodup := ascending_nodup _ _
  refine Standing.of (ceaseAll_stand _ h1 (ascending_nodup _ _) ?_) (fun x hx => hx.1)
  intro x hx m hm hsv
  obtain ⟨n, hn, hp⟩ := (mem_ascending _ _ x).mp hx
  rw [(ceasePairs_shape (fun d => d.slot == i) s).2.1, hn] at hm
  cases hm
  simp only [Bool.and_eq_true] at hp
  have hp := hp.1
  unfold Notice.unclaimed at hp; unfold Notice.isInService at hsv
  cases hph : m.phase <;> simp_all

theorem treat_st {s : State} (i : SlotId) (m : RetireMode) (h : Standing s) : Standing (treatItems i m s) := by
  cases m
  · exact discardItems_st i h
  · exact drain_st i h

theorem retireRecord_st {s : State} (i : SlotId) (m : RetireMode) (h : Standing s) : Standing (retireRecord i m s) := by
  unfold retireRecord
  exact settle_stand (reportCeased_stand _ (treat_st _ _ (discardHeld_st _ (setSlots_stand _ _ h))))

theorem retireBody_st {s : State} (h : Standing s) : Standing (retireBody s) := by
  unfold retireBody
  split
  · exact end_st _ _ h
  · have h1 := retireRecord_st (slotId s) (retireModeOf (retireModeCode s)) h
    dsimp only
    unfold retireEnd
    split
    · exact end_st _ _ h1
    · split
      · exact end_st _ _ h1
      · exact port_st _ (port_st _ h1)

theorem orphaned_phase (n : Notice) : (n.orphaned.phase = .pending ↔ n.phase = .pending) ∧ n.orphaned.isInService = n.isInService ∧ n.orphaned.target = n.target ∧ n.orphaned.level = n.level := by
  unfold Notice.orphaned Notice.isInService
  rcases n with ⟨_, _, _, _, ph, _, _, _, _, _⟩
  cases ph <;> simp

theorem orphanItems_stand {X : EntryId → Prop} {s : State} (i : SlotId) (h : StandBut X s) : StandBut X (orphanItems i s) := by
  unfold orphanItems
  refine foldl_stand _ (fun s e hs => ?_) _ h
  cases hn : s.pool[e] with
  | none =>
    have : setEntry e ((none : Option Notice).map Notice.orphaned) s = s := by
      unfold setEntry
      have : s.pool.set e none = s.pool := by
        rw [← hn]; simp
      simp [this]
    rw [this]; exact hs
  | some n =>
    obtain ⟨a, b, c, d⟩ := orphaned_phase n
    exact hs.replace e n n.orphaned hn a b c d

theorem dropPairs_stand {X : EntryId → Prop} {s : State} (i : SlotId) (h : StandBut X s) : StandBut X (dropPairs i s) := by
  unfold dropPairs
  exact foldl_stand _ (fun s d hs => rearmPins_stand _ hs) _ (h.targets (t := { s with deferred := s.deferred.filter fun d => !(d.slot == i) }) rfl rfl rfl)

theorem unclaimed_not_service {n : Notice} (h : n.unclaimed = true) : n.isInService = false := by
  unfold Notice.unclaimed at h; unfold Notice.isInService
  cases hph : n.phase <;> simp_all

theorem forceRetire_st {s : State} (i : SlotId) (h : Standing s) : Standing (forceRetireRecord i s) := by
  unfold forceRetireRecord
  dsimp only
  have h1 : Standing (dropPairs i (discardHeld i s)) := dropPairs_stand i (discardHeld_st i h)
  have hp : (dropPairs i (discardHeld i s)).pool = s.pool := by
    rw [(dropPairs_shape i _).2.1]; unfold discardHeld setHeld; simp [rearmPins]
  have hes : ∀ e ∈ (ascending s fun n => n.unclaimed && ownedBy s i n), ∀ m, (dropPairs i (discardHeld i s)).pool[e] = some m → m.isInService = true → False := by
    intro e he m hm hsv
    obtain ⟨n, hn, hx⟩ := (mem_ascending _ _ e).mp he
    rw [hp, hn] at hm
    cases hm
    simp only [Bool.and_eq_true] at hx
    rw [unclaimed_not_service hx.1] at hsv; cases hsv
  have h2 := foldl_remove_stand (fun s e => dropNotice_shrinks e s) (fun e hs => dropNotice_stand e hs) (ascending s fun n => n.unclaimed && ownedBy s i n) h1 (ascending_nodup _ _) hes
  have hg := foldl_gone (fun s e => dropNotice e s) (fun s e => dropNotice_shrinks e s) (fun s e => dropNotice_gone e s) (ascending s fun n => n.unclaimed && ownedBy s i n) (dropPairs i (discardHeld i s))
  have h3 := setSlots_stand i (fun r => Slot.freeOf r.generation) (orphanItems_stand i (settle_stand h2))
  refine Standing.of (handOverAll_stand _ h3 (ascending_nodup _ _) ?_) (fun x hx => hx.1.1)
  intro e he
  show (orphanItems i _).pool[e] = none
  unfold orphanItems
  rw [orphan_pool, (settle_pool _).1, hg e he]
  simp

theorem forceRetireBody_st {s : State} (h : Standing s) : Standing (forceRetireBody s) := by
  unfold forceRetireBody
  split
  · exact end_st _ _ h
  · exact settle_stand (end_st _ _ (forceRetire_st _ h))

theorem releaseRecord_st {s : State} (i : SlotId) (h : Standing s) : Standing (releaseRecord i s) := by
  unfold releaseRecord
  dsimp only
  split
  · exact settle_stand (placeHeld_st _ (setSlots_stand _ _ h))
  · exact setSlots_stand _ _ h

theorem rearmMissDisarmed_st {s : State} (h : Standing s) : Standing (rearmMissDisarmed s) := pins_st _ h

theorem advance_st {s : State} (f : Flight) (h : Standing s) : Standing (advanceWalk f s) := port_st _ h

theorem endWalk_st {s : State} (w : List Word) (h : Standing s) : Standing (endWalkIfPast w s) := by
  unfold endWalkIfPast
  split
  · exact end_st _ _ h
  · exact h

theorem onlineWalk_st {s : State} (h : Standing s) : Standing (onlineWalkBody s) := by
  unfold onlineWalkBody
  split
  · dsimp only
    split
    · exact endWalk_st _ (advance_st _ (settle_stand (placeHeld_st _ h)))
    · exact endWalk_st _ (advance_st _ h)
  · exact h

theorem groupWalk_st {s : State} (h : Standing s) : Standing (groupWalkBody s) := by
  unfold groupWalkBody
  split
  · rename_i kind _ _ _ _ _
    dsimp only
    split
    · exact endWalk_st _ (advance_st _ h)
    · split
      · exact endWalk_st _ (advance_st _ h)
      · refine endWalk_st _ (advance_st _ ?_)
        unfold walkChange
        cases kind with
        | hold => exact setSlots_stand _ _ h
        | release => exact releaseRecord_st _ h
        | retire m => exact retireRecord_st _ m h
  · exact h

theorem commandBody_st {s : State} (code : Nat) (h : Standing s) : Standing (commandBody code s) := by
  unfold commandBody
  split
  · unfold installBody; split
    · exact end_st _ _ h
    · exact end_st _ _ (rearmMissDisarmed_st (setSlots_stand _ _ h))
  · unfold modifyBody; split
    · exact end_st _ _ h
    · exact end_st _ _ (setSlots_stand _ _ h)
  · unfold holdBody; split
    · exact end_st _ _ h
    · exact end_st _ _ (setSlots_stand _ _ h)
  · unfold releaseBody; split
    · exact end_st _ _ h
    · refine end_st _ _ (rearmMissDisarmed_st ?_)
      split
      · exact releaseRecord_st _ h
      · exact h
  · unfold queryBody; split
    · exact end_st _ _ h
    · split
      · exact end_st _ _ h
      · exact end_st _ _ h
  · unfold probeBody; split
    · exact end_st _ _ h
    · exact end_st _ _ h
  · exact retireBody_st h
  · exact forceRetireBody_st h
  · unfold groupHoldBody; split
    · exact end_st _ _ h
    · exact stay_st _ h
  · unfold groupReleaseBody; split
    · exact end_st _ _ h
    · exact stay_st _ h
  · unfold groupRetireBody; split
    · exact end_st _ _ h
    · exact stay_st _ h
  · unfold targetSetBody; split
    · exact end_st _ _ h
    · exact end_st _ _ (modTarget_stand _ _ h rfl rfl)
  · unfold targetOnlineBody; split
    · exact end_st _ _ h
    · dsimp only
      split
      · exact end_st _ _ h
      · exact settle_stand (stay_st _ (modTarget_stand _ _ h rfl rfl))
  · exact targetOffline_st h
  · unfold pinSetBody; split
    · exact end_st _ _ h
    · exact end_st _ _ (pin_st _ _ h)
  · unfold tableClearBody; split
    · refine end_st _ _ ?_
      unfold clearTable
      exact foldl_stand _ (fun _ ps => rearmPins_stand ps) _ (h.targets (t := { s with slots := s.slots.map fun r => Slot.freeOf r.generation }) rfl rfl rfl)
    · exact end_st _ _ h
  · exact end_st _ _ h

theorem answer_st {s : State} (r : RequesterId) (n : Nat) (d : BitVec 64) (h : Standing s) : Standing (answer r n d s) := h.targets rfl rfl rfl

theorem serve_st {s : State} (op : LinkOp) (h : Standing s) : Standing (serve op s) := by
  cases op <;> unfold serve <;> dsimp only
  · unfold eventBody; split
    · exact raise_stand _ h
    · exact h.targets rfl rfl rfl
  · exact answer_st _ _ _ h
  · exact claimBody_st _ _ _ h
  · exact completeBody_st _ _ _ h
  · unfold enableBody; split
    · exact raise_stand _ h
    · exact settle_stand (modTarget_stand _ _ h rfl rfl)
  · unfold maskBody; split
    · exact raise_stand _ h
    · exact settle_stand (modTarget_stand _ _ h rfl rfl)
  · unfold pageReadBody; split
    · exact answer_st _ _ _ (raise_stand _ h)
    · exact answer_st _ _ _ h
  · exact answer_st _ _ _ h
  · unfold commandWrite takeCommand; split
    · exact port_st _ h
    · exact commandBody_st _ (port_st _ h)
  · unfold abortBody; split
    · exact end_st _ _ h
    · exact h
  · exact h.targets rfl rfl rfl
  · exact port_st _ h
  · exact answer_st _ _ _ (raise_stand _ h)
  · exact raise_stand _ h

theorem setWaiting_st {s : State} (ops : List LinkOp) (h : Standing s) : Standing (setWaiting ops s) := h.targets rfl rfl rfl

theorem linkDeliver_st {s : State} (op : LinkOp) (h : Standing s) : Standing (linkDeliver op s) := by
  unfold linkDeliver
  split
  · exact h
  · split
    · exact setWaiting_st _ h
    · exact serve_st _ h

theorem takeWaiting_st (ops : List LinkOp) {s : State} (h : Standing s) : Standing (takeWaiting ops s) := by
  induction ops generalizing s with
  | nil => exact setWaiting_st _ h
  | cons op ops ih =>
    unfold takeWaiting
    split
    · exact setWaiting_st _ h
    · exact ih (serve_st _ h)

theorem drainWaiting_st {s : State} (h : Standing s) : Standing (drainWaiting s) := by
  unfold drainWaiting
  split
  · exact takeWaiting_st _ h
  · exact h

theorem regainOne_st {s : State} (t : TargetId) (h : Standing s) : Standing (regainOne s t) := by
  rw [regainOne_eq]
  refine h.same rfl rfl (fun k => ?_) (fun k => ?_) <;>
    · dsimp only
      rw [target_get_set]
      split
      · rename_i hk; subst hk; rfl
      · rfl

theorem regainIf_st {b s : State} (h : Standing s) : Standing (regainIf b s) := by
  obtain ⟨u, hu, e, ht⟩ := regainIf_parts b s
  rw [hu]
  exact h.same (by rw [e]) (by rw [e]) (fun k => by rw [ht k]) (fun k => by rw [ht k])

theorem holdOff_st {s : State} (e : EntryId) (h : Standing s) : Standing (holdOffBody e s) := by
  unfold holdOffBody
  split
  · exact settle_stand (ripen_stand _ h)
  · exact h

theorem deadline_st {s : State} (t : TargetId) (h : Standing s) : Standing (deadlineBody t s) := by
  unfold deadlineBody
  split
  · refine settle_stand ?_
    unfold stall
    exact rehomeAndJudge_st t (raise_stand _ (modTarget_stand _ _ h rfl rfl))
  · exact h

theorem wait_st {s : State} (h : Standing s) : Standing (waitBody s) := by
  unfold waitBody
  split
  · exact end_st _ _ h
  · exact h

theorem filtered_st {s : State} (p : PinId) (h : Standing s) : Standing (filteredLevelBody p s) := by
  unfold filteredLevelBody
  split
  · exact pin_st _ _ h
  · exact h

theorem stand_empty {s : State} (hp : s.pool = Vector.replicate 512 none) (ho : s.order = []) (hl : ∀ (t : TargetId) (l : Level), s.targets[t].lists[l] = []) (hs : ∀ t : TargetId, s.targets[t].stack = []) : Standing s := by
  have hg : ∀ e : EntryId, s.pool[e] = none := by intro e; rw [hp]; simp
  refine ⟨?_, ?_, ?_, fun _ hf => hf.elim, ?_, ?_, ?_, ?_⟩
  · intro t l e; rw [hl, hg]; simp
  · intro t e; rw [hs]; simp
  · intro e n hn; rw [hg] at hn; cases hn
  · intro e; rw [ho, hg]; simp
  · intro t l; rw [hl]; simp
  · intro t; rw [hs]; simp
  · rw [ho]; simp

theorem powerOnTarget_empty (l : Level) : (Target.powerOn.lists)[l] = [] := by simp [Target.powerOn]

theorem functionReset_st {s : State} (l : LinkState) (h : Standing s) : Standing (functionResetBody l s) := by
  unfold functionResetBody
  split
  · exact h
  · refine stand_empty rfl rfl ?_ ?_
    · intro t l; simp [functionResetTarget, Target.powerOn]
    · intro t; simp [functionResetTarget, Target.powerOn]

theorem reset_st : Standing State.reset := by
  refine stand_empty rfl rfl ?_ ?_
  · intro t l; simp [State.reset, Target.powerOn]
  · intro t; simp [State.reset, Target.powerOn]

theorem powerOn_st (s : State) : Standing (powerOnBody s) := reset_st.targets rfl rfl rfl

theorem intakeBody_st {s : State} (h : Standing s) : Standing (intakeBody s) := by
  unfold intakeBody
  split
  · exact arrive_st _ _ (h.targets (t := { s with intake := _ }) rfl rfl rfl)
  · exact h

end Sys2Proof.Machine
end

