-- ==== Sys2Proof/Laws/Belongs.lean ====
section
/-! SUPPORT. Every notice and pair lies with a target that takes work and a record that stands: the shared operations and the bodies of the commands, with the targets excepted that a quiesce is clearing. -/

open Sys2Proof

namespace Sys2Proof.Machine

structure BelongBut (T : TargetId → Prop) (s : State) : Prop where
  unclaimed : ∀ (e : EntryId) (n : Notice), s.pool[e] = some n → n.unclaimed = true → T n.target ∨ placeable s n.target = true
  pairs : ∀ d ∈ s.deferred, (T d.target ∨ placeable s d.target = true) ∧ s.slots[d.slot].state ≠ .free
  owned : ∀ (e : EntryId) (n : Notice), s.pool[e] = some n → n.isOrphan = false →
        s.slots[n.slot].state ≠ .free ∧ n.generation = s.slots[n.slot].generation
  off : ∀ t : TargetId, s.targets[t].state = .offline → s.targets[t].stack = []

abbrev Belonging (s : State) : Prop := BelongBut (fun _ => False) s

theorem be_iff (s : State) : Belonging s ↔ WorkBelongs s := by
  constructor
  · intro h
    exact ⟨fun e n a b => (h.unclaimed e n a b).resolve_left id, fun d hd => ⟨(h.pairs d hd).1.resolve_left id, (h.pairs d hd).2⟩, h.owned, h.off⟩
  · rintro ⟨a, b, c, d⟩
    exact ⟨fun e n x y => Or.inr (a e n x y), fun d hd => ⟨Or.inr (b d hd).1, (b d hd).2⟩, c, d⟩

/-- What keeps the belonging: target states and slots' holders stay, notices and pairs only come from there. -/
structure Quiet (s t : State) : Prop where
  st : ∀ k : TargetId, t.targets[k].state = s.targets[k].state
  sk : ∀ k : TargetId, s.targets[k].stack = [] → t.targets[k].stack = []
  sl : ∀ i : SlotId, s.slots[i].state ≠ .free → t.slots[i].state ≠ .free ∧ t.slots[i].generation = s.slots[i].generation
  pl : ∀ (d : EntryId) (n : Notice), t.pool[d] = some n → ∃ (e : EntryId) (m : Notice), s.pool[e] = some m ∧ m.alike n
  df : ∀ d ∈ t.deferred, ∃ c ∈ s.deferred, c.slot = d.slot ∧ c.target = d.target

theorem Quiet.refl (s : State) : Quiet s s := ⟨fun _ => rfl, fun _ h => h, fun _ h => ⟨h, rfl⟩, fun d n h => ⟨d, n, h, n.alike_refl⟩, fun d h => ⟨d, h, rfl, rfl⟩⟩

theorem Quiet.trans {s t u : State} (h : Quiet s t) (k : Quiet t u) : Quiet s u := by
  refine ⟨fun x => (k.st x).trans (h.st x), fun x y => k.sk x (h.sk x y), ?_, ?_, ?_⟩
  · intro i hi
    obtain ⟨a, b⟩ := h.sl i hi
    obtain ⟨c, d⟩ := k.sl i a
    exact ⟨c, d.trans b⟩
  · intro d n hn
    obtain ⟨e, m, hm, hl⟩ := k.pl d n hn
    obtain ⟨e', m', hm', hl'⟩ := h.pl e m hm
    exact ⟨e', m', hm', Notice.alike_trans hl' hl⟩
  · intro d hd
    obtain ⟨c, hc, a, b⟩ := k.df d hd
    obtain ⟨c', hc', a', b'⟩ := h.df c hc
    exact ⟨c', hc', a'.trans a, b'.trans b⟩

theorem placeable_congr {s t : State} (h : ∀ k : TargetId, t.targets[k].state = s.targets[k].state) (k : TargetId) : placeable t k = placeable s k := by
  unfold placeable; rw [h k]

theorem BelongBut.quiet {T : TargetId → Prop} {s t : State} (h : BelongBut T s) (q : Quiet s t) : BelongBut T t := by
  refine ⟨?_, ?_, ?_, ?_⟩
  · intro e n hn hu
    obtain ⟨d, m, hm, hl⟩ := q.pl e n hn
    rw [placeable_congr q.st, hl.2.1]
    exact h.unclaimed d m hm (by rw [← hl.2.2.2.2.2]; exact hu)
  · intro d hd
    obtain ⟨c, hc, a, b⟩ := q.df d hd
    rw [placeable_congr q.st]
    simp only [← a, ← b]
    exact ⟨(h.pairs c hc).1, (q.sl _ (h.pairs c hc).2).1⟩
  · intro e n hn ho
    obtain ⟨d, m, hm, hl⟩ := q.pl e n hn
    obtain ⟨a, b⟩ := h.owned d m hm (by rw [← hl.2.2.2.2.1]; exact ho)
    obtain ⟨x, y⟩ := q.sl _ a
    simp only [hl.2.2.1, hl.2.2.2.1]
    exact ⟨x, b.trans y.symm⟩
  · intro k hk
    rw [q.st] at hk
    exact q.sk k (h.off k hk)

/-- Only fields beside slots, targets, pool and pairs. -/
theorem Quiet.same {s t : State} (ht : t.targets = s.targets) (hs : t.slots = s.slots) (hp : t.pool = s.pool) (hd : t.deferred = s.deferred) : Quiet s t :=
  ⟨fun k => by rw [ht], fun k h => by rw [ht]; exact h, fun i h => by rw [hs]; exact ⟨h, rfl⟩,
   fun d n h => ⟨d, n, by rw [hp] at h; exact h, n.alike_refl⟩, fun d h => ⟨d, by rw [hd] at h; exact h, rfl, rfl⟩⟩

/-- From a frame, slots unchanged. -/
theorem Quiet.frame {s t : State} (f : Frame s t) (hs : t.slots = s.slots)
    (hp : ∀ (d : EntryId) (n : Notice), t.pool[d] = some n → ∃ (e : EntryId) (m : Notice), s.pool[e] = some m ∧ m.alike n)
    (hd : ∀ d ∈ t.deferred, ∃ c ∈ s.deferred, c.slot = d.slot ∧ c.target = d.target) : Quiet s t :=
  ⟨fun k => by rw [show t.targets[k] = _ from f.target k], fun k h => by rw [show t.targets[k] = _ from f.target k]; exact h,
   fun i h => by rw [hs]; exact ⟨h, rfl⟩, hp, hd⟩

theorem same_pairs {s t : State} (h : t.deferred = s.deferred) : ∀ d ∈ t.deferred, ∃ c ∈ s.deferred, c.slot = d.slot ∧ c.target = d.target :=
  fun d hd => ⟨d, by rw [h] at hd; exact hd, rfl, rfl⟩

theorem alike_at {s t : State} (h : ∀ (d : EntryId) (n : Notice), t.pool[d] = some n → ∃ m, s.pool[d] = some m ∧ m.alike n) :
    ∀ (d : EntryId) (n : Notice), t.pool[d] = some n → ∃ (e : EntryId) (m : Notice), s.pool[e] = some m ∧ m.alike n :=
  fun d n hn => ⟨d, h d n hn⟩

theorem mergeInto_slots (e : EntryId) (p : Placement) (s : State) : (mergeInto e p s).slots = s.slots := by
  unfold mergeInto
  split
  · rw [ripenIfReached_slots, raiseIf_slots]; rfl
  · rfl

theorem raiseIf_deferred' (b : Bool) (c : Cause) (s : State) : (raiseIf b c s).deferred = s.deferred := by cases b <;> rfl

theorem raiseIf_pool' (b : Bool) (c : Cause) (s : State) : (raiseIf b c s).pool = s.pool := by cases b <;> rfl

theorem raiseIf_targets' (b : Bool) (c : Cause) (s : State) : (raiseIf b c s).targets = s.targets := by cases b <;> rfl

theorem ripen_quiet (e : EntryId) (s : State) : Quiet s (ripen e s) :=
  Quiet.frame (ripen_frame e s) (ripen_slots e s) (alike_at fun d n h => ripen_alike e d s n h) (same_pairs (ripen_deferred e s))

theorem mergeInto_quiet (e : EntryId) (p : Placement) (s : State) : Quiet s (mergeInto e p s) :=
  Quiet.frame (mergeInto_frame e p s) (mergeInto_slots e p s) (alike_at fun d n h => mergeInto_alike e d p s n h) (same_pairs (mergeInto_deferred e p s))

theorem addLate_quiet (e : EntryId) (p : Placement) (s : State) : Quiet s (addLate e p s) := by
  refine Quiet.frame (addLate_frame e p s) ?_ (alike_at fun d n h => addLate_alike e d p s n h) (same_pairs ?_)
  · unfold addLate; split
    · rw [raiseIf_slots]; rfl
    · rfl
  · unfold addLate; split
    · rw [raiseIf_deferred']; rfl
    · rfl

theorem raise_quiet (c : Cause) (s : State) : Quiet s (raise c s) := Quiet.same rfl rfl rfl rfl

theorem raiseIf_quiet (b : Bool) (c : Cause) (s : State) : Quiet s (raiseIf b c s) := by
  cases b
  · exact Quiet.refl s
  · exact raise_quiet c s

theorem rearmPins_quiet (p : PinSet) (s : State) : Quiet s (rearmPins p s) := Quiet.same (by simp [rearmPins]) (by simp [rearmPins]) (by simp [rearmPins]) (by simp [rearmPins])

theorem settle_quiet (s : State) : Quiet s (settle s) :=
  Quiet.frame (settle_frame s) (settle_pool s).2.2.2.1 (alike_at fun d n h => ⟨n, by rw [(settle_pool s).1] at h; exact h, n.alike_refl⟩) (same_pairs (settle_pool s).2.1)

theorem judgeInTurn_quiet (ts : List TargetId) (s : State) : Quiet s (judgeInTurn ts s) :=
  Quiet.frame (judgeInTurn_frame ts s) (judgeInTurn_pool ts s).2.2.2.1
    (alike_at fun d n h => ⟨n, by rw [(judgeInTurn_pool ts s).1] at h; exact h, n.alike_refl⟩) (same_pairs (judgeInTurn_pool ts s).2.1)

/-- A slot that changes but for its state's freedom and its generation. -/
theorem modSlot_quiet (i : SlotId) (f : Slot → Slot) (s : State) (h : s.slots[i].state ≠ .free → (f s.slots[i]).state ≠ .free ∧ (f s.slots[i]).generation = s.slots[i].generation) :
    Quiet s (modSlot i f s) := by
  refine ⟨fun _ => rfl, fun _ h => h, ?_, fun d n h => ⟨d, n, h, n.alike_refl⟩, fun d h => ⟨d, h, rfl, rfl⟩⟩
  intro j hj
  rw [modSlot_slots, slot_get_set]
  split
  · rename_i hij; subst hij; exact h hj
  · exact ⟨hj, rfl⟩

theorem setHeld_quiet (i : SlotId) (x : Held) (s : State) : Quiet s (setHeld i x s) := modSlot_quiet i _ s fun h => ⟨h, rfl⟩

theorem discardHeld_quiet (i : SlotId) (s : State) : Quiet s (discardHeld i s) := (setHeld_quiet i _ s).trans (rearmPins_quiet _ _)

theorem shrink_quiet {s t : State} (f : Frame s t) (hs : t.slots = s.slots) (h : Shrinks s t) : Quiet s t :=
  Quiet.frame f hs (alike_at fun d n hn => ⟨n, h.pool d n hn, n.alike_refl⟩) (same_pairs h.deferred)

theorem removeNotice_slots (e : EntryId) (s : State) : (removeNotice e s).slots = s.slots := by
  unfold removeNotice; split <;> rfl

theorem removeNotice_quiet (e : EntryId) (s : State) : Quiet s (removeNotice e s) := shrink_quiet (removeNotice_frame e s) (removeNotice_slots e s) (removeNotice_shrinks e s)

theorem dropNotice_quiet (e : EntryId) (s : State) : Quiet s (dropNotice e s) := shrink_quiet (dropNotice_frame e s) (dropNotice_slots e s) (dropNotice_shrinks e s)

/-- A new notice of a record that stands, on a target that takes work. -/
theorem startNotice_be {T : TargetId → Prop} {s : State} (e : EntryId) (n : Notice) (h : BelongBut T s) (ht : T n.target ∨ placeable s n.target = true)
    (hs : s.slots[n.slot].state ≠ .free) (hg : n.generation = s.slots[n.slot].generation) : BelongBut T (startNotice e n s) := by
  have h1 : BelongBut T { setEntry e (some n) s with order := s.order.erase e ++ [e] } := by
    have hp : ∀ d : EntryId, ({ setEntry e (some n) s with order := s.order.erase e ++ [e] } : State).pool[d] = if e = d then some n else s.pool[d] := fun d => pool_get_set _ _ _ _
    refine ⟨?_, h.pairs, ?_, h.off⟩
    · intro d m hm hu
      rw [hp] at hm
      split at hm
      · have := Option.some.inj hm; subst this; exact ht
      · exact h.unclaimed d m hm hu
    · intro d m hm hu
      rw [hp] at hm
      split at hm
      · have := Option.some.inj hm; subst this; exact ⟨hs, hg⟩
      · exact h.owned d m hm hu
  unfold startNotice
  dsimp only
  split
  · exact h1.quiet (ripen_quiet _ _)
  · unfold ripenIfReached
    split
    · exact h1.quiet (ripen_quiet _ _)
    · exact h1

theorem handOver_be {T : TargetId → Prop} {s : State} (e : EntryId) (h : BelongBut T s) : BelongBut T (handOver e s) := by
  unfold handOver
  split
  · exact h
  · rename_i d rest hd
    have h1 : BelongBut T { s with deferred := rest } := h.quiet ⟨fun _ => rfl, fun _ h => h, fun _ h => ⟨h, rfl⟩, fun d n h => ⟨d, n, h, n.alike_refl⟩,
      fun c hc => ⟨c, by rw [hd]; exact List.mem_cons_of_mem _ hc, rfl, rfl⟩⟩
    have hp := h.pairs d (by rw [hd]; exact List.mem_cons_self)
    exact startNotice_be e _ h1 hp.1 hp.2 rfl

theorem handOverInTurn_be {T : TargetId → Prop} {s : State} (e : EntryId) (h : BelongBut T s) :
    BelongBut T (handOverInTurn s e) := (handOver_be e h).quiet (judgeInTurn_quiet _ _)

theorem handOverAll_be {T : TargetId → Prop} {s : State} (es : List EntryId) (h : BelongBut T s) : BelongBut T (handOverAll es s) := by
  unfold handOverAll
  induction es generalizing s with
  | nil => exact h
  | cons e es ih => exact ih (handOverInTurn_be e h)

/-- A slot freed with nothing of its record left. -/
theorem freeSlot_be {T : TargetId → Prop} {s : State} (i : SlotId) (h : BelongBut T s) (hd : ∀ d ∈ s.deferred, d.slot ≠ i)
    (hp : ∀ (e : EntryId) (n : Notice), s.pool[e] = some n → n.isOrphan = false → n.slot ≠ i) : BelongBut T (freeSlot i s) := by
  have hsl : ∀ j : SlotId, j ≠ i → (freeSlot i s).slots[j] = s.slots[j] := by
    intro j hj; rw [freeSlot_slots, slot_get_set, if_neg (fun x => hj x.symm)]
  refine ⟨h.unclaimed, ?_, ?_, h.off⟩
  · intro d hdd
    exact ⟨(h.pairs d hdd).1, by rw [hsl _ (hd d hdd)]; exact (h.pairs d hdd).2⟩
  · intro e n hn ho
    rw [hsl _ (hp e n hn ho)]
    exact h.owned e n hn ho

theorem none_outstanding {T : TargetId → Prop} {s : State} {i : SlotId} (h : BelongBut T s) (h0 : outstanding s i = 0) :
    (∀ d ∈ s.deferred, d.slot ≠ i) ∧ ∀ (e : EntryId) (n : Notice), s.pool[e] = some n → n.isOrphan = false → n.slot ≠ i := by
  unfold outstanding at h0
  have h1 : countNotices s (ownedBy s i) = 0 := by omega
  have h2 : (s.deferred.countP fun d => d.slot == i) = 0 := by omega
  rw [List.countP_eq_zero] at h2
  refine ⟨fun d hd => by simpa using h2 d hd, ?_⟩
  intro e n hn ho hi
  have := countNotices_zero.mp h1 e n hn
  have hg := (h.owned e n hn ho).2
  unfold ownedBy at this
  simp only [hi] at hg
  simp [hi, hg, ho] at this

theorem endRetireWait_quiet (i : SlotId) (s : State) : Quiet s (endRetireWait i s) := by
  unfold endRetireWait
  split
  · split
    · exact Quiet.same rfl rfl rfl rfl
    · exact Quiet.refl s
  · exact Quiet.refl s

theorem reportCeased_be {T : TargetId → Prop} {s : State} (i : SlotId) (h : BelongBut T s) : BelongBut T (reportCeased i s) := by
  unfold reportCeased
  split
  · rename_i hc
    simp only [Bool.and_eq_true, beq_iff_eq] at hc
    obtain ⟨a, b⟩ := none_outstanding h hc.2
    exact (freeSlot_be i h a b).quiet (endRetireWait_quiet _ _)
  · exact h

theorem ceaseNotice_be {T : TargetId → Prop} {s : State} (e : EntryId) (h : BelongBut T s) : BelongBut T (ceaseNotice e s) := by
  unfold ceaseNotice
  split
  · split
    · exact h.quiet (dropNotice_quiet e s)
    · exact reportCeased_be _ (h.quiet (dropNotice_quiet e s))
  · exact h

theorem foldl_be {α : Type} {T : TargetId → Prop} (f : State → α → State) (hf : ∀ s a, BelongBut T s → BelongBut T (f s a)) (l : List α) {s : State} (h : BelongBut T s) :
    BelongBut T (l.foldl f s) := by
  induction l generalizing s with
  | nil => exact h
  | cons a as ih => exact ih (hf s a h)

theorem ceaseAll_be {T : TargetId → Prop} {s : State} (es : List EntryId) (h : BelongBut T s) : BelongBut T (ceaseAll es s) :=
  handOverAll_be es ((foldl_be _ (fun _ e hs => ceaseNotice_be e hs) es h).quiet (settle_quiet _))

theorem ceaseAndHandOver_be {T : TargetId → Prop} {s : State} (e : EntryId) (h : BelongBut T s) : BelongBut T (ceaseAndHandOver e s) := handOverInTurn_be e (ceaseNotice_be e h)

theorem ceasePair_be {T : TargetId → Prop} {s : State} (d : Pair) (h : BelongBut T s) : BelongBut T (ceasePair s d) := reportCeased_be _ (h.quiet (rearmPins_quiet _ _))

theorem ceasePairs_be {T : TargetId → Prop} {s : State} (p : Pair → Bool) (h : BelongBut T s) : BelongBut T (ceasePairs p s) := by
  unfold ceasePairs
  refine foldl_be _ (fun _ d hs => ceasePair_be d hs) _ (h.quiet ?_)
  exact ⟨fun _ => rfl, fun _ h => h, fun _ h => ⟨h, rfl⟩, fun d n h => ⟨d, n, h, n.alike_refl⟩, fun d hd => ⟨d, (List.mem_filter.mp hd).1, rfl, rfl⟩⟩

theorem placeOn_be {T : TargetId → Prop} {s : State} (i : SlotId) (t : TargetId) (p : Placement) (h : BelongBut T s) (ht : placeable s t = true) (hi : s.slots[i].state ≠ .free) :
    BelongBut T (placeOn i t p s) := by
  unfold placeOn
  split
  · exact h.quiet (mergeInto_quiet _ _ _)
  · split
    · unfold mergeIntoPair
      refine h.quiet (Quiet.trans (t := { s with deferred := _ }) ?_ (raiseIf_quiet _ _ _))
      refine ⟨fun _ => rfl, fun _ h => h, fun _ h => ⟨h, rfl⟩, fun d n h => ⟨d, n, h, n.alike_refl⟩, fun d hd => ?_⟩
      obtain ⟨c, hc, rfl⟩ := List.mem_map.mp hd
      refine ⟨c, hc, ?_, ?_⟩ <;> (split <;> rfl)
    · split
      · exact startNotice_be _ _ h (Or.inr ht) hi rfl
      · refine BelongBut.quiet ?_ (raise_quiet _ _)
        refine ⟨h.unclaimed, ?_, h.owned, h.off⟩
        intro d hd
        rcases List.mem_append.mp hd with hd | hd
        · exact h.pairs d hd
        · rw [List.mem_singleton] at hd; subst hd; exact ⟨Or.inr ht, hi⟩

theorem placeAt_be {T : TargetId → Prop} {s : State} (i : SlotId) (t : TargetId) (p : Placement) (h : BelongBut T s) (ht : placeable s t = true) (hi : s.slots[i].state ≠ .free) :
    BelongBut T (placeAt i t p s) := by
  unfold placeAt
  split
  · exact h.quiet (addLate_quiet _ _ _)
  · exact placeOn_be _ _ _ h ht hi

theorem placeSingle_be {T : TargetId → Prop} {s : State} (i : SlotId) (p : Placement) (h : BelongBut T s) (hi : s.slots[i].state ≠ .free) : BelongBut T (placeSingle i p s) := by
  unfold placeSingle
  split
  · exact h.quiet (addLate_quiet _ _ _)
  · split
    · unfold placeRotate
      split
      · exact h.quiet (mergeInto_quiet _ _ _)
      · dsimp only
        split
        · rename_i t ht
          refine placeOn_be _ _ _ (h.quiet (modSlot_quiet _ _ _ fun hh => ⟨hh, rfl⟩)) (preferOnline_mem ht).2 ?_
          rw [modSlot_slots, slot_get_set, if_pos rfl]; exact hi
        · exact h
    · unfold placeFirst
      split
      · rename_i t ht
        exact placeOn_be _ _ _ h (preferOnline_mem ht).2 hi
      · exact h

theorem frame_placeable {s t : State} (f : Frame s t) (k : TargetId) : placeable t k = placeable s k :=
  placeable_congr (fun k => by rw [show t.targets[k] = _ from f.target k]) k

theorem frame_alive {s t : State} (f : Frame s t) {i : SlotId} (h : s.slots[i].state = .active ∨ s.slots[i].state = .held) : t.slots[i] = s.slots[i] := by
  rcases f.slot i with a | ⟨a, _⟩
  · exact a
  · rw [a] at h; rcases h with h | h <;> cases h

theorem placeAll_be {T : TargetId → Prop} {s : State} (i : SlotId) (p : Placement) (ts : List TargetId) (h : BelongBut T s) (hi : s.slots[i].state = .active ∨ s.slots[i].state = .held)
    (ht : ∀ t ∈ ts, placeable s t = true) : BelongBut T (placeAll i p s ts) := by
  induction ts generalizing s p with
  | nil => exact h
  | cons t ts ih =>
    have hf : Frame s (settle (placeAt i t p s)) := (placeAt_frame _ _ _ _).trans (settle_frame _)
    refine ih _ ((placeAt_be i t p h (ht t List.mem_cons_self) ?_).quiet (settle_quiet _)) ?_ ?_
    · rcases hi with a | a <;> rw [a] <;> decide
    · rw [frame_alive hf hi]; exact hi
    · intro k hk; rw [frame_placeable hf]; exact ht k (List.mem_cons_of_mem _ hk)

theorem placeByMode_be {T : TargetId → Prop} {s : State} (i : SlotId) (p : Placement) (h : BelongBut T s) (hi : s.slots[i].state = .active ∨ s.slots[i].state = .held) :
    BelongBut T (placeByMode i p s) := by
  unfold placeByMode
  split
  · refine placeAll_be _ _ _ h hi ?_
    intro t ht
    exact (List.mem_filter.mp ht).2
  · refine placeSingle_be _ _ h ?_
    rcases hi with a | a <;> rw [a] <;> decide

theorem placeArrival_be {T : TargetId → Prop} {s : State} (i : SlotId) (a : Arrival) (h : BelongBut T s) (hi : s.slots[i].state = .active ∨ s.slots[i].state = .held) : BelongBut T (placeArrival i a s) := by
  unfold placeArrival
  dsimp only
  split
  · exact placeByMode_be _ _ h hi
  · exact placeByMode_be _ _ (h.quiet ((setHeld_quiet _ _ _).trans (raiseIf_quiet _ _ _))) (by rw [fold_slot_state]; exact hi)

theorem placeHeld_be {T : TargetId → Prop} {s : State} (i : SlotId) (h : BelongBut T s) (hi : s.slots[i].state ≠ .free) : BelongBut T (placeHeld i s) := by
  have h1 := h.quiet ((setHeld_quiet i Held.empty s).trans (raiseIf_quiet (decide (255 < s.slots[i].held.count)) .countOverflow _))
  have h2 : (raiseIf (decide (255 < s.slots[i].held.count)) .countOverflow (setHeld i Held.empty s)).slots[i].state ≠ .free := by rw [fold_slot_state]; exact hi
  unfold placeHeld
  dsimp only
  generalize raiseIf (decide (255 < s.slots[i].held.count)) .countOverflow (setHeld i Held.empty s) = u at *
  split
  · split
    · rename_i t _ ht
      refine placeAt_be _ _ _ h1 ?_ h2
      have : t ∈ placeableTargets u i := by rw [ht]; exact List.mem_cons_self
      exact (List.mem_filter.mp this).2
    · exact h1
  · exact placeSingle_be _ _ h1 h2

theorem arrive_be {T : TargetId → Prop} {s : State} (p : Producer) (a : Arrival) (h : BelongBut T s) : BelongBut T (arrive p a s) := by
  unfold arrive
  split
  · rename_i i hi
    have hc := covers_not_free (lookup_some hi).1
    unfold applyArrival
    split
    · exact (placeArrival_be _ _ h hc).quiet (settle_quiet _)
    · unfold joinHeld
      exact h.quiet ((setHeld_quiet _ _ _).trans (raiseIf_quiet _ _ _))
  · refine h.quiet ?_
    cases p <;> exact Quiet.same rfl rfl rfl rfl

theorem modList_quiet (t : TargetId) (l : Level) (f : List EntryId → List EntryId) (s : State) : Quiet s (modList t l f s) :=
  Quiet.frame (modList_frame t l f s) rfl (fun d n h => ⟨d, n, h, n.alike_refl⟩) (same_pairs rfl)

theorem absorbPair_quiet (e : EntryId) (i : SlotId) (t : TargetId) (s : State) : Quiet s (absorbPair e i t s) := by
  unfold absorbPair
  split
  · refine Quiet.trans (t := { s with deferred := _ }) ?_ (mergeInto_quiet _ _ _)
    exact ⟨fun _ => rfl, fun _ h => h, fun _ h => ⟨h, rfl⟩, fun d n h => ⟨d, n, h, n.alike_refl⟩, fun d hd => ⟨d, (List.mem_filter.mp hd).1, rfl, rfl⟩⟩
  · exact Quiet.refl s

theorem moveWhole_be {T : TargetId → Prop} {s : State} (e : EntryId) (n : Notice) (t : TargetId) (h : BelongBut T s) (hn : s.pool[e] = some n) (ht : placeable s t = true) :
    BelongBut T (moveWhole e n t s) := by
  have hp : ∀ d : EntryId, (setEntry e (some { n with target := t }) s).pool[d] = if e = d then some { n with target := t } else s.pool[d] := fun d => pool_get_set _ _ _ _
  have h1 : BelongBut T (setEntry e (some { n with target := t }) s) := by
    refine ⟨?_, h.pairs, ?_, h.off⟩
    · intro d m hm hu
      rw [hp] at hm
      split at hm
      · have := Option.some.inj hm; subst this; exact Or.inr ht
      · exact h.unclaimed d m hm hu
    · intro d m hm hu
      rw [hp] at hm
      split at hm
      · have := Option.some.inj hm; subst this; exact h.owned e n hn hu
      · exact h.owned d m hm hu
  unfold moveWhole
  dsimp only
  refine BelongBut.quiet ?_ (absorbPair_quiet _ _ _ _)
  split
  · exact h1.quiet ((modList_quiet _ _ _ _).trans (modList_quiet _ _ _ _))
  · exact h1

theorem mergeAway_be {T : TargetId → Prop} {s : State} (e : EntryId) (n : Notice) (home : EntryId) (h : BelongBut T s) : BelongBut T (mergeAway e n home s) := by
  unfold mergeAway
  split
  · dsimp only
    refine handOver_be _ (reportCeased_be _ (BelongBut.quiet ?_ (removeNotice_quiet _ _)))
    have := h.quiet (mergeInto_quiet home (awayPlacement n ‹_›) s)
    split
    · exact this.quiet (ripen_quiet _ _)
    · exact this
  · exact h

theorem destination_online {s : State} {k : TargetId} {n : Notice} {t : TargetId} (h : destination s k n = some t) : online s t = true := by
  unfold destination at h
  dsimp only at h
  split at h
  · exact List.find?_some h
  · split at h
    · exact List.find?_some h
    · exact List.find?_some h
  · cases h

theorem online_placeable {s : State} {t : TargetId} (h : online s t = true) : placeable s t = true := by
  unfold online at h; unfold placeable; rw [h]; rfl

theorem rehomeAll_be {T : TargetId → Prop} {s : State} (k : TargetId) (h : BelongBut T s) : BelongBut T (rehomeAll k s) := by
  unfold rehomeAll
  refine foldl_be _ ?_ _ h
  intro s e h
  unfold rehomeOne
  split
  · rename_i n hn
    split
    · rename_i t ht
      split
      · exact mergeAway_be _ _ _ h
      · exact moveWhole_be _ _ _ h hn (online_placeable (destination_online ht))
    · exact h
  · exact h

theorem rehomeAndJudge_be {T : TargetId → Prop} {s : State} (k : TargetId) (h : BelongBut T s) :
    BelongBut T (rehomeAndJudge k s) := (rehomeAll_be k h).quiet (judgeInTurn_quiet _ _)

/-- A target changes, but takes work still where it did. -/
theorem modTarget_be {T : TargetId → Prop} {s : State} (t : TargetId) (f : Target → Target) (h : BelongBut T s)
    (hp : (s.targets[t].state = .online ∨ s.targets[t].state = .stalled) → T t ∨ (f s.targets[t]).state = .online ∨ (f s.targets[t]).state = .stalled)
    (ho : (f s.targets[t]).state = .offline → (f s.targets[t]).stack = []) : BelongBut T (modTarget t f s) := by
  have hg : ∀ k : TargetId, (modTarget t f s).targets[k] = if t = k then f s.targets[t] else s.targets[k] := fun k => target_get_set _ _ _ _
  have hpl : ∀ k, (T k ∨ placeable s k = true) → T k ∨ placeable (modTarget t f s) k = true := by
    intro k hk
    rcases hk with hk | hk
    · exact Or.inl hk
    · by_cases htk : t = k
      · subst htk
        have := hp (by unfold placeable at hk; simpa using hk)
        rcases this with a | a
        · exact Or.inl a
        · right; unfold placeable; rw [hg, if_pos rfl]; simpa using a
      · right; unfold placeable; rw [hg, if_neg htk]; exact hk
  refine ⟨fun e n hn hu => hpl _ (h.unclaimed e n hn hu), fun d hd => ⟨hpl _ (h.pairs d hd).1, (h.pairs d hd).2⟩, h.owned, ?_⟩
  intro k hk
  rw [hg] at hk ⊢
  split
  · rename_i htk; rw [if_pos htk] at hk; exact ho hk
  · rename_i htk; rw [if_neg htk] at hk; exact h.off k hk

theorem startQuiesce_be {s : State} (t : TargetId) (b : Bool) (h : Belonging s) : Belonging (startQuiesce t b s) := by
  obtain ⟨hf, hd, hp, _⟩ := quiesce_done t b s
  have h1 : BelongBut (fun k => k = t) (startQuiesce t b s) := by
    unfold startQuiesce
    dsimp only
    refine ceaseAll_be _ ?_
    have h0 : BelongBut (fun k => k = t) s := ⟨fun e n x y => Or.inr ((h.unclaimed e n x y).resolve_left id), fun d x => ⟨Or.inr ((h.pairs d x).1.resolve_left id), (h.pairs d x).2⟩, h.owned, h.off⟩
    have h2 := ceasePairs_be (fun d => d.target == t) (modTarget_be t (fun c => { c with state := .quiescing }) h0 (fun _ => Or.inl rfl) (fun x => by cases x))
    split
    · exact rehomeAndJudge_be t h2
    · exact h2
  refine ⟨?_, ?_, h1.owned, h1.off⟩
  · intro e n hn hu
    refine Or.inr ((h1.unclaimed e n hn hu).resolve_left ?_)
    intro ht
    have := hp e n hn ht
    rw [unclaimed_not_service hu] at this; cases this
  · intro d hdd
    exact ⟨Or.inr ((h1.pairs d hdd).1.resolve_left (hd d hdd)), (h1.pairs d hdd).2⟩

theorem goOffline_be {s : State} (t : TargetId) (h : Belonging s) (hq : s.targets[t].state = .quiescing) (hs : s.targets[t].stack = []) : Belonging (goOffline t s) :=
  modTarget_be t _ h (fun x => by rw [hq] at x; rcases x with x | x <;> cases x) (fun _ => hs)

theorem endCommand_quiet (c : ResultCode) (w : List Word) (s : State) : Quiet s (endCommand c w s) := Quiet.same rfl rfl rfl rfl

theorem modPort_quiet (f : Port → Port) (s : State) : Quiet s (modPort f s) := Quiet.same rfl rfl rfl rfl

theorem modPins_quiet (f : PinId → Pin → Pin) (s : State) : Quiet s (modPins f s) := Quiet.same (by simp) (by simp) (by simp) (by simp)

theorem modPin_quiet (p : PinId) (f : Pin → Pin) (s : State) : Quiet s (modPin p f s) := Quiet.same rfl rfl rfl rfl

theorem quiesceEnd_be {u : State} (t : TargetId) (ff : Bool) (ww : Nat) (h1 : Belonging u) (hq : u.targets[t].state = .quiescing) : Belonging (quiesceEnd t ff ww u) := by
  unfold quiesceEnd
  split
  · refine BelongBut.quiet ?_ (endCommand_quiet _ _ _)
    have h2 : Belonging (modTarget t (fun c => { c with stack := [] }) u) := modTarget_be t _ h1 (fun x => Or.inr x) (fun _ => rfl)
    have hf := ceaseAll_frame ((ascending u fun _ => true).filter fun e => u.targets[t].stack.contains e) (modTarget t (fun c => { c with stack := [] }) u)
    have := hf.target t
    refine goOffline_be t (ceaseAll_be _ h2) ?_ ?_
    · rw [show (forceStack t u).targets[t] = _ from this]; simpa [modTarget] using hq
    · rw [show (forceStack t u).targets[t] = _ from this]; simp [modTarget]
  · split
    · rename_i hs
      exact (goOffline_be t h1 hq (by simpa using hs)).quiet (endCommand_quiet _ _ _)
    · split
      · exact h1.quiet (endCommand_quiet _ _ _)
      · exact h1.quiet ((modPort_quiet _ _).trans (modPort_quiet _ _))

theorem targetOffline_be {s : State} (h : Belonging s) : Belonging (targetOfflineBody s) := by
  unfold targetOfflineBody
  split
  · exact h.quiet (endCommand_quiet _ _ _)
  · refine BelongBut.quiet ?_ (settle_quiet _)
    refine quiesceEnd_be _ _ _ (startQuiesce_be (targetId s) (targetCode s == 0) h) ?_
    obtain ⟨hf, _⟩ := quiesce_done (targetId s) (targetCode s == 0) s
    rw [show (startQuiesce (targetId s) (targetCode s == 0) s).targets[targetId s] = _ from hf.target _]
    simp [modTarget]

theorem endQuiesce_be {s : State} (t : TargetId) (h : Belonging s) : Belonging (endQuiesceIfEmpty t s) := by
  unfold endQuiesceIfEmpty
  split
  · rename_i hc
    simp only [Bool.and_eq_true, decide_eq_true_eq, List.isEmpty_iff] at hc
    have h1 := goOffline_be t h hc.1 hc.2
    unfold endOfflineWait
    split
    · split
      · exact h1.quiet (endCommand_quiet _ _ _)
      · exact h1
    · exact h1
  · exact h

theorem completeNotice_be {s : State} (e : EntryId) (n : Notice) (h : Belonging s) (hn : s.pool[e] = some n) : Belonging (completeNotice e n s) := by
  unfold completeNotice
  split
  · exact ceaseAndHandOver_be e h
  · rename_i ho
    have ho : n.isOrphan = false := by
      cases hh : n.isOrphan
      · rfl
      · rw [hh] at ho; simp at ho
    have hown := h.owned e n hn ho
    unfold completeLate
    dsimp only
    split
    · exact ceaseAndHandOver_be e h
    · split
      · rename_i hpl
        unfold reraise
        split
        · unfold reraiseInto
          exact handOverInTurn_be _ (reportCeased_be _ (h.quiet ((mergeInto_quiet _ _ _).trans (removeNotice_quiet _ _))))
        · unfold reraiseInPlace
          refine BelongBut.quiet ?_ (absorbPair_quiet _ _ _ _)
          exact startNotice_be e _ h (Or.inr hpl) hown.1 hown.2
      · split
        · unfold returnLate
          dsimp only
          generalize (s.slots[n.slot].held.plusLate n) = hh
          refine handOverInTurn_be _ (BelongBut.quiet ?_ (removeNotice_quiet _ _))
          refine BelongBut.quiet ?_ (raiseIf_quiet _ _ _)
          exact h.quiet (setHeld_quiet _ _ _)
        · exact ceaseAndHandOver_be e h

theorem completeBody_be {s : State} (r : RequesterId) (t : TargetId) (w : Word) (h : Belonging s) : Belonging (completeBody r t w s) := by
  unfold completeBody
  split
  · exact h.quiet (raise_quiet _ _)
  · split
    · exact h.quiet (raise_quiet _ _)
    · split
      · rename_i n hn
        split
        · have h1 : Belonging (popStack t s) := by
            refine modTarget_be t (fun c => { c with stack := c.stack.tail }) h (fun x => Or.inr x) ?_
            intro x
            have := h.off t x
            show (s.targets[t].stack).tail = []
            rw [this]; rfl
          have hp : (popStack t s).pool = s.pool := rfl
          generalize popStack t s = u at *
          refine BelongBut.quiet (endQuiesce_be t ?_) (settle_quiet _)
          exact completeNotice_be _ n h1 (by rw [hp]; exact hn)
        · exact h.quiet (raise_quiet _ _)
      · exact h.quiet (raise_quiet _ _)

theorem pending_not_orphan {n : Notice} (h : n.phase = .pending) : n.isOrphan = false := by
  unfold Notice.isOrphan; rw [h]

theorem claim_be {s : State} (t : TargetId) (e : EntryId) (l : Level) (n : Notice) (h : Belonging s) (hs : Standing s) (hc : candidate s.targets[t] = some (e, l)) (hn : s.pool[e] = some n) (ho : online s t = true) :
    Belonging (takeCandidate t e n s) := by
  have hm : e ∈ s.targets[t].lists[l] := List.mem_of_head? (cand_head hc)
  obtain ⟨x, hx, hp, ht, hlv⟩ := (hs.list t l e).mp hm
  rw [hn] at hx
  have := Option.some.inj hx; subst this
  have hown := h.owned e n hn (pending_not_orphan hp)
  have hg' : ∀ d : EntryId, (setEntry e (some n.claimed) s).pool[d] = if e = d then some n.claimed else s.pool[d] := fun d => pool_get_set _ _ _ _
  have h1 : Belonging (setEntry e (some n.claimed) s) := by
    refine ⟨?_, h.pairs, ?_, h.off⟩
    · intro d m hm hu
      rw [hg'] at hm
      split at hm
      · have := Option.some.inj hm; subst this; cases hu
      · exact h.unclaimed d m hm hu
    · intro d m hm hu
      rw [hg'] at hm
      split at hm
      · have := Option.some.inj hm; subst this; exact hown
      · exact h.owned d m hm hu
  unfold takeCandidate
  have h2 := h1.quiet (modList_quiet t n.level (·.erase e) _)
  have hst : (modList t n.level (·.erase e) (setEntry e (some n.claimed) s)).targets[t].state = .online := by
    unfold online at ho
    have h0 : s.targets[t].state = .online := beq_iff_eq.mp ho
    have hf := (modList_frame t n.level (·.erase e) (setEntry e (some n.claimed) s)).target t
    rw [show (modList t n.level (·.erase e) (setEntry e (some n.claimed) s)).targets[t] = _ from hf]
    exact h0
  refine modTarget_be t _ h2 (fun x => Or.inr x) ?_
  intro x
  rw [show (({ (modList t n.level (·.erase e) (setEntry e (some n.claimed) s)).targets[t] with stack := e :: _ } : Target)).state = (modList t n.level (·.erase e) (setEntry e (some n.claimed) s)).targets[t].state from rfl, hst] at x
  cases x

theorem claimBody_be {s : State} (r : RequesterId) (t : TargetId) (f : ClaimForm) (h : Belonging s) (hs : Standing s) : Belonging (claimBody r t f s) := by
  unfold claimBody
  split
  · exact h.quiet (Quiet.same rfl rfl rfl rfl)
  · refine BelongBut.quiet ?_ (settle_quiet _)
    unfold servedClaim
    dsimp only
    have h1 : Belonging (stopDeadline t (returnToOnline t s)) := by
      refine modTarget_be _ _ (modTarget_be _ _ h ?_ ?_) ?_ ?_
      · intro x; right
        split
        · exact Or.inl rfl
        · exact x
      · intro x
        split at x
        · cases x
        · split
          · contradiction
          · exact h.off t x
      · intro x; exact Or.inr x
      · intro x
        dsimp only at x ⊢
        have : Belonging (returnToOnline t s) := by
          refine modTarget_be _ _ h ?_ ?_
          · intro x; right
            split
            · exact Or.inl rfl
            · exact x
          · intro x
            split at x
            · cases x
            · split
              · contradiction
              · exact h.off t x
        exact this.off t x
    have h1s : Standing (stopDeadline t (returnToOnline t s)) := by
      refine modTarget_stand _ _ (modTarget_stand _ _ hs ?_ ?_) rfl rfl
      · split <;> rfl
      · split <;> rfl
    generalize stopDeadline t (returnToOnline t s) = u at *
    have hans : ∀ (low p : Word) (v : State), Belonging v → Belonging (claimAnswer r f low p v) := by
      intro low p v hv; cases f <;> exact hv.quiet (Quiet.same rfl rfl rfl rfl)
    have hlat : ∀ (p : Word) (v : State), Belonging v → Belonging (latchPayload t f p v) := by
      intro p v hv; cases f
      · exact modTarget_be t (fun c => { c with lastPayload := p }) hv (fun x => Or.inr x) (fun x => hv.off t x)
      · exact hv
    split
    · rename_i x hx
      refine hans _ _ _ (hlat _ _ ?_)
      unfold claimable at hx
      split at hx
      · rename_i hcond
        split at hx
        · rename_i y hy
          cases hp : u.pool[y.1] with
          | none => rw [hp] at hx; cases hx
          | some n =>
            rw [hp] at hx
            have hx : (y.1, n) = x := by simpa using hx
            subst hx
            exact claim_be t y.1 y.2 n h1 h1s hy hp (by simp at hcond; exact hcond.1)
        · cases hx
      · cases hx
    · exact hans _ _ _ (hlat _ _ h1)

theorem retireRecord_be {s : State} (i : SlotId) (m : RetireMode) (h : Belonging s) : Belonging (retireRecord i m s) := by
  unfold retireRecord
  refine (reportCeased_be _ ?_).quiet (settle_quiet _)
  have h1 := h.quiet ((modSlot_quiet i (fun r => { r with state := .retiring, retireMode := some m }) s fun _ => ⟨by simp, rfl⟩).trans (discardHeld_quiet i _))
  cases m
  · exact ceaseAll_be _ (ceasePairs_be _ h1)
  · exact foldl_be _ (fun s e hs => hs.quiet ((ripen_quiet _ _).trans (settle_quiet _))) _ h1

theorem retireBody_be {s : State} (h : Belonging s) : Belonging (retireBody s) := by
  unfold retireBody
  split
  · exact h.quiet (endCommand_quiet _ _ _)
  · have h1 := retireRecord_be (slotId s) (retireModeOf (retireModeCode s)) h
    dsimp only
    unfold retireEnd
    split
    · exact h1.quiet (endCommand_quiet _ _ _)
    · split
      · exact h1.quiet (endCommand_quiet _ _ _)
      · exact h1.quiet ((modPort_quiet _ _).trans (modPort_quiet _ _))

theorem orphaned_kind (n : Notice) : n.orphaned.unclaimed = n.unclaimed ∧ n.orphaned.slot = n.slot ∧ n.orphaned.generation = n.generation ∧ n.orphaned.target = n.target ∧ (n.orphaned.isOrphan = false → n.isOrphan = false ∧ n.isInService = false) := by
  unfold Notice.orphaned Notice.unclaimed Notice.isOrphan Notice.isInService
  rcases n with ⟨_, _, _, _, ph, _, _, _, _, _⟩
  cases ph <;> simp

theorem orphanItems_be {s : State} (i : SlotId) (h : Belonging s) : Belonging (orphanItems i s) := by
  unfold orphanItems
  refine foldl_be _ ?_ _ h
  intro s e h
  have hg : ∀ d : EntryId, (setEntry e (s.pool[e].map Notice.orphaned) s).pool[d] = if e = d then s.pool[e].map Notice.orphaned else s.pool[d] := fun d => pool_get_set _ _ _ _
  have key : ∀ (d : EntryId) (m : Notice), (setEntry e (s.pool[e].map Notice.orphaned) s).pool[d] = some m → ∃ n, s.pool[d] = some n ∧ (m = n ∨ m = n.orphaned) := by
    intro d m hm
    rw [hg] at hm
    by_cases hed : e = d
    · rw [if_pos hed] at hm
      subst hed
      cases hx : s.pool[e] with
      | none => rw [hx] at hm; cases hm
      | some n =>
        rw [hx] at hm
        exact ⟨n, rfl, Or.inr (by simpa using hm.symm)⟩
    · rw [if_neg hed] at hm; exact ⟨m, hm, Or.inl rfl⟩
  refine ⟨?_, h.pairs, ?_, h.off⟩
  · intro d m hm hu
    obtain ⟨n, hn, rfl | rfl⟩ := key d m hm
    · exact h.unclaimed d _ hn hu
    · obtain ⟨a, b, c, f, _⟩ := orphaned_kind n
      rw [f]; exact h.unclaimed d n hn (by rw [← a]; exact hu)
  · intro d m hm ho
    obtain ⟨n, hn, rfl | rfl⟩ := key d m hm
    · exact h.owned d _ hn ho
    · obtain ⟨a, b, c, f, g⟩ := orphaned_kind n
      simp only [b, c]; exact h.owned d n hn (g ho).1

theorem dropPairs_quiet (i : SlotId) (s : State) : Quiet s (dropPairs i s) := by
  obtain ⟨a, b, c, _⟩ := dropPairs_shape i s
  refine Quiet.frame (dropPairs_frame i s) c (fun d n h => ⟨d, n, by rw [b] at h; exact h, n.alike_refl⟩) ?_
  intro d hd
  rw [a] at hd
  exact ⟨d, (List.mem_filter.mp hd).1, rfl, rfl⟩

theorem forceRetire_be {s : State} (i : SlotId) (h : Belonging s) : Belonging (forceRetireRecord i s) := by
  unfold forceRetireRecord
  dsimp only
  refine handOverAll_be _ ?_
  have hq : Quiet s (dropPairs i (discardHeld i s)) := (discardHeld_quiet i s).trans (dropPairs_quiet i _)
  obtain ⟨sh1, sh2, sh3, _⟩ := dropPairs_shape i (discardHeld i s)
  have hp1 : (dropPairs i (discardHeld i s)).pool = s.pool := by rw [sh2, (discardHeld_rest i s).1]
  have hd1 : ∀ d ∈ (dropPairs i (discardHeld i s)).deferred, d.slot ≠ i := by
    intro d hd; rw [sh1] at hd; simpa using (List.mem_filter.mp hd).2
  have hgen : (dropPairs i (discardHeld i s)).slots[i].generation = s.slots[i].generation := by
    rw [sh3, discardHeld_slot]; simp
  have h1 := h.quiet hq
  generalize dropPairs i (discardHeld i s) = s1 at *
  have h2 : Belonging ((ascending s fun n => n.unclaimed && ownedBy s i n).foldl (fun s e => dropNotice e s) s1) :=
    foldl_be _ (fun s e hs => hs.quiet (dropNotice_quiet e s)) _ h1
  have hsh := foldl_shrinks (fun s e => dropNotice e s) (fun s e => dropNotice_shrinks e s) (ascending s fun n => n.unclaimed && ownedBy s i n) s1
  have hgn := foldl_gone (fun s e => dropNotice e s) (fun s e => dropNotice_shrinks e s) (fun s e => dropNotice_gone e s) (ascending s fun n => n.unclaimed && ownedBy s i n) s1
  have hsl : ((ascending s fun n => n.unclaimed && ownedBy s i n).foldl (fun s e => dropNotice e s) s1).slots = s1.slots := foldl_slots _ (fun s e => dropNotice_slots e s) _ _
  generalize hes : (ascending s fun n => n.unclaimed && ownedBy s i n) = es at *
  generalize es.foldl (fun s e => dropNotice e s) s1 = s2 at *
  have hj := settle_pool s2
  replace h2 := h2.quiet (settle_quiet s2)
  replace hsh : Shrinks s1 (settle s2) := hsh.trans ⟨hj.2.1, fun e n h => by rw [hj.1] at h; exact h, fun e h => by rw [hj.2.2.1] at h; exact h⟩
  replace hgn : ∀ e ∈ es, (settle s2).pool[e] = none := by rw [hj.1]; exact hgn
  replace hsl := hj.2.2.2.1.trans hsl
  clear hj
  generalize settle s2 = s2 at *
  refine freeSlot_be i (orphanItems_be i h2) ?_ ?_
  · intro d hd
    rw [(orphan_rest i s2).1, hsh.deferred] at hd
    exact hd1 d hd
  · intro e n hn ho hi
    unfold orphanItems at hn
    rw [orphan_pool] at hn
    split at hn
    · rename_i he
      obtain ⟨m, hm, hx⟩ := (mem_ascending _ _ e).mp he
      rw [hm] at hn
      have : m.orphaned = n := by simpa using hn
      subst this
      have := (orphaned_kind m).2.2.2.2 ho
      simp [this.2] at hx
    · rename_i he
      have hg := (h2.owned e n hn ho).2
      have hown : ownedBy s2 i n = true := by
        unfold ownedBy; simp only [hi] at hg; simp [hi, hg, ho]
      cases hsv : n.isInService
      · have hu : n.unclaimed = true := by
          unfold Notice.isInService at hsv; unfold Notice.unclaimed
          cases hph : n.phase <;> simp_all
        have hin : e ∈ es := by
          rw [← hes, mem_ascending]
          refine ⟨n, by rw [← hp1]; exact hsh.pool e n hn, ?_⟩
          rw [hu]
          unfold ownedBy at hown ⊢
          rw [hsl, hgen] at hown
          simpa using hown
        rw [hgn e hin] at hn; cases hn
      · exact he ((mem_ascending _ _ e).mpr ⟨n, hn, by simp [hsv, hown]⟩)

theorem releaseRecord_be {s : State} (i : SlotId) (h : Belonging s) : Belonging (releaseRecord i s) := by
  unfold releaseRecord
  dsimp only
  have h1 := h.quiet (modSlot_quiet i (fun r => { r with state := .active }) s fun _ => ⟨by simp, rfl⟩)
  split
  · exact (placeHeld_be i h1 (by simp [modSlot])).quiet (settle_quiet _)
  · exact h1

theorem tableClear_be {s : State} (h : Belonging s) (hs : Standing s) (ha : allOffline s = true) : Belonging (clearTable s) := by
  have hoff : ∀ t : TargetId, s.targets[t].state = .offline := by
    intro t
    unfold allOffline at ha
    have := List.all_eq_true.mp ha s.targets[t] (by simp)
    simpa using this
  have hnp : ∀ t, placeable s t = false := by intro t; unfold placeable; rw [hoff t]; rfl
  have hpool : ∀ (e : EntryId) (n : Notice), s.pool[e] = some n → False := by
    intro e n hn
    cases hsv : n.isInService
    · have hu : n.unclaimed = true := by
        unfold Notice.isInService at hsv; unfold Notice.unclaimed
        cases hph : n.phase <;> simp_all
      have := (h.unclaimed e n hn hu).resolve_left id
      rw [hnp] at this; cases this
    · have := hs.stacked e n hn hsv id
      rw [h.off _ (hoff _)] at this; cases this
  have hpairs : ∀ d ∈ s.deferred, False := by
    intro d hd
    have := (h.pairs d hd).1.resolve_left id
    rw [hnp] at this; cases this
  unfold clearTable
  refine foldl_be _ (fun _ ps hs => hs.quiet (rearmPins_quiet ps _)) _ ?_
  exact ⟨fun e n hn => (hpool e n hn).elim, fun d hd => (hpairs d hd).elim, fun e n hn => (hpool e n hn).elim, h.off⟩

theorem endWalk_quiet (w : List Word) (s : State) : Quiet s (endWalkIfPast w s) := by
  unfold endWalkIfPast
  split
  · exact endCommand_quiet _ _ _
  · exact Quiet.refl s

theorem onlineWalk_be {s : State} (h : Belonging s) : Belonging (onlineWalkBody s) := by
  unfold onlineWalkBody
  split
  · dsimp only
    split
    · rename_i hc
      have hns : s.slots[walkSlot s].state ≠ .free := by
        unfold converts at hc
        simp only [Bool.and_eq_true, beq_iff_eq] at hc
        rw [hc.1.1.1]; decide
      exact (placeHeld_be _ h hns).quiet (((settle_quiet _).trans (modPort_quiet _ _)).trans (endWalk_quiet _ _))
    · exact h.quiet ((modPort_quiet _ _).trans (endWalk_quiet _ _))
  · exact h

theorem groupWalk_be {s : State} (h : Belonging s) : Belonging (groupWalkBody s) := by
  unfold groupWalkBody
  split
  · rename_i kind _ _ _ _ _
    dsimp only
    split
    · exact h.quiet ((modPort_quiet _ _).trans (endWalk_quiet _ _))
    · split
      · exact h.quiet ((modPort_quiet _ _).trans (endWalk_quiet _ _))
      · refine BelongBut.quiet ?_ ((modPort_quiet _ _).trans (endWalk_quiet _ _))
        unfold walkChange
        cases kind with
        | hold => exact h.quiet (modSlot_quiet _ _ _ fun _ => ⟨by simp, rfl⟩)
        | release => exact releaseRecord_be _ h
        | retire m => exact retireRecord_be _ m h
  · exact h

theorem install_ne {s : State} (h : installError s = none) : s.slots[slotId s].state = .free := by
  unfold installError at h
  dsimp only at h
  split at h
  · cases h
  · split at h
    · cases h
    · rename_i hh; simpa using hh

theorem commandBody_be {s : State} (code : Nat) (h : Belonging s) (hs : Standing s) : Belonging (commandBody code s) := by
  have he : ∀ (c : ResultCode) (w : List Word), Belonging (endCommand c w s) := fun c w => h.quiet (endCommand_quiet _ _ _)
  unfold commandBody
  split
  · unfold installBody; split
    · exact he _ _
    · rename_i hn
      refine h.quiet (((modSlot_quiet _ _ _ fun hh => absurd (install_ne hn) hh).trans (modPins_quiet _ _)).trans (endCommand_quiet _ _ _))
  · unfold modifyBody; split
    · exact he _ _
    · exact h.quiet ((modSlot_quiet _ _ _ fun hh => ⟨hh, rfl⟩).trans (endCommand_quiet _ _ _))
  · unfold holdBody; split
    · exact he _ _
    · exact h.quiet ((modSlot_quiet _ _ _ fun _ => ⟨by simp, rfl⟩).trans (endCommand_quiet _ _ _))
  · unfold releaseBody; split
    · exact he _ _
    · refine BelongBut.quiet ?_ ((modPins_quiet _ _).trans (endCommand_quiet _ _ _))
      split
      · exact releaseRecord_be _ h
      · exact h
  · unfold queryBody; split
    · exact he _ _
    · split <;> exact he _ _
  · unfold probeBody; split <;> exact he _ _
  · exact retireBody_be h
  · unfold forceRetireBody; split
    · exact he _ _
    · exact (forceRetire_be _ h).quiet ((endCommand_quiet _ _ _).trans (settle_quiet _))
  · unfold groupHoldBody; split
    · exact he _ _
    · exact h.quiet (Quiet.same rfl rfl rfl rfl)
  · unfold groupReleaseBody; split
    · exact he _ _
    · exact h.quiet (Quiet.same rfl rfl rfl rfl)
  · unfold groupRetireBody; split
    · exact he _ _
    · exact h.quiet (Quiet.same rfl rfl rfl rfl)
  · unfold targetSetBody; split
    · exact he _ _
    · exact (modTarget_be _ (configured s) h (fun x => Or.inr x) (fun x => h.off _ x)).quiet (endCommand_quiet _ _ _)
  · unfold targetOnlineBody; split
    · exact he _ _
    · dsimp only
      split
      · exact he _ _
      · exact (modTarget_be _ _ h (fun x => Or.inr (Or.inl rfl)) (fun x => by cases x)).quiet ((modPort_quiet _ _).trans (settle_quiet _))
  · exact targetOffline_be h
  · unfold pinSetBody; split
    · exact he _ _
    · exact h.quiet ((modPin_quiet _ _ _).trans (endCommand_quiet _ _ _))
  · unfold tableClearBody; split
    · rename_i ha
      exact (tableClear_be h hs ha).quiet (endCommand_quiet _ _ _)
    · exact he _ _
  · exact he _ _

theorem serve_be {s : State} (op : LinkOp) (h : Belonging s) (hs : Standing s) : Belonging (serve op s) := by
  cases op <;> unfold serve <;> dsimp only
  · unfold eventBody; split
    · exact h.quiet (raise_quiet _ _)
    · exact h.quiet (Quiet.same rfl rfl rfl rfl)
  · exact h.quiet (Quiet.same rfl rfl rfl rfl)
  · exact claimBody_be _ _ _ h hs
  · exact completeBody_be _ _ _ h
  · unfold enableBody; split
    · exact h.quiet (raise_quiet _ _)
    · exact (modTarget_be _ _ h (fun x => Or.inr x) (fun x => h.off _ x)).quiet (settle_quiet _)
  · unfold maskBody; split
    · exact h.quiet (raise_quiet _ _)
    · exact (modTarget_be _ _ h (fun x => Or.inr x) (fun x => h.off _ x)).quiet (settle_quiet _)
  · unfold pageReadBody; split <;> exact h.quiet (Quiet.same rfl rfl rfl rfl)
  · exact h.quiet (Quiet.same rfl rfl rfl rfl)
  · unfold commandWrite takeCommand; split
    · exact h.quiet (modPort_quiet _ _)
    · exact commandBody_be _ (h.quiet (modPort_quiet _ _)) (port_st _ hs)
  · unfold abortBody; split
    · exact h.quiet (endCommand_quiet _ _ _)
    · exact h
  · exact h.quiet (Quiet.same rfl rfl rfl rfl)
  · exact h.quiet (modPort_quiet _ _)
  · exact h.quiet (Quiet.same rfl rfl rfl rfl)
  · exact h.quiet (raise_quiet _ _)

theorem setWaiting_quiet (ops : List LinkOp) (s : State) : Quiet s (setWaiting ops s) := Quiet.same rfl rfl rfl rfl

theorem linkDeliver_be {s : State} (op : LinkOp) (h : Belonging s) (hs : Standing s) : Belonging (linkDeliver op s) := by
  unfold linkDeliver
  split
  · exact h
  · split
    · exact h.quiet (setWaiting_quiet _ _)
    · exact serve_be _ h hs

theorem takeWaiting_be (ops : List LinkOp) {s : State} (h : Belonging s) (hs : Standing s) : Belonging (takeWaiting ops s) := by
  induction ops generalizing s with
  | nil => exact h.quiet (setWaiting_quiet _ _)
  | cons op ops ih =>
    unfold takeWaiting
    split
    · exact h.quiet (setWaiting_quiet _ _)
    · exact ih (serve_be _ h hs) (serve_st _ hs)

theorem drainWaiting_be {s : State} (h : Belonging s) (hs : Standing s) : Belonging (drainWaiting s) := by
  unfold drainWaiting
  split
  · exact takeWaiting_be _ h hs
  · exact h

theorem regainOne_quiet (s : State) (t : TargetId) : Quiet s (regainOne s t) := by
  rw [regainOne_eq]
  have ht : ∀ k : TargetId, (s.targets.set t { s.targets[t] with writeOwed := false })[k].state = s.targets[k].state
      ∧ (s.targets.set t { s.targets[t] with writeOwed := false })[k].stack = s.targets[k].stack := by
    intro k
    rw [target_get_set]
    split
    · rename_i h; subst h; exact ⟨rfl, rfl⟩
    · exact ⟨rfl, rfl⟩
  exact ⟨fun k => (ht k).1, fun k h => by rw [show _ = _ from (ht k).2]; exact h, fun _ h => ⟨h, rfl⟩,
    fun d n h => ⟨d, n, h, n.alike_refl⟩, fun d h => ⟨d, h, rfl, rfl⟩⟩

theorem regainIf_quiet (b s : State) : Quiet s (regainIf b s) := by
  obtain ⟨u, hu, e, ht⟩ := regainIf_parts b s
  have hp : u.pool = s.pool := by rw [e]
  have hs : u.slots = s.slots := by rw [e]
  have hd : u.deferred = s.deferred := by rw [e]
  rw [hu]
  exact ⟨fun k => by rw [ht k], fun k h => by rw [ht k]; exact h, fun i h => by rw [hs] at *; exact ⟨h, rfl⟩,
    fun d n h => ⟨d, n, by rw [← hp]; exact h, n.alike_refl⟩, fun d h => ⟨d, by rw [← hd]; exact h, rfl, rfl⟩⟩

theorem holdOff_quiet (e : EntryId) (s : State) : Quiet s (holdOffBody e s) := by
  unfold holdOffBody
  split
  · exact (ripen_quiet _ _).trans (settle_quiet _)
  · exact Quiet.refl s

theorem deadline_be {s : State} (t : TargetId) (h : Belonging s) : Belonging (deadlineBody t s) := by
  unfold deadlineBody
  split
  · refine BelongBut.quiet ?_ (settle_quiet _)
    unfold stall
    exact rehomeAndJudge_be t ((modTarget_be _ _ h (fun x => Or.inr (Or.inr rfl)) (fun x => by cases x)).quiet (raise_quiet _ _))
  · exact h

theorem wait_quiet (s : State) : Quiet s (waitBody s) := by
  unfold waitBody
  split
  · exact endCommand_quiet _ _ _
  · exact Quiet.refl s

theorem filtered_quiet (p : PinId) (s : State) : Quiet s (filteredLevelBody p s) := by
  unfold filteredLevelBody
  split
  · exact modPin_quiet _ _ _
  · exact Quiet.refl s

theorem be_empty {s : State} (hp : s.pool = Vector.replicate 512 none) (hd : s.deferred = []) (hs : ∀ t : TargetId, s.targets[t].stack = []) : Belonging s := by
  have hg : ∀ e : EntryId, s.pool[e] = none := by intro e; rw [hp]; simp
  refine ⟨fun e n hn => ?_, fun d hdd => ?_, fun e n hn => ?_, fun t _ => hs t⟩
  · rw [hg] at hn; cases hn
  · rw [hd] at hdd; cases hdd
  · rw [hg] at hn; cases hn

theorem reset_be : Belonging State.reset := be_empty rfl rfl (fun t => by simp [State.reset, Target.powerOn])

end Sys2Proof.Machine
end

