-- ==== Sys2Proof/Laws/Discards.lean ====
section
/-! SUPPORT. What a retirement's discards leave, in closed form: which entries, pairs and pins they change, when the record is freed, and that freeing it commutes with the rest; and which notices and pairs stay when a target goes OFFLINE. -/

open Sys2Proof

namespace Sys2Proof.Machine

/-! ### Lists and counts -/

theorem repeat_repeat {α : Type} (f : α → α) (m n : Nat) (a : α) :
    Nat.repeat f m (Nat.repeat f n a) = Nat.repeat f (n + m) a := by
  induction m with
  | zero => rfl
  | succ m ih => exact congrArg f ih

/-- The positions of a bank whose contents satisfy a test, as a filter of all positions. -/
theorem indicesWhere_eq {α : Type} {n : Nat} [NeZero n] (p : α → Bool) (v : Vector α n) :
    indicesWhere p v = (List.finRange n).filter fun i => p v[i] := by
  refine List.Perm.eq_of_pairwise (le := (· < ·)) ?_ (indicesWhere_sorted p v) ?_ ?_
  · intro a b _ _ h k; exact absurd h (lt_asymm k)
  · exact (List.pairwise_lt_finRange n).filter _
  · refine (List.perm_ext_iff_of_nodup ?_ ?_).mpr ?_
    · exact (indicesWhere_sorted p v).imp fun h => ne_of_lt h
    · exact (List.nodup_finRange n).filter _
    · intro i; rw [mem_indicesWhere, List.mem_filter]; simp

theorem mem_inCreationOrder (s : State) (p : Notice → Bool) (e : EntryId) :
    e ∈ inCreationOrder s p ↔ e ∈ s.order ∧ ∃ n, s.pool[e] = some n ∧ p n = true := by
  unfold inCreationOrder entryIs
  rw [List.mem_filter, Option.any_eq_true]

/-! ### Entries removed -/

/-- A target whose lists are without some entries. -/
def Target.without (es : List EntryId) (c : Target) : Target :=
  { c with lists := c.lists.map fun l => l.filter fun e => !es.contains e }

/-- A state without the notices in some entries. -/
def without (es : List EntryId) (s : State) : State :=
  { s with
    pool := Vector.ofFn fun e => if e ∈ es then none else s.pool[e]
    order := s.order.filter fun e => !es.contains e
    targets := s.targets.map (Target.without es) }

theorem without_nil (s : State) : without [] s = s := by
  unfold without
  have h1 : (Vector.ofFn fun e : EntryId => if e ∈ ([] : List EntryId) then none else s.pool[e]) = s.pool := by
    ext1 i hi; simp
  have h2 : (fun e : EntryId => !([] : List EntryId).contains e) = fun _ => true := by funext e; simp
  have h3 (l : List EntryId) : l.filter (fun _ => true) = l := List.filter_eq_self.mpr fun _ _ => rfl
  have h4 : s.targets.map (Target.without []) = s.targets := by
    ext1 i hi
    rw [Vector.getElem_map]
    have : (s.targets[i].lists.map fun l => l.filter fun e => !([] : List EntryId).contains e) = s.targets[i].lists := by
      ext1 j hj; rw [Vector.getElem_map, h2, h3]
    unfold Target.without
    rw [this]
  rw [h1, h2, h3, h4]

theorem without_without (es ds : List EntryId) (s : State) : without ds (without es s) = without (es ++ ds) s := by
  have hf (l : List EntryId) : (l.filter fun e => !es.contains e).filter (fun e => !ds.contains e)
      = l.filter fun e => !(es ++ ds).contains e := by
    rw [List.filter_filter]
    refine List.filter_congr fun e _ => ?_
    rw [List.contains_eq_mem, List.contains_eq_mem, List.contains_eq_mem]
    simp [Bool.and_comm]
  unfold without
  dsimp only
  have h1 : (Vector.ofFn fun e : EntryId => if e ∈ ds then none else
      (Vector.ofFn fun e : EntryId => if e ∈ es then none else s.pool[e])[e])
      = Vector.ofFn fun e : EntryId => if e ∈ es ++ ds then none else s.pool[e] := by
    ext1 i hi
    simp only [Vector.getElem_ofFn, Fin.getElem_fin, List.mem_append]
    by_cases a : (⟨i, hi⟩ : EntryId) ∈ ds <;> by_cases b : (⟨i, hi⟩ : EntryId) ∈ es <;> simp [a, b]
  have h2 : (s.targets.map (Target.without es)).map (Target.without ds) = s.targets.map (Target.without (es ++ ds)) := by
    ext1 i hi
    rw [Vector.getElem_map, Vector.getElem_map, Vector.getElem_map]
    unfold Target.without
    dsimp only
    have : ((s.targets[i].lists.map fun l => l.filter fun e => !es.contains e).map fun l => l.filter fun e => !ds.contains e)
        = s.targets[i].lists.map fun l => l.filter fun e => !(es ++ ds).contains e := by
      ext1 j hj; rw [Vector.getElem_map, Vector.getElem_map, Vector.getElem_map, hf]
    rw [this]
  rw [h1, h2, hf]

/-- A GATHERING or PENDING notice that stands leaves its entry, the creation order and its list. -/
theorem removeNotice_eq {X : EntryId → Prop} {s : State} (h : StandBut X s) {e : EntryId} {n : Notice}
    (hn : s.pool[e] = some n) : removeNotice e s = without [e] s := by
  have hc (l : List EntryId) (hl : l.Nodup) : l.erase e = l.filter fun d => !([e] : List EntryId).contains d := by
    rw [hl.erase_eq_filter]
    refine List.filter_congr fun d _ => ?_
    rw [List.contains_eq_mem]
    by_cases hd : d = e <;> simp [hd]
  have hout (t : TargetId) (l : Level) (hd : ¬ (n.target = t ∧ n.level = l)) :
      (s.targets[t].lists[l]).filter (fun d => !([e] : List EntryId).contains d) = s.targets[t].lists[l] := by
    refine List.filter_eq_self.mpr fun d hm => ?_
    have : d ≠ e := by
      rintro rfl
      obtain ⟨m, hm', _, a, b⟩ := (h.list t l d).mp hm
      rw [hn] at hm'
      cases hm'
      exact hd ⟨a, b⟩
    rw [List.contains_eq_mem]
    simp [this]
  unfold removeNotice without
  rw [hn]
  dsimp only
  have hp : (setEntry e none s).pool = Vector.ofFn fun d : EntryId => if d ∈ [e] then none else s.pool[d] := by
    ext1 i hi
    have := pool_get_set s.pool e ⟨i, hi⟩ none
    rw [Vector.getElem_ofFn]
    refine Eq.trans this ?_
    by_cases hd : e = ⟨i, hi⟩
    · rw [if_pos hd, if_pos (by rw [hd]; exact List.mem_singleton_self _)]
    · rw [if_neg hd, if_neg (fun hm => hd (List.mem_singleton.mp hm).symm)]
  have ht : (modList n.target n.level (·.erase e) (setEntry e none s)).targets
      = s.targets.map (Target.without [e]) := by
    ext1 i hi
    rw [Vector.getElem_map]
    have ha := target_get_set s.targets n.target ⟨i, hi⟩
      { s.targets[n.target] with lists := s.targets[n.target].lists.set n.level ((s.targets[n.target].lists[n.level]).erase e) }
    refine Eq.trans ha ?_
    have hl (k : TargetId) : (s.targets[k].lists.map fun l => l.filter fun d => !([e] : List EntryId).contains d)
        = if n.target = k then s.targets[k].lists.set n.level ((s.targets[k].lists[n.level]).erase e) else s.targets[k].lists := by
      ext1 j hj
      rw [Vector.getElem_map]
      by_cases hk : n.target = k
      · rw [if_pos hk]
        refine Eq.trans ?_ (list_get_set s.targets[k].lists n.level ⟨j, hj⟩ ((s.targets[k].lists[n.level]).erase e)).symm
        by_cases hj' : n.level = ⟨j, hj⟩
        · rw [if_pos hj']
          have hj (m j : Level) (hm : m = j) : (s.targets[k].lists[j]).filter (fun d => !([e] : List EntryId).contains d)
              = (s.targets[k].lists[m]).erase e := by subst hm; exact (hc _ (h.listNodup k m)).symm
          exact hj _ _ hj'
        · rw [if_neg hj']; exact hout k ⟨j, hj⟩ (fun hh => hj' hh.2)
      · rw [if_neg hk]; exact hout k ⟨j, hj⟩ (fun hh => hk hh.1)
    have hl' := hl ⟨i, hi⟩
    unfold Target.without
    by_cases hk : n.target = ⟨i, hi⟩
    · rw [if_pos hk] at hl' ⊢
      have hx (k : TargetId) (hk : n.target = k) :
          { s.targets[n.target] with lists := s.targets[n.target].lists.set n.level ((s.targets[n.target].lists[n.level]).erase e) }
            = { s.targets[k] with lists := s.targets[k].lists.set n.level ((s.targets[k].lists[n.level]).erase e) } := by
        subst hk; rfl
      exact (hx _ hk).trans (congrArg (fun l => { s.targets[i] with lists := l }) hl'.symm)
    · rw [if_neg hk] at hl' ⊢
      exact congrArg (fun l => { s.targets[i] with lists := l }) hl'.symm
  rw [← hp, ← ht, ← hc s.order h.orderNodup]
  rfl

theorem dropNotice_eq {X : EntryId → Prop} {s : State} (h : StandBut X s) {e : EntryId} {n : Notice}
    (hn : s.pool[e] = some n) : dropNotice e s = rearmPins n.pins (without [e] s) := by
  unfold dropNotice
  rw [hn, removeNotice_eq h hn]

/-- A state with other pins. -/
def withPins (v : Vector Pin 32) (s : State) : State := { s with pins := v }

theorem withPins_pool (v : Vector Pin 32) (s : State) : (withPins v s).pool = s.pool := rfl

theorem withPins_pins (v : Vector Pin 32) (s : State) : (withPins v s).pins = v := rfl

theorem withPins_deferred (v : Vector Pin 32) (s : State) : (withPins v s).deferred = s.deferred := rfl

theorem withPins_slots (v : Vector Pin 32) (s : State) : (withPins v s).slots = s.slots := rfl

theorem withPins_stand {X : EntryId → Prop} {s : State} (v : Vector Pin 32) (h : StandBut X s) : StandBut X (withPins v s) :=
  h.targets rfl rfl rfl

theorem withPins_withPins (v w : Vector Pin 32) (s : State) : withPins v (withPins w s) = withPins v s := rfl

theorem without_pins (es : List EntryId) (s : State) : (without es s).pins = s.pins := by unfold without; rfl

theorem without_withPins (es : List EntryId) (v : Vector Pin 32) (s : State) :
    without es (withPins v s) = withPins v (without es s) := rfl

theorem rearmPins_eq (ps : PinSet) (s : State) : rearmPins ps s = withPins (rearmPins ps s).pins s := rfl

theorem rearmPins_get (ps : PinSet) (s : State) (p : PinId) :
    (rearmPins ps s).pins[p] = if ps.getLsbD p then rearmPin s.pins[p] else s.pins[p] := by
  unfold rearmPins modPins
  exact Vector.getElem_ofFn _

/-- Several notices dropped, none of them on a stack: their entries are empty, and each has made its re-arm requests (R72). -/
theorem foldl_dropNotice {s : State} (es : List EntryId) {X : EntryId → Prop} (h : StandBut X s) (hn : es.Nodup)
    (hu : ∀ e ∈ es, ∃ n, s.pool[e] = some n ∧ (n.isInService = true → X e)) :
    es.foldl (fun s e => dropNotice e s) s = withPins
      (Vector.ofFn fun p => Nat.repeat rearmPin (es.countP fun e => (s.pool[e]).any fun n => n.pins.getLsbD p) s.pins[p])
      (without es s) := by
  induction es generalizing s X with
  | nil =>
    rw [without_nil]
    have : (Vector.ofFn fun p : PinId => s.pins[p]) = s.pins := by ext1 i hi; simp
    show s = withPins (Vector.ofFn fun p : PinId => s.pins[p]) s
    rw [this]
    rfl
  | cons e es ih =>
    obtain ⟨n, hp, hs⟩ := hu e List.mem_cons_self
    obtain ⟨hne, hnd⟩ := List.nodup_cons.mp hn
    have hst := dropNotice_stand e h (fun m hm hv => by rw [hp] at hm; cases hm; exact hs hv)
    have hpool (d : EntryId) (hd : d ∈ es) : (dropNotice e s).pool[d] = s.pool[d] :=
      dropNotice_other e d s (fun hh => hne (hh ▸ hd))
    have hd := ih hst hnd (fun d hd => by
      rw [hpool d hd]
      obtain ⟨m, h1, h2⟩ := hu d (List.mem_cons_of_mem _ hd)
      exact ⟨m, h1, fun h => ⟨h2 h, fun k => hne (k ▸ hd)⟩⟩)
    rw [List.foldl_cons, hd]
    have hpins : (Vector.ofFn fun p : PinId => Nat.repeat rearmPin
          (es.countP fun d => ((dropNotice e s).pool[d]).any fun n => n.pins.getLsbD p) (dropNotice e s).pins[p])
        = Vector.ofFn fun p : PinId => Nat.repeat rearmPin ((e :: es).countP fun d => (s.pool[d]).any fun n => n.pins.getLsbD p) s.pins[p] := by
      ext1 i hi
      have h1 : (dropNotice e s).pins[(⟨i, hi⟩ : PinId)]
          = if n.pins.getLsbD i then rearmPin s.pins[(⟨i, hi⟩ : PinId)] else s.pins[(⟨i, hi⟩ : PinId)] := by
        rw [dropNotice_eq h hp]
        rw [rearmPins_get, without_pins]
      have h2 : (es.countP fun d => ((dropNotice e s).pool[d]).any fun n => n.pins.getLsbD i)
          = es.countP fun d => (s.pool[d]).any fun n => n.pins.getLsbD i :=
        List.countP_congr fun d hd => by rw [hpool d hd]
      rw [Vector.getElem_ofFn, Vector.getElem_ofFn, List.countP_cons, hp, h1, h2, Option.any_some]
      split
      · exact repeat_comm rearmPin _ _
      · rfl
    rw [hpins, dropNotice_eq h hp, rearmPins_eq, without_withPins, without_without, withPins_withPins]
    rfl

/-! ### Reports -/

/-- A slot freed or not. -/
def freeIf (b : Bool) (i : SlotId) (s : State) : State := if b then freeSlot i s else s

/-- A report for which no RETIRE waits frees the slot of a RETIRING record with nothing outstanding (R16). -/
theorem reportCeased_eq {s : State} (i : SlotId) (hf : ∀ f, s.port.flight ≠ some (.retireWait i f)) :
    reportCeased i s = freeIf (s.slots[i].state == .retiring && outstanding s i == 0) i s := by
  unfold reportCeased freeIf
  split
  · unfold endRetireWait
    split
    · rename_i j f h
      rw [if_neg]
      rintro rfl
      exact hf f h
    · rfl
  · rfl

theorem freeSlot_state (i : SlotId) (s : State) : (freeSlot i s).slots[i] = Slot.freeOf s.slots[i].generation := by
  unfold freeSlot modSlot
  rw [slot_get_set, if_pos rfl]

theorem ownedBy_freeSlot (i j : SlotId) (s : State) : ownedBy (freeSlot i s) j = ownedBy s j := by
  funext n
  unfold ownedBy
  have : (freeSlot i s).slots[j].generation = s.slots[j].generation := by
    unfold freeSlot modSlot
    rw [slot_get_set]
    split
    · rename_i h; subst h; rfl
    · rfl
  rw [this]

theorem outstanding_freeSlot (i j : SlotId) (s : State) : outstanding (freeSlot i s) j = outstanding s j := by
  unfold outstanding
  rw [ownedBy_freeSlot]
  rfl

/-- A report at a slot that is not RETIRING changes nothing. -/
theorem reportCeased_of_not {s : State} {i : SlotId} (h : s.slots[i].state ≠ .retiring) : reportCeased i s = s := by
  unfold reportCeased
  rw [beq_eq_false_iff_ne.mpr h, Bool.false_and, if_neg Bool.false_ne_true]

/-- Items that cease one after another, each reported: the record is freed exactly when nothing of it is outstanding at the end. -/
theorem foldl_report {α : Type} (f : State → α → State) (i : SlotId)
    (hport : ∀ s a, (f s a).port = s.port) (hslots : ∀ s a, (f s a).slots = s.slots)
    (hfree : ∀ s a, f (freeSlot i s) a = freeSlot i (f s a))
    (hout : ∀ s a, outstanding s i = 0 → outstanding (f s a) i = 0) (l : List α) (s : State)
    (hf : ∀ f, s.port.flight ≠ some (.retireWait i f)) (hl : l ≠ []) :
    l.foldl (fun s a => reportCeased i (f s a)) s
      = freeIf (s.slots[i].state == .retiring && outstanding (l.foldl f s) i == 0) i (l.foldl f s) := by
  have hstay (l : List α) (s : State) (hs : s.slots[i].state ≠ .retiring) :
      l.foldl (fun s a => reportCeased i (f s a)) s = l.foldl f s := by
    induction l generalizing s with
    | nil => rfl
    | cons a l ih =>
      have h : (f s a).slots[i].state ≠ .retiring := by rw [hslots]; exact hs
      rw [List.foldl_cons, List.foldl_cons, reportCeased_of_not h]
      exact ih _ h
  have hcomm (l : List α) (s : State) : l.foldl f (freeSlot i s) = freeSlot i (l.foldl f s) := by
    induction l generalizing s with
    | nil => rfl
    | cons a l ih => rw [List.foldl_cons, List.foldl_cons, hfree, ih]
  have hzero (l : List α) (s : State) (h : outstanding s i = 0) : outstanding (l.foldl f s) i = 0 := by
    induction l generalizing s with
    | nil => exact h
    | cons a l ih => exact ih _ (hout s a h)
  induction l generalizing s with
  | nil => exact absurd rfl hl
  | cons a l ih =>
    rw [List.foldl_cons, List.foldl_cons, reportCeased_eq i (by rw [hport]; exact hf), hslots]
    by_cases hr : s.slots[i].state = .retiring
    · by_cases ho : outstanding (f s a) i = 0
      · have hfr : (freeSlot i (f s a)).slots[i].state ≠ .retiring := by rw [freeSlot_state]; exact SlotState.noConfusion
        have h0 := hzero l (f s a) ho
        rw [show (s.slots[i].state == .retiring && outstanding (f s a) i == 0) = true by rw [hr, ho]; rfl,
          show (s.slots[i].state == .retiring && outstanding (l.foldl f (f s a)) i == 0) = true by rw [hr, h0]; rfl]
        exact (hstay l _ hfr).trans (hcomm l _)
      · rw [show (s.slots[i].state == .retiring && outstanding (f s a) i == 0) = false by
          rw [beq_eq_false_iff_ne.mpr ho, Bool.and_false]]
        by_cases hl' : l = []
        · subst hl'
          rw [List.foldl_nil, List.foldl_nil, beq_eq_false_iff_ne.mpr ho, Bool.and_false]
        · refine (ih (f s a) (by rw [hport]; exact hf) hl').trans ?_
          rw [hslots]
    · rw [beq_eq_false_iff_ne.mpr hr, Bool.false_and]
      refine (hstay l _ ?_).trans ?_
      · show (f s a).slots[i].state ≠ _
        rw [hslots]; exact hr
      · rfl

theorem removeNotice_table (v : Vector Slot 1024) (e : EntryId) (s : State) :
    removeNotice e { s with slots := v } = { removeNotice e s with slots := v } := by
  unfold removeNotice
  cases s.pool[e] with
  | none => exact rfl
  | some n => exact rfl

theorem rearmPins_table (v : Vector Slot 1024) (ps : PinSet) (s : State) :
    rearmPins ps { s with slots := v } = { rearmPins ps s with slots := v } := rfl

theorem rearmPins_freeSlot (i : SlotId) (ps : PinSet) (s : State) :
    rearmPins ps (freeSlot i s) = freeSlot i (rearmPins ps s) := by
  unfold freeSlot modSlot
  rw [rearmPins_table, rearmPins_slots]

theorem dropNotice_table (v : Vector Slot 1024) (e : EntryId) (s : State) :
    dropNotice e { s with slots := v } = { dropNotice e s with slots := v } := by
  unfold dropNotice
  rw [removeNotice_table]
  generalize removeNotice e s = u
  cases s.pool[e] with
  | none => exact rfl
  | some n => exact rearmPins_table v n.pins u

theorem dropNotice_freeSlot (i : SlotId) (e : EntryId) (s : State) :
    dropNotice e (freeSlot i s) = freeSlot i (dropNotice e s) := by
  unfold freeSlot modSlot
  rw [dropNotice_table, dropNotice_slots]

theorem dropNotice_port (e : EntryId) (s : State) : (dropNotice e s).port = s.port := by
  have h : (removeNotice e s).port = s.port := by
    unfold removeNotice
    split <;> rfl
  unfold dropNotice
  split
  · rw [rearmPins_port, h]
  · rfl

/-- Nothing outstanding stays so where entries are only emptied. -/
theorem outstanding_zero {s : State} {i : SlotId} : outstanding s i = 0 ↔
    (∀ (e : EntryId) n, s.pool[e] = some n → ownedBy s i n = false) ∧ ∀ d ∈ s.deferred, d.slot ≠ i := by
  unfold outstanding
  rw [Nat.add_eq_zero_iff, countNotices_zero, List.countP_eq_zero]
  simp

theorem outstanding_rearmPins (i : SlotId) (ps : PinSet) (s : State) : outstanding (rearmPins ps s) i = outstanding s i := by
  unfold outstanding countNotices ownedBy
  rw [rearmPins_pool, rearmPins_slots, rearmPins_deferred]

theorem Shrinks.outstanding {s t : State} (h : Shrinks s t) (hs : t.slots = s.slots) (i : SlotId)
    (h0 : outstanding s i = 0) : outstanding t i = 0 := by
  rw [outstanding_zero] at h0 ⊢
  refine ⟨fun e n hn => ?_, fun d hd => h0.2 d (h.deferred ▸ hd)⟩
  have := h0.1 e n (h.pool e n hn)
  unfold ownedBy at this ⊢
  rw [hs]
  exact this

/-- Notices of a record that cease one after another: each is dropped and reported. -/
theorem foldl_ceaseNotice (i : SlotId) (es : List EntryId) (s : State) (hn : es.Nodup)
    (h : ∀ e ∈ es, ∃ n, s.pool[e] = some n ∧ n.slot = i ∧ n.isOrphan = false) :
    es.foldl (fun s e => ceaseNotice e s) s = es.foldl (fun s e => reportCeased i (dropNotice e s)) s := by
  induction es generalizing s with
  | nil => rfl
  | cons e es ih =>
    obtain ⟨n, hp, hs, ho⟩ := h e List.mem_cons_self
    obtain ⟨hne, hnd⟩ := List.nodup_cons.mp hn
    have hc : ceaseNotice e s = reportCeased i (dropNotice e s) := by
      unfold ceaseNotice
      rw [hp]
      dsimp only
      rw [ho, if_neg Bool.false_ne_true, hs]
    rw [List.foldl_cons, List.foldl_cons, hc]
    refine ih _ hnd fun d hd => ?_
    rw [(reportCeased_same i _).2.1, dropNotice_other e d s (fun hh => hne (hh ▸ hd))]
    exact h d (List.mem_cons_of_mem _ hd)

/-- The items of a RETIRING record that a discard takes, dropped: pairs, then GATHERING and PENDING notices. -/
def dropItems (i : SlotId) (es : List EntryId) (s : State) : State :=
  es.foldl (fun s e => dropNotice e s) (dropPairs i s)

/-- The entries, ascending, of a record's GATHERING and PENDING notices (R164). -/
theorem discardable_eq (s : State) (i : SlotId) :
    discardable s i = ascending s fun n => n.unclaimed && ownedBy s i n := by
  unfold discardable ascending
  rw [indicesWhere_eq]
  have h : (fun n : Notice => !n.isInService && n.slot == i && n.generation == s.slots[i].generation)
      = fun n => n.unclaimed && ownedBy s i n := by
    funext n
    unfold Notice.unclaimed ownedBy Notice.isInService Notice.isOrphan
    cases n.phase <;> simp
  rw [h]

theorem mem_discardable (s : State) (i : SlotId) (e : EntryId) : e ∈ discardable s i ↔
    ∃ n, s.pool[e] = some n ∧ n.isInService = false ∧ n.isOrphan = false ∧ n.slot = i ∧ n.generation = s.slots[i].generation := by
  rw [discardable_eq, mem_ascending]
  refine exists_congr fun n => and_congr_right fun _ => ?_
  unfold Notice.unclaimed ownedBy Notice.isInService Notice.isOrphan
  cases n.phase <;> simp

theorem discardable_nodup (s : State) (i : SlotId) : (discardable s i).Nodup := by
  rw [discardable_eq]
  exact ascending_nodup s _

/-- A discard of a RETIRING record's items, reported: the slot is freed when nothing of the record is left, unless there was nothing to discard. -/
theorem discardItems_eq {s : State} {i : SlotId} (hf : ∀ f, s.port.flight ≠ some (.retireWait i f)) (hr : s.slots[i].state = .retiring) :
    ∃ b, discardItems i s = handOverAll (discardable s i) (settle (freeIf b i (dropItems i (discardable s i) s)))
      ∧ (b = true → outstanding (dropItems i (discardable s i) s) i = 0)
      ∧ (b = false → outstanding (dropItems i (discardable s i) s) i ≠ 0 ∨ discardable s i = []) := by
  have hd : discardItems i s = ceaseAll (discardable s i) (ceasePairs (fun d => d.slot == i) s) := by
    rw [discardable_eq]; rfl
  have hmem := fun e => (mem_discardable s i e).mp
  have hnd := discardable_nodup s i
  generalize discardable s i = es at *
  generalize hP : s.deferred.filter (fun d => d.slot == i) = P
  generalize hx0 : ({ s with deferred := s.deferred.filter fun d => !(d.slot == i) } : State) = x0
  have hpairs : ceasePairs (fun d => d.slot == i) s = P.foldl (fun s (d : Pair) => reportCeased i (rearmPins d.pins s)) x0 := by
    unfold ceasePairs
    rw [hP, hx0]
    refine List.foldl_ext _ _ _ fun x d hd => ?_
    rw [← hP] at hd
    have : d.slot = i := by simpa using (List.mem_filter.mp hd).2
    unfold ceasePair
    rw [this]
  have hdp : dropPairs i s = P.foldl (fun s (d : Pair) => rearmPins d.pins s) x0 := by
    unfold dropPairs
    rw [hP, hx0]
  have h0 : (∀ f, x0.port.flight ≠ some (.retireWait i f)) ∧ x0.slots[i].state = .retiring := by rw [← hx0]; exact ⟨hf, hr⟩
  obtain ⟨a1, a2, a3⟩ : (P.foldl (fun s (d : Pair) => rearmPins d.pins s) x0).pool = x0.pool
      ∧ (P.foldl (fun s (d : Pair) => rearmPins d.pins s) x0).port = x0.port
      ∧ (P.foldl (fun s (d : Pair) => rearmPins d.pins s) x0).slots = x0.slots := by
    obtain ⟨v, hv⟩ := foldl_rearmPins_rest (P.map Pair.pins) x0
    rw [List.foldl_map] at hv
    rw [hv]
    exact ⟨rfl, rfl, rfl⟩
  rw [← hdp] at a1 a2 a3
  have hx0p : x0.pool = s.pool := by rw [← hx0]
  have hp1 : ∀ e ∈ es, ∃ n, (dropPairs i s).pool[e] = some n ∧ n.slot = i ∧ n.isOrphan = false := by
    intro e he
    obtain ⟨n, h1, _, h2, h3, _⟩ := hmem e he
    exact ⟨n, by rw [a1, hx0p]; exact h1, h3, h2⟩
  have hx0g : x0.slots = s.slots := by rw [← hx0]
  have hlive : es ≠ [] → outstanding (dropPairs i s) i ≠ 0 := by
    intro hne hz
    obtain ⟨e, l, rfl⟩ := List.exists_cons_of_ne_nil hne
    obtain ⟨n, h1, _, h2, h3, h4⟩ := hmem e List.mem_cons_self
    have := (outstanding_zero.mp hz).1 e n (by rw [a1, hx0p]; exact h1)
    unfold ownedBy at this
    rw [a3, hx0g, h2, h3, h4] at this
    simp at this
  have hreport : es ≠ [] → es.foldl (fun s e => ceaseNotice e s) (dropPairs i s)
      = freeIf (outstanding (dropItems i es s) i == 0) i (dropItems i es s) := by
    intro hne
    rw [foldl_ceaseNotice i es _ hnd hp1]
    have := foldl_report (fun s e => dropNotice e s) i (fun s e => dropNotice_port e s) (fun s e => dropNotice_slots e s)
      (fun s e => dropNotice_freeSlot i e s)
      (fun s e h => (dropNotice_shrinks e s).outstanding (dropNotice_slots e s) i h) es (dropPairs i s)
      (by rw [a2]; exact h0.1) hne
    rw [this, a3, h0.2]
    rfl
  have hpf : P ≠ [] → ceasePairs (fun d => d.slot == i) s
      = freeIf (outstanding (dropPairs i s) i == 0) i (dropPairs i s) := by
    intro hne
    rw [hpairs]
    have := foldl_report (fun s (d : Pair) => rearmPins d.pins s) i (fun s d => rearmPins_port d.pins s)
      (fun s d => rearmPins_slots d.pins s) (fun s d => rearmPins_freeSlot i d.pins s) (fun s d h => (outstanding_rearmPins i d.pins s).trans h) P x0 h0.1 hne
    rw [this, ← hdp, h0.2]
    rfl
  rw [hd]
  unfold ceaseAll
  by_cases hes : es = []
  · subst hes
    by_cases hPn : P = []
    · refine ⟨false, ?_, fun h => absurd h Bool.false_ne_true, fun _ => Or.inr rfl⟩
      rw [hpairs, dropItems, hdp, hPn]
      rfl
    · refine ⟨outstanding (dropPairs i s) i == 0, ?_, fun h => beq_iff_eq.mp h, fun h => Or.inl (beq_eq_false_iff_ne.mp h)⟩
      rw [hpf hPn]
      rfl
  · have hc : ceasePairs (fun d => d.slot == i) s = dropPairs i s := by
      by_cases hPn : P = []
      · rw [hpairs, hdp, hPn]; rfl
      · rw [hpf hPn, beq_eq_false_iff_ne.mpr (hlive hes)]; rfl
    refine ⟨outstanding (dropItems i es s) i == 0, ?_, fun h => beq_iff_eq.mp h, fun h => Or.inl (beq_eq_false_iff_ne.mp h)⟩
    rw [hc, hreport hes]

/-- The items of a record dropped, written out: their pins are re-armed by each carrier, and only their entries and pairs are gone (R164, R69, R72). -/
theorem dropItems_eq {s : State} (hS : Standing s) (i : SlotId) :
    dropItems i (discardable s i) s = withPins
      (Vector.ofFn fun p => Nat.repeat rearmPin
        ((s.deferred.filter fun d => d.slot == i).countP (fun d => d.pins.getLsbD p)
          + (discardable s i).countP fun e => (s.pool[e]).any fun n => n.pins.getLsbD p) s.pins[p])
      (without (discardable s i) { s with deferred := s.deferred.filter fun d => d.slot != i }) := by
  unfold dropItems
  obtain ⟨v, hv⟩ : ∃ v, dropPairs i s = withPins v { s with deferred := s.deferred.filter fun d => d.slot != i } := by
    unfold dropPairs
    obtain ⟨v, hv⟩ := foldl_rearmPins_rest ((s.deferred.filter fun d => d.slot == i).map Pair.pins)
      { s with deferred := s.deferred.filter fun d => !(d.slot == i) }
    rw [List.foldl_map] at hv
    exact ⟨v, hv⟩
  have hp (p : PinId) : v[p] = Nat.repeat rearmPin ((s.deferred.filter fun d => d.slot == i).countP (fun d => d.pins.getLsbD p)) s.pins[p] := by
    have := foldl_rearmPins_pins ((s.deferred.filter fun d => d.slot == i).map Pair.pins)
      { s with deferred := s.deferred.filter fun d => !(d.slot == i) } p
    rw [List.foldl_map, List.countP_map] at this
    have h2 : (dropPairs i s).pins[p] = v[p] := by rw [hv]; rfl
    rw [← h2]
    exact this
  have hst : Standing (withPins v { s with deferred := s.deferred.filter fun d => d.slot != i }) := hS.targets rfl rfl rfl
  rw [hv, foldl_dropNotice _ hst (discardable_nodup s i) ?_, without_withPins, withPins_withPins]
  · refine congrArg (fun v => withPins v _) ?_
    ext1 j hj
    rw [Vector.getElem_ofFn, Vector.getElem_ofFn, ← repeat_repeat]
    exact congrArg (Nat.repeat rearmPin _) (hp ⟨j, hj⟩)
  · intro e he
    obtain ⟨n, h1, h2, _⟩ := (mem_discardable s i e).mp he
    exact ⟨n, h1, fun h => by rw [h2] at h; cases h⟩

/-! ### What is handed over -/

theorem ripen_port (p : Port) (e : EntryId) (s : State) : ripen e { s with port := p } = { ripen e s with port := p } := by
  unfold ripen
  dsimp only
  split
  · split <;> rfl
  · rfl

theorem startNotice_port (p : Port) (e : EntryId) (n : Notice) (s : State) :
    startNotice e n { s with port := p } = { startNotice e n s with port := p } := by
  have key (x : State) : (if draining s n.slot then ripen e { x with port := p } else ripenIfReached e { x with port := p })
      = { (if draining s n.slot then ripen e x else ripenIfReached e x) with port := p } := by
    split
    · exact ripen_port p e x
    · unfold ripenIfReached
      rw [show entryIs { x with port := p } Notice.reached e = entryIs x Notice.reached e from rfl]
      split
      · exact ripen_port p e x
      · rfl
  exact key { setEntry e (some n) s with order := s.order.erase e ++ [e] }

theorem handOver_port (p : Port) (e : EntryId) (s : State) :
    handOver e { s with port := p } = { handOver e s with port := p } := by
  unfold handOver
  dsimp only
  split
  · rfl
  · rename_i d rest _
    exact startNotice_port p e (freshNotice s d.slot d.target d.placement) { s with deferred := rest }

theorem judgeInTurn_port (p : Port) (ts : List TargetId) (s : State) :
    judgeInTurn ts { s with port := p } = { judgeInTurn ts s with port := p } := by
  unfold judgeInTurn
  induction ts generalizing s with
  | nil => rfl
  | cons t ts ih =>
    have h : judgeOne { s with port := p } t = { judgeOne s t with port := p } := by
      rw [judgeOne_eq, judgeOne_eq]
      rfl
    rw [List.foldl_cons, List.foldl_cons, h, ih]

/-- The hand-overs read nothing of the port. -/
theorem handOverAll_port (p : Port) (es : List EntryId) (s : State) :
    handOverAll es { s with port := p } = { handOverAll es s with port := p } := by
  unfold handOverAll
  induction es generalizing s with
  | nil => rfl
  | cons e es ih =>
    have h : handOverInTurn { s with port := p } e = { handOverInTurn s e with port := p } := by
      unfold handOverInTurn
      rw [handOver_port, judgeInTurn_port]
    rw [List.foldl_cons, List.foldl_cons, h, ih]

theorem handOverAll_other (es : List EntryId) (e : EntryId) (s : State) (h : e ∉ es) : (handOverAll es s).pool[e] = s.pool[e] := by
  unfold handOverAll
  exact foldl_pool_other (fun s d e hd => handOverInTurn_other d e s hd) es s e h

/-! ### The retirement of one record -/

/-- The record in a slot changed, its held count discarded, and its pairs, GATHERING and PENDING notices dropped: everything that R164 and R170 discard. -/
def discarded (i : SlotId) (r : Slot) (s : State) : State :=
  withPins (Vector.ofFn fun p => Nat.repeat rearmPin (carriers s i p) s.pins[p])
    (without (discardable s i)
      { s with slots := s.slots.set i r, deferred := s.deferred.filter fun d => d.slot != i })

theorem discarded_slots (i : SlotId) (r : Slot) (s : State) : (discarded i r s).slots = s.slots.set i r := by
  unfold discarded withPins without; rfl

theorem freeSlot_discarded (i : SlotId) (r : Slot) (s : State) :
    freeSlot i (discarded i r s) = discarded i (Slot.freeOf r.generation) s := by
  unfold freeSlot modSlot
  rw [discarded_slots, slot_get_set, if_pos rfl]
  unfold discarded withPins without
  dsimp only
  congr 1
  simp

theorem discarded_pool (i : SlotId) (r : Slot) (s : State) (e : EntryId) :
    (discarded i r s).pool[e] = if e ∈ discardable s i then none else s.pool[e] := by
  have : (discarded i r s).pool = Vector.ofFn fun e : EntryId => if e ∈ discardable s i then none else s.pool[e] := by
    unfold discarded withPins without; rfl
  rw [this]
  exact Vector.getElem_ofFn _

theorem discarded_deferred (i : SlotId) (r : Slot) (s : State) :
    (discarded i r s).deferred = s.deferred.filter fun d => d.slot != i := by
  unfold discarded withPins without; rfl

theorem discarded_now (i : SlotId) (r : Slot) (s : State) : (discarded i r s).now = s.now := by
  unfold discarded withPins without; rfl

/-- What is discarded does not depend on the port. -/
theorem discarded_port (p : Port) (i : SlotId) (r : Slot) (s : State) :
    discarded i r { s with port := p } = { discarded i r s with port := p } := by
  unfold discarded
  rw [show carriers { s with port := p } i = carriers s i from rfl,
    show discardable { s with port := p } i = discardable s i from rfl]
  unfold withPins without
  rfl

/-- The dropping of a record's items after its held count is everything that is discarded. -/
theorem dropItems_discardHeld {s : State} (hS : Standing s) (i : SlotId) (r : Slot) (hg : r.generation = s.slots[i].generation)
    (hh : r.held = s.slots[i].held) :
    discardable (discardHeld i (modSlot i (fun _ => r) s)) i = discardable s i
      ∧ dropItems i (discardable s i) (discardHeld i (modSlot i (fun _ => r) s))
        = discarded i { r with held := Held.empty } s := by
  generalize hd : discardHeld i (modSlot i (fun _ => r) s) = u
  have hu : u = withPins (rearmPins r.held.pins s).pins { s with slots := s.slots.set i { r with held := Held.empty } } := by
    rw [← hd]
    unfold discardHeld setHeld modSlot
    dsimp only
    rw [slot_get_set, if_pos rfl, rearmPins_eq]
    unfold withPins
    dsimp only
    congr 1
    simp
  have hslots : u.slots = s.slots.set i { r with held := Held.empty } := by rw [hu, withPins_slots]
  have hgen : u.slots[i].generation = s.slots[i].generation := by
    rw [hslots, slot_get_set, if_pos rfl]
    exact hg
  have hpool : u.pool = s.pool := by rw [hu, withPins_pool]
  have hdis : discardable u i = discardable s i := by unfold discardable; rw [hgen, hpool]
  have hst : Standing u := by
    rw [hu]
    exact withPins_stand _ (setSlots_stand i (fun _ => { r with held := Held.empty }) hS)
  refine ⟨hdis, ?_⟩
  have := dropItems_eq hst i
  rw [hdis] at this
  rw [this]
  have hdef : u.deferred = s.deferred := by rw [hu, withPins_deferred]
  have hpins (p : PinId) : u.pins[p] = Nat.repeat rearmPin (s.slots[i].held.pins.getLsbD p).toNat s.pins[p] := by
    have h1 : u.pins = (rearmPins r.held.pins s).pins := by rw [hu, withPins_pins]
    rw [h1, rearmPins_get, hh]
    cases s.slots[i].held.pins.getLsbD p <;> rfl
  have hv : (Vector.ofFn fun p : PinId => Nat.repeat rearmPin
      ((u.deferred.filter fun d => d.slot == i).countP (fun d => d.pins.getLsbD p)
        + (discardable s i).countP fun e => (u.pool[e]).any fun n => n.pins.getLsbD p) u.pins[p])
      = Vector.ofFn fun p : PinId => Nat.repeat rearmPin (carriers s i p) s.pins[p] := by
    ext1 j hj
    rw [Vector.getElem_ofFn, Vector.getElem_ofFn, hpins ⟨j, hj⟩, repeat_repeat, hdef, hpool, ← Nat.add_assoc]
    rfl
  rw [hv, hdef]
  have hw : ({ u with deferred := s.deferred.filter fun d => d.slot != i } : State)
      = withPins (rearmPins r.held.pins s).pins { s with
          slots := s.slots.set i { r with held := Held.empty }, deferred := s.deferred.filter fun d => d.slot != i } := by
    rw [hu]
    unfold withPins
    rfl
  rw [hw, without_withPins, withPins_withPins]
  rfl

/-- After everything is discarded, nothing is outstanding exactly when no notice of the record is in service (R166). -/
theorem outstanding_discarded (i : SlotId) (r : Slot) (s : State) (hg : r.generation = s.slots[i].generation) :
    outstanding (discarded i r s) i = 0 ↔ (itemCounts s i).inService = 0 := by
  have ho (n : Notice) : ownedBy (discarded i r s) i n = ownedBy s i n := by
    unfold ownedBy
    rw [discarded_slots, slot_get_set, if_pos rfl, hg]
  unfold itemCounts
  dsimp only
  rw [outstanding_zero, countNotices_zero, discarded_deferred]
  constructor
  · rintro ⟨h, _⟩ e n hn
    by_cases hv : n.isInService = true
    · have : (discarded i r s).pool[e] = some n := by
        rw [discarded_pool, if_neg, hn]
        intro hm
        obtain ⟨m, h1, h2, _⟩ := (mem_discardable s i e).mp hm
        rw [hn] at h1
        cases h1
        rw [h2] at hv
        cases hv
      have := h e n this
      rw [ho] at this
      rw [this, Bool.false_and]
    · rw [eq_false_of_ne_true hv, Bool.and_false]
  · intro h
    refine ⟨fun e n hn => ?_, fun d hd => ?_⟩
    · rw [discarded_pool] at hn
      rw [ho]
      split at hn
      · cases hn
      · rename_i hm
        have hx := h e n hn
        by_contra hc
        have hc := eq_true_of_ne_false hc
        rw [hc, Bool.true_and] at hx
        unfold ownedBy at hc
        simp only [Bool.and_eq_true, beq_iff_eq, Bool.not_eq_true'] at hc
        exact hm ((mem_discardable s i e).mpr ⟨n, hn, hx, hc.2, hc.1.1, hc.1.2⟩)
    · simpa using (List.mem_filter.mp hd).2

/-- What a retirement under DISCARD does (R163, R164, R166, R69, R72): everything discarded, the slot FREE if no notice of it is in service, the targets judged, then the freed entries handed over. -/
theorem retireRecord_discard {s : State} (hS : Standing s) (i : SlotId) (hf : ∀ f, s.port.flight ≠ some (.retireWait i f)) :
    retireRecord i .discard s = settle (handOverAll (discardable s i) (settle (discarded i
      (if (itemCounts s i).inService = 0 then Slot.freeOf s.slots[i].generation
        else { s.slots[i] with state := .retiring, held := Held.empty, retireMode := some .discard }) s))) := by
  have h1 : retireRecord i .discard s = settle (reportCeased i (discardItems i (discardHeld i
      (modSlot i (fun _ => { s.slots[i] with state := .retiring, retireMode := some .discard }) s)))) := rfl
  obtain ⟨hdis, hdrop⟩ := dropItems_discardHeld hS i { s.slots[i] with state := .retiring, retireMode := some .discard } rfl rfl
  rw [h1]
  generalize hu : discardHeld i (modSlot i (fun _ => { s.slots[i] with state := .retiring, retireMode := some .discard }) s) = u at *
  have hflight : ∀ f, u.port.flight ≠ some (.retireWait i f) := by
    rw [← hu, (discardHeld_rest i _).2.2.2.2]
    exact hf
  have hstate : u.slots[i].state = .retiring := by
    rw [← hu, discardHeld_slot, slot_get_set, if_pos rfl]
    unfold modSlot
    dsimp only
    rw [slot_get_set, if_pos rfl]
  obtain ⟨b, hb, ht, hn⟩ := discardItems_eq hflight hstate
  rw [hdis] at hb ht hn
  rw [hdrop] at hb ht hn
  have hout := outstanding_discarded i { s.slots[i] with state := .retiring, retireMode := some .discard, held := Held.empty } s rfl
  have hport (r : Slot) : ∀ f, (discarded i r s).port.flight ≠ some (.retireWait i f) := hf
  rw [hb]
  cases b with
  | true =>
    rw [if_pos (hout.mp (ht rfl))]
    unfold freeIf
    rw [if_pos rfl, freeSlot_discarded, reportCeased_of_not]
    rw [handOverAll_slots, (settle_pool _).2.2.2.1, discarded_slots, slot_get_set, if_pos rfl]
    exact SlotState.noConfusion
  | false =>
    unfold freeIf
    rw [if_neg Bool.false_ne_true]
    by_cases h0 : (itemCounts s i).inService = 0
    · rcases hn rfl with h | h
      · exact absurd (hout.mpr h0) h
      · rw [if_pos h0, h]
        show settle (reportCeased i (settle _)) = settle (settle _)
        rw [← freeSlot_discarded i { s.slots[i] with state := .retiring, retireMode := some .discard, held := Held.empty }]
        generalize hy : discarded i { s.slots[i] with state := .retiring, retireMode := some .discard, held := Held.empty } s = y at *
        obtain ⟨p1, p2, _, p4, _, p6⟩ := settle_pool y
        have e1 : outstanding (settle y) i = outstanding y i := by
          unfold outstanding countNotices ownedBy
          rw [p1, p2, p4]
        have e2 : y.slots[i].state = .retiring := by
          rw [← hy, discarded_slots, slot_get_set, if_pos rfl]
        have e3 : ∀ f, y.port.flight ≠ some (.retireWait i f) := by rw [← hy]; exact hport _
        rw [reportCeased_eq i (by rw [p6]; exact e3), e1, hout.mpr h0, p4, e2]
        have e4 : freeSlot i (settle y) = settle (freeSlot i y) := by
          unfold freeSlot modSlot
          rw [p4]
          exact (settle_slots _ _).symm
        show settle (freeSlot i (settle y)) = _
        rw [e4]
    · rw [if_neg h0]
      refine congrArg settle ?_
      generalize hy : discarded i { s.slots[i] with state := .retiring, retireMode := some .discard, held := Held.empty } s = y at *
      have hpos : (itemCounts s i).inService ≠ 0 := h0
      unfold itemCounts at hpos
      dsimp only at hpos
      rw [ne_eq, countNotices_zero] at hpos
      push Not at hpos
      obtain ⟨e, n, hp, hq⟩ := hpos
      have hq := eq_true_of_ne_false hq
      rw [Bool.and_eq_true] at hq
      have hm : e ∉ discardable s i := by
        intro hm
        obtain ⟨m, a, c, _⟩ := (mem_discardable s i e).mp hm
        rw [hp] at a
        cases a
        rw [hq.2] at c
        cases c
      unfold reportCeased
      rw [if_neg]
      · intro hc
        rw [Bool.and_eq_true, beq_iff_eq, beq_iff_eq] at hc
        have := (outstanding_zero.mp hc.2).1 e n (by
          rw [handOverAll_other _ _ _ hm, (settle_pool _).1, ← hy, discarded_pool, if_neg hm]
          exact hp)
        unfold ownedBy at this
        rw [handOverAll_slots, (settle_pool _).2.2.2.1, ← hy, discarded_slots, slot_get_set, if_pos rfl] at this
        have ho := hq.1
        unfold ownedBy at ho
        rw [ho] at this
        cases this

/-! ### Under DRAIN -/

/-- Ripening in turn reads nothing of the port. -/
theorem drain_port (p : Port) (es : List EntryId) (s : State) :
    es.foldl (fun v e => settle (ripen e v)) { s with port := p } = { es.foldl (fun v e => settle (ripen e v)) s with port := p } := by
  induction es generalizing s with
  | nil => rfl
  | cons e es ih => rw [List.foldl_cons, List.foldl_cons, ripen_port, settle_port p (ripen e s), ih]

theorem ripen_order (e : EntryId) (s : State) : (ripen e s).order = s.order := by
  unfold ripen
  split
  · split <;> rfl
  · rfl

theorem drain_order (es : List EntryId) (s : State) : (es.foldl (fun v e => settle (ripen e v)) s).order = s.order := by
  induction es generalizing s with
  | nil => rfl
  | cons e es ih => rw [List.foldl_cons, ih, (settle_pool _).2.2.1, ripen_order]

theorem settle_lists (s : State) (t : TargetId) : (settle s).targets[t].lists = s.targets[t].lists := by
  obtain ⟨u, hu, _, h⟩ := settle_parts s
  rw [hu, h t]

/-- GATHERING notices that ripen in turn join the tails of their lists in that order (R165, R63). -/
theorem drain_lists (es : List EntryId) (s : State) (hn : es.Nodup)
    (hg : ∀ e ∈ es, ∃ n, s.pool[e] = some n ∧ n.isGathering = true) (t : TargetId) (l : Level) :
    (es.foldl (fun v e => settle (ripen e v)) s).targets[t].lists[l]
      = s.targets[t].lists[l] ++ es.filter fun e => (s.pool[e]).any fun n => n.target == t && n.level == l := by
  induction es generalizing s with
  | nil => simp
  | cons e es ih =>
    obtain ⟨n, hp, hn'⟩ := hg e List.mem_cons_self
    obtain ⟨hne, hnd⟩ := List.nodup_cons.mp hn
    have hpool (d : EntryId) (hd : d ∈ es) : (settle (ripen e s)).pool[d] = s.pool[d] := by
      rw [(settle_pool _).1, ripen_pool, if_neg (fun hh : d = e => hne (hh ▸ hd))]
    have hf : (es.filter fun d => ((settle (ripen e s)).pool[d]).any fun n => n.target == t && n.level == l)
        = es.filter fun d => (s.pool[d]).any fun n => n.target == t && n.level == l :=
      List.filter_congr fun d hd => by rw [hpool d hd]
    have hl : (settle (ripen e s)).targets[t].lists[l]
        = s.targets[t].lists[l] ++ if n.target = t ∧ n.level = l then [e] else [] := by
      rw [settle_lists]
      have : ripen e s = modList n.target n.level (· ++ [e]) (setEntry e (some { n with phase := .pending }) s) := by
        unfold ripen
        rw [hp]
        dsimp only
        rw [if_pos hn']
      rw [this, modList_lists]
      split
      · rfl
      · rw [List.append_nil]; rfl
    rw [List.foldl_cons, ih _ hnd (fun d hd => by rw [hpool d hd]; exact hg d (List.mem_cons_of_mem _ hd)), hf, hl,
      List.filter_cons, hp, List.append_assoc, Option.any_some]
    congr 1
    by_cases hc : n.target = t ∧ n.level = l
    · rw [if_pos hc, hc.1, hc.2, beq_self_eq_true, beq_self_eq_true]; rfl
    · have : (n.target == t && n.level == l) = false := by
        rw [Bool.eq_false_iff, ne_eq, Bool.and_eq_true, beq_iff_eq, beq_iff_eq]; exact hc
      rw [if_neg hc, this]; rfl

theorem ripened_owned (s : State) (i : SlotId) (n : Notice) : ownedBy s i n.ripened = ownedBy s i n := by
  unfold Notice.ripened
  split
  · rename_i h
    unfold ownedBy Notice.isOrphan
    unfold Notice.isGathering at h
    cases hp : n.phase <;> rw [hp] at h <;> (first | rfl | cases h)
  · rfl

/-- A record with something outstanding still has it after its notices have ripened. -/
theorem drain_outstanding (es : List EntryId) (s : State) (i : SlotId) :
    outstanding (es.foldl (fun v e => settle (ripen e v)) s) i = 0 ↔ outstanding s i = 0 := by
  have hslots : (es.foldl (fun v e => settle (ripen e v)) s).slots = s.slots :=
    foldl_slots _ (fun v e => by rw [(settle_pool _).2.2.2.1, ripen_slots]) es s
  have ho (n : Notice) : ownedBy (es.foldl (fun v e => settle (ripen e v)) s) i n = ownedBy s i n := by
    unfold ownedBy; rw [hslots]
  rw [outstanding_zero, outstanding_zero, drain_deferred]
  refine and_congr_left fun _ => ⟨fun h e n hn => ?_, fun h e n hn => ?_⟩
  · by_cases hm : e ∈ es
    · have := h e n.ripened (by rw [drain_pool, if_pos hm, hn]; rfl)
      rw [ho, ripened_owned] at this
      exact this
    · have := h e n (by rw [drain_pool, if_neg hm, hn])
      rw [ho] at this
      exact this
  · rw [ho]
    rw [drain_pool] at hn
    split at hn
    · obtain ⟨m, hm, rfl⟩ := Option.map_eq_some_iff.mp hn
      rw [ripened_owned]
      exact h e m hm
    · exact h e n hn

/-- What a retirement under DRAIN does (R163, R165, R166, R87): the held count discarded, the GATHERING notices ripening in creation order, each target judged in its turn, the slot FREE if nothing is outstanding. -/
theorem retireRecord_drain {s : State} (i : SlotId) (hf : ∀ f, s.port.flight ≠ some (.retireWait i f)) :
    retireRecord i .drain s = settle ((inCreationOrder s fun n => n.isGathering && ownedBy s i n).foldl
      (fun v e => settle (ripen e v)) (withPins (rearmPins s.slots[i].held.pins s).pins { s with
        slots := s.slots.set i (if outstanding s i = 0 then Slot.freeOf s.slots[i].generation
          else { s.slots[i] with state := .retiring, held := Held.empty, retireMode := some .drain }) })) := by
  have h1 : retireRecord i .drain s = settle (reportCeased i (drainItems i (discardHeld i
      (modSlot i (fun _ => { s.slots[i] with state := .retiring, retireMode := some .drain }) s)))) := rfl
  have hu : discardHeld i (modSlot i (fun _ => { s.slots[i] with state := .retiring, retireMode := some .drain }) s)
      = withPins (rearmPins s.slots[i].held.pins s).pins { s with
        slots := s.slots.set i { s.slots[i] with state := .retiring, held := Held.empty, retireMode := some .drain } } := by
    unfold discardHeld setHeld modSlot
    dsimp only
    rw [slot_get_set, if_pos rfl, rearmPins_eq]
    unfold withPins
    dsimp only
    congr 1
    simp
  rw [h1, hu]
  generalize hw : withPins (rearmPins s.slots[i].held.pins s).pins { s with
        slots := s.slots.set i { s.slots[i] with state := .retiring, held := Held.empty, retireMode := some .drain } } = w
  have hslots : w.slots = s.slots.set i { s.slots[i] with state := .retiring, held := Held.empty, retireMode := some .drain } := by
    rw [← hw, withPins_slots]
  have hpool : w.pool = s.pool := by rw [← hw, withPins_pool]
  have hdef : w.deferred = s.deferred := by rw [← hw, withPins_deferred]
  have hord : w.order = s.order := by rw [← hw]; unfold withPins; rfl
  have hport : w.port = s.port := by rw [← hw]; unfold withPins; rfl
  have hown (n : Notice) : ownedBy w i n = ownedBy s i n := by
    unfold ownedBy
    rw [hslots, slot_get_set, if_pos rfl]
  have hrip : (inCreationOrder w fun n => n.isGathering && ownedBy w i n) = inCreationOrder s fun n => n.isGathering && ownedBy s i n := by
    unfold inCreationOrder entryIs
    rw [hord, hpool]
    simp only [hown]
  have hout : outstanding w i = 0 ↔ outstanding s i = 0 := by
    rw [outstanding_zero, outstanding_zero, hpool, hdef]
    simp only [hown]
  have hst : w.slots[i].state = .retiring := by rw [hslots, slot_get_set, if_pos rfl]
  unfold drainItems
  rw [hrip]
  by_cases h0 : outstanding s i = 0
  · have hnil : (inCreationOrder s fun n => n.isGathering && ownedBy s i n) = [] := by
      refine List.eq_nil_iff_forall_not_mem.mpr fun e he => ?_
      obtain ⟨_, n, hn, hq⟩ := (mem_inCreationOrder s _ e).mp he
      rw [(outstanding_zero.mp h0).1 e n hn, Bool.and_false] at hq
      cases hq
    rw [hnil, if_pos h0, List.foldl_nil, List.foldl_nil, reportCeased_eq i (by rw [hport]; exact hf), hst, hout.mpr h0]
    refine congrArg settle ?_
    show freeSlot i w = _
    unfold freeSlot modSlot
    rw [hslots, slot_get_set, if_pos rfl, ← hw]
    unfold withPins
    dsimp only
    congr 1
    simp
  · rw [if_neg h0, hw]
    refine congrArg settle ?_
    unfold reportCeased
    rw [if_neg]
    rw [Bool.and_eq_true, beq_iff_eq, beq_iff_eq, drain_outstanding, hout]
    exact fun h => h0 h.2

/-! ### A forced retirement -/

/-- The IN_SERVICE notices of a record become orphans; nothing else changes (R17, R170). -/
theorem orphanItems_eq (i : SlotId) (s : State) : orphanItems i s = { s with
    pool := s.pool.map fun o => o.map fun n =>
      match n.phase with
      | .inService late false =>
        if n.slot = i ∧ n.generation = s.slots[i].generation then { n with phase := .inService late true } else n
      | _ => n } := by
  have hrest (l : List EntryId) (x : State) :
      ∃ v, l.foldl (fun s e => setEntry e (s.pool[e].map Notice.orphaned) s) x = { x with pool := v } := by
    induction l generalizing x with
    | nil => exact ⟨x.pool, rfl⟩
    | cons e l ih =>
      obtain ⟨v, hv⟩ := ih (setEntry e (x.pool[e].map Notice.orphaned) x)
      exact ⟨v, hv⟩
  obtain ⟨v, hv⟩ := hrest (ascending s fun n => n.isInService && ownedBy s i n) s
  have hx : orphanItems i s = { s with pool := v } := hv
  have hpool : v = s.pool.map fun o => o.map fun n =>
      match n.phase with
      | .inService late false =>
        if n.slot = i ∧ n.generation = s.slots[i].generation then { n with phase := .inService late true } else n
      | _ => n := by
    ext1 k hk
    have h1 : v[k] = (orphanItems i s).pool[(⟨k, hk⟩ : EntryId)] := by rw [hx]; rfl
    rw [h1, Vector.getElem_map]
    refine (orphan_pool _ s ⟨k, hk⟩).trans ?_
    have hm := mem_ascending s (fun n => n.isInService && ownedBy s i n) ⟨k, hk⟩
    have hg : s.pool[(⟨k, hk⟩ : EntryId)] = s.pool[k] := rfl
    rw [hg] at hm ⊢
    cases ho : s.pool[k] with
    | none => rw [Option.map_none, Option.map_none, ite_self]
    | some n =>
      rw [ho] at hm
      rw [Option.map_some, Option.map_some]
      have hq : (⟨k, hk⟩ : EntryId) ∈ ascending s (fun n => n.isInService && ownedBy s i n)
          ↔ (n.isInService && ownedBy s i n) = true := by
        rw [hm]
        exact ⟨fun ⟨m, h, k⟩ => by cases h; exact k, fun h => ⟨n, rfl, h⟩⟩
      simp only [hq]
      unfold Notice.isInService ownedBy Notice.isOrphan Notice.orphaned
      cases hp : n.phase with
      | gathering a b => simp
      | pending => simp
      | inService late orphan =>
        cases orphan with
        | true => simp
        | false =>
          by_cases hc : n.slot = i ∧ n.generation = s.slots[i].generation
          · rw [if_pos (by simp [hc.1, hc.2])]; dsimp only; rw [if_pos hc]
          · rw [if_neg (by simpa using hc)]; dsimp only; rw [if_neg hc]
  rw [hx, hpool]

theorem modSlot_self (i : SlotId) (s : State) : modSlot i (fun _ => s.slots[i]) s = s := by
  unfold modSlot
  have : s.slots.set i s.slots[i] = s.slots := by
    ext1 j hj
    rw [Vector.getElem_set]
    split
    · rename_i h; subst h; rfl
    · rfl
  rw [this]

/-- What a forced retirement does (R170): everything discarded, the targets judged, the notices in service orphans, the slot FREE, then the freed entries handed over. -/
theorem forceRetireRecord_eq {s : State} (hS : Standing s) (i : SlotId) :
    forceRetireRecord i s = handOverAll (discardable s i) (freeSlot i (orphanItems i
      (settle (discarded i { s.slots[i] with held := Held.empty } s)))) := by
  obtain ⟨hdis, hdrop⟩ := dropItems_discardHeld hS i s.slots[i] rfl rfl
  rw [modSlot_self] at hdis hdrop
  unfold forceRetireRecord
  dsimp only
  rw [← discardable_eq]
  have h : (discardable s i).foldl (fun s e => dropNotice e s) (dropPairs i (discardHeld i s))
      = discarded i { s.slots[i] with held := Held.empty } s := hdrop
  rw [h]

/-! ### What stays when a target goes OFFLINE -/

/-- The notice in an entry stays there with its record, target, level and re-arm mode, and unchanged if it is in service. -/
def Stays (d : EntryId) (s t : State) : Prop :=
  ∀ n, s.pool[d] = some n → ∃ m, t.pool[d] = some m ∧ m.slot = n.slot ∧ m.generation = n.generation ∧ m.target = n.target
    ∧ m.level = n.level ∧ m.rearm = n.rearm ∧ m.isInService = n.isInService ∧ (n.isInService = true → m = n)

theorem Stays.same {d : EntryId} {s t : State} (h : t.pool[d] = s.pool[d]) : Stays d s t :=
  fun n hn => ⟨n, h.trans hn, rfl, rfl, rfl, rfl, rfl, rfl, fun _ => rfl⟩

theorem Stays.trans {d : EntryId} {s t u : State} (h : Stays d s t) (k : Stays d t u) : Stays d s u := by
  intro n hn
  obtain ⟨m, hm, a1, a2, a3, a4, a5, a6, a7⟩ := h n hn
  obtain ⟨l, hl, b1, b2, b3, b4, b5, b6, b7⟩ := k m hm
  exact ⟨l, hl, b1.trans a1, b2.trans a2, b3.trans a3, b4.trans a4, b5.trans a5, b6.trans a6,
    fun h => (b7 (a6.trans h)).trans (a7 h)⟩

theorem ripen_stays (d e : EntryId) (s : State) : Stays d s (ripen e s) := by
  intro n hn
  rw [ripen_pool, hn]
  obtain ⟨h1, h2, h3, h4⟩ := ripened_kind n
  split
  · refine ⟨n.ripened, rfl, h3, ?_, h2, ?_, ?_, h1, ?_⟩
    · unfold Notice.ripened; split <;> rfl
    · unfold Notice.ripened; split <;> rfl
    · unfold Notice.ripened; split <;> rfl
    · intro hs
      unfold Notice.ripened
      rw [if_neg]
      intro hg
      rw [gathering_not_service hg] at hs
      cases hs
  · exact ⟨n, rfl, rfl, rfl, rfl, rfl, rfl, rfl, fun _ => rfl⟩

theorem mergeInto_stays (d e : EntryId) (p : Placement) (s : State) (hu : ∀ n, s.pool[e] = some n → n.isInService = false) :
    Stays d s (mergeInto e p s) := by
  unfold mergeInto
  cases he : s.pool[e] with
  | none => exact Stays.same rfl
  | some n =>
    dsimp only
    have h1 : Stays d s (setEntry e (some (n.merged p)) s) := by
      by_cases hd : d = e
      · subst hd
        intro m hm
        rw [he] at hm
        cases hm
        refine ⟨n.merged p, pool_get_self _ _ _, rfl, rfl, rfl, rfl, rfl, rfl, fun h => ?_⟩
        rw [hu n he] at h
        cases h
      · exact Stays.same (by unfold setEntry; dsimp only; rw [pool_get_set, if_neg (fun h => hd h.symm)])
    refine h1.trans (Stays.trans (t := raiseIf (255 < n.count + p.count) .countOverflow (setEntry e (some (n.merged p)) s)) ?_ ?_)
    · exact Stays.same (by unfold raiseIf; split <;> rfl)
    · unfold ripenIfReached
      split
      · exact ripen_stays d e _
      · exact Stays.same rfl

theorem residentAt_unclaimed {s : State} {i : SlotId} {t : TargetId} {e : EntryId} (h : residentAt s i t = some e) :
    ∀ n, s.pool[e] = some n → n.isInService = false := by
  intro n hn
  obtain ⟨_, _, _, he, _⟩ := (oldest_some s _ e).mp h
  unfold entryIs at he
  rw [hn, Option.any_some, Bool.and_eq_true, Bool.and_eq_true] at he
  exact unclaimed_not_service he.1.1

theorem removeNotice_other (e d : EntryId) (s : State) (h : d ≠ e) : (removeNotice e s).pool[d] = s.pool[d] := by
  rw [removeNotice_pool, pool_get_set, if_neg (fun k => h k.symm)]

/-- A pair is still deferred, or a GATHERING or PENDING notice of its record stands on its target. -/
def Served (p : Pair) (s : State) : Prop :=
  p ∈ s.deferred ∨ ∃ (e : EntryId) (n : Notice), s.pool[e] = some n ∧ n.isInService = false ∧ n.slot = p.slot ∧ n.target = p.target

theorem Served.of_stays {p : Pair} {s t : State} (h : Served p s) (hd : p ∈ s.deferred → Served p t)
    (hs : ∀ (e : EntryId) (n : Notice), s.pool[e] = some n → n.target = p.target → Stays e s t) : Served p t := by
  rcases h with h | ⟨e, n, h1, h2, h3, h4⟩
  · exact hd h
  · obtain ⟨m, hm, a1, _, a3, _, _, a6, _⟩ := hs e n h1 h4 n h1
    exact Or.inr ⟨e, m, hm, a6.trans h2, a1.trans h3, a3.trans h4⟩

theorem startNotice_self (e : EntryId) (n : Notice) (s : State) (hn : n.isInService = false) :
    ∃ m, (startNotice e n s).pool[e] = some m ∧ m.isInService = false ∧ m.slot = n.slot ∧ m.target = n.target := by
  have h0 : ({ setEntry e (some n) s with order := s.order.erase e ++ [e] } : State).pool[e] = some n := pool_get_self _ _ _
  have hr : ∃ m, (ripen e { setEntry e (some n) s with order := s.order.erase e ++ [e] }).pool[e] = some m ∧ m.isInService = false
      ∧ m.slot = n.slot ∧ m.target = n.target := by
    obtain ⟨m, hm, a1, _, a3, _, _, a6, _⟩ := ripen_stays e e _ n h0
    exact ⟨m, hm, a6.trans hn, a1, a3⟩
  unfold startNotice
  dsimp only
  split
  · exact hr
  · unfold ripenIfReached
    split
    · exact hr
    · exact ⟨n, h0, hn, rfl, rfl⟩

theorem handOver_served {p : Pair} {s : State} (e : EntryId) (h : Served p s) (he : ∀ n, s.pool[e] = some n → n.target ≠ p.target) :
    Served p (handOver e s) := by
  refine h.of_stays (fun hp => ?_) (fun d n hn ht => Stays.same (handOver_other e d s (fun hd => ?_)))
  · cases hd : s.deferred with
    | nil => rw [hd] at hp; cases hp
    | cons q rest =>
      have hh : handOver e s = startNotice e (freshNotice s q.slot q.target q.placement) { s with deferred := rest } := by
        unfold handOver; rw [hd]
      rw [hh]
      rw [hd] at hp
      rcases List.mem_cons.mp hp with rfl | hp
      · obtain ⟨m, hm, a, b, c⟩ := startNotice_self e (freshNotice s p.slot p.target p.placement) { s with deferred := rest } rfl
        exact Or.inr ⟨e, m, hm, a, b, c⟩
      · left; rw [startNotice_deferred]; exact hp
  · subst hd; exact he n hn ht

theorem judged_served {p : Pair} {s t : State} (h : Served p s) (hp : t.pool = s.pool) (hd : t.deferred = s.deferred) : Served p t := by
  unfold Served
  rw [hp, hd]
  exact h

theorem handOverAll_served {p : Pair} (es : List EntryId) {s : State} (h : Served p s) (hn : es.Nodup)
    (he : ∀ e ∈ es, s.pool[e] = none) : Served p (handOverAll es s) := by
  unfold handOverAll
  induction es generalizing s with
  | nil => exact h
  | cons e es ih =>
    obtain ⟨hne, hnd⟩ := List.nodup_cons.mp hn
    have h1 : Served p (handOverInTurn s e) := by
      refine judged_served (handOver_served e h (fun n hn => ?_)) (judgeInTurn_pool _ _).1 (judgeInTurn_pool _ _).2.1
      rw [he e List.mem_cons_self] at hn
      cases hn
    refine ih h1 hnd fun d hd => ?_
    rw [handOverInTurn_other e d s (fun hh : d = e => hne (hh ▸ hd))]
    exact he d (List.mem_cons_of_mem _ hd)

theorem ceaseNotice_other (e d : EntryId) (s : State) (h : d ≠ e) : (ceaseNotice e s).pool[d] = s.pool[d] := by
  unfold ceaseNotice
  split
  · split
    · exact dropNotice_other e d s h
    · rename_i n _ _
      have h1 : (reportCeased n.slot (dropNotice e s)).pool = (dropNotice e s).pool := (reportCeased_same _ _).2.1
      exact (congrArg (fun x : Vector (Option Notice) 512 => x[d]) h1).trans (dropNotice_other e d s h)
  · rfl

theorem ceaseAll_other (es : List EntryId) (d : EntryId) (s : State) (h : d ∉ es) : (ceaseAll es s).pool[d] = s.pool[d] := by
  unfold ceaseAll
  rw [handOverAll_other es d _ h, (settle_pool _).1]
  exact foldl_pool_other (fun s e d hd => ceaseNotice_other e d s hd) es s d h

/-- Notices that cease on one target leave the pairs of the others deferred, or make notices of them. -/
theorem ceaseAll_served {p : Pair} (es : List EntryId) {s : State} (h : Served p s) (hn : es.Nodup)
    (ht : ∀ e ∈ es, ∀ n, s.pool[e] = some n → n.target ≠ p.target) : Served p (ceaseAll es s) := by
  have hsh := foldl_shrinks (fun s e => ceaseNotice e s) (fun s e => ceaseNotice_shrinks e s) es s
  have hgone := foldl_gone (fun s e => ceaseNotice e s) (fun s e => ceaseNotice_shrinks e s) (fun s e => ceaseNotice_gone e s) es s
  unfold ceaseAll
  refine handOverAll_served es ?_ hn fun e he => ?_
  · refine judged_served ?_ (settle_pool _).1 (settle_pool _).2.1
    refine h.of_stays (fun hp => Or.inl (hsh.deferred ▸ hp)) fun e n hn' hp => Stays.same ?_
    exact foldl_pool_other (fun s e d hd => ceaseNotice_other e d s hd) es s e (fun he => ht e he n hn' hp)
  · rw [(settle_pool _).1]
    exact hgone e he

theorem mergeInto_other (e d : EntryId) (p : Placement) (s : State) (h : d ≠ e) : (mergeInto e p s).pool[d] = s.pool[d] := by
  have hr (x : State) : (ripenIfReached e x).pool[d] = x.pool[d] := by
    unfold ripenIfReached
    split
    · rw [ripen_pool, if_neg h]
    · rfl
  unfold mergeInto
  split
  · rw [hr]
    unfold raiseIf
    split <;> exact (pool_get_set _ _ _ _).trans (if_neg fun k => h k.symm)
  · rfl

theorem absorbPair_other (e d : EntryId) (i : SlotId) (t : TargetId) (s : State) (h : d ≠ e) : (absorbPair e i t s).pool[d] = s.pool[d] := by
  unfold absorbPair
  split
  · exact mergeInto_other e d _ _ h
  · rfl

/-- Re-homing one notice leaves every other where it is (R128, R129). -/
theorem rehomeOne_stays (source : TargetId) (s : State) (e d : EntryId) (hd : d ≠ e) : Stays d s (rehomeOne source s e) := by
  unfold rehomeOne
  split
  · rename_i n hn
    split
    · rename_i t _
      split
      · rename_i home hr
        unfold mergeAway
        split
        · rename_i m _
          dsimp only
          refine (mergeInto_stays d home (awayPlacement n m) s (residentAt_unclaimed hr)).trans ?_
          generalize mergeInto home (awayPlacement n m) s = x
          refine Stays.trans (t := if n.isPending then ripen home x else x) ?_ ?_
          · split
            · exact ripen_stays d home x
            · exact Stays.same rfl
          · refine Stays.same ?_
            rw [handOver_other e d _ hd, (reportCeased_same _ _).2.1, removeNotice_other e d _ hd]
        · exact Stays.same rfl
      · refine Stays.same ?_
        unfold moveWhole
        dsimp only
        rw [absorbPair_other e d _ _ _ hd]
        split <;> exact (pool_get_set _ _ _ _).trans (if_neg fun k => hd k.symm)
    · exact Stays.same rfl
  · exact Stays.same rfl

/-- Re-homing one notice of another target leaves a pair deferred, or leaves a notice that it became or that absorbed it. -/
theorem rehomeOne_served {p : Pair} {s : State} (source : TargetId) (e : EntryId) (h : Served p s)
    (he : ∀ n, s.pool[e] = some n → n.target ≠ p.target ∧ n.isInService = false) : Served p (rehomeOne source s e) := by
  have hne (d : EntryId) (n : Notice) (hn : s.pool[d] = some n) (ht : n.target = p.target) : d ≠ e := by
    rintro rfl; exact (he n hn).1 ht
  refine h.of_stays (fun hp => ?_) (fun d n hn ht => rehomeOne_stays source s e d (hne d n hn ht))
  unfold rehomeOne
  cases hn : s.pool[e] with
  | none => exact Or.inl hp
  | some n =>
    dsimp only
    cases hdst : destination s source n with
    | none => exact Or.inl hp
    | some t =>
      dsimp only
      cases hr : residentAt s n.slot t with
      | some home =>
        dsimp only
        unfold mergeAway
        cases hm : s.pool[home] with
        | none => exact Or.inl hp
        | some m =>
          dsimp only
          refine handOver_served e (Or.inl ?_) (fun k hk => ?_)
          · rw [(reportCeased_same _ _).1, (removeNotice_shrinks e _).deferred]
            have h1 : p ∈ (mergeInto home (awayPlacement n m) s).deferred := by rw [mergeInto_deferred]; exact hp
            split
            · rw [ripen_deferred]; exact h1
            · exact h1
          · rw [(reportCeased_same _ _).2.1, removeNotice_pool, pool_get_self] at hk
            cases hk
      | none =>
        dsimp only
        unfold moveWhole
        dsimp only
        generalize hx : (if n.isPending then modList t n.level (· ++ [e]) (modList n.target n.level (·.erase e)
          (setEntry e (some { n with target := t }) s)) else setEntry e (some { n with target := t }) s) = x
        have hxp : x.pool[e] = some { n with target := t } := by
          rw [← hx]
          split <;> exact pool_get_self _ _ _
        have hxd : x.deferred = s.deferred := by rw [← hx]; split <;> rfl
        unfold absorbPair
        split
        · rename_i q hq
          by_cases hc : p.slot = n.slot ∧ p.target = t
          · obtain ⟨m, hm, a1, _, a3, _, _, a6, _⟩ := mergeInto_stays e e q.placement
              { x with deferred := x.deferred.filter fun y => !(y.slot == n.slot && y.target == t) }
              (fun k hk => by
                have hk' : x.pool[e] = some k := hk
                rw [hxp] at hk'
                cases hk'
                exact (he n hn).2) _ hxp
            exact Or.inr ⟨e, m, hm, a6.trans (he n hn).2, a1.trans hc.1.symm, a3.trans hc.2.symm⟩
          · left
            rw [mergeInto_deferred]
            refine List.mem_filter.mpr ⟨by rw [hxd]; exact hp, ?_⟩
            rw [Bool.not_eq_true', Bool.eq_false_iff, ne_eq, Bool.and_eq_true, beq_iff_eq, beq_iff_eq]
            exact hc
        · left; rw [hxd]; exact hp

theorem foldl_rehomeOne_stays (source : TargetId) (es : List EntryId) (s : State) (d : EntryId) (h : d ∉ es) :
    Stays d s (es.foldl (rehomeOne source) s) := by
  induction es generalizing s with
  | nil => exact Stays.same rfl
  | cons e es ih =>
    rw [List.mem_cons, not_or] at h
    exact (rehomeOne_stays source s e d h.1).trans (ih _ h.2)

theorem foldl_rehomeOne_served {p : Pair} (source : TargetId) (es : List EntryId) {s : State} (h : Served p s) (hn : es.Nodup)
    (he : ∀ e ∈ es, ∀ n, s.pool[e] = some n → n.target ≠ p.target ∧ n.isInService = false)
    (hl : ∀ e ∈ es, ∃ n, s.pool[e] = some n) : Served p (es.foldl (rehomeOne source) s) := by
  induction es generalizing s with
  | nil => exact h
  | cons e es ih =>
    obtain ⟨hne, hnd⟩ := List.nodup_cons.mp hn
    have hst (d : EntryId) (hd : d ∈ es) : Stays d s (rehomeOne source s e) :=
      rehomeOne_stays source s e d (fun hh : d = e => hne (hh ▸ hd))
    refine ih (rehomeOne_served source e h (he e List.mem_cons_self)) hnd (fun d hd n hn' => ?_) (fun d hd => ?_)
    · obtain ⟨k, hk⟩ := hl d (List.mem_cons_of_mem _ hd)
      obtain ⟨m, hm, _, _, a3, _, _, a6, _⟩ := hst d hd k hk
      rw [hn'] at hm
      cases hm
      obtain ⟨b1, b2⟩ := he d (List.mem_cons_of_mem _ hd) k hk
      exact ⟨by rw [a3]; exact b1, a6.trans b2⟩
    · obtain ⟨k, hk⟩ := hl d (List.mem_cons_of_mem _ hd)
      obtain ⟨m, hm, _⟩ := hst d hd k hk
      exact ⟨m, hm⟩

/-! ### Freed entries and the deferred list -/

theorem handOverAll_sublist (es : List EntryId) (s : State) : (handOverAll es s).deferred.Sublist s.deferred := by
  unfold handOverAll
  induction es generalizing s with
  | nil => exact List.Sublist.refl _
  | cons e es ih =>
    refine (ih _).trans ?_
    show (judgeInTurn _ (handOver e s)).deferred.Sublist _
    rw [(judgeInTurn_pool _ _).2.1]
    exact handOver_sublist e s

theorem ceaseAll_sublist (es : List EntryId) (s : State) : (ceaseAll es s).deferred.Sublist s.deferred := by
  unfold ceaseAll
  refine (handOverAll_sublist es _).trans ?_
  rw [(settle_pool _).2.1, (foldl_shrinks (fun s e => ceaseNotice e s) (fun s e => ceaseNotice_shrinks e s) es s).deferred]

/-! ### The start of a quiesce and what it leaves -/

theorem standsOn_unclaimed {t : TargetId} {n : Notice} (h : standsOn t n = true) : n.isInService = false ∧ n.target = t := by
  unfold standsOn at h
  rw [Bool.and_eq_true, beq_iff_eq] at h
  exact ⟨unclaimed_not_service h.1, h.2⟩

theorem rehomeAndJudge_stays (t : TargetId) (s : State) (d : EntryId) (hd : ∀ n, s.pool[d] = some n → n.target ≠ t ∨ n.isInService = true) :
    Stays d s (rehomeAndJudge t s) := by
  unfold rehomeAndJudge rehomeAll
  refine (foldl_rehomeOne_stays t _ s d fun h => ?_).trans (Stays.same (congrArg (fun x : Vector (Option Notice) 512 => x[d]) (judgeInTurn_pool _ _).1))
  obtain ⟨_, n, hn, hp⟩ := (mem_inCreationOrder s _ d).mp h
  obtain ⟨h1, h2⟩ := standsOn_unclaimed hp
  rcases hd n hn with k | k
  · exact k h2
  · rw [h1] at k; cases k

theorem rehomeAndJudge_served {p : Pair} {s : State} (t : TargetId) (ho : s.order.Nodup) (hp : p.target ≠ t) (h : Served p s) :
    Served p (rehomeAndJudge t s) := by
  unfold rehomeAndJudge rehomeAll
  refine judged_served ?_ (judgeInTurn_pool _ _).1 (judgeInTurn_pool _ _).2.1
  refine foldl_rehomeOne_served t _ h (ho.filter _) (fun e he n hn => ?_) (fun e he => ?_)
  · obtain ⟨_, m, hm, hq⟩ := (mem_inCreationOrder s _ e).mp he
    rw [hn] at hm
    cases hm
    obtain ⟨h1, h2⟩ := standsOn_unclaimed hq
    exact ⟨fun k => hp (k.symm.trans h2), h1⟩
  · obtain ⟨_, m, hm, _⟩ := (mem_inCreationOrder s _ e).mp he
    exact ⟨m, hm⟩

/-- Notices on other targets, and those in service, stay through the start of a quiesce; under DROP they stay as they are. -/
theorem startQuiesce_stays (t : TargetId) (b : Bool) (s : State) (d : EntryId) (n0 : Notice) (h0 : s.pool[d] = some n0)
    (hn0 : n0.target ≠ t ∨ n0.isInService = true) :
    Stays d s (startQuiesce t b s) ∧ (b = false → (startQuiesce t b s).pool[d] = s.pool[d]) := by
  unfold startQuiesce
  dsimp only
  generalize h2 : ceasePairs (fun d => d.target == t) (modTarget t (fun c => { c with state := .quiescing }) s) = s2
  have hp2 : s2.pool = s.pool := by rw [← h2, (ceasePairs_shape _ _).2.1]; rfl
  have h20 : s2.pool[d] = some n0 := by rw [hp2]; exact h0
  have hd2 : ∀ n, s2.pool[d] = some n → n.target ≠ t ∨ n.isInService = true := by
    intro n hn
    rw [h20] at hn
    cases hn
    exact hn0
  have h02 : Stays d s s2 := Stays.same (by rw [hp2])
  have off (s3 : State) (h3 : ∀ n, s3.pool[d] = some n → n.target ≠ t ∨ n.isInService = true) :
      (ceaseAll (ascending s3 (standsOn t)) s3).pool[d] = s3.pool[d] := by
    refine ceaseAll_other _ d s3 fun h => ?_
    obtain ⟨n, hn, hq⟩ := (mem_ascending s3 _ d).mp h
    obtain ⟨k1, k2⟩ := standsOn_unclaimed hq
    rcases h3 n hn with k | k
    · exact k k2
    · rw [k1] at k; cases k
  cases b with
  | false =>
    rw [if_neg Bool.false_ne_true]
    refine ⟨h02.trans (Stays.same (off s2 hd2)), fun _ => (off s2 hd2).trans (by rw [hp2])⟩
  | true =>
    rw [if_pos rfl]
    refine ⟨(h02.trans (rehomeAndJudge_stays t s2 d hd2)).trans (Stays.same (off _ fun n hn => ?_)), fun h => by cases h⟩
    obtain ⟨k, hk, _, _, k3, _, _, k6, _⟩ := rehomeAndJudge_stays t s2 d hd2 n0 h20
    rw [hn] at hk
    cases hk
    rw [k3, k6]
    exact hn0

/-- A pair of another target is still deferred after the start of a quiesce, or a GATHERING or PENDING notice of its record stands on its target. -/
theorem startQuiesce_served {p : Pair} {s : State} (t : TargetId) (b : Bool) (ho : s.order.Nodup) (hp : p.target ≠ t) (h : p ∈ s.deferred) :
    Served p (startQuiesce t b s) := by
  unfold startQuiesce
  dsimp only
  generalize h2 : ceasePairs (fun d => d.target == t) (modTarget t (fun c => { c with state := .quiescing }) s) = s2
  have hs2 : Served p s2 := by
    left
    rw [← h2, (ceasePairs_shape _ _).1]
    exact List.mem_filter.mpr ⟨h, by rw [Bool.not_eq_true', beq_eq_false_iff_ne]; exact hp⟩
  have ho2 : s2.order.Nodup := by rw [← h2, (ceasePairs_shape _ _).2.2]; exact ho
  have h3 : Served p (if b = true then rehomeAndJudge t s2 else s2) := by
    split
    · exact rehomeAndJudge_served t ho2 hp hs2
    · exact hs2
  refine ceaseAll_served _ h3 (ascending_nodup _ _) fun e he n hn => ?_
  obtain ⟨m, hm, hq⟩ := (mem_ascending _ _ e).mp he
  rw [hn] at hm
  cases hm
  exact fun k => hp (k.symm.trans (standsOn_unclaimed hq).2)

theorem startQuiesce_sublist (t : TargetId) (b : Bool) (s : State) :
    (startQuiesce t b s).deferred.Sublist (s.deferred.filter fun d => d.target != t) := by
  unfold startQuiesce
  dsimp only
  refine (ceaseAll_sublist _ _).trans ?_
  have h : (ceasePairs (fun d => d.target == t) (modTarget t (fun c => { c with state := .quiescing }) s)).deferred
      = s.deferred.filter fun d => d.target != t := (ceasePairs_shape _ _).1
  split
  · rw [← h]; exact rehomeAndJudge_sublist t _
  · rw [h]

/-- FORCE takes the entries of the stack of one target, and no others (R138). -/
theorem forceStack_other {s : State} (hS : Standing s) (t : TargetId) (d : EntryId) (n : Notice) (hn : s.pool[d] = some n) (ht : n.target ≠ t) :
    (forceStack t s).pool[d] = s.pool[d] := by
  unfold forceStack
  refine ceaseAll_other _ d _ fun h => ?_
  rw [List.mem_filter, List.contains_iff_mem] at h
  obtain ⟨m, hm, _, k⟩ := hS.stack t d h.2
  rw [hn] at hm
  cases hm
  exact ht k

theorem forceStack_served {p : Pair} {s : State} (hS : Standing s) (t : TargetId) (hp : p.target ≠ t) (h : Served p s) :
    Served p (forceStack t s) := by
  unfold forceStack
  refine ceaseAll_served _ (judged_served h rfl rfl) ((ascending_nodup _ _).filter _) fun e he n hn => ?_
  rw [List.mem_filter, List.contains_iff_mem] at he
  obtain ⟨m, hm, _, k⟩ := hS.stack t e he.2
  have hn' : s.pool[e] = some n := hn
  rw [hn'] at hm
  cases hm
  exact fun c => hp (c.symm.trans k)

theorem forceStack_sublist (t : TargetId) (s : State) : (forceStack t s).deferred.Sublist s.deferred := ceaseAll_sublist _ _

end Sys2Proof.Machine
end

