-- ==== Sys2Proof/Laws/Ceasing.lean ====
section
/-! SUPPORT. What is left once pairs and notices of any records have ceased, in closed form: their entries, places, re-arm requests and reports (R16, R65, R68, R72, R73). -/

open Sys2Proof

namespace Sys2Proof.Machine

/-! ### Reports of several records -/

theorem absorb_and (a b c d : Bool) : (c = true → d = true) → (a && d) = (a && b && c || a && d) := by
  revert a b c d
  decide

/-- A state with another route table. -/
def withSlots (v : Vector Slot 1024) (s : State) : State := { s with slots := v }

theorem withSlots_slots (v : Vector Slot 1024) (s : State) : (withSlots v s).slots = v := rfl

theorem withSlots_withSlots (v w : Vector Slot 1024) (s : State) : withSlots v (withSlots w s) = withSlots v s := rfl

theorem withSlots_self (s : State) : withSlots s.slots s = s := rfl

theorem freeSlot_withSlots (i : SlotId) (s : State) : freeSlot i s = withSlots (freeSlot i s).slots s := by
  unfold freeSlot modSlot withSlots
  rfl

/-- The slots that pass a test freed. -/
def freeAll (q : SlotId → Bool) (s : State) : State :=
  withSlots (Vector.ofFn fun i => if q i then Slot.freeOf s.slots[i].generation else s.slots[i]) s

theorem freeAll_slot (q : SlotId → Bool) (s : State) (i : SlotId) :
    (freeAll q s).slots[i] = if q i then Slot.freeOf s.slots[i].generation else s.slots[i] := by
  unfold freeAll
  rw [withSlots_slots]
  exact Vector.getElem_ofFn _

theorem freeAll_generation (q : SlotId → Bool) (s : State) (i : SlotId) :
    (freeAll q s).slots[i].generation = s.slots[i].generation := by
  rw [freeAll_slot]
  split <;> rfl

theorem freeAll_withSlots (q : SlotId → Bool) (s : State) : freeAll q s = withSlots (freeAll q s).slots s := by
  unfold freeAll
  rw [withSlots_slots]

theorem freeAll_none (s : State) (q : SlotId → Bool) (h : ∀ i, q i = false) : freeAll q s = s := by
  have : (freeAll q s).slots = s.slots := by
    ext1 j hj
    have := freeAll_slot q s ⟨j, hj⟩
    rw [h, if_neg Bool.false_ne_true] at this
    exact this
  rw [freeAll_withSlots, this, withSlots_self]

theorem freeAll_congr {q r : SlotId → Bool} (s : State) (h : ∀ i, q i = r i) : freeAll q s = freeAll r s := by
  rw [funext h]

theorem freeSlot_freeAll (i : SlotId) (q : SlotId → Bool) (s : State) :
    freeSlot i (freeAll q s) = freeAll (fun j => q j || j == i) s := by
  have : (freeSlot i (freeAll q s)).slots = (freeAll (fun j => q j || j == i) s).slots := by
    ext1 j hj
    have h1 := freeAll_slot (fun j => q j || j == i) s ⟨j, hj⟩
    have h2 : (freeSlot i (freeAll q s)).slots[(⟨j, hj⟩ : SlotId)]
        = if i = ⟨j, hj⟩ then Slot.freeOf (freeAll q s).slots[i].generation else (freeAll q s).slots[(⟨j, hj⟩ : SlotId)] := by
      rw [freeSlot_slots]
      exact slot_get_set _ _ _ _
    refine h2.trans (Eq.trans ?_ h1.symm)
    rw [freeAll_generation, freeAll_slot]
    by_cases hi : i = ⟨j, hj⟩
    · subst hi
      rw [if_pos rfl, beq_self_eq_true, Bool.or_true, if_pos rfl]
    · rw [if_neg hi, beq_eq_false_iff_ne.mpr (fun h => hi h.symm), Bool.or_false]
  rw [freeSlot_withSlots, this, freeAll_withSlots q, withSlots_withSlots, ← freeAll_withSlots]

theorem withSlots_rest (v : Vector Slot 1024) (s : State) :
    (withSlots v s).pool = s.pool ∧ (withSlots v s).deferred = s.deferred ∧ (withSlots v s).port = s.port := ⟨rfl, rfl, rfl⟩

theorem outstanding_freeAll (q : SlotId → Bool) (s : State) (i : SlotId) : outstanding (freeAll q s) i = outstanding s i := by
  have h : ownedBy (freeAll q s) i = ownedBy s i := by
    funext n
    unfold ownedBy
    rw [freeAll_generation]
  unfold outstanding countNotices
  rw [h, freeAll_withSlots, (withSlots_rest _ _).1, (withSlots_rest _ _).2.1]

/-- Items that cease one after another, each reported to its own record: exactly the RETIRING records that lost an item and have nothing outstanding at the end are freed. -/
theorem foldl_reports {α : Type} (f : State → α → State) (r : α → Option SlotId)
    (hport : ∀ s a, (f s a).port = s.port) (htable : ∀ s a v, f (withSlots v s) a = withSlots v (f s a))
    (hmono : ∀ s a j, outstanding s j = 0 → outstanding (f s a) j = 0) (l : List α) (s : State)
    (hkeep : ∀ pre a post, l = pre ++ a :: post → ∀ j, r a ≠ some j →
      outstanding (f (pre.foldl f s) a) j = 0 → outstanding (pre.foldl f s) j = 0)
    (hf : ∀ i f, s.port.flight ≠ some (.retireWait i f)) :
    l.foldl (fun s a => match r a with
        | some i => reportCeased i (f s a)
        | none => f s a) s
      = freeAll (fun i => s.slots[i].state == .retiring && l.any (fun a => r a == some i) && outstanding (l.foldl f s) i == 0)
          (l.foldl f s) := by
  have hslot (s : State) (a : α) : (f s a).slots = s.slots := by
    have := congrArg State.slots (htable s a s.slots)
    rw [withSlots_self, withSlots_slots] at this
    exact this
  have hslots (l : List α) (s : State) : (l.foldl f s).slots = s.slots := by
    induction l generalizing s with
    | nil => rfl
    | cons a l ih => rw [List.foldl_cons, ih, hslot]
  have hports (l : List α) (s : State) : (l.foldl f s).port = s.port := by
    induction l generalizing s with
    | nil => rfl
    | cons a l ih => rw [List.foldl_cons, ih, hport]
  induction l using List.reverseRecOn with
  | nil =>
    refine (freeAll_none s _ fun i => ?_).symm
    rw [List.any_nil, Bool.and_false, Bool.false_and]
  | append_singleton l a ih =>
    rw [List.foldl_append, List.foldl_append, List.foldl_cons, List.foldl_cons, List.foldl_nil, List.foldl_nil,
      ih fun pre b post h => hkeep pre b (post ++ [a]) (by rw [h, List.append_assoc, List.cons_append])]
    have hk := hkeep l a [] rfl
    have hx := hslots l s
    have hp := hports l s
    generalize l.foldl f s = x at *
    generalize hq : (fun i : SlotId => s.slots[i].state == .retiring && l.any (fun a => r a == some i) && outstanding x i == 0) = q
    have hfx : f (freeAll q x) a = freeAll q (f x a) := by
      unfold freeAll
      rw [htable, hslot]
    rw [hfx]
    cases hr : r a with
    | none =>
      dsimp only
      refine freeAll_congr _ fun i => ?_
      rw [← hq, List.any_append, List.any_cons, List.any_nil, hr, Bool.or_false,
        show ((none : Option SlotId) == some i) = false from rfl, Bool.or_false]
      have h1 : outstanding (f x a) i = 0 ↔ outstanding x i = 0 :=
        ⟨hk i (by rw [hr]; exact nofun), hmono x a i⟩
      have h2 : (outstanding (f x a) i == 0) = (outstanding x i == 0) := by
        rw [Bool.eq_iff_iff, beq_iff_eq, beq_iff_eq]; exact h1
      dsimp only
      rw [h2]
    | some k =>
      dsimp only
      rw [reportCeased_eq k (by rw [freeAll_withSlots, (withSlots_rest _ _).2.2, hport, hp]; exact hf k), outstanding_freeAll]
      have hst : (freeAll q (f x a)).slots[k].state = if q k then .free else s.slots[k].state := by
        rw [freeAll_slot, hslot, hx]
        split <;> rfl
      have hgoal (i : SlotId) : (s.slots[i].state == .retiring && (l ++ [a]).any (fun a => r a == some i) && outstanding (f x a) i == 0)
          = (q i || (i == k && (s.slots[k].state == .retiring && outstanding (f x a) k == 0))) := by
        rw [← hq, List.any_append, List.any_cons, List.any_nil, hr, Bool.or_false]
        dsimp only
        by_cases hi : i = k
        · subst hi
          have h1 : (outstanding x i == 0) = true → (outstanding (f x a) i == 0) = true := by
            rw [beq_iff_eq, beq_iff_eq]; exact hmono x a i
          rw [beq_self_eq_true, beq_self_eq_true, Bool.or_true, Bool.and_true, Bool.true_and]
          exact absorb_and _ _ _ _ h1
        · have h0 : (i == k) = false := beq_eq_false_iff_ne.mpr hi
          have h00 : (some k == some i) = false := by
            rw [beq_eq_false_iff_ne]; exact fun h => hi (Option.some.inj h).symm
          have h1 : outstanding (f x a) i = 0 ↔ outstanding x i = 0 :=
            ⟨hk i (by rw [hr]; exact fun h => hi (Option.some.inj h).symm), hmono x a i⟩
          have h2 : (outstanding (f x a) i == 0) = (outstanding x i == 0) := by
            rw [Bool.eq_iff_iff, beq_iff_eq, beq_iff_eq]; exact h1
          rw [h0, h00, h2, Bool.or_false, Bool.false_and, Bool.or_false]
      rw [freeAll_congr _ hgoal, hst]
      unfold freeIf
      by_cases hqk : q k = true
      · rw [hqk, if_pos rfl]
        rw [if_neg (by exact Bool.false_ne_true)]
        refine freeAll_congr _ fun i => ?_
        by_cases hi : i = k
        · subst hi; rw [hqk, Bool.true_or]
        · rw [beq_eq_false_iff_ne.mpr hi, Bool.false_and, Bool.or_false]
      · have hqk' := eq_false_of_ne_true hqk
        rw [hqk', if_neg Bool.false_ne_true]
        cases hc : (s.slots[k].state == .retiring && outstanding (f x a) k == 0) with
        | true =>
          rw [if_pos rfl, freeSlot_freeAll]
          refine freeAll_congr _ fun i => ?_
          rw [Bool.and_true]
        | false =>
          rw [if_neg Bool.false_ne_true]
          refine freeAll_congr _ fun i => ?_
          rw [Bool.and_false, Bool.or_false]

/-! ### What ceases, in closed form -/

/-- The pairs that pass a test and the notices in some entries dropped: gone, with the re-arm requests of each. -/
def gone (goes : Pair → Bool) (es : List EntryId) (s : State) : State :=
  withPins (Vector.ofFn fun p => Nat.repeat rearmPin
      ((s.deferred.filter goes).countP (fun d => d.pins.getLsbD p)
        + es.countP fun e => (s.pool[e]).any fun n => n.pins.getLsbD p) s.pins[p])
    (without es { s with deferred := s.deferred.filter fun d => !goes d })

/-- What has ceased is gone, and the records that lost their last item so are freed. -/
theorem ceased_eq (goes : Pair → Bool) (es : List EntryId) (s : State) :
    ceased goes es s = freeAll (fun i => s.slots[i].state == .retiring && losesItem s goes es i && outstanding (gone goes es s) i == 0)
      (gone goes es s) := by
  have h (i : SlotId) : (if s.slots[i].state = .retiring ∧ losesItem s goes es i = true ∧ outstanding (gone goes es s) i = 0
        then Slot.freeOf s.slots[i].generation else s.slots[i])
      = if (s.slots[i].state == .retiring && losesItem s goes es i && outstanding (gone goes es s) i == 0) = true
        then Slot.freeOf s.slots[i].generation else s.slots[i] := by
    refine if_congr ?_ rfl rfl
    rw [Bool.and_eq_true, Bool.and_eq_true, beq_iff_eq, beq_iff_eq, and_assoc]
  have hs : (gone goes es s).slots = s.slots := by unfold gone withPins without; rfl
  unfold freeAll
  rw [hs, ← funext h]
  unfold ceased gone withPins without withSlots Target.without
  rfl

theorem dropNotice_withSlots (v : Vector Slot 1024) (e : EntryId) (s : State) :
    dropNotice e (withSlots v s) = withSlots v (dropNotice e s) := dropNotice_table v e s

theorem rearmPins_withSlots (v : Vector Slot 1024) (ps : PinSet) (s : State) :
    rearmPins ps (withSlots v s) = withSlots v (rearmPins ps s) := rearmPins_table v ps s

/-- Pairs that cease (R68, R69): they are gone, and the records that lost their last item so are freed. -/
theorem ceasePairs_eq (p : Pair → Bool) (s : State) (hf : ∀ i f, s.port.flight ≠ some (.retireWait i f)) :
    ceasePairs p s = ceased p [] s := by
  have hg : (s.deferred.filter p).foldl (fun s (d : Pair) => rearmPins d.pins s) { s with deferred := s.deferred.filter fun d => !p d }
      = gone p [] s := by
    obtain ⟨v, hv⟩ := foldl_rearmPins_rest ((s.deferred.filter p).map Pair.pins) { s with deferred := s.deferred.filter fun d => !p d }
    have hpin (k : PinId) := foldl_rearmPins_pins ((s.deferred.filter p).map Pair.pins)
      { s with deferred := s.deferred.filter fun d => !p d } k
    rw [List.foldl_map] at hv
    rw [List.foldl_map] at hpin
    unfold gone
    rw [without_nil, hv]
    refine congrArg (fun v => withPins v _) ?_
    ext1 j hj
    have := hpin ⟨j, hj⟩
    rw [hv, List.countP_map] at this
    rw [Vector.getElem_ofFn, List.countP_nil]
    exact this
  have := foldl_reports (fun s (d : Pair) => rearmPins d.pins s) (fun d => some d.slot) (fun s d => rearmPins_port d.pins s)
    (fun s d v => rearmPins_withSlots v d.pins s) (fun s d j h => (outstanding_rearmPins j d.pins s).trans h)
    (s.deferred.filter p) { s with deferred := s.deferred.filter fun d => !p d }
    (fun pre d post _ j _ h => (outstanding_rearmPins j d.pins _).symm.trans h) hf
  rw [hg] at this
  rw [ceased_eq]
  unfold ceasePairs ceasePair
  refine this.trans (freeAll_congr _ fun i => ?_)
  have hl : (s.deferred.filter p).any (fun d => some d.slot == some i) = losesItem s p [] i := by
    unfold losesItem
    rw [List.any_nil, Bool.or_false, List.any_filter]
    refine congrArg (fun q => s.deferred.any q) (funext fun d => ?_)
    rfl
  rw [hl]

theorem losesItem_none (s : State) (es : List EntryId) (i : SlotId) :
    losesItem s (fun _ => false) es i = es.any fun e => ((s.pool[e]).bind fun n => if n.isOrphan then none else some n.slot) == some i := by
  have h1 : (s.deferred.any fun d => false && d.slot == i) = false := by
    rw [List.any_eq_false]
    intro d _
    rw [Bool.false_and]
    exact Bool.false_ne_true
  unfold losesItem
  rw [h1, Bool.false_or]
  refine congrArg (fun q => es.any q) (funext fun e => ?_)
  cases s.pool[e] with
  | none => rfl
  | some n =>
    unfold Notice.isOrphan
    rw [Option.any_some, Option.bind_some]
    cases n.phase with
    | gathering a b => exact Bool.and_true _
    | pending => exact Bool.and_true _
    | inService late orphan =>
      cases orphan with
      | true => exact Bool.and_false _
      | false => exact Bool.and_true _

/-- Notices that cease, none of them on a stack (R65, R68, R115): they are gone, and the records that lost their last item so are freed. -/
theorem foldl_ceaseNotice_eq {X : EntryId → Prop} {s : State} (h : StandBut X s) (es : List EntryId) (hn : es.Nodup)
    (hu : ∀ e ∈ es, ∃ n, s.pool[e] = some n ∧ (n.isInService = true → X e)) (hf : ∀ i f, s.port.flight ≠ some (.retireWait i f)) :
    es.foldl (fun s e => ceaseNotice e s) s = ceased (fun _ => false) es s := by
  have hg : es.foldl (fun s e => dropNotice e s) s = gone (fun _ => false) es s := by
    rw [foldl_dropNotice es h hn hu]
    unfold gone
    have h1 : s.deferred.filter (fun d => !(fun _ : Pair => false) d) = s.deferred := List.filter_eq_self.mpr fun _ _ => rfl
    have h2 : s.deferred.filter (fun _ => false) = [] := List.filter_eq_nil_iff.mpr fun _ _ => Bool.false_ne_true
    rw [h1, h2]
    refine congrArg (fun v => withPins v _) ?_
    ext1 j hj
    rw [Vector.getElem_ofFn, Vector.getElem_ofFn, List.countP_nil, Nat.zero_add]
  generalize hr : (fun e : EntryId => (s.pool[e]).bind fun n => if n.isOrphan then none else some n.slot) = r
  have hre (e : EntryId) (n : Notice) (hp : s.pool[e] = some n) : r e = if n.isOrphan then none else some n.slot := by
    rw [← hr]
    dsimp only
    rw [hp]
    rfl
  have hcease (es : List EntryId) (x : State) (hn : es.Nodup) (hx : ∀ e ∈ es, x.pool[e] = s.pool[e]) (hl : ∀ e ∈ es, ∃ n, s.pool[e] = some n) :
      es.foldl (fun s e => ceaseNotice e s) x = es.foldl (fun s e => match r e with
        | some i => reportCeased i (dropNotice e s)
        | none => dropNotice e s) x := by
    induction es generalizing x with
    | nil => rfl
    | cons e es ih =>
      obtain ⟨hne, hnd⟩ := List.nodup_cons.mp hn
      obtain ⟨n, hp⟩ := hl e List.mem_cons_self
      have h1 : ceaseNotice e x = match r e with
          | some i => reportCeased i (dropNotice e x)
          | none => dropNotice e x := by
        unfold ceaseNotice
        rw [hx e List.mem_cons_self, hp, hre e n hp]
        dsimp only
        cases n.isOrphan <;> rfl
      rw [List.foldl_cons, List.foldl_cons, ← h1]
      refine ih _ hnd (fun d hd => ?_) (fun d hd => hl d (List.mem_cons_of_mem _ hd))
      rw [ceaseNotice_other e d x (fun k => hne (k ▸ hd))]
      exact hx d (List.mem_cons_of_mem _ hd)
  rw [hcease es s hn (fun _ _ => rfl) (fun e he => (hu e he).imp fun _ k => k.1)]
  have := foldl_reports (fun s e => dropNotice e s) r (fun s e => dropNotice_port e s) (fun s e v => dropNotice_withSlots v e s)
    (fun s e j h => (dropNotice_shrinks e s).outstanding (dropNotice_slots e s) j h) es s ?_ hf
  · rw [this, hg, ceased_eq]
    refine freeAll_congr _ fun i => ?_
    rw [losesItem_none, ← hr]
  · intro pre a post he j hj h0
    have ha : a ∉ pre := by
      rw [he] at hn
      exact fun h => (List.nodup_append.mp hn).2.2 a h a List.mem_cons_self rfl
    have hpool : (pre.foldl (fun s e => dropNotice e s) s).pool[a] = s.pool[a] :=
      foldl_pool_other (fun s d e hd => dropNotice_other d e s hd) pre s a ha
    generalize pre.foldl (fun s e => dropNotice e s) s = x at *
    rw [outstanding_zero] at h0 ⊢
    refine ⟨fun e n hp => ?_, fun d hd => h0.2 d ?_⟩
    · have hown : ownedBy (dropNotice a x) j n = ownedBy x j n := by
        unfold ownedBy
        rw [dropNotice_slots]
      by_cases hd : e = a
      · subst hd
        rw [hpool] at hp
        rw [hre e n hp] at hj
        unfold ownedBy
        cases ho : n.isOrphan with
        | true => rw [Bool.not_true, Bool.and_false]
        | false =>
          rw [ho, if_neg Bool.false_ne_true] at hj
          have : n.slot ≠ j := fun k => hj (by rw [k])
          rw [beq_eq_false_iff_ne.mpr this, Bool.false_and, Bool.false_and]
      · rw [← hown]
        exact h0.1 e n (by rw [dropNotice_other a e x hd]; exact hp)
    · rw [(dropNotice_shrinks a x).deferred]
      exact hd

/-! ### The start of a quiesce and FORCE, in closed form -/

theorem keptPort_eq {s t : State} (h : s.port.keptOrRetired t.port) (hf : ∀ i f, s.port.flight ≠ some (.retireWait i f)) :
    t.port = s.port := by
  rcases h with h | ⟨i, f, h, _⟩
  · exact h
  · exact absurd h (hf i f)

/-- Several notices cease, none of them on a stack: they are gone with their reports, the targets are judged, then the entries are handed over (R69, R87). -/
theorem ceaseAll_eq {X : EntryId → Prop} {s : State} (h : StandBut X s) (es : List EntryId) (hn : es.Nodup)
    (hu : ∀ e ∈ es, ∃ n, s.pool[e] = some n ∧ (n.isInService = true → X e)) (hf : ∀ i f, s.port.flight ≠ some (.retireWait i f)) :
    ceaseAll es s = handOverAll es (settle (ceased (fun _ => false) es s)) := by
  unfold ceaseAll
  rw [foldl_ceaseNotice_eq h es hn hu hf]

/-- The entries, ascending, of the GATHERING and PENDING notices on a target. -/
theorem ascending_standsOn (s : State) (t : TargetId) :
    ascending s (standsOn t) = (List.finRange 512).filter fun e => (s.pool[e]).any fun n => !n.isInService && n.target == t := by
  have h : standsOn t = fun n => !n.isInService && n.target == t := by
    funext n
    unfold standsOn Notice.unclaimed Notice.isInService
    cases n.phase <;> rfl
  unfold ascending
  rw [indicesWhere_eq, h]

/-- What the start of a quiesce leaves when no RETIRE waits (R134, R135). -/
theorem startQuiesce_eq {s paired moved : State} {rest : List EntryId} (hS : Standing s) (t : TargetId) (b : Bool)
    (hf : ∀ i f, s.port.flight ≠ some (.retireWait i f))
    (ha : paired = ceased (fun d => d.target == t) [] (modTarget t (fun c => { c with state := .quiescing }) s))
    (hb : moved = if b then rehomeAndJudge t paired else paired)
    (hc : rest = (List.finRange 512).filter fun e => (moved.pool[e]).any fun n => !n.isInService && n.target == t) :
    startQuiesce t b s = handOverAll rest (settle (ceased (fun _ => false) rest moved)) := by
  have h0 : ceasePairs (fun d => d.target == t) (modTarget t (fun c => { c with state := .quiescing }) s) = paired := by
    rw [ha]
    exact ceasePairs_eq _ _ hf
  have h1 : Standing paired := h0 ▸ ceasePairs_stand _ (modTarget_stand t _ hS rfl rfl)
  have hp1 : paired.port = s.port := by
    rw [← h0]
    exact keptPort_eq (s := modTarget t (fun c => { c with state := .quiescing }) s) (ceasePairs_frame _ _).port hf
  have h2 : Standing moved ∧ moved.port = s.port := by
    rw [hb]
    split
    · exact ⟨rehomeAndJudge_st t h1, (keptPort_eq (rehomeAndJudge_frame t paired).port (by rw [hp1]; exact hf)).trans hp1⟩
    · exact ⟨h1, hp1⟩
  have hstart : startQuiesce t b s = ceaseAll (ascending moved (standsOn t)) moved := by
    rw [hb]
    have key (x : State) (hx : ceasePairs (fun d => d.target == t) (modTarget t (fun c => { c with state := .quiescing }) s) = x) :
        startQuiesce t b s = ceaseAll (ascending (if b then rehomeAndJudge t x else x) (standsOn t)) (if b then rehomeAndJudge t x else x) := by
      subst hx
      exact rfl
    exact key paired h0
  rw [hstart, ceaseAll_eq h2.1 _ (ascending_nodup _ _) ?_ (by rw [h2.2]; exact hf), ascending_standsOn, ← hc]
  intro e he
  obtain ⟨n, hn, hq⟩ := (mem_ascending moved _ e).mp he
  refine ⟨n, hn, fun h => ?_⟩
  rw [(standsOn_unclaimed hq).1] at h
  cases h

/-- What FORCE leaves when no RETIRE waits (R138). -/
theorem forceStack_eq {s : State} (hS : Standing s) (t : TargetId) (hf : ∀ i f, s.port.flight ≠ some (.retireWait i f)) :
    let stacked := (List.finRange 512).filter fun e => s.targets[t].stack.contains e
    forceStack t s = handOverAll stacked (settle (ceased (fun _ => false) stacked (modTarget t (fun c => { c with stack := [] }) s))) := by
  intro stacked
  have hes : ((ascending s fun _ => true).filter fun e => s.targets[t].stack.contains e) = stacked := by
    show _ = (List.finRange 512).filter fun e => s.targets[t].stack.contains e
    unfold ascending
    rw [indicesWhere_eq, List.filter_filter]
    refine List.filter_congr fun e _ => ?_
    rw [Bool.eq_iff_iff, Bool.and_eq_true]
    refine and_iff_left_of_imp fun hc => ?_
    obtain ⟨n, hn, _⟩ := hS.stack t e (List.contains_iff_mem.mp hc)
    exact (Option.any_eq_true _ _).mpr ⟨n, hn, rfl⟩
  have h1 := cutStack_stand t (fun c => { c with stack := [] }) hS rfl (List.nil_sublist _)
  unfold forceStack
  dsimp only
  rw [hes]
  refine ceaseAll_eq h1 _ ((List.nodup_finRange 512).filter _) (fun e he => ?_) hf
  have hm := List.contains_iff_mem.mp (List.mem_filter.mp he).2
  obtain ⟨n, hn, _⟩ := hS.stack t e hm
  exact ⟨n, hn, fun _ => Or.inr ⟨hm, List.not_mem_nil⟩⟩

/-- What FORCE does to the stack leaves a port that no RETIRE waits at. -/
theorem forceStack_kept (t : TargetId) (s : State) (h : ∀ i f, s.port.flight ≠ some (.retireWait i f)) :
    (forceStack t s).port = s.port :=
  keptPort_eq (s := modTarget t (fun c => { c with stack := [] }) s)
    (ceaseAll_frame ((ascending s fun _ => true).filter fun e => s.targets[t].stack.contains e)
      (modTarget t (fun c => { c with stack := [] }) s)).port h

end Sys2Proof.Machine
end

