-- ==== Sys2Proof/Laws/Words.lean ====
section
/-! SUPPORT. The bits of packed words and of their fields. -/

open Sys2Proof

namespace Sys2Proof.Machine

/-- Bit k of a placed value: bit k − lo of the value, within the field. -/
theorem place_getLsbD (lo n v k : Nat) (h : lo + n ≤ 32) :
    (place lo n v).getLsbD k = (decide (lo ≤ k ∧ k < lo + n) && v.testBit (k - lo)) := by
  unfold place
  simp only [BitVec.getLsbD_shiftLeft, BitVec.getLsbD_and, BitVec.getLsbD_ofNat, Nat.testBit_two_pow_sub_one]
  by_cases h1 : k < 32 <;> by_cases h2 : lo ≤ k <;> by_cases h3 : k < lo + n <;> simp [h1, h2, h3]
  all_goals first
    | (rw [show decide (k < lo) = false by simp; omega, show decide (k - lo < 32) = true by simp; omega, show decide (k - lo < n) = true by simp; omega]; simp)
    | omega
    | (intros; omega)

/-- A field is zero exactly when each of its bits is. -/
theorem field_eq_zero (w : Word) (lo n : Nat) : field w lo n = 0 ↔ ∀ k, k < n → w.getLsbD (lo + k) = false := by
  unfold field
  constructor
  · intro h k hk
    have h0 : w.extractLsb' lo n = 0 := BitVec.eq_of_toNat_eq (by simpa using h)
    have := congrArg (fun x => x.getLsbD k) h0
    simpa [BitVec.getLsbD_extractLsb', hk] using this
  · intro h
    have h0 : w.extractLsb' lo n = 0 := by
      apply BitVec.eq_of_getLsbD_eq
      intro i hi
      simp [BitVec.getLsbD_extractLsb', hi, h i hi]
    rw [h0]; simp

/-- A word is zero under a mask of one field exactly when the field is zero. -/
theorem and_place_eq_zero (w : Word) (lo n : Nat) (h : lo + n ≤ 32) :
    w &&& place lo n (2 ^ n - 1) = 0 ↔ field w lo n = 0 := by
  rw [field_eq_zero]
  constructor
  · intro e k hk
    have := congrArg (fun x => x.getLsbD (lo + k)) e
    simp only [BitVec.getLsbD_and, place_getLsbD _ _ _ _ h, Nat.testBit_two_pow_sub_one] at this
    simpa [hk] using this
  · intro e
    apply BitVec.eq_of_getLsbD_eq
    intro i _
    simp only [BitVec.getLsbD_and, place_getLsbD _ _ _ _ h, Nat.testBit_two_pow_sub_one]
    by_cases h1 : lo ≤ i ∧ i < lo + n
    · have := e (i - lo) (by omega)
      rw [show lo + (i - lo) = i by omega] at this
      simp [this]
    · simp only [h1]; simp

/-- A word is zero under a mask made of two exactly when it is zero under each. -/
theorem and_or_eq_zero (w a b : Word) : w &&& (a ||| b) = 0 ↔ w &&& a = 0 ∧ w &&& b = 0 := by
  constructor
  · intro h
    constructor <;>
    · apply BitVec.eq_of_getLsbD_eq
      intro i hi
      have := congrArg (fun x => x.getLsbD i) h
      simp only [BitVec.getLsbD_and, BitVec.getLsbD_or, BitVec.getLsbD_zero] at this ⊢
      revert this
      cases w.getLsbD i <;> cases a.getLsbD i <;> cases b.getLsbD i <;> simp
  · rintro ⟨h1, h2⟩
    have : w &&& (a ||| b) = (w &&& a) ||| (w &&& b) := by
      apply BitVec.eq_of_getLsbD_eq
      intro i hi
      simp only [BitVec.getLsbD_and, BitVec.getLsbD_or]
      cases w.getLsbD i <;> simp
    rw [this, h1, h2]; simp

/-- A field of a placed value, of the same place and width. -/
theorem field_place (lo n v : Nat) (h : lo + n ≤ 32) (hv : v < 2 ^ n) : field (place lo n v) lo n = v := by
  unfold field
  apply Nat.eq_of_testBit_eq
  intro i
  rw [BitVec.testBit_toNat, BitVec.getLsbD_extractLsb', place_getLsbD _ _ _ _ h]
  by_cases hi : i < n
  · simp [hi]
  · simp only [hi, decide_false, Bool.false_and]
    exact (Nat.testBit_lt_two_pow (lt_of_lt_of_le hv (Nat.pow_le_pow_right (by decide) (by omega)))).symm

/-- A bit of a word made of fields: set in one of them. -/
theorem pack_getLsbD (fs : List Word) (k : Nat) : (pack fs).getLsbD k = fs.any fun f => f.getLsbD k := by
  have key : ∀ (fs : List Word) (a : Word), (fs.foldl (· ||| ·) a).getLsbD k = (a.getLsbD k || fs.any fun f => f.getLsbD k) := by
    intro fs
    induction fs with
    | nil => intro a; simp
    | cons f fs ih => intro a; rw [List.foldl_cons, ih]; simp [Bool.or_assoc]
  unfold pack
  rw [key]
  simp

theorem pack_cons (f : Word) (fs : List Word) (k) : (pack (f::fs)).getLsbD k = (f.getLsbD k || (pack fs).getLsbD k) := by simp [pack_getLsbD]

theorem pack_extract (fs : List Word) (lo n : Nat) (v : BitVec n) (h : ∀ k, k < n → (pack fs).getLsbD (lo+k) = v.getLsbD k) : (pack fs).extractLsb' lo n = v := by
  apply BitVec.eq_of_getLsbD_eq
  intro i hi
  rw [BitVec.getLsbD_extractLsb', h i hi]; simp [hi]

theorem pack_field (fs : List Word) (lo n v : Nat) (hv : v < 2^n) (h : ∀ k, k < n → (pack fs).getLsbD (lo+k) = v.testBit k) : field (pack fs) lo n = v := by
  unfold field
  apply Nat.eq_of_testBit_eq
  intro i
  rw [BitVec.testBit_toNat, BitVec.getLsbD_extractLsb']
  by_cases hi : i < n
  · simp [hi, h i hi]
  · simp only [hi, decide_false, Bool.false_and]
    exact (Nat.testBit_lt_two_pow (lt_of_lt_of_le hv (Nat.pow_le_pow_right (by decide) (by omega)))).symm

theorem place_bit (lo n v k : Nat) : (place lo n v).getLsbD k = (decide (k < 32) && (decide (lo ≤ k ∧ k < lo + n) && v.testBit (k - lo))) := by
  unfold place
  simp only [BitVec.getLsbD_shiftLeft, BitVec.getLsbD_and, BitVec.getLsbD_ofNat, Nat.testBit_two_pow_sub_one]
  by_cases h1 : k < 32 <;> by_cases h2 : lo ≤ k <;> by_cases h3 : k < lo + n <;> simp [h1, h2, h3]
  all_goals first
    | (rw [show decide (k < lo) = false by simp; omega, show decide (k - lo < 32) = true by simp; omega, show decide (k - lo < n) = true by simp; omega]; simp)
    | omega
    | (intros; omega)

end Sys2Proof.Machine
end

