-- ==== Sys2Proof/Laws/Checks.lean ====
section
/-! SUPPORT. The checks of each command as its meaning makes them and as the table of checks lists them, the owner check, and the command that a write takes. -/

open Sys2Proof

namespace Sys2Proof.Machine

theorem mask1 (w m : Word) (lo n : Nat) (h : lo + n ≤ 32) (hm : m = place lo n (2 ^ n - 1)) :
    (w &&& m != 0) = (field w lo n != 0) := by
  rw [Bool.eq_iff_iff, bne_iff_ne, bne_iff_ne, hm, ne_eq, ne_eq, and_place_eq_zero _ _ _ h]

theorem maskOr (w a b : Word) : (w &&& (a ||| b) != 0) = ((w &&& a != 0) || (w &&& b != 0)) := by
  rw [Bool.eq_iff_iff, Bool.or_eq_true, bne_iff_ne, bne_iff_ne, bne_iff_ne, ne_eq, and_or_eq_zero]
  tauto

theorem entries_drop (a b c d n : Nat) (hn : n < 8) (f : Nat → Nat) (h0 : f 0 = a) (h1 : f 1 = b) (h2 : f 2 = c) (h3 : f 3 = d) :
    (([a, b, c, d].drop n).any (· != 0)) = ((List.range 4).any fun k => decide (n ≤ k) && f k != 0) := by
  subst h0 h1 h2 h3
  have : n = 0 ∨ n = 1 ∨ n = 2 ∨ n = 3 ∨ n = 4 ∨ n = 5 ∨ n = 6 ∨ n = 7 := by omega
  rcases this with rfl | rfl | rfl | rfl | rfl | rfl | rfl | rfl <;> simp [List.range, List.range.loop]

theorem field_lt (w : Word) (lo n : Nat) : field w lo n < 2 ^ n := (w.extractLsb' lo n).isLt

theorem oeq {s : State} (h : s.port.flightOperands = s.port.operands) : operand s 0 = s.port.operands[0] ∧ operand s 1 = s.port.operands[1]
   ∧ operand s 2 = s.port.operands[2] ∧ operand s 3 = s.port.operands[3] ∧ operand s 4 = s.port.operands[4] ∧ operand s 5 = s.port.operands[5] := by
  unfold operand; rw [h]; exact ⟨rfl, rfl, rfl, rfl, rfl, rfl⟩

theorem imageReserved_eq (s : State) (h : s.port.flightOperands = s.port.operands) :
    imageReserved s (imageOf s) = imageBitsReserved s := by
  obtain ⟨o0, o1, o2, o3, o4, o5⟩ := oeq h
  unfold imageReserved imageBitsReserved imageOf
  simp only [o2, o3, o4]
  rw [entries_drop (field s.port.operands[3] 4 4) (field s.port.operands[3] 8 4) (field s.port.operands[3] 12 4) (field s.port.operands[3] 16 4) _ (field_lt _ 0 3) (fun k => field s.port.operands[3] (4 + 4 * k) 4) rfl rfl rfl rfl]
  rw [show (0x00E0CCC0#32 : Word) = ((place 6 2 3 ||| place 10 2 3) ||| place 14 2 3) ||| place 21 3 7 by decide]
  rw [show (0xFFF00008#32 : Word) = place 3 1 1 ||| place 20 12 4095 by decide]
  rw [maskOr, maskOr, maskOr, maskOr]
  rw [mask1 _ (place 6 2 3) 6 2 (by decide) rfl, mask1 _ (place 10 2 3) 10 2 (by decide) rfl, mask1 _ (place 14 2 3) 14 2 (by decide) rfl,
    mask1 _ (place 21 3 7) 21 3 (by decide) rfl, mask1 _ (place 3 1 1) 3 1 (by decide) rfl, mask1 _ (place 20 12 4095) 20 12 (by decide) rfl,
    mask1 _ 0xFFFF0000#32 16 16 (by decide) (by decide)]
  simp only [Bool.or_assoc]

theorem listed_eq (s : State) (h : s.port.flightOperands = s.port.operands) (hn : field s.port.operands[3] 0 3 ≤ 4) :
    listed (imageOf s) = listedTargets s.port.operands[3] := by
  unfold listed listedTargets imageOf operand
  simp only [h]
  show List.take (field s.port.operands[3] 0 3) _ = _
  generalize hk : field s.port.operands[3] 0 3 = n at *
  have : n = 0 ∨ n = 1 ∨ n = 2 ∨ n = 3 ∨ n = 4 := by omega
  rcases this with rfl | rfl | rfl | rfl | rfl <;> rfl

theorem firstFailing_append (a b : List (Bool × ResultCode)) :
    firstFailing (a ++ b) = (match firstFailing a with | some c => some c | none => firstFailing b) := by
  induction a with
  | nil => rfl
  | cons x xs ih =>
    simp only [List.cons_append, firstFailing, ih]
    split
    · rfl
    · rfl

theorem imageError_table (m : Image) : imageError m = firstFailing
    [(2 < m.modeCode || 1 < m.rearmCode, .badField), (m.listLength = 0 || 4 < m.listLength, .badField),
     ((listed m).any (7 < ·), .badTarget), (!(listed m).Nodup, .badTarget),
     (15 < m.level || m.threshold = 0, .badField), (32 < m.len, .badField)] := by
  unfold imageError
  simp only [firstFailing, decide_eq_true_eq]

theorem imageChecks_eq (s : State) (h : s.port.flightOperands = s.port.operands) :
    firstFailing
    [((imageOf s).listLength = 0 || 4 < (imageOf s).listLength, .badField),
     ((listed (imageOf s)).any (7 < ·), .badTarget), (!(listed (imageOf s)).Nodup, .badTarget),
     (15 < (imageOf s).level || (imageOf s).threshold = 0, .badField), (32 < (imageOf s).len, .badField)]
    = firstFailing (imageChecks s) := by
  have e3 : (imageOf s).listLength = field s.port.operands[3] 0 3 := by unfold imageOf operand; rw [h]; rfl
  have e4 : (imageOf s).level = field s.port.operands[2] 16 5 := by unfold imageOf operand; rw [h]; rfl
  have e5 : (imageOf s).threshold = field s.port.operands[2] 24 8 := by unfold imageOf operand; rw [h]; rfl
  have e6 : (imageOf s).len = field s.port.operands[2] 0 6 := by unfold imageOf operand; rw [h]; rfl
  unfold imageChecks
  rw [e3, e4, e5, e6]
  by_cases h1 : field s.port.operands[3] 0 3 ≤ 4
  · rw [listed_eq s h h1]
  · have : decide (4 < field s.port.operands[3] 0 3) = true := by rw [decide_eq_true_eq]; omega
    rw [this, Bool.or_true]
    rfl

theorem imageError_eq (s : State) (h : s.port.flightOperands = s.port.operands) :
    imageError (imageOf s) = firstFailing ((2 < field s.port.operands[2] 8 2 || 1 < field s.port.operands[2] 12 2, ResultCode.badField) :: imageChecks s) := by
  have e1 : (imageOf s).modeCode = field s.port.operands[2] 8 2 := by unfold imageOf operand; rw [h]; rfl
  have e2 : (imageOf s).rearmCode = field s.port.operands[2] 12 2 := by unfold imageOf operand; rw [h]; rfl
  rw [imageError_table, firstFailing, imageChecks_eq s h, e1, e2]
  rfl

theorem operand_eq {s : State} (h : s.port.flightOperands = s.port.operands) (k : Fin 8) : operand s k = s.port.operands[k] := by
  unfold operand; rw [h]

theorem slotId_eq {s : State} (h : s.port.flightOperands = s.port.operands) : slotId s = namedSlot s := by
  unfold slotId slotOperand namedSlot; rw [operand_eq h]; rfl

theorem ff_cons (b : Bool) (c : ResultCode) (l : List (Bool × ResultCode)) :
    firstFailing ((b, c) :: l) = if b then some c else firstFailing l := rfl

theorem ite_or (a b : Bool) (c : ResultCode) (x : Option ResultCode) :
    (if a = true then some c else if b = true then some c else x) = if (a || b) = true then some c else x := by
  cases a <;> cases b <;> rfl

theorem ite_match (a : Bool) (c : ResultCode) (x : Option ResultCode) (f : Option ResultCode) :
    (match (if a = true then some c else x) with | some c => some c | none => f) =
      if a = true then some c else (match x with | some c => some c | none => f) := by
  cases a <;> rfl

theorem installError_eq (s : State) (h : s.port.flightOperands = s.port.operands) :
    installError s = firstFailing (checks .install s) := by
  obtain ⟨o0, o1, o2, o3, o4, o5⟩ := oeq h
  have e6 : (imageOf s).len = field s.port.operands[2] 0 6 := by unfold imageOf; rw [o2]
  have e7 : (imageOf s).key = s.port.operands[1] := by unfold imageOf; rw [o1]
  unfold installError checks
  rw [firstFailing_append, firstFailing_append]
  simp only [installReserved, imageReserved_eq s h, slotOperand, startStateCode, imageError_eq s h, slotId_eq h, tailNonzero, duplicated, e6, e7, o0]
  rw [show (0xCFFFF800#32 : Word) = place 11 17 131071 ||| place 30 2 3 by decide, maskOr,
    mask1 _ (place 11 17 131071) 11 17 (by decide) rfl, mask1 _ (place 30 2 3) 30 2 (by decide) rfl]
  simp only [firstFailing, decide_eq_true_eq, bne_iff_ne]
  by_cases a1 : 1023 < field s.port.operands[0] 0 11
  · simp only [a1, if_true]
  by_cases a2 : s.slots[namedSlot s].state = .free
  · simp only [a1, a2, if_false, if_true, ne_eq, not_true_eq_false]
    by_cases a3 : (field s.port.operands[0] 11 17 != 0 || field s.port.operands[0] 30 2 != 0 || imageBitsReserved s) = true
    · simp only [a3, if_true]
    · simp only [a3]
      by_cases a4 : 1 < field s.port.operands[0] 28 2
      · simp only [a4, if_true, decide_true, Bool.true_or]; rfl
      · simp only [a4, decide_false, Bool.false_or, if_false]
        by_cases a5 : (decide (2 < field s.port.operands[2] 8 2) || decide (1 < field s.port.operands[2] 12 2)) = true
        · simp only [a5, if_true]; rfl
        · simp only [a5]
          rfl
  · simp only [a1, a2, if_false, if_true, ne_eq, not_false_eq_true]

theorem genEq {s : State} (h : s.port.flightOperands = s.port.operands) : generationOperand s = s.port.operands[0].extractLsb' 16 8 := by
  unfold generationOperand; rw [(oeq h).1]

theorem modifyError_eq (s : State) (h : s.port.flightOperands = s.port.operands) :
    modifyError s = firstFailing (checks .modify s) := by
  obtain ⟨o0, o1, o2, o3, o4, o5⟩ := oeq h
  have e6 : (imageOf s).len = field s.port.operands[2] 0 6 := by unfold imageOf; rw [o2]
  have e7 : (imageOf s).key = s.port.operands[1] := by unfold imageOf; rw [o1]
  unfold modifyError checks
  rw [firstFailing_append, firstFailing_append]
  simp only [modifyReserved, imageReserved_eq s h, slotOperand, imageError_eq s h, slotId_eq h, e6, e7, o0, genEq h]
  rw [show (0xFF00F800#32 : Word) = place 11 5 31 ||| place 24 8 255 by decide, maskOr,
    mask1 _ (place 11 5 31) 11 5 (by decide) rfl, mask1 _ (place 24 8 255) 24 8 (by decide) rfl]
  simp only [firstFailing, decide_eq_true_eq, bne_iff_ne, beq_iff_eq]
  by_cases a1 : 1023 < field s.port.operands[0] 0 11
  · simp only [a1, if_true]
  by_cases a2 : s.slots[namedSlot s].state = .free
  · simp only [a1, a2, if_false, if_true]
  by_cases a3 : s.port.operands[0].extractLsb' 16 8 = s.slots[namedSlot s].generation
  · by_cases a4 : s.slots[namedSlot s].state = .retiring
    · simp only [a1, a2, a3, a4, if_false, if_true, ne_eq, not_true_eq_false]; rfl
    · simp only [a1, a2, a3, a4, if_false, ne_eq, not_true_eq_false]
      by_cases a5 : (field s.port.operands[0] 11 5 != 0 || field s.port.operands[0] 24 8 != 0 || imageBitsReserved s) = true
      · simp only [a5, if_true]
      · simp only [a5]
        by_cases a6 : (decide (2 < field s.port.operands[2] 8 2) || decide (1 < field s.port.operands[2] 12 2)) = true
        · simp only [a6, if_true]; rfl
        · simp only [a6, Bool.or_eq_true, bne_iff_ne, decide_eq_true_eq, ne_eq]
          rfl
  · simp only [a1, a2, a3, if_false, if_true, ne_eq, not_false_eq_true]

theorem slotAlone_eq {s : State} (h : s.port.flightOperands = s.port.operands) : slotWordReserved s = (field s.port.operands[0] 11 21 != 0) := by
  unfold slotWordReserved; rw [(oeq h).1, mask1 _ 0xFFFFF800#32 11 21 (by decide) (by decide)]

theorem slotGen_eq {s : State} (h : s.port.flightOperands = s.port.operands) :
    slotGenerationReserved s = (field s.port.operands[0] 11 5 != 0 || field s.port.operands[0] 24 8 != 0) := by
  unfold slotGenerationReserved
  rw [(oeq h).1, show (0xFF00F800#32 : Word) = place 11 5 31 ||| place 24 8 255 by decide, maskOr,
    mask1 _ (place 11 5 31) 11 5 (by decide) rfl, mask1 _ (place 24 8 255) 24 8 (by decide) rfl]

theorem holdError_eq (s : State) (h : s.port.flightOperands = s.port.operands) :
    holdError s = firstFailing (checks .hold s) ∧ holdError s = firstFailing (checks .release s) := by
  constructor <;>
  · unfold holdError checks
    simp only [slotOperand, slotId_eq h, slotAlone_eq h, (oeq h).1, firstFailing, decide_eq_true_eq, bne_iff_ne, beq_iff_eq]

theorem retireError_eq (s : State) (h : s.port.flightOperands = s.port.operands) :
    retireError s = firstFailing (checks .retire s) := by
  unfold retireError checks
  have hr : retireReserved s = (field s.port.operands[0] 11 5 != 0 || field s.port.operands[0] 24 8 != 0 || field s.port.operands[1] 18 14 != 0) := by
    unfold retireReserved; rw [slotGen_eq h, (oeq h).2.1, mask1 _ 0xFFFC0000#32 18 14 (by decide) (by decide)]
  simp only [slotOperand, slotId_eq h, hr, retireModeCode, waitLimit, genEq h, (oeq h).1, (oeq h).2.1, firstFailing, decide_eq_true_eq, bne_iff_ne, beq_iff_eq]

theorem forceRetireError_eq (s : State) (h : s.port.flightOperands = s.port.operands) :
    forceRetireError s = firstFailing (checks .forceRetire s) := by
  unfold forceRetireError checks
  simp only [slotOperand, slotId_eq h, slotGen_eq h, genEq h, (oeq h).1, firstFailing, decide_eq_true_eq, bne_iff_ne, beq_iff_eq]

theorem targetId_eq {s : State} (h : s.port.flightOperands = s.port.operands) : targetId s = namedTarget s := by
  unfold targetId targetOperand namedTarget; rw [(oeq h).1]

theorem targetSetError_eq (s : State) (h : s.port.flightOperands = s.port.operands) :
    targetSetError s = firstFailing (checks .targetSet s) := by
  obtain ⟨o0, o1, o2, o3, o4, o5⟩ := oeq h
  have hr : targetSetReserved s = (field s.port.operands[0] 4 4 != 0 || field s.port.operands[0] 10 2 != 0 || field s.port.operands[0] 14 18 != 0 || field s.port.operands[4] 19 1 != 0 || field s.port.operands[4] 23 1 != 0
        || field s.port.operands[4] 27 1 != 0 || field s.port.operands[4] 31 1 != 0
        || (if field s.port.operands[0] 12 2 = 0 then s.port.operands[5] != 0 else field s.port.operands[5] 16 16 != 0)) := by
    unfold targetSetReserved ownerCode
    rw [o0, o4, o5, show (0xFFFFCCF0#32 : Word) = (place 4 4 15 ||| place 10 2 3) ||| place 14 18 262143 by decide,
      show (0x88880000#32 : Word) = ((place 19 1 1 ||| place 23 1 1) ||| place 27 1 1) ||| place 31 1 1 by decide,
      maskOr, maskOr, maskOr, maskOr, maskOr, mask1 _ (place 4 4 15) 4 4 (by decide) rfl, mask1 _ (place 10 2 3) 10 2 (by decide) rfl,
      mask1 _ (place 14 18 262143) 14 18 (by decide) rfl, mask1 _ (place 19 1 1) 19 1 (by decide) rfl, mask1 _ (place 23 1 1) 23 1 (by decide) rfl,
      mask1 _ (place 27 1 1) 27 1 (by decide) rfl, mask1 _ (place 31 1 1) 31 1 (by decide) rfl, mask1 _ 0xFFFF0000#32 16 16 (by decide) (by decide)]
    simp only [Bool.or_assoc]
  have ha : ((notifyAddress s).extractLsb' 0 2 ≠ 0) ↔ field s.port.operands[1] 0 2 ≠ 0 := by
    unfold notifyAddress; rw [o1, o2]
    unfold field
    have : (s.port.operands[2] ++ s.port.operands[1]).extractLsb' 0 2 = s.port.operands[1].extractLsb' 0 2 := by
      apply BitVec.eq_of_getLsbD_eq
      intro i hi
      simp only [BitVec.getLsbD_extractLsb', BitVec.getLsbD_append]
      simp [show i < 32 by omega]
    rw [this]
    constructor
    · intro hh e; exact hh (BitVec.eq_of_toNat_eq (by simpa using e))
    · intro hh e; exact hh (by rw [e]; rfl)
  unfold targetSetError checks
  simp only [targetOperand, targetId_eq h, hr, targetCode, ownerCode, ha, groupNumbers, o0, o4, firstFailing, decide_eq_true_eq, bne_iff_ne, beq_iff_eq]
  simp only [List.any_cons, List.any_nil, Bool.or_false, Bool.or_assoc]

theorem targetOnlineError_eq (s : State) (h : s.port.flightOperands = s.port.operands) :
    targetOnlineError s = firstFailing (checks .targetOnline s) := by
  obtain ⟨o0, o1, o2, o3, o4, o5⟩ := oeq h
  unfold targetOnlineError checks
  have : targetOnlineReserved s = (field s.port.operands[0] 4 28 != 0) := by
    unfold targetOnlineReserved; rw [o0, mask1 _ 0xFFFFFFF0#32 4 28 (by decide) (by decide)]
  simp only [targetOperand, targetId_eq h, this, o0, firstFailing, decide_eq_true_eq, bne_iff_ne, beq_iff_eq]

theorem targetOfflineError_eq (s : State) (h : s.port.flightOperands = s.port.operands) :
    targetOfflineError s = firstFailing (checks .targetOffline s) := by
  obtain ⟨o0, o1, o2, o3, o4, o5⟩ := oeq h
  unfold targetOfflineError checks
  have : targetOfflineReserved s = (field s.port.operands[0] 4 4 != 0 || field s.port.operands[0] 10 2 != 0 || field s.port.operands[0] 13 19 != 0 || field s.port.operands[1] 16 16 != 0) := by
    unfold targetOfflineReserved; rw [o0, o1, show (0xFFFFECF0#32 : Word) = (place 4 4 15 ||| place 10 2 3) ||| place 13 19 524287 by decide, maskOr, maskOr,
      mask1 _ (place 4 4 15) 4 4 (by decide) rfl, mask1 _ (place 10 2 3) 10 2 (by decide) rfl, mask1 _ (place 13 19 524287) 13 19 (by decide) rfl,
      mask1 _ 0xFFFF0000#32 16 16 (by decide) (by decide)]
  simp only [targetOperand, targetId_eq h, this, targetCode, waitLimit, o0, o1, firstFailing, decide_eq_true_eq, bne_iff_ne, beq_iff_eq]

theorem pinSetRefused_eq (s : State) (h : s.port.flightOperands = s.port.operands) :
    (if pinSetRefused s then some ResultCode.badField else none) = firstFailing (checks .pinSet s) := by
  obtain ⟨o0, o1, o2, o3, o4, o5⟩ := oeq h
  unfold pinSetRefused checks
  have : pinSetReserved s = (field s.port.operands[0] 6 2 != 0 || field s.port.operands[0] 11 1 != 0 || field s.port.operands[0] 16 16 != 0) := by
    unfold pinSetReserved; rw [o0, show (0xFFFF08C0#32 : Word) = (place 6 2 3 ||| place 11 1 1) ||| place 16 16 65535 by decide, maskOr, maskOr,
      mask1 _ (place 6 2 3) 6 2 (by decide) rfl, mask1 _ (place 11 1 1) 11 1 (by decide) rfl, mask1 _ (place 16 16 65535) 16 16 (by decide) rfl]
  simp only [this, pinOperand, senseCode, filterOperand, o0, firstFailing, Bool.or_assoc]

theorem group_eq (s : State) (h : s.port.flightOperands = s.port.operands) :
    (if groupReserved s || 32 < groupLength s then some ResultCode.badField else none) = firstFailing (checks .groupHold s) := by
  obtain ⟨o0, o1, o2, o3, o4, o5⟩ := oeq h
  unfold groupReserved groupLength checks
  rw [o1, mask1 _ 0xFFFFFFC0#32 6 26 (by decide) (by decide)]
  rfl

theorem groupRetire_eq (s : State) (h : s.port.flightOperands = s.port.operands) :
    (if groupRetireReserved s || 32 < groupLength s || 1 < retireModeCode s then some ResultCode.badField else none) = firstFailing (checks .groupRetire s) := by
  obtain ⟨o0, o1, o2, o3, o4, o5⟩ := oeq h
  unfold groupRetireReserved groupLength retireModeCode checks
  rw [o1, show (0xFFFCFFC0#32 : Word) = place 6 10 1023 ||| place 18 14 16383 by decide, maskOr, mask1 _ (place 6 10 1023) 6 10 (by decide) rfl,
    mask1 _ (place 18 14 16383) 18 14 (by decide) rfl]
  rfl

/-- The checks do not look at the parts of the port that the taking of a command changes. -/
theorem checks_start (c : Instr) (code : BitVec 8) (s : State) : checks c (startCommand code s) = checks c s := by
  cases c <;> rfl

theorem start_operands (code : BitVec 8) (s : State) : (startCommand code s).port.flightOperands = (startCommand code s).port.operands := rfl

theorem endCommand_start (code : BitVec 8) (s : State) (r : ResultCode) (ws : List Word) :
    endCommand r ws (startCommand code s) = { s with port := s.port.ended code r ws } := rfl

theorem ff_none {l : List (Bool × ResultCode)} : firstFailing l = none ↔ ∀ x ∈ l, x.1 = false := by
  induction l with
  | nil => simp [firstFailing]
  | cons x xs ih =>
    simp only [firstFailing, List.forall_mem_cons]
    cases hx : x.1
    · simp [ih]
    · simp

theorem list_le {s : State} (c : Instr) (hc : c = .install ∨ c = .modify) (hf : firstFailing (checks c s) = none) :
    field s.port.operands[3] 0 3 ≤ 4 := by
  rw [ff_none] at hf
  have : (decide (field s.port.operands[3] 0 3 = 0) || decide (4 < field s.port.operands[3] 0 3), ResultCode.badField) ∈ checks c s := by
    rcases hc with rfl | rfl
    · exact List.mem_append_left _ (List.mem_append_right _ List.mem_cons_self)
    · exact List.mem_append_left _ (List.mem_append_right _ List.mem_cons_self)
  have := hf _ this
  simp only [Bool.or_eq_false_iff, decide_eq_false_iff_not] at this
  omega

theorem hold_states {s : State} {c : Instr} (hc : c = .hold ∨ c = .release) (hf : firstFailing (checks c s) = none) :
    s.slots[namedSlot s].state = .active ∨ s.slots[namedSlot s].state = .held := by
  rcases hc with rfl | rfl <;>
  · unfold checks at hf
    simp only [firstFailing, beq_iff_eq] at hf
    repeat' (split at hf <;> try cases hf)
    cases hx : s.slots[namedSlot s].state <;> simp_all

theorem slot_eta_active (r : Slot) (h : r.state = .active) : { r with state := .active } = r := by
  rw [← h]

theorem slots_set_self (v : Vector Slot 1024) (i : SlotId) : v.set i v[i] = v := by
  ext j hj <;> simp

theorem owner_ok {s : State} {r : RequesterId} {t : TargetId} (h : s.targets[t].owner = none ∨ s.targets[t].owner = some r) : ownerRefuses s r t = false := by
  unfold ownerRefuses
  rcases h with h | h <;> rw [h] <;> simp

theorem owner_bad {s : State} {r o : RequesterId} {t : TargetId} (h : s.targets[t].owner = some o) (hne : o ≠ r) : ownerRefuses s r t = true := by
  unfold ownerRefuses; rw [h]; simpa using hne

theorem modTarget_modTarget (t : TargetId) (f g : Target → Target) (s : State) : modTarget t g (modTarget t f s) = modTarget t (fun c => g (f c)) s := by
  unfold modTarget
  simp

/-- After a claim has returned the target ONLINE and stopped its timer. -/
theorem claim_prep (t : TargetId) (s : State) : stopDeadline t (returnToOnline t s) =
    modTarget t (fun c => { c with state := if c.state = .stalled then .online else c.state, deadlineStart := none }) s := by
  unfold stopDeadline returnToOnline
  rw [modTarget_modTarget]
  congr 1
  funext c
  split <;> simp_all

theorem prep_deliverable (t : TargetId) (s : State) : deliverable (modTarget t (fun c => { c with state := if c.state = .stalled then .online else c.state, deadlineStart := none }) s) t = deliverable s t := by
  have e : ∀ c : Target, c = s.targets[t] → (modTarget t (fun c => { c with state := if c.state = .stalled then .online else c.state, deadlineStart := none }) s).targets[t] = { c with state := if c.state = .stalled then .online else c.state, deadlineStart := none } := by
    intro c hc; subst hc; simp
  have hp : placeable (modTarget t (fun c => { c with state := if c.state = .stalled then .online else c.state, deadlineStart := none }) s) t = placeable s t := by
    unfold placeable
    rw [e _ rfl]
    cases h : s.targets[t].state <;> rfl
  unfold deliverable
  dsimp only
  rw [hp, e _ rfl]
  rfl

theorem readDeliver {s : State} (h : readReady s) (r : RequesterId) (t : TargetId) (f : ClaimForm) :
    exec (.claim r t f) s = .next (claimBody r t f s) := by
  show Host.Outcome.next (linkDeliver _ s) = _
  rw [linkDeliver_of_readReady h _ rfl]; rfl

theorem head_erase {l : List EntryId} {e : EntryId} (h : l.head? = some e) : l.erase e = l.tail := by
  cases l with
  | nil => cases h
  | cons a as => simp at h; subst h; simp

theorem completeExec {s : State} (hr : linkReady s) {r : RequesterId} {t : TargetId} {w : Word} (ho : s.targets[t].owner = none ∨ s.targets[t].owner = some r) :
    exec (.complete r t w) s = .next (match s.targets[t].stack with
    | [] => raise .stackUnderflow s
    | e :: _ =>
      match s.pool[e] with
      | some n =>
        if completeNames w n then settle (endQuiesceIfEmpty t (completeNotice e n (popStack t s)))
        else raise .completeMismatch s
      | none => raise .completeMismatch s) := by
  show Host.Outcome.next (linkDeliver _ s) = _
  rw [linkDeliver_of_linkReady hr]
  show Host.Outcome.next (completeBody r t w s) = _
  unfold completeBody; rw [owner_ok ho]; rfl

theorem names_ok {w : Word} {n : Notice} (h1 : field w 1 10 = n.slot.val) (h2 : w.extractLsb' 11 8 = n.generation) (h3 : field w 19 4 = n.level.val) :
    completeNames w n = true := by
  unfold completeNames completeSlot completeGeneration completeLevel
  simp [h1, h2, h3]

theorem port_of_walk {s t : State} {f : Flight} (hf : s.port.flight = some f) (hw : f.isWalk = true) (h : s.port.keptOrRetired t.port) : t.port = s.port := by
  rcases h with h | ⟨i, x, hx, _⟩
  · exact h
  · rw [hf] at hx; cases hx; cases hw

theorem walk_end (s u : State) (hu : u.port = s.port) (g : Flight) (ws : List Word) (hp : s.port.walkPosition < 1024) :
    endWalkIfPast ws (advanceWalk g u) = { u with port :=
      (if s.port.walkPosition = 1023 then ({ s.port with walkPosition := s.port.walkPosition + 1, flight := some g } : Port).concluded .ok ws
        else { s.port with walkPosition := s.port.walkPosition + 1, flight := some g }) } := by
  unfold endWalkIfPast
  have e : (advanceWalk g u).port = { s.port with walkPosition := s.port.walkPosition + 1, flight := some g } := by
    unfold advanceWalk modPort; dsimp only; rw [hu]
  rw [e]
  by_cases h : s.port.walkPosition = 1023
  · rw [if_pos h, if_pos (by dsimp only; omega)]
    unfold endCommand modPort
    rw [e]
    rfl
  · rw [if_neg h, if_neg (by dsimp only; omega)]
    rw [← e]; rfl

theorem decode_refused {a : Access} (h : (decodeAccess a).isRefused = true) : decodeAccess a = refusedOp a := by
  obtain ⟨r, off, size, kind⟩ := a
  unfold decodeAccess at *
  dsimp only at *
  split at h
  · rename_i h1; rw [if_pos h1]
    split at h
    · rename_i h2; rw [if_pos h2]
      cases kind <;> unfold decodeMgmtWord at * <;> dsimp only at *
      · repeat (split at h; · cases h)
        simp only [*, if_false]
      · repeat (split at h; · cases h)
        simp only [*, if_false]
    · rename_i h2; rw [if_neg h2]
  · rename_i h1; rw [if_neg h1]
    split at h
    · rename_i h2; rw [if_pos h2]
      unfold decodePage at *
      dsimp only at *
      split at h
      · rename_i h3; rw [if_pos h3]
        cases kind <;> unfold decodePageWord at * <;> dsimp only at *
        · repeat (split at h; · cases h)
          simp only [*, if_false]
        · repeat (split at h; · cases h)
          simp only [*, if_false]
      · rename_i h3; rw [if_neg h3]
        split at h
        · cases h
        · rename_i h4; rw [if_neg h4]
    · rename_i h2; rw [if_neg h2]
      split at h
      · rename_i h4; rw [if_pos h4]
      · cases kind <;> cases h

theorem mgmt_operand (r) (k : Fin 8) : decodeAccess { requester := r, offset := 0x20 + 4 * BitVec.ofNat 16 k, size := 4, kind := .read } = .mgmtRead r (.operand k) := by
  have h1 : (0x20 + 4 * BitVec.ofNat 16 k : BitVec 16).toNat = 32 + 4 * k := by
    have := k.isLt
    simp [BitVec.toNat_add, BitVec.toNat_mul]; omega
  simp only [decodeAccess, h1]
  have := k.isLt
  rw [if_pos (by omega), if_pos (by simp)]
  have h8 : (32 + 4 * k.val) / 4 = 8 + k := by omega
  rw [h8]
  simp only [decodeMgmtWord]
  rw [if_neg (by omega), if_neg (by omega), if_neg (by omega), if_neg (by omega), if_neg (by omega), if_pos (by omega)]
  simp

theorem mgmt_result (r) (k : Fin 8) : decodeAccess { requester := r, offset := 0x40 + 4 * BitVec.ofNat 16 k, size := 4, kind := .read } = .mgmtRead r (.result k) := by
  have h1 : (0x40 + 4 * BitVec.ofNat 16 k : BitVec 16).toNat = 64 + 4 * k := by
    have := k.isLt
    simp [BitVec.toNat_add, BitVec.toNat_mul]; omega
  simp only [decodeAccess, h1]
  have := k.isLt
  rw [if_pos (by omega), if_pos (by simp)]
  have h8 : (64 + 4 * k.val) / 4 = 16 + k := by omega
  rw [h8]
  simp only [decodeMgmtWord]
  rw [if_neg (by omega), if_neg (by omega), if_neg (by omega), if_neg (by omega), if_neg (by omega), if_neg (by omega), if_pos (by omega)]
  simp

end Sys2Proof.Machine
end

