-- ==== Sys2Proof/Laws/Stacks.lean ====
section
/-! SUPPORT. The in-service stacks: what each operation leaves of them, and that a claim and every access keep them in strict order of urgency (R98). -/

open Sys2Proof

namespace Sys2Proof.Machine

/-- Each notice in service was in service in the same entry, at the same level (R102). -/
abbrev InServiceKept (s t : State) : Prop :=
  ∀ (e : EntryId) (n : Notice), t.pool[e] = some n → n.isInService = true →
    ∃ m, s.pool[e] = some m ∧ m.isInService = true ∧ m.level = n.level

/-- Each stack is empty, or holds only what it held, in its order, under the same group order. -/
structure Still (s t : State) : Prop where
  pool : InServiceKept s t
  target : ∀ k : TargetId, t.targets[k].stack = [] ∨ (t.targets[k].groupOrder = s.targets[k].groupOrder ∧ t.targets[k].stack.Sublist s.targets[k].stack)

theorem InServiceKept.same {s t : State} (h : t.pool = s.pool) : InServiceKept s t := fun e n hn hi => ⟨n, by rw [h] at hn; exact hn, hi, rfl⟩

theorem InServiceKept.trans {s t u : State} (h : InServiceKept s t) (k : InServiceKept t u) : InServiceKept s u := by
  intro e n hn hi
  obtain ⟨m, hm, a, b⟩ := k e n hn hi
  obtain ⟨l, hl, c, d⟩ := h e m hm a
  exact ⟨l, hl, c, d.trans b⟩

theorem InServiceKept.shrinks {s t : State} (h : Shrinks s t) : InServiceKept s t := fun e n hn hi => ⟨n, h.pool e n hn, hi, rfl⟩

theorem Still.refl (s : State) : Still s s := ⟨InServiceKept.same rfl, fun _ => Or.inr ⟨rfl, List.Sublist.refl _⟩⟩

theorem Still.trans {s t u : State} (h : Still s t) (k : Still t u) : Still s u := by
  refine ⟨InServiceKept.trans h.pool k.pool, fun x => ?_⟩
  rcases k.target x with a | ⟨a, b⟩
  · exact Or.inl a
  · rcases h.target x with c | ⟨c, d⟩
    · rw [c] at b; exact Or.inl (List.sublist_nil.mp b)
    · exact Or.inr ⟨a.trans c, b.trans d⟩

theorem Still.frame {s t : State} (f : Frame s t) (p : InServiceKept s t) : Still s t :=
  ⟨p, fun k => Or.inr (by rw [show t.targets[k] = _ from f.target k]; exact ⟨rfl, List.Sublist.refl _⟩)⟩

theorem Still.same {s t : State} (ht : t.targets = s.targets) (hp : t.pool = s.pool) : Still s t :=
  ⟨InServiceKept.same hp, fun k => Or.inr (by rw [ht]; exact ⟨rfl, List.Sublist.refl _⟩)⟩

theorem Still.mod {s : State} (t : TargetId) (f : Target → Target)
    (h : (f s.targets[t]).stack = [] ∨ ((f s.targets[t]).groupOrder = s.targets[t].groupOrder ∧ (f s.targets[t]).stack.Sublist s.targets[t].stack)) : Still s (modTarget t f s) := by
  refine ⟨InServiceKept.same rfl, fun k => ?_⟩
  show (s.targets.set t _)[k].stack = [] ∨ (s.targets.set t _)[k].groupOrder = _ ∧ (s.targets.set t _)[k].stack.Sublist _
  rw [target_get_set]
  split
  · rename_i hk; subst hk; exact h
  · exact Or.inr ⟨rfl, List.Sublist.refl _⟩

theorem Still.foldl {α : Type} {f : State → α → State} (hf : ∀ s a, Still s (f s a)) (l : List α) (s : State) : Still s (l.foldl f s) := by
  induction l generalizing s with
  | nil => exact Still.refl s
  | cons a as ih => exact (hf s a).trans (ih _)

/-- Where the stacks keep still and every notice stands in its place, the order of the stacks is kept (R98). -/
theorem Still.ordered {s t : State} (q : Still s t) (ht : Standing t) (h : StacksOrdered s) : StacksOrdered t := by
  intro k
  rcases q.target k with a | ⟨a, b⟩
  · rw [a]; exact List.Pairwise.nil
  · refine ((h k).sublist b).imp_of_mem fun {x y} hx hy hxy n m hn hm => ?_
    obtain ⟨n', hn', hi, _⟩ := ht.stack k x hx
    rw [hn] at hn'; cases hn'
    obtain ⟨m', hm', hj, _⟩ := ht.stack k y hy
    rw [hm] at hm'; cases hm'
    obtain ⟨n0, h1, _, h2⟩ := q.pool x n hn hi
    obtain ⟨m0, h3, _, h4⟩ := q.pool y m hm hj
    rw [a, ← h2, ← h4]
    exact hxy n0 m0 h1 h3

/-! ### Notices in service -/

theorem setEntry_inService (e : EntryId) (o : Option Notice) (s : State) (h : ∀ n, o = some n → n.isInService = true → ∃ m, s.pool[e] = some m ∧ m.isInService = true ∧ m.level = n.level) :
    InServiceKept s (setEntry e o s) := by
  intro d n hn hi
  have hn' : (s.pool.set e o)[d] = some n := hn
  rw [pool_get_set] at hn'
  by_cases hd : e = d
  · subst hd; rw [if_pos rfl] at hn'; exact h n hn' hi
  · rw [if_neg hd] at hn'; exact ⟨n, hn', hi, rfl⟩

theorem ripen_inService (e : EntryId) (s : State) : InServiceKept s (ripen e s) := by
  intro d n hn hi
  rw [ripen_pool] at hn
  split at hn
  · cases hp : s.pool[d] with
    | none => rw [hp] at hn; cases hn
    | some m =>
      rw [hp] at hn
      have hn : m.ripened = n := by simpa using hn
      subst hn
      have hm : m.isInService = true := by rw [← (ripened_kind m).1]; exact hi
      refine ⟨m, rfl, hm, ?_⟩
      unfold Notice.ripened; split <;> rfl
  · exact ⟨n, hn, hi, rfl⟩

theorem ripenIfReached_inService (e : EntryId) (s : State) : InServiceKept s (ripenIfReached e s) := by
  unfold ripenIfReached; split
  · exact ripen_inService e s
  · exact InServiceKept.same rfl

theorem raiseIf_inService (b : Bool) (c : Cause) (s : State) : InServiceKept s (raiseIf b c s) := InServiceKept.same (raiseIf_pool' b c s)

theorem mergeInto_inService (e : EntryId) (p : Placement) (s : State) : InServiceKept s (mergeInto e p s) := by
  unfold mergeInto; split
  · rename_i n hn
    refine InServiceKept.trans (t := setEntry e (some (n.merged p)) s) (setEntry_inService e _ s ?_) (InServiceKept.trans (raiseIf_inService _ _ _) (ripenIfReached_inService _ _))
    intro m hm hi; cases hm; exact ⟨n, hn, hi, rfl⟩
  · exact InServiceKept.same rfl

theorem addLate_inService (e : EntryId) (p : Placement) (s : State) : InServiceKept s (addLate e p s) := by
  unfold addLate; split
  · rename_i n hn
    refine InServiceKept.trans (t := setEntry e (some (n.mergedLate p)) s) (setEntry_inService e _ s ?_) (raiseIf_inService _ _ _)
    intro m hm hi; cases hm; exact ⟨n, hn, by rw [← (mergedLate_phase n p).2.1]; exact hi, rfl⟩
  · exact InServiceKept.same rfl

theorem startNotice_inService (e : EntryId) (n : Notice) (s : State) (hn : n.isInService = false) : InServiceKept s (startNotice e n s) := by
  have h0 : InServiceKept s ({ setEntry e (some n) s with order := s.order.erase e ++ [e] } : State) := by
    refine InServiceKept.trans (setEntry_inService e (some n) s ?_) (InServiceKept.same rfl)
    intro m hm hi; cases hm; rw [hn] at hi; cases hi
  unfold startNotice
  dsimp only
  split
  · exact h0.trans (ripen_inService _ _)
  · exact h0.trans (ripenIfReached_inService _ _)

theorem handOver_inService (e : EntryId) (s : State) : InServiceKept s (handOver e s) := by
  unfold handOver; split
  · exact InServiceKept.same rfl
  · rename_i d rest _
    exact InServiceKept.trans (t := { s with deferred := rest }) (InServiceKept.same rfl) (startNotice_inService _ _ _ rfl)

theorem judgeInTurn_inService (ts : List TargetId) (s : State) : InServiceKept s (judgeInTurn ts s) := InServiceKept.same (judgeInTurn_pool ts s).1

theorem settle_inService (s : State) : InServiceKept s (settle s) := InServiceKept.same (settle_pool s).1

/-! ### The shared operations and the bodies of the commands -/

theorem ripen_still (e : EntryId) (s : State) : Still s (ripen e s) := Still.frame (ripen_frame e s) (ripen_inService e s)

theorem settle_still (s : State) : Still s (settle s) := Still.frame (settle_frame s) (settle_inService s)

theorem judgeInTurn_still (ts : List TargetId) (s : State) : Still s (judgeInTurn ts s) := Still.frame (judgeInTurn_frame ts s) (judgeInTurn_inService ts s)

theorem mergeInto_still (e : EntryId) (p : Placement) (s : State) : Still s (mergeInto e p s) := Still.frame (mergeInto_frame e p s) (mergeInto_inService e p s)

theorem addLate_still (e : EntryId) (p : Placement) (s : State) : Still s (addLate e p s) := Still.frame (addLate_frame e p s) (addLate_inService e p s)

theorem startNotice_still (e : EntryId) (n : Notice) (s : State) (hn : n.isInService = false) : Still s (startNotice e n s) := Still.frame (startNotice_frame e n s) (startNotice_inService e n s hn)

theorem handOver_still (e : EntryId) (s : State) : Still s (handOver e s) := Still.frame (handOver_frame e s) (handOver_inService e s)

theorem handOverInTurn_still (s : State) (e : EntryId) : Still s (handOverInTurn s e) := (handOver_still e s).trans (judgeInTurn_still _ _)

theorem handOverAll_still (es : List EntryId) (s : State) : Still s (handOverAll es s) := Still.foldl handOverInTurn_still es s

theorem raise_still (c : Cause) (s : State) : Still s (raise c s) := Still.same rfl rfl

theorem raiseIf_still (b : Bool) (c : Cause) (s : State) : Still s (raiseIf b c s) := by cases b <;> exact Still.same rfl rfl

theorem removeNotice_still (e : EntryId) (s : State) : Still s (removeNotice e s) := Still.frame (removeNotice_frame e s) (InServiceKept.shrinks (removeNotice_shrinks e s))

theorem reportCeased_still (i : SlotId) (s : State) : Still s (reportCeased i s) := Still.frame (reportCeased_frame i s) (InServiceKept.shrinks (reportCeased_shrinks i s))

theorem dropNotice_still (e : EntryId) (s : State) : Still s (dropNotice e s) := Still.frame (dropNotice_frame e s) (InServiceKept.shrinks (dropNotice_shrinks e s))

theorem ceaseNotice_still (e : EntryId) (s : State) : Still s (ceaseNotice e s) := Still.frame (ceaseNotice_frame e s) (InServiceKept.shrinks (ceaseNotice_shrinks e s))

theorem ceaseAndHandOver_still (e : EntryId) (s : State) : Still s (ceaseAndHandOver e s) := (ceaseNotice_still e s).trans (handOverInTurn_still _ _)

theorem ceaseAll_still (es : List EntryId) (s : State) : Still s (ceaseAll es s) :=
  ((Still.foldl (fun s e => ceaseNotice_still e s) es s).trans (settle_still _)).trans (handOverAll_still _ _)

theorem ceasePairs_still (p : Pair → Bool) (s : State) : Still s (ceasePairs p s) := Still.frame (ceasePairs_frame p s) (InServiceKept.same (ceasePairs_shape p s).2.1)

theorem rearmPins_still (ps : PinSet) (s : State) : Still s (rearmPins ps s) := Still.same (by simp [rearmPins]) (by simp [rearmPins])

theorem modSlot_still (i : SlotId) (f : Slot → Slot) (s : State) : Still s (modSlot i f s) := Still.same rfl rfl

theorem setHeld_still (i : SlotId) (h : Held) (s : State) : Still s (setHeld i h s) := Still.same rfl rfl

theorem modPin_still (p : PinId) (f : Pin → Pin) (s : State) : Still s (modPin p f s) := Still.same rfl rfl

theorem modPort_still (f : Port → Port) (s : State) : Still s (modPort f s) := Still.same rfl rfl

theorem endCommand_still (c : ResultCode) (w : List Word) (s : State) : Still s (endCommand c w s) := Still.same rfl rfl

theorem mergeIntoPair_still (i : SlotId) (t : TargetId) (d : Pair) (p : Placement) (s : State) : Still s (mergeIntoPair i t d p s) := by
  unfold mergeIntoPair
  exact Still.trans (t := { s with deferred := s.deferred.map fun x => if x.slot == i && x.target == t then x.merged p else x }) (Still.same rfl rfl) (raiseIf_still _ _ _)

theorem placeOn_still (i : SlotId) (t : TargetId) (p : Placement) (s : State) : Still s (placeOn i t p s) := by
  unfold placeOn
  split
  · exact mergeInto_still _ _ _
  · split
    · exact mergeIntoPair_still _ _ _ _ _
    · split
      · exact startNotice_still _ _ _ rfl
      · exact Still.same rfl rfl

theorem placeAt_still (i : SlotId) (t : TargetId) (p : Placement) (s : State) : Still s (placeAt i t p s) := by
  unfold placeAt; split
  · exact addLate_still _ _ _
  · exact placeOn_still _ _ _ _

theorem placeSingle_still (i : SlotId) (p : Placement) (s : State) : Still s (placeSingle i p s) := by
  unfold placeSingle; split
  · exact addLate_still _ _ _
  · split
    · unfold placeRotate; split
      · exact mergeInto_still _ _ _
      · dsimp only; split
        · exact (modSlot_still _ _ _).trans (placeOn_still _ _ _ _)
        · exact Still.refl _
    · unfold placeFirst; split
      · exact placeOn_still _ _ _ _
      · exact Still.refl _

theorem placeAll_still (i : SlotId) (p : Placement) (s : State) (ts : List TargetId) : Still s (placeAll i p s ts) := by
  induction ts generalizing s p with
  | nil => exact Still.refl s
  | cons t ts ih => exact ((placeAt_still i t p s).trans (settle_still _)).trans (ih _ _)

theorem placeByMode_still (i : SlotId) (p : Placement) (s : State) : Still s (placeByMode i p s) := by
  unfold placeByMode; split
  · exact placeAll_still _ _ _ _
  · exact placeSingle_still _ _ _

theorem placeArrival_still (i : SlotId) (a : Arrival) (s : State) : Still s (placeArrival i a s) := by
  unfold placeArrival; dsimp only; split
  · exact placeByMode_still _ _ _
  · exact ((setHeld_still _ _ _).trans (raiseIf_still _ _ _)).trans (placeByMode_still _ _ _)

theorem placeHeld_still (i : SlotId) (s : State) : Still s (placeHeld i s) := by
  have h1 := (setHeld_still i Held.empty s).trans (raiseIf_still (decide (255 < s.slots[i].held.count)) .countOverflow _)
  unfold placeHeld; dsimp only
  split
  · split
    · exact h1.trans (placeAt_still _ _ _ _)
    · exact h1
  · exact h1.trans (placeSingle_still _ _ _)

theorem arrive_still (p : Producer) (a : Arrival) (s : State) : Still s (arrive p a s) := by
  unfold arrive; split
  · unfold applyArrival; split
    · exact (placeArrival_still _ _ _).trans (settle_still _)
    · exact (setHeld_still _ _ _).trans (raiseIf_still _ _ _)
  · cases p <;> exact Still.same rfl rfl

theorem absorbPair_still (e : EntryId) (i : SlotId) (t : TargetId) (s : State) : Still s (absorbPair e i t s) := by
  unfold absorbPair; split
  · exact Still.trans (t := { s with deferred := s.deferred.filter fun x => !(x.slot == i && x.target == t) }) (Still.same rfl rfl) (mergeInto_still _ _ _)
  · exact Still.refl s

theorem mergeAway_inService (e : EntryId) (n : Notice) (home : EntryId) (s : State) : InServiceKept s (mergeAway e n home s) := by
  unfold mergeAway; split
  · rename_i r _
    dsimp only
    refine InServiceKept.trans (mergeInto_inService home (awayPlacement n r) s) (InServiceKept.trans (t := if n.isPending then ripen home (mergeInto home (awayPlacement n r) s) else mergeInto home (awayPlacement n r) s) ?_ ?_)
    · split
      · exact ripen_inService _ _
      · exact InServiceKept.same rfl
    · exact InServiceKept.trans (InServiceKept.trans (InServiceKept.shrinks (removeNotice_shrinks _ _)) (InServiceKept.shrinks (reportCeased_shrinks _ _))) (handOver_inService _ _)
  · exact InServiceKept.same rfl

theorem moveWhole_inService (e : EntryId) (n : Notice) (t : TargetId) (s : State) (hn : s.pool[e] = some n) : InServiceKept s (moveWhole e n t s) := by
  have h1 : InServiceKept s (setEntry e (some { n with target := t }) s) := setEntry_inService _ _ _ (by intro m hm hi; cases hm; exact ⟨n, hn, hi, rfl⟩)
  unfold moveWhole; dsimp only
  refine InServiceKept.trans (t := if n.isPending then modList t n.level (· ++ [e]) (modList n.target n.level (·.erase e) (setEntry e (some { n with target := t }) s)) else setEntry e (some { n with target := t }) s) ?_ (absorbPair_still _ _ _ _).pool
  split
  · exact InServiceKept.trans h1 (InServiceKept.same rfl)
  · exact h1

theorem rehomeOne_still (source : TargetId) (s : State) (e : EntryId) : Still s (rehomeOne source s e) := by
  refine Still.frame (rehomeOne_frame source s e) ?_
  unfold rehomeOne; split
  · rename_i n hn
    split
    · split
      · exact mergeAway_inService _ _ _ _
      · exact moveWhole_inService _ _ _ _ hn
    · exact InServiceKept.same rfl
  · exact InServiceKept.same rfl

theorem rehomeAndJudge_still (t : TargetId) (s : State) : Still s (rehomeAndJudge t s) := by
  unfold rehomeAndJudge rehomeAll
  exact (Still.foldl (rehomeOne_still t) _ s).trans (judgeInTurn_still _ _)

theorem startQuiesce_still (t : TargetId) (b : Bool) (s : State) : Still s (startQuiesce t b s) := by
  unfold startQuiesce; dsimp only
  have h1 : Still s (ceasePairs (fun d => d.target == t) (modTarget t (fun c => { c with state := .quiescing }) s)) :=
    (Still.mod t (fun c => { c with state := .quiescing }) (Or.inr ⟨rfl, List.Sublist.refl _⟩)).trans (ceasePairs_still _ _)
  split
  · exact (h1.trans (rehomeAndJudge_still t _)).trans (ceaseAll_still _ _)
  · exact h1.trans (ceaseAll_still _ _)

theorem goOffline_still (t : TargetId) (s : State) : Still s (goOffline t s) := Still.mod t _ (Or.inr ⟨rfl, List.Sublist.refl _⟩)

theorem forceStack_still (t : TargetId) (s : State) : Still s (forceStack t s) := by
  unfold forceStack; dsimp only
  exact (Still.mod t (fun c => { c with stack := [] }) (Or.inl rfl)).trans (ceaseAll_still _ _)

theorem targetOffline_still (s : State) : Still s (targetOfflineBody s) := by
  unfold targetOfflineBody; split
  · exact endCommand_still _ _ _
  · refine Still.trans ?_ (settle_still _)
    have h1 := startQuiesce_still (targetId s) (targetCode s == 0) s
    unfold quiesceEnd
    split
    · exact ((h1.trans (forceStack_still _ _)).trans (goOffline_still _ _)).trans (endCommand_still _ _ _)
    · split
      · exact (h1.trans (goOffline_still _ _)).trans (endCommand_still _ _ _)
      · split
        · exact h1.trans (endCommand_still _ _ _)
        · exact (h1.trans (modPort_still _ _)).trans (modPort_still _ _)

theorem discardHeld_still (i : SlotId) (s : State) : Still s (discardHeld i s) := (setHeld_still _ _ _).trans (rearmPins_still _ _)

theorem treat_still (i : SlotId) (m : RetireMode) (s : State) : Still s (treatItems i m s) := by
  cases m
  · exact (ceasePairs_still _ _).trans (ceaseAll_still _ _)
  · exact Still.foldl (fun s e => (ripen_still e s).trans (settle_still _)) _ s

theorem retireRecord_still (i : SlotId) (m : RetireMode) (s : State) : Still s (retireRecord i m s) := by
  unfold retireRecord
  exact ((((modSlot_still _ _ _).trans (discardHeld_still _ _)).trans (treat_still _ _ _)).trans (reportCeased_still _ _)).trans (settle_still _)

theorem retireBody_still (s : State) : Still s (retireBody s) := by
  unfold retireBody; split
  · exact endCommand_still _ _ _
  · have h1 := retireRecord_still (slotId s) (retireModeOf (retireModeCode s)) s
    dsimp only
    unfold retireEnd
    split
    · exact h1.trans (endCommand_still _ _ _)
    · split
      · exact h1.trans (endCommand_still _ _ _)
      · exact (h1.trans (modPort_still _ _)).trans (modPort_still _ _)

theorem orphanItems_still (i : SlotId) (s : State) : Still s (orphanItems i s) := by
  refine Still.frame (orphanItems_frame i s) ?_
  intro e n hn hi
  unfold orphanItems at hn
  rw [orphan_pool] at hn
  split at hn
  · cases hp : s.pool[e] with
    | none => rw [hp] at hn; cases hn
    | some m =>
      rw [hp] at hn
      have hn : m.orphaned = n := by simpa using hn
      subst hn
      exact ⟨m, rfl, by rw [← (orphaned_phase m).2.1]; exact hi, (orphaned_phase m).2.2.2.symm⟩
  · exact ⟨n, hn, hi, rfl⟩

theorem dropPairs_still (i : SlotId) (s : State) : Still s (dropPairs i s) := Still.frame (dropPairs_frame i s) (InServiceKept.same (dropPairs_shape i s).2.1)

theorem forceRetireBody_still (s : State) : Still s (forceRetireBody s) := by
  unfold forceRetireBody; split
  · exact endCommand_still _ _ _
  · refine (Still.trans ?_ (endCommand_still _ _ _)).trans (settle_still _)
    unfold forceRetireRecord; dsimp only
    refine Still.trans ?_ (handOverAll_still _ _)
    refine Still.trans ?_ (modSlot_still _ _ _)
    refine Still.trans ?_ (orphanItems_still _ _)
    refine Still.trans ?_ (settle_still _)
    exact ((discardHeld_still _ _).trans (dropPairs_still _ _)).trans (Still.foldl (fun s e => dropNotice_still e s) _ _)

theorem releaseRecord_still (i : SlotId) (s : State) : Still s (releaseRecord i s) := by
  unfold releaseRecord; dsimp only; split
  · exact ((modSlot_still _ _ _).trans (placeHeld_still _ _)).trans (settle_still _)
  · exact modSlot_still _ _ _

theorem rearmMiss_still (s : State) : Still s (rearmMissDisarmed s) := Still.same (by simp [rearmMissDisarmed]) (by simp [rearmMissDisarmed])

theorem endWalk_still (w : List Word) (s : State) : Still s (endWalkIfPast w s) := by
  unfold endWalkIfPast; split
  · exact endCommand_still _ _ _
  · exact Still.refl s

theorem onlineWalk_still (s : State) : Still s (onlineWalkBody s) := by
  unfold onlineWalkBody; split
  · dsimp only; split
    · exact (((placeHeld_still _ _).trans (settle_still _)).trans (modPort_still _ _)).trans (endWalk_still _ _)
    · exact (modPort_still _ _).trans (endWalk_still _ _)
  · exact Still.refl s

theorem groupWalk_still (s : State) : Still s (groupWalkBody s) := by
  unfold groupWalkBody; split
  · rename_i kind _ _ _ _ _
    dsimp only; split
    · exact (modPort_still _ _).trans (endWalk_still _ _)
    · split
      · exact (modPort_still _ _).trans (endWalk_still _ _)
      · refine (Still.trans ?_ (modPort_still _ _)).trans (endWalk_still _ _)
        unfold walkChange
        cases kind with
        | hold => exact modSlot_still _ _ _
        | release => exact releaseRecord_still _ _
        | retire m => exact retireRecord_still _ m _
  · exact Still.refl s

theorem commandBody_still (code : Nat) {s : State} (hb : Belonging s) : Still s (commandBody code s) := by
  unfold commandBody
  split
  · unfold installBody; split
    · exact endCommand_still _ _ _
    · exact ((modSlot_still _ _ _).trans (rearmMiss_still _)).trans (endCommand_still _ _ _)
  · unfold modifyBody; split
    · exact endCommand_still _ _ _
    · exact Still.same rfl rfl
  · unfold holdBody; split
    · exact endCommand_still _ _ _
    · exact Still.same rfl rfl
  · unfold releaseBody; split
    · exact endCommand_still _ _ _
    · refine (Still.trans ?_ (rearmMiss_still _)).trans (endCommand_still _ _ _)
      split
      · exact releaseRecord_still _ _
      · exact Still.refl s
  · unfold queryBody; split
    · exact endCommand_still _ _ _
    · split <;> exact endCommand_still _ _ _
  · unfold probeBody; split <;> exact endCommand_still _ _ _
  · exact retireBody_still s
  · exact forceRetireBody_still s
  · unfold groupHoldBody; split
    · exact endCommand_still _ _ _
    · exact Still.same rfl rfl
  · unfold groupReleaseBody; split
    · exact endCommand_still _ _ _
    · exact Still.same rfl rfl
  · unfold groupRetireBody; split
    · exact endCommand_still _ _ _
    · exact Still.same rfl rfl
  · unfold targetSetBody; split
    · exact endCommand_still _ _ _
    · rename_i hf
      refine Still.trans (Still.mod (targetId s) (configured s) (Or.inl ?_)) (endCommand_still _ _ _)
      refine hb.off _ ?_
      unfold targetSetError at hf
      split at hf
      · cases hf
      · split at hf
        · cases hf
        · rename_i h; exact Decidable.not_not.mp h
  · unfold targetOnlineBody; split
    · exact endCommand_still _ _ _
    · dsimp only; split
      · exact endCommand_still _ _ _
      · exact ((Still.mod _ (fun c => { c with state := .online }) (Or.inr ⟨rfl, List.Sublist.refl _⟩)).trans (modPort_still _ _)).trans (settle_still _)
  · exact targetOffline_still s
  · unfold pinSetBody; split
    · exact endCommand_still _ _ _
    · exact Still.same rfl rfl
  · unfold tableClearBody; split
    · refine Still.trans ?_ (endCommand_still _ _ _)
      unfold clearTable
      exact Still.trans (t := { s with slots := s.slots.map fun r => Slot.freeOf r.generation }) (Still.same rfl rfl) (Still.foldl (fun _ ps => rearmPins_still ps _) _ _)
    · exact endCommand_still _ _ _
  · exact endCommand_still _ _ _

theorem reraise_still (e : EntryId) (n : Notice) (s : State) : Still s (reraise e n s) := by
  unfold reraise; split
  · exact (((mergeInto_still _ _ _).trans (removeNotice_still _ _)).trans (reportCeased_still _ _)).trans (handOverInTurn_still _ _)
  · exact (startNotice_still _ _ _ rfl).trans (absorbPair_still _ _ _ _)

theorem completeNotice_still (e : EntryId) (n : Notice) (s : State) : Still s (completeNotice e n s) := by
  unfold completeNotice; split
  · exact ceaseAndHandOver_still _ _
  · unfold completeLate; dsimp only; split
    · exact ceaseAndHandOver_still _ _
    · split
      · exact reraise_still _ _ _
      · split
        · exact (((setHeld_still _ _ _).trans (raiseIf_still _ _ _)).trans (removeNotice_still _ _)).trans (handOverInTurn_still _ _)
        · exact ceaseAndHandOver_still _ _

theorem completeBody_still (r : RequesterId) (t : TargetId) (w : Word) (s : State) : Still s (completeBody r t w s) := by
  unfold completeBody; split
  · exact raise_still _ _
  · split
    · exact raise_still _ _
    · rename_i e _ _
      split
      · rename_i n _
        split
        · refine (Still.trans (t := completeNotice e n (popStack t s)) ((Still.mod t (fun c => { c with stack := c.stack.tail }) (Or.inr ⟨rfl, List.tail_sublist _⟩)).trans (completeNotice_still _ _ _)) ?_).trans (settle_still _)
          unfold endQuiesceIfEmpty; split
          · refine (goOffline_still t _).trans ?_
            unfold endOfflineWait; split
            · split
              · exact endCommand_still _ _ _
              · exact Still.refl _
            · exact Still.refl _
          · exact Still.refl _
        · exact raise_still _ _
      · exact raise_still _ _

/-! ### The claim, the accesses and the events -/

/-- A claim pushes a level strictly more urgent than the top (R86, R102). -/
theorem takeCandidate_ordered {s : State} (t : TargetId) (e : EntryId) (l : Level) (n : Notice) (hs : Standing s) (h : StacksOrdered s)
    (hc : candidate s.targets[t] = some (e, l)) (hn : s.pool[e] = some n) (hd : deliverable s t = true) : StacksOrdered (takeCandidate t e n s) := by
  have hm : e ∈ s.targets[t].lists[l] := List.mem_of_head? (cand_head hc)
  obtain ⟨x, hx, hp, ht, hlv⟩ := (hs.list t l e).mp hm
  rw [hn] at hx; cases hx
  have hot : overTop s s.targets[t] l = true := by
    unfold deliverable at hd
    dsimp only at hd
    rw [hc] at hd
    simp only [Bool.and_eq_true] at hd
    exact hd.2
  have hpool : ∀ d : EntryId, (takeCandidate t e n s).pool[d] = if e = d then some n.claimed else s.pool[d] := fun d => pool_get_set _ _ _ _
  have hlev : ∀ (d : EntryId) (m : Notice), (takeCandidate t e n s).pool[d] = some m → ∃ k, s.pool[d] = some k ∧ k.level = m.level := by
    intro d m hm'
    rw [hpool] at hm'
    split at hm'
    · rename_i hd'; subst hd'; cases hm'; exact ⟨n, hn, rfl⟩
    · exact ⟨m, hm', rfl⟩
  have hst : ∀ k : TargetId, (takeCandidate t e n s).targets[k].stack = (if t = k then e :: s.targets[k].stack else s.targets[k].stack)
      ∧ (takeCandidate t e n s).targets[k].groupOrder = s.targets[k].groupOrder := by
    intro k
    have hg : ∀ k : TargetId, (modList t n.level (·.erase e) (setEntry e (some n.claimed) s)).targets[k].stack = s.targets[k].stack ∧ (modList t n.level (·.erase e) (setEntry e (some n.claimed) s)).targets[k].groupOrder = s.targets[k].groupOrder := by
      intro k
      have := (modList_frame t n.level (·.erase e) (setEntry e (some n.claimed) s)).target k
      rw [show _ = _ from this]; exact ⟨rfl, rfl⟩
    unfold takeCandidate
    show ((modList t n.level (·.erase e) (setEntry e (some n.claimed) s)).targets.set t _)[k].stack = _ ∧ ((modList t n.level (·.erase e) (setEntry e (some n.claimed) s)).targets.set t _)[k].groupOrder = _
    rw [target_get_set]
    by_cases hk : t = k
    · subst hk; rw [if_pos rfl, if_pos rfl]; exact ⟨by rw [← (hg t).1], (hg t).2⟩
    · rw [if_neg hk, if_neg hk]; exact hg k
  intro k
  rw [(hst k).1, (hst k).2]
  have hold : ∀ l' : List EntryId, List.Pairwise (fun above beneath => ∀ n m, s.pool[above] = some n → s.pool[beneath] = some m → rank s.targets[k].groupOrder n.level < rank s.targets[k].groupOrder m.level) l' →
      List.Pairwise (fun above beneath => ∀ n_1 m, (takeCandidate t e n s).pool[above] = some n_1 → (takeCandidate t e n s).pool[beneath] = some m → rank s.targets[k].groupOrder n_1.level < rank s.targets[k].groupOrder m.level) l' := by
    intro l' hl'
    refine hl'.imp fun {x y} hxy a b ha hb => ?_
    obtain ⟨a', h1, h2⟩ := hlev x a ha
    obtain ⟨b', h3, h4⟩ := hlev y b hb
    rw [← h2, ← h4]; exact hxy a' b' h1 h3
  split
  · rename_i hk; subst hk
    refine List.Pairwise.cons ?_ (hold _ (h t))
    intro d hd' a b ha hb
    obtain ⟨a', h1, h2⟩ := hlev e a ha
    obtain ⟨b', h3, h4⟩ := hlev d b hb
    rw [hn] at h1; cases h1
    rw [← h2, ← h4, hlv]
    unfold overTop at hot
    cases hsk : s.targets[t].stack with
    | nil => rw [hsk] at hd'; cases hd'
    | cons top rest =>
      have hpw := h t
      rw [hsk] at hd' hpw
      unfold topLevel at hot
      rw [hsk] at hot
      dsimp only at hot
      cases htp : s.pool[top] with
      | none => rw [htp] at hot; simp at hot
      | some m =>
        rw [htp] at hot
        have hlt : rank s.targets[t].groupOrder l < rank s.targets[t].groupOrder m.level := by
          simpa [moreUrgent] using hot
        rcases List.mem_cons.mp hd' with rfl | hd'
        · rw [htp] at h3; cases h3; exact hlt
        · exact hlt.trans ((List.pairwise_cons.mp hpw).1 d hd' m b' htp h3)
  · exact hold _ (h k)

theorem claimBody_ordered {s : State} (r : RequesterId) (t : TargetId) (f : ClaimForm) (hs : Standing s) (h : StacksOrdered s) : StacksOrdered (claimBody r t f s) := by
  have hans : ∀ (low p : Word) (v : State), Still v (claimAnswer r f low p v) := by
    intro low p v; cases f <;> exact Still.same rfl rfl
  have hansS : ∀ (low p : Word) (v : State), Standing v → Standing (claimAnswer r f low p v) := by
    intro low p v hv; cases f <;> exact hv.targets rfl rfl rfl
  have hlat : ∀ (p : Word) (v : State), Still v (latchPayload t f p v) := by
    intro p v; cases f
    · exact Still.mod t (fun c => { c with lastPayload := p }) (Or.inr ⟨rfl, List.Sublist.refl _⟩)
    · exact Still.refl v
  have hfin := claimBody_st r t f hs
  unfold claimBody at hfin ⊢
  split
  · rename_i ho
    rw [if_pos ho] at hfin
    exact Still.ordered (Still.same rfl rfl) hfin h
  · rename_i ho
    rw [if_neg ho] at hfin
    have h1 : Standing (stopDeadline t (returnToOnline t s)) := by
      refine modTarget_stand _ _ (modTarget_stand _ _ hs ?_ ?_) rfl rfl
      · split <;> rfl
      · split <;> rfl
    have q1 : Still s (stopDeadline t (returnToOnline t s)) := by
      refine Still.trans (Still.mod t _ (Or.inr ?_)) (Still.mod t _ (Or.inr ⟨rfl, List.Sublist.refl _⟩))
      split <;> exact ⟨rfl, List.Sublist.refl _⟩
    have o1 := q1.ordered h1 h
    unfold servedClaim at hfin ⊢
    dsimp only at hfin ⊢
    generalize stopDeadline t (returnToOnline t s) = u at *
    split
    · rename_i x hx
      rw [hx] at hfin
      dsimp only at hfin
      have ho : StacksOrdered (takeCandidate t x.1 x.2 u) := by
        unfold claimable at hx
        split at hx
        · rename_i hdv
          rw [Bool.and_eq_true] at hdv
          split at hx
          · rename_i y hy
            cases hp : u.pool[y.1] with
            | none => rw [hp] at hx; cases hx
            | some n =>
              rw [hp] at hx
              have hx : (y.1, n) = x := by simpa using hx
              subst hx
              exact takeCandidate_ordered t y.1 y.2 n h1 o1 hy hp hdv.2
          · cases hx
        · cases hx
      exact Still.ordered (((hlat _ _).trans (hans _ _ _)).trans (settle_still _)) hfin ho
    · rename_i hx
      rw [hx] at hfin
      exact Still.ordered (((hlat _ _).trans (hans _ _ _)).trans (settle_still _)) hfin o1

theorem serve_ordered {s : State} (op : LinkOp) (hs : Standing s) (hb : Belonging s) (h : StacksOrdered s) : StacksOrdered (serve op s) := by
  have hfin := serve_st op hs
  cases op
  case claim r t f => exact claimBody_ordered r t f hs h
  all_goals refine Still.ordered ?_ hfin h; unfold serve; dsimp only
  · unfold eventBody; split <;> exact Still.same rfl rfl
  · exact Still.same rfl rfl
  · exact completeBody_still _ _ _ _
  · unfold enableBody; split
    · exact raise_still _ _
    · exact (Still.mod _ _ (Or.inr ⟨rfl, List.Sublist.refl _⟩)).trans (settle_still _)
  · unfold maskBody; split
    · exact raise_still _ _
    · exact (Still.mod _ _ (Or.inr ⟨rfl, List.Sublist.refl _⟩)).trans (settle_still _)
  · unfold pageReadBody; split <;> exact Still.same rfl rfl
  · exact Still.same rfl rfl
  · unfold commandWrite takeCommand; split
    · exact modPort_still _ _
    · exact (modPort_still _ _).trans (commandBody_still _ (hb.quiet (Quiet.same rfl rfl rfl rfl)))
  · unfold abortBody; split
    · exact endCommand_still _ _ _
    · exact Still.refl s
  · exact Still.same rfl rfl
  · exact modPort_still _ _
  · exact Still.same rfl rfl
  · exact raise_still _ _

theorem StacksOrdered.still {s t : State} (h : StacksOrdered s) (hs : Standing s) (ht : t.targets = s.targets) (hp : t.pool = s.pool) (ho : t.order = s.order) : StacksOrdered t :=
  Still.ordered (Still.same ht hp) (hs.targets hp ho ht) h

theorem linkDeliver_ordered {s : State} (op : LinkOp) (hs : Standing s) (hb : Belonging s) (h : StacksOrdered s) : StacksOrdered (linkDeliver op s) := by
  unfold linkDeliver; split
  · exact h
  · split
    · exact h.still hs rfl rfl rfl
    · exact serve_ordered op hs hb h

theorem takeWaiting_ordered (ops : List LinkOp) {s : State} (hs : Standing s) (hb : Belonging s) (h : StacksOrdered s) : StacksOrdered (takeWaiting ops s) := by
  induction ops generalizing s with
  | nil => exact h.still hs rfl rfl rfl
  | cons op ops ih =>
    unfold takeWaiting; split
    · exact h.still hs rfl rfl rfl
    · exact ih (serve_st _ hs) (serve_be _ hb hs) (serve_ordered _ hs hb h)

theorem drainWaiting_ordered {s : State} (hs : Standing s) (hb : Belonging s) (h : StacksOrdered s) : StacksOrdered (drainWaiting s) := by
  unfold drainWaiting; split
  · exact takeWaiting_ordered _ hs hb h
  · exact h

theorem regainOne_still (t : TargetId) (s : State) : Still s (regainOne s t) := by
  rw [regainOne_eq]
  refine ⟨InServiceKept.same rfl, fun k => Or.inr ?_⟩
  dsimp only
  rw [target_get_set]
  split
  · rename_i hk; subst hk; exact ⟨rfl, List.Sublist.refl _⟩
  · exact ⟨rfl, List.Sublist.refl _⟩

theorem regainIf_still (b s : State) : Still s (regainIf b s) := by
  obtain ⟨u, hu, e, ht⟩ := regainIf_parts b s
  rw [hu]
  exact ⟨InServiceKept.same (by rw [e]), fun k => Or.inr (by rw [ht k]; exact ⟨rfl, List.Sublist.refl _⟩)⟩

theorem holdOff_still (e : EntryId) (s : State) : Still s (holdOffBody e s) := by
  unfold holdOffBody; split
  · exact (ripen_still _ _).trans (settle_still _)
  · exact Still.refl s

theorem deadline_still (t : TargetId) (s : State) : Still s (deadlineBody t s) := by
  unfold deadlineBody; split
  · exact (((Still.mod t _ (Or.inr ⟨rfl, List.Sublist.refl _⟩)).trans (raise_still _ _)).trans (rehomeAndJudge_still _ _)).trans (settle_still _)
  · exact Still.refl s

theorem wait_still (s : State) : Still s (waitBody s) := by
  unfold waitBody; split
  · exact endCommand_still _ _ _
  · exact Still.refl s

theorem filtered_still (p : PinId) (s : State) : Still s (filteredLevelBody p s) := by
  unfold filteredLevelBody; split
  · exact modPin_still _ _ _
  · exact Still.refl s

theorem intake_still (s : State) : Still s (intakeBody s) := by
  unfold intakeBody; split
  · rename_i rest _
    exact Still.trans (t := { s with intake := rest }) (Still.same rfl rfl) (arrive_still _ _ _)
  · exact Still.refl s

end Sys2Proof.Machine
end

