-- ==== Sys2Proof/Laws/Distinct.lean ====
section
/-! SUPPORT. One GATHERING or PENDING notice per record and target, pairs deferred only while the pool is full and beside no such notice, and counts within their bounds (R48, R56, R64): what each shared operation and each command body keeps of them. -/

open Sys2Proof

namespace Sys2Proof.Machine

/-! ### The invariant, with entries that are freed and not yet handed over -/

/-- The record and the target of a deferred pair. -/
def Pair.place (d : Pair) : SlotId × TargetId := (d.slot, d.target)

/-- A notice with counts in their bounds (R48). -/
def Notice.sized (n : Notice) : Prop := 1 ≤ n.count ∧ n.count ≤ 255 ∧ n.late.count ≤ 255

/-- A pair with its count in its bounds (R64). -/
def Pair.sized (d : Pair) : Prop := 1 ≤ d.count ∧ d.count ≤ 255

/-- A placement with its count in its bounds. -/
def Placement.sized (p : Placement) : Prop := 1 ≤ p.count ∧ p.count ≤ 255

/-- Notices and pairs are distinct by record and target and have counts in their bounds, and pairs are deferred only while every entry but those given is taken. -/
structure Sound (es : List EntryId) (s : State) : Prop where
  order : ∀ e : EntryId, s.pool[e] ≠ none → e ∈ s.order
  gen : ∀ (e : EntryId) (n : Notice), s.pool[e] = some n → n.unclaimed = true → n.generation = s.slots[n.slot].generation
  one : ∀ (e f : EntryId) (n m : Notice), s.pool[e] = some n → s.pool[f] = some m → n.unclaimed = true → m.unclaimed = true →
    n.slot = m.slot → n.target = m.target → e = f
  places : (s.deferred.map Pair.place).Nodup
  beside : ∀ (e : EntryId) (n : Notice), s.pool[e] = some n → n.unclaimed = true → (n.slot, n.target) ∉ s.deferred.map Pair.place
  full : s.deferred ≠ [] → ∀ e : EntryId, e ∉ es → s.pool[e] ≠ none
  sized : ∀ (e : EntryId) (n : Notice), s.pool[e] = some n → n.sized
  pairs : ∀ d ∈ s.deferred, d.sized

/-- The invariant with no entry awaiting its hand-over, from what the statements say. -/
theorem Sound.of {s : State} (hs : Standing s) (hb : Belonging s) (hd : WorkDistinct s) (hc : CountsBounded s) : Sound [] s where
  order e h := (hs.order e).mpr h
  gen e n hn hu := (hb.owned e n hn (by
    unfold Notice.unclaimed at hu
    unfold Notice.isOrphan
    cases hp : n.phase with
    | inService a b => rw [hp] at hu; cases hu
    | gathering a b => rfl
    | pending => rfl)).2
  one := hd.1
  places := hd.2.1
  beside e n hn hu hm := by
    obtain ⟨d, hd', he⟩ := List.mem_map.mp hm
    unfold Pair.place at he
    injection he with h1 h2
    exact hd.2.2.1 d hd' e n hn hu h1.symm h2.symm
  full h e _ := hd.2.2.2 h e
  sized := hc.1
  pairs := hc.2

theorem Sound.distinct {s : State} (h : Sound [] s) : WorkDistinct s :=
  ⟨h.one, h.places, fun d hd e n hn hu h1 h2 => h.beside e n hn hu (List.mem_map.mpr ⟨d, hd, by unfold Pair.place; rw [h1, h2]⟩),
    fun hd e => h.full hd e List.not_mem_nil⟩

theorem Sound.counts {s : State} (h : Sound [] s) : CountsBounded s := ⟨h.sized, h.pairs⟩

/-! ### Changes that make no notice and no pair -/

/-- Nothing new stands after a change: notices only leave, and only the entries given are emptied; records keep their generations. -/
structure Tame (es : List EntryId) (s t : State) : Prop where
  order : ∀ e : EntryId, e ∈ s.order → t.pool[e] ≠ none → e ∈ t.order
  pool : ∀ (e : EntryId) (m : Notice), t.pool[e] = some m → ∃ n, s.pool[e] = some n ∧ (m.unclaimed = true → n.unclaimed = true)
    ∧ m.slot = n.slot ∧ m.generation = n.generation ∧ m.target = n.target ∧ (n.sized → m.sized)
  full : ∀ e : EntryId, e ∉ es → s.pool[e] ≠ none → t.pool[e] ≠ none
  places : (t.deferred.map Pair.place).Sublist (s.deferred.map Pair.place)
  pairs : (∀ d ∈ s.deferred, d.sized) → ∀ d ∈ t.deferred, d.sized
  gens : ∀ i : SlotId, t.slots[i].generation = s.slots[i].generation

theorem Sound.tame {es fs : List EntryId} {s t : State} (h : Sound fs s) (k : Tame es s t) : Sound (es ++ fs) t where
  order e he := by
    refine k.order e (h.order e fun h0 => ?_) he
    cases hm : t.pool[e] with
    | none => exact he hm
    | some m => obtain ⟨n, hn, _⟩ := k.pool e m hm; rw [h0] at hn; cases hn
  gen e m hm hu := by
    obtain ⟨n, hn, a, b, c, _, _⟩ := k.pool e m hm
    rw [k.gens, b, c]
    exact h.gen e n hn (a hu)
  one e f m l hm hl hu hv hs ht := by
    obtain ⟨n, hn, a, b, _, c, _⟩ := k.pool e m hm
    obtain ⟨p, hp, a', b', _, c', _⟩ := k.pool f l hl
    exact h.one e f n p hn hp (a hu) (a' hv) (b.symm.trans (hs.trans b')) (c.symm.trans (ht.trans c'))
  places := h.places.sublist k.places
  beside e m hm hu hx := by
    obtain ⟨n, hn, a, b, _, c, _⟩ := k.pool e m hm
    rw [b, c] at hx
    exact h.beside e n hn (a hu) (k.places.subset hx)
  full hd e he := by
    rw [List.mem_append, not_or] at he
    refine k.full e he.1 (h.full (fun h0 => hd ?_) e he.2)
    have := k.places
    rw [h0, List.map_nil, List.sublist_nil, List.map_eq_nil_iff] at this
    exact this
  sized e m hm := by
    obtain ⟨n, hn, _, _, _, _, d⟩ := k.pool e m hm
    exact d (h.sized e n hn)
  pairs := k.pairs h.pairs

theorem Sound.calm {es : List EntryId} {s t : State} (h : Sound es s) (k : Tame [] s t) : Sound es t := h.tame k

/-- The pool, the creation order and the deferred list as they were. -/
theorem Tame.same {s t : State} (hp : t.pool = s.pool) (ho : t.order = s.order) (hd : t.deferred = s.deferred)
    (hg : ∀ i : SlotId, t.slots[i].generation = s.slots[i].generation) : Tame [] s t :=
  ⟨fun e h _ => by rw [ho]; exact h, fun e m hm => ⟨m, by rw [hp] at hm; exact hm, id, rfl, rfl, rfl, id⟩,
   fun e _ h => by rw [hp]; exact h, by rw [hd], fun h => by rw [hd]; exact h, hg⟩

theorem Tame.refl (s : State) : Tame [] s s := Tame.same rfl rfl rfl fun _ => rfl

theorem Tame.trans {es fs : List EntryId} {s t u : State} (h : Tame es s t) (k : Tame fs t u) : Tame (es ++ fs) s u where
  order e he hu := by
    refine k.order e (h.order e he fun h0 => ?_) hu
    cases hm : u.pool[e] with
    | none => exact hu hm
    | some m => obtain ⟨n, hn, _⟩ := k.pool e m hm; rw [h0] at hn; cases hn
  pool e m hm := by
    obtain ⟨n, hn, a1, a2, a3, a4, a5⟩ := k.pool e m hm
    obtain ⟨l, hl, b1, b2, b3, b4, b5⟩ := h.pool e n hn
    exact ⟨l, hl, b1 ∘ a1, a2.trans b2, a3.trans b3, a4.trans b4, a5 ∘ b5⟩
  full e he hs := by
    rw [List.mem_append, not_or] at he
    exact k.full e he.2 (h.full e he.1 hs)
  places := k.places.trans h.places
  pairs := k.pairs ∘ h.pairs
  gens i := (k.gens i).trans (h.gens i)

theorem Tame.calm {s t u : State} (h : Tame [] s t) (k : Tame [] t u) : Tame [] s u := h.trans k

theorem Sound.same {es : List EntryId} {s t : State} (h : Sound es s) (hp : t.pool = s.pool) (ho : t.order = s.order)
    (hd : t.deferred = s.deferred) (hs : t.slots = s.slots) : Sound es t := h.calm (Tame.same hp ho hd fun i => by rw [hs])

theorem Frame.gens {s t : State} (f : Frame s t) (i : SlotId) : t.slots[i].generation = s.slots[i].generation := by
  rcases f.slot i with h | ⟨_, h⟩
  · rw [h]
  · rw [h]; rfl

theorem Tame.foldl {α : Type} {f : State → α → State} (hf : ∀ s a, Tame [] s (f s a)) (l : List α) (s : State) : Tame [] s (l.foldl f s) := by
  induction l generalizing s with
  | nil => exact Tame.refl s
  | cons a l ih => exact (hf s a).trans (ih _)

/-- One notice changed in its entry. -/
theorem setEntry_tame {e : EntryId} {s : State} {n m : Notice} (hn : s.pool[e] = some n) (hu : m.unclaimed = true → n.unclaimed = true)
    (h1 : m.slot = n.slot) (h2 : m.generation = n.generation) (h3 : m.target = n.target) (h4 : n.sized → m.sized) :
    Tame [] s (setEntry e (some m) s) := by
  have hp (d : EntryId) : (setEntry e (some m) s).pool[d] = if e = d then some m else s.pool[d] := pool_get_set _ _ _ _
  refine ⟨fun _ h _ => h, fun d l hl => ?_, fun d _ h => ?_, List.Sublist.refl _, id, fun _ => rfl⟩
  · rw [hp] at hl
    split at hl
    · rename_i hd
      subst hd
      cases hl
      exact ⟨n, hn, hu, h1, h2, h3, h4⟩
    · exact ⟨l, hl, id, rfl, rfl, rfl, id⟩
  · rw [hp]
    split
    · exact Option.some_ne_none _
    · exact h

theorem raise_tame (c : Cause) (s : State) : Tame [] s (raise c s) := Tame.same rfl rfl rfl fun _ => rfl

theorem raiseIf_tame (b : Bool) (c : Cause) (s : State) : Tame [] s (raiseIf b c s) := by cases b <;> exact Tame.same rfl rfl rfl fun _ => rfl

theorem settle_tame (s : State) : Tame [] s (settle s) := by
  obtain ⟨a, b, c, d, _⟩ := settle_pool s
  exact Tame.same a c b fun i => by rw [d]

theorem judgeInTurn_tame (ts : List TargetId) (s : State) : Tame [] s (judgeInTurn ts s) := by
  obtain ⟨a, b, c, d, _⟩ := judgeInTurn_pool ts s
  exact Tame.same a c b fun i => by rw [d]

theorem rearmPins_tame (ps : PinSet) (s : State) : Tame [] s (rearmPins ps s) :=
  Tame.same (by simp [rearmPins]) (by simp [rearmPins]) (by simp [rearmPins]) fun i => by simp [rearmPins]

theorem modPin_tame (p : PinId) (f : Pin → Pin) (s : State) : Tame [] s (modPin p f s) := Tame.same rfl rfl rfl fun _ => rfl

theorem modPins_tame (f : PinId → Pin → Pin) (s : State) : Tame [] s (modPins f s) :=
  Tame.same (by simp) (by simp) (by simp) fun i => by simp

theorem modPort_tame (f : Port → Port) (s : State) : Tame [] s (modPort f s) := Tame.same rfl rfl rfl fun _ => rfl

theorem endCommand_tame (c : ResultCode) (w : List Word) (s : State) : Tame [] s (endCommand c w s) := modPort_tame _ s

theorem modTarget_tame (t : TargetId) (f : Target → Target) (s : State) : Tame [] s (modTarget t f s) := Tame.same rfl rfl rfl fun _ => rfl

theorem modSlot_tame (i : SlotId) (f : Slot → Slot) (s : State) (h : (f s.slots[i]).generation = s.slots[i].generation) :
    Tame [] s (modSlot i f s) := by
  refine Tame.same rfl rfl rfl fun j => ?_
  rw [modSlot_slots, slot_get_set]
  split
  · rename_i hj; subst hj; exact h
  · rfl

theorem setHeld_tame (i : SlotId) (x : Held) (s : State) : Tame [] s (setHeld i x s) := modSlot_tame i _ s rfl

theorem discardHeld_tame (i : SlotId) (s : State) : Tame [] s (discardHeld i s) := (setHeld_tame i _ s).trans (rearmPins_tame _ _)

theorem freeSlot_tame (i : SlotId) (s : State) : Tame [] s (freeSlot i s) := modSlot_tame i _ s rfl

theorem reportCeased_tame (i : SlotId) (s : State) : Tame [] s (reportCeased i s) := by
  obtain ⟨a, b, c⟩ := reportCeased_same i s
  exact Tame.same b c a (reportCeased_frame i s).gens

theorem ripen_tame (e : EntryId) (s : State) : Tame [] s (ripen e s) := by
  unfold ripen
  split
  · rename_i n hn
    split
    · rename_i hg
      refine Tame.calm (t := setEntry e (some { n with phase := .pending }) s)
        (setEntry_tame hn (fun _ => ?_) rfl rfl rfl fun h => ⟨h.1, h.2.1, Nat.zero_le _⟩) (modTarget_tame _ _ _)
      unfold Notice.isGathering at hg
      unfold Notice.unclaimed
      split at hg
      · rename_i h; rw [h]
      · cases hg
    · exact Tame.refl s
  · exact Tame.refl s

theorem ripenIfReached_tame (e : EntryId) (s : State) : Tame [] s (ripenIfReached e s) := by
  unfold ripenIfReached
  split
  · exact ripen_tame e s
  · exact Tame.refl s

theorem saturate_bounds {a b : Nat} (h : 1 ≤ a) : 1 ≤ saturate (a + b) ∧ saturate (a + b) ≤ 255 := by
  unfold saturate
  omega

theorem mergeInto_tame (e : EntryId) (p : Placement) (s : State) : Tame [] s (mergeInto e p s) := by
  unfold mergeInto
  split
  · rename_i n hn
    refine ((setEntry_tame hn (m := n.merged p) (fun h => h) rfl rfl rfl fun h => ?_).trans (raiseIf_tame _ _ _)).trans (ripenIfReached_tame _ _)
    exact ⟨(saturate_bounds h.1).1, (saturate_bounds h.1).2, h.2.2⟩
  · exact Tame.refl s

theorem addLate_tame (e : EntryId) (p : Placement) (s : State) : Tame [] s (addLate e p s) := by
  unfold addLate
  split
  · rename_i n hn
    refine (setEntry_tame hn (m := n.mergedLate p) (fun h => ?_) rfl rfl rfl fun h => ?_).trans (raiseIf_tame _ _ _)
    · unfold Notice.mergedLate Notice.unclaimed at h
      unfold Notice.unclaimed
      dsimp only at h
      cases hp : n.phase with
      | gathering a b => rfl
      | pending => rfl
      | inService a b =>
        rw [hp] at h
        cases a <;> cases h
    · refine ⟨h.1, h.2.1, ?_⟩
      have h3 := h.2.2
      unfold Notice.late at h3 ⊢
      unfold Notice.mergedLate
      dsimp only
      cases hp : n.phase with
      | gathering a b => exact Nat.zero_le _
      | pending => exact Nat.zero_le _
      | inService a b =>
        cases a with
        | none => exact Nat.zero_le _
        | some l => exact Nat.min_le_right _ _
  · exact Tame.refl s

theorem mergeIntoPair_tame (i : SlotId) (t : TargetId) (d : Pair) (p : Placement) (s : State) : Tame [] s (mergeIntoPair i t d p s) := by
  unfold mergeIntoPair
  refine Tame.calm (t := { s with deferred := s.deferred.map fun x => if x.slot == i && x.target == t then x.merged p else x }) ?_ (raiseIf_tame _ _ _)
  have hpl : (s.deferred.map fun x => if x.slot == i && x.target == t then x.merged p else x).map Pair.place = s.deferred.map Pair.place := by
    rw [List.map_map]
    refine List.map_congr_left fun x _ => ?_
    unfold Function.comp
    dsimp only
    split <;> rfl
  refine ⟨fun _ h _ => h, fun e m hm => ⟨m, hm, id, rfl, rfl, rfl, id⟩, fun _ _ h => h, ?_, fun h x hx => ?_, fun _ => rfl⟩
  · dsimp only
    rw [hpl]
  · obtain ⟨y, hy, rfl⟩ := List.mem_map.mp hx
    split
    · exact saturate_bounds (h y hy).1
    · exact h y hy

theorem removeNotice_tame (e : EntryId) (s : State) : Tame [e] s (removeNotice e s) := by
  have hp (d : EntryId) : (removeNotice e s).pool[d] = if e = d then none else s.pool[d] := by
    rw [removeNotice_pool, pool_get_set]
  refine ⟨fun d hd hn => ?_, fun d m hm => ?_, fun d hd h => ?_, by rw [(removeNotice_shrinks e s).deferred],
    fun h => by rw [(removeNotice_shrinks e s).deferred]; exact h, (removeNotice_frame e s).gens⟩
  · rw [hp] at hn
    split at hn
    · exact absurd rfl hn
    · rename_i hne
      unfold removeNotice
      split
      · exact (List.mem_erase_of_ne fun h => hne h.symm).mpr hd
      · exact hd
  · exact ⟨m, (removeNotice_shrinks e s).pool d m hm, id, rfl, rfl, rfl, id⟩
  · rw [hp, if_neg fun h => hd (by rw [h]; exact List.mem_singleton_self _)]
    exact h

theorem Tame.more {es fs : List EntryId} {s t : State} (h : Tame es s t) (hm : ∀ e ∈ es, e ∈ fs) : Tame fs s t :=
  { h with full := fun e he => h.full e fun k => he (hm e k) }

theorem dropNotice_tame (e : EntryId) (s : State) : Tame [e] s (dropNotice e s) := by
  unfold dropNotice
  split
  · exact (removeNotice_tame e s).trans (rearmPins_tame _ _)
  · exact (Tame.refl s).more fun _ h => absurd h List.not_mem_nil

theorem ceaseNotice_tame (e : EntryId) (s : State) : Tame [e] s (ceaseNotice e s) := by
  unfold ceaseNotice
  split
  · split
    · exact dropNotice_tame e s
    · exact (dropNotice_tame e s).trans (reportCeased_tame _ _)
  · exact (Tame.refl s).more fun _ h => absurd h List.not_mem_nil

theorem foldl_tame {f : State → EntryId → State} (hf : ∀ s e, Tame [e] s (f s e)) (es : List EntryId) (s : State) : Tame es s (es.foldl f s) := by
  induction es generalizing s with
  | nil => exact Tame.refl s
  | cons e es ih => exact (hf s e).trans (ih _)

/-- Pairs that leave the list. -/
theorem filterPairs_tame (q : Pair → Bool) (s : State) : Tame [] s { s with deferred := s.deferred.filter q } :=
  ⟨fun _ h _ => h, fun _ m hm => ⟨m, hm, id, rfl, rfl, rfl, id⟩, fun _ _ h => h, (List.filter_sublist).map _,
   fun h d hd => h d (List.mem_filter.mp hd).1, fun _ => rfl⟩

theorem ceasePairs_tame (p : Pair → Bool) (s : State) : Tame [] s (ceasePairs p s) := by
  exact Tame.calm (t := { s with deferred := s.deferred.filter fun d => !p d }) (filterPairs_tame (fun d => !p d) s)
    (Tame.foldl (f := ceasePair) (fun s d => (rearmPins_tame d.pins s).trans (reportCeased_tame _ _)) _ _)

theorem dropPairs_tame (i : SlotId) (s : State) : Tame [] s (dropPairs i s) := by
  exact Tame.calm (t := { s with deferred := s.deferred.filter fun d => !(d.slot == i) })
    (filterPairs_tame (fun d => !(d.slot == i)) s) (Tame.foldl (f := fun s (d : Pair) => rearmPins d.pins s) (fun s d => rearmPins_tame d.pins s) _ _)

theorem orphaned_late (n : Notice) : n.orphaned.late = n.late := by
  unfold Notice.orphaned Notice.late
  cases hp : n.phase with
  | gathering a b => dsimp only; rw [hp]
  | pending => dsimp only; rw [hp]
  | inService a b => cases a <;> rfl

theorem orphaned_unclaimed (n : Notice) : n.orphaned.unclaimed = n.unclaimed := by
  unfold Notice.orphaned Notice.unclaimed
  cases hp : n.phase with
  | gathering a b => dsimp only; rw [hp]
  | pending => dsimp only; rw [hp]
  | inService a b => rfl

theorem orphaned_rest (n : Notice) : n.orphaned.slot = n.slot ∧ n.orphaned.generation = n.generation ∧ n.orphaned.target = n.target ∧ n.orphaned.count = n.count := by
  unfold Notice.orphaned
  split <;> exact ⟨rfl, rfl, rfl, rfl⟩

theorem orphanItems_tame (i : SlotId) (s : State) : Tame [] s (orphanItems i s) := by
  unfold orphanItems
  refine Tame.foldl (fun s e => ?_) _ s
  cases hn : s.pool[e] with
  | none =>
    rw [Option.map_none]
    have : setEntry e none s = s := by
      have hp : s.pool.set e none = s.pool := by
        ext1 j hj
        have := pool_get_set s.pool e ⟨j, hj⟩ none
        refine Eq.trans this ?_
        split
        · rename_i h; subst h; exact hn.symm
        · rfl
      unfold setEntry
      rw [hp]
    rw [this]
    exact Tame.refl s
  | some n =>
    rw [Option.map_some]
    obtain ⟨a, b, c, d⟩ := orphaned_rest n
    refine setEntry_tame hn (fun h => by rw [orphaned_unclaimed] at h; exact h) a b c fun h => ⟨?_, ?_, ?_⟩
    · rw [d]; exact h.1
    · rw [d]; exact h.2.1
    · rw [orphaned_late]; exact h.2.2


/-! ### A notice put into an entry -/

/-- A notice put into an entry: none but the entry's own stands unclaimed at its place, and no pair waits there. -/
theorem Sound.put {es fs : List EntryId} {s t : State} {e : EntryId} {n : Notice} (h : Sound es s)
    (hp : t.pool = s.pool.set e (some n)) (hd : t.deferred = s.deferred) (ho : ∀ f : EntryId, f = e ∨ f ∈ s.order → f ∈ t.order)
    (hg : ∀ i : SlotId, t.slots[i].generation = s.slots[i].generation)
    (hn : n.unclaimed = true → n.generation = s.slots[n.slot].generation ∧ (n.slot, n.target) ∉ s.deferred.map Pair.place
      ∧ ∀ (f : EntryId) (m : Notice), s.pool[f] = some m → m.unclaimed = true → m.slot = n.slot → m.target = n.target → f = e)
    (hz : n.sized) (hfs : ∀ f ∈ es, f = e ∨ f ∈ fs) : Sound fs t := by
  have hx (f : EntryId) : t.pool[f] = if e = f then some n else s.pool[f] := by rw [hp, pool_get_set]
  have old {f : EntryId} {m : Notice} (hm : t.pool[f] = some m) : e = f ∧ n = m ∨ e ≠ f ∧ s.pool[f] = some m := by
    rw [hx] at hm
    split at hm
    · exact Or.inl ⟨‹_›, Option.some.inj hm⟩
    · exact Or.inr ⟨‹_›, hm⟩
  refine ⟨fun f hf => ho f ?_, fun f m hm hu => ?_, fun f g m l hm hl hu hv hs ht => ?_, by rw [hd]; exact h.places,
    fun f m hm hu => ?_, fun hne f hf => ?_, fun f m hm => ?_, by rw [hd]; exact h.pairs⟩
  · by_cases hfe : e = f
    · exact Or.inl hfe.symm
    · rw [hx, if_neg hfe] at hf
      exact Or.inr (h.order f hf)
  · rw [hg]
    rcases old hm with ⟨_, rfl⟩ | ⟨_, k⟩
    · exact (hn hu).1
    · exact h.gen f m k hu
  · rcases old hm with ⟨hf, rfl⟩ | ⟨hf, k⟩ <;> rcases old hl with ⟨hg', rfl⟩ | ⟨hg', k'⟩
    · exact hf.symm.trans hg'
    · exact hf.symm.trans ((hn hu).2.2 g l k' hv hs.symm ht.symm).symm
    · exact ((hn hv).2.2 f m k hu hs ht).trans hg'
    · exact h.one f g m l k k' hu hv hs ht
  · rw [hd]
    rcases old hm with ⟨_, rfl⟩ | ⟨_, k⟩
    · exact (hn hu).2.1
    · exact h.beside f m k hu
  · rw [hx]
    split
    · exact Option.some_ne_none _
    · rename_i hfe
      exact h.full (by rw [← hd]; exact hne) f fun hm => (hfs f hm).elim (fun k => hfe k.symm) hf
  · rcases old hm with ⟨_, rfl⟩ | ⟨_, k⟩
    · exact hz
    · exact h.sized f m k

theorem startNotice_sound {es fs : List EntryId} {s : State} (e : EntryId) (n : Notice) (h : Sound es s)
    (hg : n.generation = s.slots[n.slot].generation) (hp : (n.slot, n.target) ∉ s.deferred.map Pair.place)
    (ho : ∀ (f : EntryId) (m : Notice), s.pool[f] = some m → m.unclaimed = true → m.slot = n.slot → m.target = n.target → f = e)
    (hz : n.sized) (hfs : ∀ f ∈ es, f = e ∨ f ∈ fs) : Sound fs (startNotice e n s) := by
  have h1 : Sound fs { setEntry e (some n) s with order := s.order.erase e ++ [e] } := by
    refine Sound.put (e := e) (n := n) h rfl rfl (fun f hf => ?_) (fun _ => rfl) (fun _ => ⟨hg, hp, ho⟩) hz hfs
    by_cases hfe : f = e
    · rw [hfe]; exact List.mem_append_right _ (List.mem_singleton_self e)
    · exact List.mem_append_left _ ((List.mem_erase_of_ne hfe).mpr (hf.resolve_left hfe))
  unfold startNotice
  dsimp only
  split
  · exact h1.tame (ripen_tame e _)
  · exact h1.tame (ripenIfReached_tame e _)

/-- With no resident, no notice of the record stands unclaimed at the target. -/
theorem Sound.resident_none {es : List EntryId} {s : State} (h : Sound es s) {i : SlotId} {t : TargetId} (hr : residentAt s i t = none)
    (f : EntryId) (m : Notice) (hm : s.pool[f] = some m) (hu : m.unclaimed = true) (hi : m.slot = i) (ht : m.target = t) : False := by
  have h0 := (oldest_none s _).mp hr f (h.order f (by rw [hm]; exact Option.some_ne_none _))
  unfold entryIs at h0
  rw [hm, Option.any_some] at h0
  have ho : m.isOrphan = false := by
    unfold Notice.unclaimed at hu
    unfold Notice.isOrphan
    split at hu
    · rename_i hp; rw [hp]
    · rename_i hp; rw [hp]
    · cases hu
  have hown : ownedBy s i m = true := by
    unfold ownedBy
    subst hi
    rw [ho, h.gen f m hm hu]
    simp
  rw [hu, hown, ht] at h0
  simp at h0

theorem pairAt_none_place {s : State} {i : SlotId} {t : TargetId} (h : pairAt s i t = none) : (i, t) ∉ s.deferred.map Pair.place := by
  intro hm
  obtain ⟨d, hd, he⟩ := List.mem_map.mp hm
  unfold Pair.place at he
  injection he with h1 h2
  have := List.find?_eq_none.mp h d hd
  rw [h1, h2] at this
  simp at this

theorem filtered_place (s : State) (i : SlotId) (t : TargetId) :
    (i, t) ∉ (s.deferred.filter fun x => !(x.slot == i && x.target == t)).map Pair.place := by
  intro hm
  obtain ⟨d, hd, he⟩ := List.mem_map.mp hm
  unfold Pair.place at he
  injection he with h1 h2
  have := (List.mem_filter.mp hd).2
  rw [h1, h2] at this
  simp at this

theorem lowestFree_full {s : State} (h : lowestFree s = none) (e : EntryId) : s.pool[e] ≠ none := by
  intro he
  have hm : e ∈ indicesWhere Option.isNone s.pool := (mem_indicesWhere _ _ _).mpr (by rw [he]; rfl)
  unfold lowestFree at h
  rw [List.head?_eq_none_iff] at h
  rw [h] at hm
  cases hm

theorem freshNotice_sized {p : Placement} (s : State) (i : SlotId) (t : TargetId) (h : p.sized) : (freshNotice s i t p).sized := ⟨h.1, h.2, Nat.zero_le _⟩

/-! ### Placements -/

theorem placeOn_sound {s : State} (i : SlotId) (t : TargetId) (p : Placement) (h : Sound [] s) (hz : p.sized) : Sound [] (placeOn i t p s) := by
  unfold placeOn
  split
  · exact h.tame (mergeInto_tame _ _ _)
  · rename_i hr
    split
    · exact h.tame (mergeIntoPair_tame _ _ _ _ _)
    · rename_i hq
      split
      · exact startNotice_sound _ (freshNotice s i t p) h rfl (pairAt_none_place hq) (fun f m hm hu hi ht => (h.resident_none hr f m hm hu hi ht).elim)
          (freshNotice_sized s i t hz) fun _ k => Or.inr k
      · rename_i hl
        refine Sound.calm (s := { s with deferred := s.deferred ++
            [{ slot := i, target := t, count := p.count, overflow := p.overflow, payload := p.payload, pins := p.pins }] }) ?_ (raise_tame _ _)
        refine { h with places := ?_, beside := ?_, full := fun _ e _ => lowestFree_full hl e, pairs := ?_ }
        · dsimp only
          rw [List.map_append, List.nodup_append]
          refine ⟨h.places, List.nodup_singleton _, fun x hx y hy hxy => ?_⟩
          rw [List.map_singleton, List.mem_singleton] at hy
          subst hxy
          rw [hy] at hx
          exact pairAt_none_place hq hx
        · intro e n hn hu hm
          dsimp only at hm
          rw [List.map_append, List.mem_append, List.map_singleton, List.mem_singleton] at hm
          rcases hm with hm | hm
          · exact h.beside e n hn hu hm
          · unfold Pair.place at hm
            injection hm with h1 h2
            exact h.resident_none hr e n hn hu h1 h2
        · intro d hd
          rcases List.mem_append.mp hd with hd | hd
          · exact h.pairs d hd
          · rw [List.mem_singleton.mp hd]
            exact hz

theorem placeAt_sound {s : State} (i : SlotId) (t : TargetId) (p : Placement) (h : Sound [] s) (hz : p.sized) : Sound [] (placeAt i t p s) := by
  unfold placeAt
  split
  · exact h.tame (addLate_tame _ _ _)
  · exact placeOn_sound i t p h hz

theorem placeRotate_sound {s : State} (i : SlotId) (p : Placement) (h : Sound [] s) (hz : p.sized) : Sound [] (placeRotate i p s) := by
  unfold placeRotate
  split
  · exact h.tame (mergeInto_tame _ _ _)
  · dsimp only
    split
    · exact placeOn_sound i _ p (h.tame (modSlot_tame i (fun r => { r with rotation := r.targets.idxOf _ }) s rfl)) hz
    · exact h

theorem placeSingle_sound {s : State} (i : SlotId) (p : Placement) (h : Sound [] s) (hz : p.sized) : Sound [] (placeSingle i p s) := by
  unfold placeSingle
  split
  · exact h.tame (addLate_tame _ _ _)
  · split
    · exact placeRotate_sound i p h hz
    · unfold placeFirst
      split
      · exact placeOn_sound i _ p h hz
      · exact h

theorem placeAll_sound {s : State} (i : SlotId) (p : Placement) (ts : List TargetId) (h : Sound [] s) (hz : p.sized) : Sound [] (placeAll i p s ts) := by
  induction ts generalizing s p with
  | nil => exact h
  | cons t ts ih => exact ih _ ((placeAt_sound i t p h hz).tame (settle_tame _)) ⟨Nat.le_refl 1, by dsimp only; omega⟩

theorem placeByMode_sound {s : State} (i : SlotId) (p : Placement) (h : Sound [] s) (hz : p.sized) : Sound [] (placeByMode i p s) := by
  unfold placeByMode
  split
  · exact placeAll_sound i p _ h hz
  · exact placeSingle_sound i p h hz

theorem placeArrival_sound {s : State} (i : SlotId) (a : Arrival) (h : Sound [] s) : Sound [] (placeArrival i a s) := by
  unfold placeArrival
  dsimp only
  split
  · exact placeByMode_sound i _ h ⟨Nat.le_refl 1, by unfold arrivalPlacement; dsimp only; omega⟩
  · refine placeByMode_sound i _ ((h.tame (setHeld_tame i Held.empty s)).tame (raiseIf_tame _ _ _)) ?_
    exact saturate_bounds (Nat.le_refl 1)

theorem placeHeld_sound {s : State} (i : SlotId) (h : Sound [] s) (hc : s.slots[i].held.count ≠ 0) : Sound [] (placeHeld i s) := by
  have hz : (heldPlacement s.slots[i].held).sized := by
    unfold heldPlacement Placement.sized saturate
    dsimp only
    omega
  unfold placeHeld
  dsimp only
  have h1 := (h.tame (setHeld_tame i Held.empty s)).tame (raiseIf_tame (255 < s.slots[i].held.count) .countOverflow _)
  split
  · split
    · exact placeAt_sound i _ _ h1 hz
    · exact h1
  · exact placeSingle_sound i _ h1 hz

theorem arrive_sound {s : State} (p : Producer) (a : Arrival) (h : Sound [] s) : Sound [] (arrive p a s) := by
  unfold arrive
  split
  · unfold applyArrival
    split
    · exact (placeArrival_sound _ a h).tame (settle_tame _)
    · unfold joinHeld
      exact (h.tame (setHeld_tame _ _ s)).tame (raiseIf_tame _ _ _)
  · cases p
    · exact h.same rfl rfl rfl rfl
    · exact h.same rfl rfl rfl rfl
    · exact h.same rfl rfl rfl rfl
    · exact h

/-! ### Hand-over and discards -/

theorem handOver_sound {es : List EntryId} {s : State} (e : EntryId) (h : Sound (e :: es) s) : Sound es (handOver e s) := by
  unfold handOver
  split
  · rename_i hd
    exact { h with full := fun k => absurd hd k }
  · rename_i d rest hd
    have hpl := h.places
    rw [hd, List.map_cons, List.nodup_cons] at hpl
    have h1 : Sound (e :: es) { s with deferred := rest } := by
      refine h.tame (es := []) ⟨fun _ k _ => k, fun _ m hm => ⟨m, hm, id, rfl, rfl, rfl, id⟩, fun _ _ k => k, ?_, fun k x hx => k x ?_, fun _ => rfl⟩
      · rw [hd]; exact List.Sublist.cons _ (List.Sublist.refl _)
      · rw [hd]; exact List.mem_cons_of_mem _ hx
    refine startNotice_sound e (freshNotice s d.slot d.target d.placement) h1 rfl hpl.1 (fun f m hm hu hi ht => ?_)
      (freshNotice_sized s _ _ (h.pairs d (by rw [hd]; exact List.mem_cons_self))) fun f hf => List.mem_cons.mp hf
    refine absurd ?_ (h.beside f m hm hu)
    rw [hd, List.map_cons, show (m.slot, m.target) = d.place by rw [hi, ht]; rfl]
    exact List.mem_cons_self

theorem handOverInTurn_sound {es : List EntryId} {s : State} (e : EntryId) (h : Sound (e :: es) s) : Sound es (handOverInTurn s e) :=
  (handOver_sound e h).tame (judgeInTurn_tame _ _)

theorem handOverAll_sound {fs : List EntryId} (es : List EntryId) {s : State} (h : Sound (es ++ fs) s) : Sound fs (handOverAll es s) := by
  induction es generalizing s with
  | nil => exact h
  | cons e es ih => exact ih (handOverInTurn_sound e h)

theorem ceaseAll_sound (es : List EntryId) {s : State} (h : Sound [] s) : Sound [] (ceaseAll es s) :=
  handOverAll_sound es ((h.tame (foldl_tame (fun s e => ceaseNotice_tame e s) es s)).tame (settle_tame _))

theorem ceaseAndHandOver_sound (e : EntryId) {s : State} (h : Sound [] s) : Sound [] (ceaseAndHandOver e s) :=
  handOverInTurn_sound e (h.tame (ceaseNotice_tame e s))

/-! ### Moves and absorbed pairs -/

theorem startNotice_withDeferred (ds : List Pair) (e : EntryId) (n : Notice) (s : State) :
    startNotice e n { s with deferred := ds } = { startNotice e n s with deferred := ds } := by
  have hr (x : State) : ripen e { x with deferred := ds } = { ripen e x with deferred := ds } := by
    unfold ripen
    dsimp only
    split
    · split <;> rfl
    · rfl
  have key (x : State) : (if draining s n.slot then ripen e { x with deferred := ds } else ripenIfReached e { x with deferred := ds })
      = { (if draining s n.slot then ripen e x else ripenIfReached e x) with deferred := ds } := by
    split
    · exact hr x
    · unfold ripenIfReached
      rw [show entryIs { x with deferred := ds } Notice.reached e = entryIs x Notice.reached e from rfl]
      split
      · exact hr x
      · rfl
  exact key { setEntry e (some n) s with order := s.order.erase e ++ [e] }

/-- Without the pair for a place, nothing waits there and the rest is as sound. -/
theorem Sound.unpaired {es : List EntryId} {s : State} (h : Sound es s) (i : SlotId) (t : TargetId) :
    Sound es { s with deferred := s.deferred.filter fun x => !(x.slot == i && x.target == t) } :=
  h.tame (es := []) (filterPairs_tame (fun x => !(x.slot == i && x.target == t)) s)

/-- A change that puts a notice where none stands unclaimed, and absorbs the pair that waits there. -/
theorem absorbPair_sound {es : List EntryId} {s u : State} {e : EntryId} {i : SlotId} {t : TargetId} (hd : u.deferred = s.deferred)
    (h1 : pairAt s i t = none → Sound es u)
    (h2 : Sound es { u with deferred := s.deferred.filter fun x => !(x.slot == i && x.target == t) }) : Sound es (absorbPair e i t u) := by
  unfold absorbPair
  split
  · rw [hd]
    exact h2.tame (mergeInto_tame _ _ _)
  · rename_i hp
    unfold pairAt at h1 hp
    rw [hd] at hp
    exact h1 hp

theorem moveWhole_sound {s : State} (e : EntryId) (n : Notice) (t : TargetId) (h : Sound [] s) (hn : s.pool[e] = some n)
    (hr : residentAt s n.slot t = none) : Sound [] (moveWhole e n t s) := by
  have put {v w : State} (hv : Sound [] v) (hpool : w.pool = v.pool.set e (some { n with target := t })) (hdef : w.deferred = v.deferred)
      (ho : w.order = v.order) (hg : ∀ i : SlotId, w.slots[i].generation = v.slots[i].generation) (hvp : v.pool = s.pool) (hvs : v.slots = s.slots)
      (hpl : (n.slot, t) ∉ v.deferred.map Pair.place) : Sound [] w := by
    refine Sound.put (e := e) (n := { n with target := t }) hv hpool hdef (fun f hf => ?_) hg (fun hu => ⟨?_, hpl, fun f m hm hm' hs ht => ?_⟩) ?_ (fun _ k => Or.inr k)
    · rw [ho]
      rcases hf with rfl | hf
      · exact hv.order f (by rw [hvp, hn]; exact Option.some_ne_none _)
      · exact hf
    · rw [hvs]; exact h.gen e n hn hu
    · rw [hvp] at hm
      exact (h.resident_none hr f m hm hm' hs ht).elim
    · exact h.sized e n hn
  unfold moveWhole
  dsimp only
  generalize hu : (if n.isPending then modList t n.level (· ++ [e]) (modList n.target n.level (·.erase e) (setEntry e (some { n with target := t }) s))
    else setEntry e (some { n with target := t }) s) = u
  have hu' : u.pool = s.pool.set e (some { n with target := t }) ∧ u.deferred = s.deferred ∧ u.order = s.order ∧ u.slots = s.slots := by
    rw [← hu]; split <;> exact ⟨rfl, rfl, rfl, rfl⟩
  obtain ⟨a, b, c, d⟩ := hu'
  refine absorbPair_sound b (fun hp => put h a b c (fun i => by rw [d]) rfl rfl (pairAt_none_place hp)) ?_
  exact put (h.unpaired n.slot t) a rfl c (fun i => by dsimp only; rw [d]) rfl rfl (filtered_place s n.slot t)

theorem mergeAway_sound {s : State} (e : EntryId) (n : Notice) (home : EntryId) (h : Sound [] s) : Sound [] (mergeAway e n home s) := by
  unfold mergeAway
  split
  · rename_i m _
    dsimp only
    have h1 := h.tame (mergeInto_tame home (awayPlacement n m) s)
    generalize mergeInto home (awayPlacement n m) s = u at *
    have h2 : Sound [] (if n.isPending then ripen home u else u) := by
      split
      · exact h1.tame (ripen_tame home u)
      · exact h1
    generalize (if n.isPending then ripen home u else u) = v at *
    exact handOver_sound e ((h2.tame (removeNotice_tame e v)).tame (reportCeased_tame _ _))
  · exact h

theorem rehomeOne_sound {s : State} (source : TargetId) (e : EntryId) (h : Sound [] s) : Sound [] (rehomeOne source s e) := by
  unfold rehomeOne
  split
  · rename_i n hn
    split
    · split
      · exact mergeAway_sound _ _ _ h
      · rename_i hr
        exact moveWhole_sound e n _ h hn hr
    · exact h
  · exact h

theorem foldl_sound {α : Type} {f : State → α → State} (hf : ∀ s a, Sound [] s → Sound [] (f s a)) (l : List α) {s : State} (h : Sound [] s) :
    Sound [] (l.foldl f s) := by
  induction l generalizing s with
  | nil => exact h
  | cons a l ih => exact ih (hf s a h)

theorem rehomeAndJudge_sound {s : State} (t : TargetId) (h : Sound [] s) : Sound [] (rehomeAndJudge t s) := by
  unfold rehomeAndJudge rehomeAll
  exact (foldl_sound (fun s e k => rehomeOne_sound t e k) _ h).tame (judgeInTurn_tame _ _)

/-! ### The command bodies -/

theorem startQuiesce_sound {s : State} (t : TargetId) (b : Bool) (h : Sound [] s) : Sound [] (startQuiesce t b s) := by
  have h1 := (h.tame (modTarget_tame t (fun c => { c with state := .quiescing }) s)).tame (ceasePairs_tame (fun d => d.target == t) _)
  unfold startQuiesce
  dsimp only
  refine ceaseAll_sound _ ?_
  split
  · exact rehomeAndJudge_sound t h1
  · exact h1

theorem targetOfflineBody_sound {s : State} (h : Sound [] s) : Sound [] (targetOfflineBody s) := by
  unfold targetOfflineBody
  split
  · exact h.tame (endCommand_tame _ _ _)
  · dsimp only
    refine Sound.calm ?_ (settle_tame _)
    have h1 := startQuiesce_sound (targetId s) (targetCode s == 0) h
    generalize startQuiesce (targetId s) (targetCode s == 0) s = q at h1
    unfold quiesceEnd
    split
    · refine Sound.calm (Sound.calm ?_ (modTarget_tame _ _ _)) (endCommand_tame _ _ _)
      unfold forceStack
      exact ceaseAll_sound _ (h1.tame (modTarget_tame _ _ _))
    · split
      · exact (h1.tame (modTarget_tame _ _ _)).tame (endCommand_tame _ _ _)
      · split
        · exact h1.tame (endCommand_tame _ _ _)
        · exact h1.same rfl rfl rfl rfl

theorem retireRecord_sound {s : State} (i : SlotId) (mode : RetireMode) (h : Sound [] s) : Sound [] (retireRecord i mode s) := by
  unfold retireRecord
  dsimp only
  refine Sound.calm (Sound.calm ?_ (reportCeased_tame i _)) (settle_tame _)
  have h1 := (h.tame (modSlot_tame i (fun r => { r with state := .retiring, retireMode := some mode }) s rfl)).tame (discardHeld_tame i _)
  cases mode with
  | discard => exact ceaseAll_sound _ (h1.tame (ceasePairs_tame _ _))
  | drain => exact h1.tame (Tame.foldl (f := fun s e => settle (ripen e s)) (fun s e => (ripen_tame e s).trans (settle_tame _)) _ _)

theorem forceRetireRecord_sound {s : State} (i : SlotId) (h : Sound [] s) : Sound [] (forceRetireRecord i s) := by
  unfold forceRetireRecord
  dsimp only
  refine handOverAll_sound _ ?_
  refine Sound.calm (Sound.calm (Sound.calm ?_ (settle_tame _)) (orphanItems_tame i _)) (freeSlot_tame i _)
  exact ((h.tame (discardHeld_tame i s)).tame (dropPairs_tame i _)).tame (foldl_tame (fun s e => dropNotice_tame e s) _ _)

theorem releaseRecord_sound {s : State} (i : SlotId) (h : Sound [] s) : Sound [] (releaseRecord i s) := by
  have h1 := h.tame (modSlot_tame i (fun r => { r with state := .active }) s rfl)
  unfold releaseRecord
  dsimp only
  split
  · rename_i hp
    refine Sound.calm (placeHeld_sound i h1 ?_) (settle_tame _)
    unfold releasePlaces at hp
    rw [modSlot_slots, slot_get_set, if_pos rfl]
    simp only [Bool.and_eq_true, bne_iff_ne] at hp
    exact hp.1.2
  · exact h1

theorem endWalk_tame (w : List Word) (s : State) : Tame [] s (endWalkIfPast w s) := by
  unfold endWalkIfPast
  split
  · exact endCommand_tame _ _ _
  · exact Tame.refl s

theorem onlineWalk_sound {s : State} (h : Sound [] s) : Sound [] (onlineWalkBody s) := by
  unfold onlineWalkBody
  split
  · dsimp only
    split
    · rename_i hc
      refine Sound.calm (Sound.calm (Sound.calm ?_ (settle_tame _)) (modPort_tame _ _)) (endWalk_tame _ _)
      refine placeHeld_sound _ h ?_
      unfold converts at hc
      simp only [Bool.and_eq_true, bne_iff_ne] at hc
      exact hc.1.1.2
    · exact (h.tame (modPort_tame _ _)).tame (endWalk_tame _ _)
  · exact h

theorem groupWalk_sound {s : State} (h : Sound [] s) : Sound [] (groupWalkBody s) := by
  unfold groupWalkBody
  split
  · rename_i kind _ _ _ _ _
    dsimp only
    split
    · exact (h.tame (modPort_tame _ _)).tame (endWalk_tame _ _)
    · split
      · exact (h.tame (modPort_tame _ _)).tame (endWalk_tame _ _)
      · refine Sound.calm (Sound.calm ?_ (modPort_tame _ _)) (endWalk_tame _ _)
        unfold walkChange
        cases kind with
        | hold => exact h.tame (modSlot_tame _ _ _ rfl)
        | release => exact releaseRecord_sound _ h
        | retire m => exact retireRecord_sound _ m h
  · exact h

theorem rearmMiss_tame (s : State) : Tame [] s (rearmMissDisarmed s) := modPins_tame _ s

/-- A record with a new generation has no notice unclaimed. -/
theorem installed_sound {s : State} (i : SlotId) (f : Slot → Slot) (h : Sound [] s)
    (hn : ∀ (e : EntryId) (n : Notice), s.pool[e] = some n → n.unclaimed = true → n.slot ≠ i) : Sound [] (modSlot i f s) :=
  ⟨h.order, fun e n he hu => by
      rw [modSlot_slots, slot_get_set, if_neg fun k => hn e n he hu k.symm]
      exact h.gen e n he hu,
    h.one, h.places, h.beside, h.full, h.sized, h.pairs⟩

theorem not_orphan {n : Notice} (hu : n.unclaimed = true) : n.isOrphan = false := by
  unfold Notice.unclaimed at hu
  unfold Notice.isOrphan
  split at hu
  · rename_i hp; rw [hp]
  · rename_i hp; rw [hp]
  · cases hu

theorem installBody_sound {s : State} (hb : Belonging s) (h : Sound [] s) : Sound [] (installBody s) := by
  unfold installBody
  split
  · exact h.tame (endCommand_tame _ _ _)
  · rename_i hf
    dsimp only
    refine Sound.calm (Sound.calm (installed_sound _ _ h fun e n hn hu hi => ?_) (rearmMiss_tame _)) (endCommand_tame _ _ _)
    have hfree : s.slots[slotId s].state = .free := by
      unfold installError at hf
      dsimp only at hf
      split at hf
      · cases hf
      · split at hf
        · cases hf
        · rename_i k; exact Decidable.not_not.mp k
    have same (i j : SlotId) (k : i = j) (hj : s.slots[j].state = .free) : s.slots[i].state = .free := by subst k; exact hj
    exact (hb.owned e n hn (not_orphan hu)).1 (same _ _ hi hfree)

theorem commandBody_sound (code : Nat) {s : State} (hb : Belonging s) (h : Sound [] s) : Sound [] (commandBody code s) := by
  have ended (c : ResultCode) (w : List Word) : Sound [] (endCommand c w s) := h.tame (endCommand_tame c w s)
  have flown (f : Flight) : Sound [] (stayInFlight f s) := h.tame (modPort_tame _ s)
  unfold commandBody
  split
  · exact installBody_sound hb h
  · unfold modifyBody; split
    · exact ended _ _
    · exact (h.tame (modSlot_tame (slotId s) (fun r => modifiedSlot r (imageOf s)) s rfl)).tame (endCommand_tame _ _ _)
  · unfold holdBody; split
    · exact ended _ _
    · exact (h.tame (modSlot_tame (slotId s) (fun r => { r with state := .held }) s rfl)).tame (endCommand_tame _ _ _)
  · unfold releaseBody; split
    · exact ended _ _
    · refine Sound.calm (Sound.calm ?_ (rearmMiss_tame _)) (endCommand_tame _ _ _)
      split
      · exact releaseRecord_sound _ h
      · exact h
  · unfold queryBody; split
    · exact ended _ _
    · split <;> exact ended _ _
  · unfold probeBody; split <;> exact ended _ _
  · unfold retireBody; split
    · exact ended _ _
    · dsimp only
      have h1 := retireRecord_sound (slotId s) (retireModeOf (retireModeCode s)) h
      generalize retireRecord (slotId s) (retireModeOf (retireModeCode s)) s = q at h1
      unfold retireEnd
      split
      · exact h1.tame (endCommand_tame _ _ _)
      · split
        · exact h1.tame (endCommand_tame _ _ _)
        · exact h1.same rfl rfl rfl rfl
  · unfold forceRetireBody; split
    · exact ended _ _
    · exact ((forceRetireRecord_sound _ h).tame (endCommand_tame _ _ _)).tame (settle_tame _)
  · unfold groupHoldBody; split
    · exact ended _ _
    · exact flown _
  · unfold groupReleaseBody; split
    · exact ended _ _
    · exact flown _
  · unfold groupRetireBody; split
    · exact ended _ _
    · exact flown _
  · unfold targetSetBody; split
    · exact ended _ _
    · exact (h.tame (modTarget_tame _ _ _)).tame (endCommand_tame _ _ _)
  · unfold targetOnlineBody; split
    · exact ended _ _
    · dsimp only; split
      · exact ended _ _
      · exact ((h.tame (modTarget_tame _ (fun c => { c with state := .online }) _)).tame (modPort_tame _ _)).tame (settle_tame _)
  · exact targetOfflineBody_sound h
  · unfold pinSetBody; split
    · exact ended _ _
    · exact (h.tame (modPin_tame _ _ _)).tame (endCommand_tame _ _ _)
  · unfold tableClearBody; split
    · refine Sound.calm (Sound.calm (h.tame (es := []) (t := { s with slots := s.slots.map fun r => Slot.freeOf r.generation }) ?_) ?_) (endCommand_tame _ _ _)
      · exact Tame.same rfl rfl rfl fun i => by
          show (s.slots.map fun r => Slot.freeOf r.generation)[i].generation = _
          simp [Slot.freeOf]
      · exact Tame.foldl (f := fun s ps => rearmPins ps s) (fun s ps => rearmPins_tame ps s) _ _
    · exact ended _ _
  · exact ended _ _

/-! ### Claim and completion -/

theorem claimed_unclaimed (n : Notice) : n.claimed.unclaimed = false := rfl

theorem takeCandidate_tame {s : State} (t : TargetId) (e : EntryId) (n : Notice) (hn : s.pool[e] = some n) : Tame [] s (takeCandidate t e n s) := by
  refine Tame.calm (t := setEntry e (some n.claimed) s)
    (setEntry_tame hn (fun k => by rw [claimed_unclaimed] at k; cases k) rfl rfl rfl fun k => ⟨k.1, k.2.1, ?_⟩)
    (Tame.calm (t := modList t n.level (·.erase e) (setEntry e (some n.claimed) s)) (modTarget_tame _ _ _) (modTarget_tame _ _ _))
  unfold Notice.claimed Notice.late
  cases n.rearm <;> exact Nat.zero_le _

theorem claimBody_tame (r : RequesterId) (t : TargetId) (f : ClaimForm) (s : State) : Tame [] s (claimBody r t f s) := by
  have hans (low p : Word) (v : State) : Tame [] v (claimAnswer r f low p v) := by
    cases f <;> exact Tame.same rfl rfl rfl fun _ => rfl
  have hlat (p : Word) (v : State) : Tame [] v (latchPayload t f p v) := by
    cases f
    · exact modTarget_tame t (fun c => { c with lastPayload := p }) v
    · exact Tame.refl v
  have hstart : Tame [] s (stopDeadline t (returnToOnline t s)) := Tame.calm (modTarget_tame t _ s) (modTarget_tame t _ _)
  unfold claimBody
  split
  · exact Tame.same rfl rfl rfl fun _ => rfl
  · refine Tame.calm ?_ (settle_tame _)
    unfold servedClaim
    dsimp only
    refine Tame.calm hstart ?_
    generalize stopDeadline t (returnToOnline t s) = u
    split
    · rename_i x hx
      refine Tame.calm (Tame.calm (takeCandidate_tame t x.1 x.2 ?_) (hlat _ _)) (hans _ _ _)
      unfold claimable at hx
      split at hx
      · split at hx
        · rename_i y _
          cases hp : u.pool[y.1] with
          | none => rw [hp] at hx; cases hx
          | some n =>
            rw [hp] at hx
            have hx : (y.1, n) = x := by simpa using hx
            subst hx
            exact hp
        · cases hx
      · cases hx
    · exact Tame.calm (hlat _ _) (hans _ _ _)

theorem reraise_sound {s : State} (e : EntryId) (n : Notice) (h : Sound [] s) (hg : n.generation = s.slots[n.slot].generation)
    (hz : (latePlacement n).sized) : Sound [] (reraise e n s) := by
  unfold reraise
  split
  · exact handOverInTurn_sound e (((h.tame (mergeInto_tame _ _ _)).tame (removeNotice_tame e _)).tame (reportCeased_tame _ _))
  · rename_i hr
    unfold reraiseInPlace
    refine absorbPair_sound (s := s) (startNotice_deferred _ _ s) (fun hp => ?_) ?_
    · exact startNotice_sound e _ h hg (pairAt_none_place hp) (fun f m hm hu hi ht => (h.resident_none hr f m hm hu hi ht).elim)
        (freshNotice_sized s n.slot n.target hz) fun _ k => Or.inr k
    · rw [← startNotice_withDeferred]
      exact startNotice_sound e _ (h.unpaired n.slot n.target) hg (filtered_place s n.slot n.target)
        (fun f m hm hu hi ht => (h.resident_none hr f m hm hu hi ht).elim) (freshNotice_sized s n.slot n.target hz) fun _ k => Or.inr k

theorem completeNotice_sound {s : State} (e : EntryId) (n : Notice) (h : Sound [] s) (hn : s.pool[e] = some n)
    (hg : n.isOrphan = false → n.generation = s.slots[n.slot].generation) : Sound [] (completeNotice e n s) := by
  unfold completeNotice
  split
  · exact ceaseAndHandOver_sound e h
  · rename_i hc
    simp only [Bool.or_eq_true, decide_eq_true_eq, not_or, Bool.not_eq_true] at hc
    unfold completeLate
    dsimp only
    split
    · exact ceaseAndHandOver_sound e h
    · split
      · exact reraise_sound e n h (hg hc.1) ⟨Nat.pos_of_ne_zero hc.2, (h.sized e n hn).2.2⟩
      · split
        · unfold returnLate
          exact handOverInTurn_sound e (((h.tame (setHeld_tame _ _ s)).tame (raiseIf_tame _ _ _)).tame (removeNotice_tame e _))
        · exact ceaseAndHandOver_sound e h

theorem completeBody_sound {s : State} (r : RequesterId) (t : TargetId) (w : Word) (hb : Belonging s) (h : Sound [] s) : Sound [] (completeBody r t w s) := by
  unfold completeBody
  split
  · exact h.tame (raise_tame _ _)
  · split
    · exact h.tame (raise_tame _ _)
    · rename_i e _ _
      split
      · rename_i n hn
        split
        · have h1 := completeNotice_sound e n (h.tame (modTarget_tame t (fun c => { c with stack := c.stack.tail }) s)) hn fun ho => (hb.owned e n hn ho).2
          refine Sound.calm ?_ (settle_tame _)
          unfold popStack
          generalize completeNotice e n (modTarget t (fun c => { c with stack := c.stack.tail }) s) = u at h1
          unfold endQuiesceIfEmpty
          split
          · have h2 : Sound [] (goOffline t u) := h1.tame (modTarget_tame _ _ _)
            unfold endOfflineWait
            split
            · split
              · exact h2.tame (endCommand_tame _ _ _)
              · exact h2
            · exact h2
          · exact h1
        · exact h.tame (raise_tame _ _)
      · exact h.tame (raise_tame _ _)

/-! ### Accesses and events -/

theorem serve_sound {s : State} (op : LinkOp) (hb : Belonging s) (h : Sound [] s) : Sound [] (serve op s) := by
  cases op <;> unfold serve <;> dsimp only
  · unfold eventBody; split <;> exact h.same rfl rfl rfl rfl
  · exact h.same rfl rfl rfl rfl
  · exact h.tame (claimBody_tame _ _ _ s)
  · exact completeBody_sound _ _ _ hb h
  · unfold enableBody; split
    · exact h.tame (raise_tame _ _)
    · exact (h.tame (modTarget_tame _ _ _)).tame (settle_tame _)
  · unfold maskBody; split
    · exact h.tame (raise_tame _ _)
    · exact (h.tame (modTarget_tame _ _ _)).tame (settle_tame _)
  · unfold pageReadBody; split <;> exact h.same rfl rfl rfl rfl
  · exact h.same rfl rfl rfl rfl
  · unfold commandWrite takeCommand; split
    · exact h.tame (modPort_tame _ _)
    · exact commandBody_sound _ (hb.quiet (Quiet.same rfl rfl rfl rfl)) (h.tame (modPort_tame _ s))
  · unfold abortBody; split
    · exact h.tame (endCommand_tame _ _ _)
    · exact h
  · exact h.same rfl rfl rfl rfl
  · exact h.tame (modPort_tame _ _)
  · exact h.same rfl rfl rfl rfl
  · exact h.tame (raise_tame _ _)

theorem linkDeliver_sound {s : State} (op : LinkOp) (hb : Belonging s) (h : Sound [] s) : Sound [] (linkDeliver op s) := by
  unfold linkDeliver
  split
  · exact h
  · split
    · exact h.same rfl rfl rfl rfl
    · exact serve_sound op hb h

theorem takeWaiting_sound (ops : List LinkOp) {s : State} (hs : Standing s) (hb : Belonging s) (h : Sound [] s) : Sound [] (takeWaiting ops s) := by
  induction ops generalizing s with
  | nil => exact h.same rfl rfl rfl rfl
  | cons op ops ih =>
    unfold takeWaiting
    split
    · exact h.same rfl rfl rfl rfl
    · exact ih (serve_st _ hs) (serve_be _ hb hs) (serve_sound _ hb h)

theorem drainWaiting_sound {s : State} (hs : Standing s) (hb : Belonging s) (h : Sound [] s) : Sound [] (drainWaiting s) := by
  unfold drainWaiting
  split
  · exact takeWaiting_sound _ hs hb h
  · exact h

theorem regainOne_tame (t : TargetId) (s : State) : Tame [] s (regainOne s t) := by
  rw [regainOne_eq]
  exact Tame.same rfl rfl rfl fun _ => rfl

theorem regainIf_tame (b s : State) : Tame [] s (regainIf b s) := by
  obtain ⟨u, hu, e, _⟩ := regainIf_parts b s
  rw [hu]
  exact Tame.same (by rw [e]) (by rw [e]) (by rw [e]) fun i => by rw [e]

theorem holdOff_tame (e : EntryId) (s : State) : Tame [] s (holdOffBody e s) := by
  unfold holdOffBody
  split
  · exact (ripen_tame _ _).trans (settle_tame _)
  · exact Tame.refl s

theorem deadlineBody_sound {s : State} (t : TargetId) (h : Sound [] s) : Sound [] (deadlineBody t s) := by
  unfold deadlineBody
  split
  · exact (rehomeAndJudge_sound t ((h.tame (modTarget_tame t (fun c => { c with state := .stalled, deadlineStart := none }) s)).tame (raise_tame _ _))).tame (settle_tame _)
  · exact h

theorem wait_tame (s : State) : Tame [] s (waitBody s) := by
  unfold waitBody
  split
  · exact endCommand_tame _ _ _
  · exact Tame.refl s

theorem filteredLevel_tame (p : PinId) (s : State) : Tame [] s (filteredLevelBody p s) := by
  unfold filteredLevelBody
  split
  · exact modPin_tame _ _ _
  · exact Tame.refl s

theorem intakeBody_sound {s : State} (h : Sound [] s) : Sound [] (intakeBody s) := by
  unfold intakeBody
  split
  · exact arrive_sound _ _ (h.tame (es := []) (Tame.same rfl rfl rfl fun _ => rfl))
  · exact h

/-- An empty pool is sound. -/
theorem Sound.empty {s : State} (hp : s.pool = Vector.replicate 512 none) (hd : s.deferred = []) : Sound [] s := by
  have hn (e : EntryId) : s.pool[e] = none := by rw [hp]; simp
  refine ⟨fun e h => absurd (hn e) h, fun e n h => ?_, fun e _ n _ h => ?_, by rw [hd]; exact List.nodup_nil, fun e n h => ?_,
    fun h => absurd hd h, fun e n h => ?_, fun d h => ?_⟩
  all_goals first
    | (rw [hn] at h; cases h)
    | (rw [hd] at h; cases h)

end Sys2Proof.Machine
end

