-- ==== Sys2Proof/Laws/Kept.lean ====
section
/-! SUPPORT. The relation of Keeps for the bodies of the commands: what each may do to the queues, the capture, the route table and the port. -/

open Sys2Proof

namespace Sys2Proof.Machine

theorem arrive_keeps (p : Producer) (a : Arrival) (s : State) : Keeps s (arrive p a s) := by
  unfold arrive
  split
  · rename_i i h
    have := covers_not_free (lookup_some h).1
    exact applyArrival_keeps _ _ _ (by rcases this with h | h <;> rw [h] <;> decide)
  · exact missed_keeps _ _ _

theorem intakeRest_keeps (s : State) (a : Arrival) (rest : List Arrival) (h : s.intake = a :: rest) :
    Keeps s { s with intake := rest } :=
  ⟨rfl, by intro k; unfold IntakeBounded at *; rw [h] at k; simp at k ⊢; omega, id, id, id, id, id, id⟩

theorem intakeBody_keeps (s : State) : Keeps s (intakeBody s) := by
  unfold intakeBody
  split
  · rename_i a rest h
    exact (intakeRest_keeps s a rest h).trans (arrive_keeps _ _ _)
  · exact Keeps.refl s

theorem edgeBody_keeps (pin : PinId) (s : State) : Keeps s (edgeBody pin s) := by
  unfold edgeBody
  split
  · exact (modPin_frame _ _ _).keeps.trans (arrive_keeps _ _ _)
  · exact Keeps.refl s

theorem levelBody_keeps (pin : PinId) (s : State) : Keeps s (levelBody pin s) := by
  unfold levelBody
  split
  · exact ((modPin_frame _ _ _).keeps.trans (arrive_keeps _ _ _)).trans (modPin_frame _ _ _).keeps
  · exact Keeps.refl s

theorem modCause_offer_keeps (c : Cause) (s : State) : Keeps s (modCause c (fun x => { x with offer := none }) s) := by
  refine ⟨rfl, id, id, id, ?_, id, id, id⟩
  intro k
  unfold CaptureFollowsMiss modCause at *
  cases c <;> simpa [causeIndex] using k

theorem faultBody_keeps (c : Cause) (s : State) : Keeps s (faultBody c s) := by
  unfold faultBody
  split
  · exact (modCause_offer_keeps c s).trans (arrive_keeps _ _ _)
  · exact Keeps.refl s

theorem inputChange_keeps (pin : PinId) (l : Bool) (s : State) : Keeps s (inputChangeBody pin l s) := by
  unfold inputChangeBody
  split
  · exact Keeps.refl s
  · split
    · exact (modPin_frame _ _ _).keeps
    · exact ((modPin_frame _ _ _).trans (nextFree_frame _)).keeps

theorem filtered_keeps (pin : PinId) (s : State) : Keeps s (filteredLevelBody pin s) := by
  unfold filteredLevelBody
  split
  · exact (modPin_frame _ _ _).keeps
  · exact Keeps.refl s

theorem endCommand_keeps (c : ResultCode) (ws : List Word) (s : State) : Keeps s (endCommand c ws s) :=
  modPort_keeps _ _ fun k => Port.concluded_consistent _ _ _ _ k.2.2.1 rfl

theorem startCommand_keeps (code : BitVec 8) (s : State) (h : s.port.flight = none) : Keeps s (startCommand code s) :=
  modPort_keeps _ _ fun k => by
    obtain ⟨k1, k2, k3, k4⟩ := k
    refine ⟨by simp [busy, modPort, h], ?_, by simp [modPort], by simp [modPort, h]⟩
    intro hw
    obtain ⟨f, hf, _⟩ := k2 hw
    rw [h] at hf; cases hf

/-- A fresh port: taken and not in flight. -/
def Fresh (s : State) : Prop := s.port.flight = none ∧ s.port.resultCode = .none ∧ s.port.resultLength = 0 ∧ s.port.walkPosition = 0 

theorem startCommand_fresh (code : BitVec 8) (s : State) (h : s.port.flight = none) : Fresh (startCommand code s) :=
  ⟨h, rfl, rfl, rfl⟩

theorem Fresh.kept {s t : State} (h : Fresh s) (k : s.port.keptOrRetired t.port) : Fresh t := by
  rcases k with k | ⟨i, f, hf, _⟩
  · unfold Fresh; rw [k]; exact h
  · rw [h.1] at hf; cases hf

theorem stayInFlight_keeps (f : Flight) (s : State) (h : Fresh s) : Keeps s (stayInFlight f s) :=
  modPort_keeps _ _ fun k => by
    obtain ⟨k1, k2, k3, k4⟩ := k
    refine ⟨fun _ => ⟨h.2.1, h.2.2.1⟩, ?_, by simp [modPort, h.2.2.2], by simp [modPort, h.2.2.2]⟩
    intro hw
    obtain ⟨f, hf, _⟩ := k2 hw
    rw [h.1] at hf; cases hf

theorem startWait_keeps (ms : Nat) (f : Flight) (s : State) (h : Fresh s) (hf : f.isWalk = false) :
    Keeps s (startWait ms (stayInFlight f s)) :=
  ⟨rfl, id, id, id, id, id, id, fun k => by
    refine ⟨fun _ => ⟨h.2.1, h.2.2.1⟩, fun _ => ⟨f, rfl, hf⟩, k.2.2.1, ?_⟩
    intro g hg hw
    cases hg; rw [hf] at hw; cases hw⟩

theorem modPins_keeps (f : PinId → Pin → Pin) (s : State) : Keeps s (modPins f s) := (modPins_frame f s).keeps

/-- The image checks that INSTALL and MODIFY share pass. -/
theorem imageError_none {m : Image} (h : imageError m = none) (hl : m.entries.length = 4) :
    1 ≤ (imageTargets m).length ∧ (imageTargets m).length ≤ 4 ∧ (imageTargets m).Nodup ∧ m.threshold ≠ 0 ∧ m.len ≤ 32 := by
  unfold imageError at h
  split at h; · cases h
  split at h; · cases h
  split at h; · cases h
  split at h; · cases h
  split at h; · cases h
  split at h; · cases h
  rename_i h1 h2 h3 h4 h5 h6
  simp only [Bool.or_eq_true, decide_eq_true_eq, not_or, List.any_eq_true, not_exists, not_and, Bool.not_eq_true', decide_eq_false_iff_not, not_not, Nat.not_lt] at h1 h2 h3 h4 h5 h6
  have hlen : (imageTargets m).length = m.listLength := by
    simp [imageTargets, listed, hl]; omega
  refine ⟨by omega, by omega, ?_, h5.2, h6⟩
  unfold imageTargets
  refine (List.nodup_map_iff_inj_on h4).mpr ?_
  intro a ha b hb e
  have h1 := h3 a ha
  have h2 := h3 b hb
  have := congrArg Fin.val e
  simp only [Fin.ofNat] at this
  omega

theorem imageOf_bounds (s : State) : (imageOf s).threshold ≤ 255 ∧ (imageOf s).holdOff ≤ 65535 ∧ (imageOf s).entries.length = 4 := by
  refine ⟨?_, ?_, rfl⟩
  · have := ((operand s 2).extractLsb' 24 8).isLt
    simp only [imageOf, field]; omega
  · have := ((operand s 4).extractLsb' 0 16).isLt
    simp only [imageOf, field]; omega

theorem not_duplicated {s : State} {i j : SlotId} {m : Image} (h : duplicated s i m = false) (hj : j ≠ i)
    (hf : s.slots[j].state ≠ .free) (hl : s.slots[j].len = m.len) : s.slots[j].key ≠ m.key := by
  intro hk
  have : duplicated s i m = true := by
    unfold duplicated
    rw [List.any_eq_true]
    refine ⟨_, (mem_slots_zipIdx _ _).mpr ⟨j, rfl⟩, ?_⟩
    have : j.val ≠ i.val := fun e => hj (Fin.ext e)
    simp only [bne_iff_ne, Bool.and_eq_true, beq_iff_eq]
    exact ⟨⟨⟨this, hf⟩, hl⟩, hk⟩
  rw [h] at this; cases this

theorem installBody_keeps (s : State) : Keeps s (installBody s) := by
  unfold installBody
  split
  · exact endCommand_keeps _ _ _
  · rename_i he
    dsimp only
    refine Keeps.trans ?_ (endCommand_keeps _ _ _)
    refine Keeps.trans ?_ (modPins_keeps _ _)
    unfold installError at he
    dsimp only at he
    split at he; · cases he
    split at he; · cases he
    split at he; · cases he
    split at he; · cases he
    split at he; · cases he
    rename_i hi
    split at he; · cases he
    split at he; · cases he
    rename_i h5 h6
    obtain ⟨b1, b2, b3⟩ := imageOf_bounds s
    obtain ⟨c1, c2, c3, c4, c5⟩ := imageError_none hi b3
    simp only [tailNonzero, bne_iff_ne, not_not] at h5
    have h6' : duplicated s (slotId s) (imageOf s) = false := by simpa using h6
    refine ⟨rfl, id, id, id, id, ?_, ?_, id⟩
    · intro k a b ha hb hl hk
      simp only [modSlot_slots, slot_get_set] at ha hb hl hk
      by_cases ea : slotId s = a <;> by_cases eb : slotId s = b
      · rw [← ea, ← eb]
      · exfalso
        subst ea
        simp only [eb, if_true, if_false] at hb hl hk
        exact not_duplicated h6' (fun e => eb e.symm) hb hl.symm hk.symm
      · exfalso
        subst eb
        simp only [ea, if_true, if_false] at ha hl hk
        exact not_duplicated h6' (fun e => ea e.symm) ha hl hk
      · simp only [ea, eb, if_false] at ha hb hl hk
        exact k a b ha hb hl hk
    · rintro ⟨k1, k2⟩
      have hn : (if startStateCode s = 0 then SlotState.active else SlotState.held) ≠ .free ∧ (if startStateCode s = 0 then SlotState.active else SlotState.held) ≠ .retiring := by
        split <;> simp
      constructor <;> intro j <;> simp only [modSlot_slots, slot_get_set] <;> split
      · refine ⟨fun e => absurd e hn.1, fun _ => ⟨c1, c2, c3, c1, Nat.pos_of_ne_zero c4, b1, b2, c5, h5⟩, ?_⟩
        simpa [installedSlot] using hn.2
      · exact k1 j
      · exact Held.wf_empty
      · exact k2 j

theorem modifyBody_keeps (s : State) : Keeps s (modifyBody s) := by
  unfold modifyBody
  split
  · exact endCommand_keeps _ _ _
  · rename_i he
    refine Keeps.trans ?_ (endCommand_keeps _ _ _)
    unfold modifyError at he
    dsimp only at he
    split at he; · cases he
    split at he; · cases he
    rename_i hf
    split at he; · cases he
    split at he; · cases he
    split at he; · cases he
    split at he; · cases he
    rename_i hi
    obtain ⟨b1, b2, b3⟩ := imageOf_bounds s
    obtain ⟨c1, c2, c3, c4, c5⟩ := imageError_none hi b3
    refine modSlot_keeps _ _ _ (fun w v => ⟨?_, v⟩) fun _ => ⟨hf, rfl, rfl⟩
    obtain ⟨w1, w2, w3⟩ := w
    obtain ⟨a1, a2, a3, a4, a5, a6, a7, a8, a9⟩ := w2 hf
    exact ⟨fun e => absurd e hf, fun _ => ⟨c1, c2, c3, c1, Nat.pos_of_ne_zero c4, b1, b2, a8, a9⟩, w3⟩

theorem state_keeps (i : SlotId) (x : SlotState) (s : State) (h1 : s.slots[i].state ≠ .free)
    (h2 : s.slots[i].state ≠ .retiring) (h3 : x = .active ∨ x = .held) :
    Keeps s (modSlot i (fun r => { r with state := x }) s) := by
  refine modSlot_keeps _ _ _ (fun w v => ⟨?_, v⟩) fun _ => ⟨h1, rfl, rfl⟩
  obtain ⟨w1, w2, w3⟩ := w
  refine ⟨?_, fun _ => w2 h1, ?_⟩
  · rcases h3 with h | h <;> simp [h]
  · rw [w3]; simp only [h2, false_iff]; rcases h3 with h | h <;> simp [h]

theorem holdError_none {s : State} (h : holdError s = none) :
    s.slots[slotId s].state ≠ .free ∧ s.slots[slotId s].state ≠ .retiring := by
  unfold holdError at h
  split at h; · cases h
  split at h; · cases h
  split at h; · cases h
  split at h; · cases h
  constructor <;> assumption

theorem holdBody_keeps (s : State) : Keeps s (holdBody s) := by
  unfold holdBody
  split
  · exact endCommand_keeps _ _ _
  · rename_i he
    obtain ⟨h1, h2⟩ := holdError_none he
    exact (state_keeps _ _ _ h1 h2 (Or.inr rfl)).trans (endCommand_keeps _ _ _)

theorem releaseRecord_keeps (i : SlotId) (s : State) (h1 : s.slots[i].state ≠ .free)
    (h2 : s.slots[i].state ≠ .retiring) : Keeps s (releaseRecord i s) := by
  unfold releaseRecord
  dsimp only
  have k := state_keeps i .active s h1 h2 (Or.inl rfl)
  split
  · exact (k.trans (placeHeld_keeps _ _ (by simp))).trans (settle_frame _).keeps
  · exact k

theorem releaseBody_keeps (s : State) : Keeps s (releaseBody s) := by
  unfold releaseBody
  split
  · exact endCommand_keeps _ _ _
  · rename_i he
    obtain ⟨h1, h2⟩ := holdError_none he
    dsimp only
    refine Keeps.trans ?_ (endCommand_keeps _ _ _)
    refine Keeps.trans ?_ (modPins_keeps _ _)
    split
    · exact releaseRecord_keeps _ _ h1 h2
    · exact Keeps.refl s

theorem queryBody_keeps (s : State) : Keeps s (queryBody s) := by
  unfold queryBody
  split
  · exact endCommand_keeps _ _ _
  · split <;> exact endCommand_keeps _ _ _

theorem probeBody_keeps (s : State) : Keeps s (probeBody s) := by
  unfold probeBody
  split <;> exact endCommand_keeps _ _ _

theorem retireRecord_keeps (i : SlotId) (mode : RetireMode) (s : State) (h1 : s.slots[i].state ≠ .free) :
    Keeps s (retireRecord i mode s) := by
  unfold retireRecord
  dsimp only
  refine Keeps.trans ?_ (((treatItems_frame _ _ _).trans (reportCeased_frame _ _)).trans (settle_frame _)).keeps
  refine Keeps.trans ?_ (discardHeld_keeps _ _ (by simp))
  refine modSlot_keeps _ _ _ (fun w v => ⟨?_, v⟩) fun _ => ⟨h1, rfl, rfl⟩
  obtain ⟨w1, w2, w3⟩ := w
  exact ⟨by simp, fun _ => w2 h1, by simp⟩

theorem retireRecord_port (i : SlotId) (mode : RetireMode) (s : State) :
    s.port.keptOrRetired (retireRecord i mode s).port := by
  unfold retireRecord
  dsimp only
  have := (((treatItems_frame i mode (discardHeld i (modSlot i (fun r => { r with state := .retiring, retireMode := some mode }) s))).trans (reportCeased_frame i _)).trans (settle_frame _)).port
  simpa [discardHeld, rearmPins] using this

theorem retireBody_keeps (s : State) (hf : Fresh s) : Keeps s (retireBody s) := by
  unfold retireBody
  split
  · exact endCommand_keeps _ _ _
  · rename_i he
    dsimp only
    unfold retireError at he
    split at he; · cases he
    split at he; · cases he
    split at he; · cases he
    rename_i h1
    have k := retireRecord_keeps (slotId s) (retireModeOf (retireModeCode s)) s h1
    have f := hf.kept (retireRecord_port (slotId s) (retireModeOf (retireModeCode s)) s)
    unfold retireEnd
    split
    · exact k.trans (endCommand_keeps _ _ _)
    · split
      · exact k.trans (endCommand_keeps _ _ _)
      · exact k.trans (startWait_keeps _ _ _ f rfl)

theorem freeSlot_keeps (i : SlotId) (s : State) : Keeps s (freeSlot i s) :=
  modSlot_keeps _ _ _ (fun _ _ => ⟨Slot.wf_freeOf _, Held.wf_empty⟩) (fun h => absurd rfl h)

theorem forceRetireBody_keeps (s : State) : Keeps s (forceRetireBody s) := by
  unfold forceRetireBody
  split
  · exact endCommand_keeps _ _ _
  · rename_i he
    dsimp only
    unfold forceRetireError at he
    split at he; · cases he
    split at he; · cases he
    split at he; · cases he
    rename_i h1
    refine Keeps.trans (Keeps.trans ?_ (endCommand_keeps _ _ _)) (settle_frame _).keeps
    unfold forceRetireRecord
    dsimp only
    refine Keeps.trans ?_ (handOverAll_frame _ _).keeps
    refine Keeps.trans ?_ (freeSlot_keeps _ _)
    refine Keeps.trans ?_ (orphanItems_frame _ _).keeps
    refine Keeps.trans ?_ (settle_frame _).keeps
    refine Keeps.trans ?_ (Frame.foldl _ (fun s e => dropNotice_frame e s) _ _).keeps
    exact (discardHeld_keeps _ _ h1).trans (dropPairs_frame _ _).keeps

theorem tableClearBody_keeps (s : State) : Keeps s (tableClearBody s) := by
  unfold tableClearBody
  split
  · refine Keeps.trans ?_ (endCommand_keeps _ _ _)
    unfold clearTable
    refine Keeps.trans ?_ (Frame.foldl _ (fun s ps => rearmPins_frame ps s) _ _).keeps
    refine ⟨rfl, id, id, id, id, ?_, ?_, id⟩
    · intro _ a b ha
      simp [Slot.freeOf] at ha
    · intro _
      constructor <;> intro j
      · simpa using Slot.wf_freeOf _
      · simpa [Slot.freeOf] using Held.wf_empty
  · exact endCommand_keeps _ _ _

/-- A change of one target that leaves its stack within bounds and its configuration legal. -/
theorem modTarget_keeps (t : TargetId) (f : Target → Target) (s : State)
    (h : s.targets[t].stack.length ≤ 4 → (f s.targets[t]).stack.length ≤ 4)
    (hc : s.targets[t].legal → (f s.targets[t]).legal) : Keeps s (modTarget t f s) := by
  refine ⟨rfl, id, ?_, ?_, id, id, id, id⟩ <;> intro k u <;> simp only [modTarget_targets, target_get_set] <;> split
  · exact h (k t)
  · exact k u
  · exact hc (k t)
  · exact k u

/-- A TARGET_SET that passes its checks leaves a legal configuration (R79). -/
theorem configured_legal {s : State} (h : targetSetError s = none) (c : Target) : (configured s c).legal := by
  unfold targetSetError at h
  split at h; · cases h
  split at h; · cases h
  split at h; · cases h
  split at h; · cases h
  split at h; · cases h
  rename_i ha
  split at h; · cases h
  rename_i hg
  rw [Bool.or_eq_true, not_or] at hg
  have hlt : ∀ x ∈ groupNumbers s, x < 4 := fun x hx => by
    by_contra hc
    exact hg.1 (List.any_eq_true.mpr ⟨x, hx, by rw [decide_eq_true_eq]; omega⟩)
  have hnd : (groupNumbers s).Nodup := by simpa using hg.2
  refine ⟨?_, Decidable.not_not.mp ha, ?_⟩
  · have hl : (groupOrderOf s).toList = (groupNumbers s).map (Fin.ofNat 4) := rfl
    show (groupOrderOf s).toList.Nodup
    rw [hl]
    refine hnd.map_on fun x hx y hy hxy => ?_
    have := congrArg Fin.val hxy
    rw [Fin.val_ofNat, Fin.val_ofNat, Nat.mod_eq_of_lt (hlt x hx), Nat.mod_eq_of_lt (hlt y hy)] at this
    exact this
  · have := ((operand s 4).extractLsb' 0 16).isLt
    show field (operand s 4) 0 16 ≤ 65535
    unfold field
    omega

theorem targetSetBody_keeps (s : State) : Keeps s (targetSetBody s) := by
  unfold targetSetBody
  split
  · exact endCommand_keeps _ _ _
  · rename_i h
    exact (modTarget_keeps _ _ _ id fun _ => configured_legal h _).trans (endCommand_keeps _ _ _)

theorem targetOnlineBody_keeps (s : State) (hf : Fresh s) : Keeps s (targetOnlineBody s) := by
  unfold targetOnlineBody
  split
  · exact endCommand_keeps _ _ _
  · dsimp only
    split
    · exact endCommand_keeps _ _ _
    · refine Keeps.trans (Keeps.trans ?_ (stayInFlight_keeps _ _ ?_)) (settle_frame _).keeps
      · exact modTarget_keeps _ _ _ id id
      · exact hf

theorem quiesce_keeps (t : TargetId) (b : Bool) (s : State) :
    Keeps s (startQuiesce t b s) := by
  unfold startQuiesce
  dsimp only
  refine Keeps.trans ?_ (ceaseAll_frame _ _).keeps
  have h : Keeps s (ceasePairs (fun d => d.target == t) (modTarget t (fun c => { c with state := .quiescing }) s)) :=
    (modTarget_keeps _ _ _ id id).trans (ceasePairs_frame _ _).keeps
  split
  · exact h.trans (rehomeAndJudge_frame _ _).keeps
  · exact h

theorem quiesce_port (t : TargetId) (b : Bool) (s : State) :
    s.port.keptOrRetired (startQuiesce t b s).port := by
  unfold startQuiesce
  dsimp only
  refine Port.keptOrRetired_trans ?_ (ceaseAll_frame _ _).port
  have h : s.port.keptOrRetired (ceasePairs (fun d => d.target == t) (modTarget t (fun c => { c with state := .quiescing }) s)).port :=
    (ceasePairs_frame _ _).port
  split
  · exact Port.keptOrRetired_trans h (rehomeAndJudge_frame _ _).port
  · exact h

theorem goOffline_keeps (t : TargetId) (s : State) : Keeps s (goOffline t s) := modTarget_keeps _ _ _ id id

theorem targetOfflineBody_keeps (s : State) (hf : Fresh s) : Keeps s (targetOfflineBody s) := by
  unfold targetOfflineBody
  split
  · exact endCommand_keeps _ _ _
  · dsimp only
    refine Keeps.trans ?_ (settle_frame _).keeps
    refine Keeps.trans (quiesce_keeps (targetId s) (targetCode s == 0) s) ?_
    unfold quiesceEnd
    split
    · refine Keeps.trans (Keeps.trans ?_ (goOffline_keeps _ _)) (endCommand_keeps _ _ _)
      unfold forceStack
      dsimp only
      refine Keeps.trans ?_ (ceaseAll_frame _ _).keeps
      exact modTarget_keeps _ _ _ (by simp) id
    · split
      · exact (goOffline_keeps _ _).trans (endCommand_keeps _ _ _)
      · split
        · exact endCommand_keeps _ _ _
        · exact startWait_keeps _ _ _ (hf.kept (quiesce_port _ _ _)) rfl

theorem pinSetBody_keeps (s : State) : Keeps s (pinSetBody s) := by
  unfold pinSetBody
  split
  · exact endCommand_keeps _ _ _
  · exact (modPin_frame _ _ _).keeps.trans (endCommand_keeps _ _ _)

theorem deadlineBody_keeps (t : TargetId) (s : State) : Keeps s (deadlineBody t s) := by
  unfold deadlineBody
  split
  · refine Keeps.trans ?_ (settle_frame _).keeps
    unfold stall
    refine Keeps.trans ?_ (rehomeAndJudge_frame _ _).keeps
    exact (modTarget_keeps _ _ _ id id).trans (raise_keeps _ (by decide) _)
  · exact Keeps.refl s

/-- A walk step. -/
theorem walk_keeps (f g : Flight) (ws : List Word) (s s1 : State) (hf : s.port.flight = some f)
    (hw : f.isWalk = true) (hp : s.port.keptOrRetired s1.port) (k : Keeps s s1) (hg : g.isWalk = true) :
    Keeps s (endWalkIfPast ws (advanceWalk g s1)) := by
  have hport : s1.port = s.port := by
    rcases hp with h | ⟨i, x, hx, _⟩
    · exact h
    · rw [hf] at hx; cases hx; cases hw
  have hc : PortConsistent s → PortConsistent (endWalkIfPast ws (advanceWalk g s1)) := by
    rintro ⟨k1, k2, k3, k4⟩
    have h4 := k4 f hf hw
    have h1 := k1 (by simp [busy, hf])
    unfold endWalkIfPast
    split
    · rename_i hpast
      refine Port.concluded_consistent _ _ _ _ ?_ rfl
      simp [advanceWalk, modPort, hport]; omega
    · rename_i hpast
      refine ⟨fun _ => by simpa [advanceWalk, modPort, hport] using h1, ?_, ?_, ?_⟩
      · intro hx
        exfalso
        simp only [advanceWalk, modPort, hport] at hx
        obtain ⟨y, hy, hy2⟩ := k2 hx
        rw [hf] at hy; cases hy; rw [hw] at hy2; cases hy2
      · omega
      · intro _ _ _; omega
  have e : ∀ x : State, (endWalkIfPast ws (advanceWalk g x)) = { x with port := (endWalkIfPast ws (advanceWalk g x)).port } := by
    intro x; unfold endWalkIfPast; split <;> rfl
  refine ⟨?_, ?_, ?_, ?_, ?_, ?_, ?_, hc⟩ <;> rw [e]
  · exact k.pending
  · exact k.intake
  · exact k.bounded
  · exact k.configs
  · exact k.capture
  · exact k.distinct
  · exact k.records

theorem onlineWalkBody_keeps (s : State) : Keeps s (onlineWalkBody s) := by
  unfold onlineWalkBody
  split
  · rename_i t n hf
    dsimp only
    split
    · rename_i hc
      have hs : s.slots[walkSlot s].state ≠ .free := by
        simp only [converts, Bool.and_eq_true, beq_iff_eq] at hc
        rw [hc.1.1.1]; decide
      exact walk_keeps _ _ _ s _ hf rfl (Port.keptOrRetired_trans (placeHeld_outer _ _).port (settle_frame _).port)
        ((placeHeld_keeps _ _ hs).trans (settle_frame _).keeps) rfl
    · exact walk_keeps _ _ _ s _ hf rfl (Or.inl rfl) (Keeps.refl s) rfl
  · exact Keeps.refl s

theorem walkChange_keeps (kind : GroupKind) (i : SlotId) (s : State) (h1 : s.slots[i].state ≠ .free)
    (h2 : walkSkips kind s.slots[i] = false) : Keeps s (walkChange kind i s) := by
  have h3 : s.slots[i].state ≠ .retiring := by
    simp only [walkSkips, Bool.or_eq_false_iff, beq_eq_false_iff_ne] at h2
    exact h2.1
  cases kind
  · exact state_keeps _ _ _ h1 h3 (Or.inr rfl)
  · exact releaseRecord_keeps _ _ h1 h3
  · exact retireRecord_keeps _ _ _ h1

theorem walkChange_port (kind : GroupKind) (i : SlotId) (s : State) :
    s.port.keptOrRetired (walkChange kind i s).port := by
  cases kind
  · exact Or.inl rfl
  · unfold walkChange releaseRecord
    dsimp only
    split
    · exact Port.keptOrRetired_trans (placeHeld_outer _ (modSlot i (fun r => { r with state := .active }) s)).port (settle_frame _).port
    · exact Or.inl rfl
  · exact retireRecord_port _ _ _

theorem groupWalkBody_keeps (s : State) : Keeps s (groupWalkBody s) := by
  unfold groupWalkBody
  split
  · rename_i kind key len c k hf
    dsimp only
    split
    · exact walk_keeps _ _ _ s _ hf rfl (Or.inl rfl) (Keeps.refl s) rfl
    · rename_i hg
      split
      · exact walk_keeps _ _ _ s _ hf rfl (Or.inl rfl) (Keeps.refl s) rfl
      · rename_i hk
        have hs : s.slots[walkSlot s].state ≠ .free := by
          simp only [inGroup, Bool.not_eq_true', Bool.not_eq_false, Bool.and_eq_true, bne_iff_ne] at hg
          exact hg.1.1
        exact walk_keeps _ _ _ s _ hf rfl (walkChange_port _ _ _) (walkChange_keeps _ _ _ hs (by simpa using hk)) rfl
  · exact Keeps.refl s

theorem startGroupWalk_keeps (k : GroupKind) (s : State) (h : Fresh s) : Keeps s (startGroupWalk k s) :=
  stayInFlight_keeps _ _ h

theorem abortBody_keeps (s : State) : Keeps s (abortBody s) := by
  unfold abortBody
  split
  · exact endCommand_keeps _ _ _
  · exact Keeps.refl s

theorem waitBody_keeps (s : State) : Keeps s (waitBody s) := by
  unfold waitBody
  split
  · exact endCommand_keeps _ _ _
  · exact Keeps.refl s

theorem answer_keeps (r : RequesterId) (n : Nat) (d : BitVec 64) (s : State) : Keeps s (answer r n d s) :=
  ⟨rfl, id, id, id, id, id, id, id⟩

theorem claimAnswer_keeps (r : RequesterId) (f : ClaimForm) (l p : Word) (s : State) : Keeps s (claimAnswer r f l p s) := by
  cases f <;> exact answer_keeps _ _ _ _

theorem latchPayload_keeps (t : TargetId) (f : ClaimForm) (p : Word) (s : State) : Keeps s (latchPayload t f p s) := by
  cases f
  · exact modTarget_keeps t (fun c => { c with lastPayload := p }) s id id
  · exact Keeps.refl s

theorem takeCandidate_keeps (t : TargetId) (e : EntryId) (n : Notice) (s : State) (h : s.targets[t].stack.length < 4) :
    Keeps s (takeCandidate t e n s) := by
  have k : Keeps s (modList t n.level (·.erase e) (setEntry e (some n.claimed) s)) :=
    ((setEntry_frame _ _ s).trans (modList_frame t _ _ _)).keeps
  refine k.trans (modTarget_keeps t (fun c => { c with stack := e :: c.stack }) _ (fun _ => ?_) id)
  simp only [List.length_cons, modList_targets, setEntry_targets, target_get_set, if_true]
  omega

theorem claimable_room {s : State} {t : TargetId} {x : EntryId × Notice} (h : claimable s t = some x) :
    s.targets[t].stack.length < 4 := by
  unfold claimable at h
  split at h
  · rename_i hd
    simp only [Bool.and_eq_true, deliverable, decide_eq_true_eq] at hd
    exact hd.2.1.2
  · cases h

theorem returnToOnline_keeps (t : TargetId) (s : State) : Keeps s (returnToOnline t s) :=
  modTarget_keeps _ _ _ (by split <;> exact id) (by split <;> exact id)

theorem stopDeadline_keeps (t : TargetId) (s : State) : Keeps s (stopDeadline t s) := modTarget_keeps _ _ _ id id

theorem servedClaim_keeps (r : RequesterId) (t : TargetId) (f : ClaimForm) (s : State) : Keeps s (servedClaim r t f s) := by
  unfold servedClaim
  dsimp only
  have h : Keeps s (stopDeadline t (returnToOnline t s)) :=
    (returnToOnline_keeps t s).trans (stopDeadline_keeps _ _)
  refine h.trans ?_
  generalize stopDeadline t (returnToOnline t s) = s1
  split
  · rename_i x hx
    exact ((takeCandidate_keeps _ _ _ _ (claimable_room hx)).trans (latchPayload_keeps _ _ _ _)).trans (claimAnswer_keeps _ _ _ _ _)
  · exact (latchPayload_keeps _ _ _ _).trans (claimAnswer_keeps _ _ _ _ _)

theorem claimBody_keeps (r : RequesterId) (t : TargetId) (f : ClaimForm) (s : State) : Keeps s (claimBody r t f s) := by
  unfold claimBody
  split
  · exact (raise_keeps _ (by decide) _).trans (answer_keeps _ _ _ _)
  · exact (servedClaim_keeps _ _ _ _).trans (settle_frame _).keeps

theorem reraise_frame (e : EntryId) (n : Notice) (s : State) : Frame s (reraise e n s) := by
  unfold reraise
  split
  · exact (((mergeInto_frame _ _ _).trans (removeNotice_frame _ _)).trans (reportCeased_frame _ _)).trans (handOverInTurn_frame _ _)
  · exact (startNotice_frame _ _ _).trans (absorbPair_frame _ _ _ _)

theorem completeLate_keeps (e : EntryId) (n : Notice) (s : State) (hl : n.late.count ≠ 0) : Keeps s (completeLate e n s) := by
  unfold completeLate
  dsimp only
  split
  · exact (ceaseAndHandOver_frame _ _).keeps
  · split
    · exact (reraise_frame _ _ _).keeps
    · split
      · rename_i h
        unfold returnLate
        dsimp only
        refine Keeps.trans (setHeld_keeps _ _ _ ?_ ?_) ((raiseIf_frame _ _ (by decide) _).trans ((removeNotice_frame _ _).trans (handOverInTurn_frame _ _))).keeps
        · simp only [Bool.or_eq_true, decide_eq_true_eq] at h
          rcases h with h | h <;> rw [h] <;> decide
        · intro w
          refine ⟨by simp [Held.plusLate], ?_, ?_⟩
          · simp [Held.plusLate, hl]
          · intro h; simp [Held.plusLate, hl] at h
      · exact (ceaseAndHandOver_frame _ _).keeps

theorem completeNotice_keeps (e : EntryId) (n : Notice) (s : State) : Keeps s (completeNotice e n s) := by
  unfold completeNotice
  split
  · exact (ceaseAndHandOver_frame _ _).keeps
  · rename_i h
    simp only [Bool.or_eq_true, decide_eq_true_eq, not_or] at h
    exact completeLate_keeps _ _ _ h.2

theorem endOfflineWait_keeps (t : TargetId) (s : State) : Keeps s (endOfflineWait t s) := by
  unfold endOfflineWait
  split
  · split
    · exact endCommand_keeps _ _ _
    · exact Keeps.refl s
  · exact Keeps.refl s

theorem popStack_keeps (t : TargetId) (s : State) : Keeps s (popStack t s) :=
  modTarget_keeps _ _ _ (by intro h; simp only [List.length_tail]; omega) id

theorem endQuiesce_keeps (t : TargetId) (s : State) : Keeps s (endQuiesceIfEmpty t s) := by
  unfold endQuiesceIfEmpty
  split
  · exact (goOffline_keeps _ _).trans (endOfflineWait_keeps _ _)
  · exact Keeps.refl _

theorem completeBody_keeps (r : RequesterId) (t : TargetId) (w : Word) (s : State) : Keeps s (completeBody r t w s) := by
  unfold completeBody
  split
  · exact raise_keeps _ (by decide) _
  · split
    · exact raise_keeps _ (by decide) _
    · split
      · split
        · exact (((popStack_keeps t s).trans (completeNotice_keeps _ _ _)).trans (endQuiesce_keeps _ _)).trans (settle_frame _).keeps
        · exact raise_keeps _ (by decide) _
      · exact raise_keeps _ (by decide) _

theorem enableBody_keeps (r : RequesterId) (t : TargetId) (w : Word) (s : State) : Keeps s (enableBody r t w s) := by
  unfold enableBody
  split
  · exact raise_keeps _ (by decide) _
  · exact (modTarget_keeps _ _ _ id id).trans (settle_frame _).keeps

theorem maskBody_keeps (r : RequesterId) (t : TargetId) (w : Word) (s : State) : Keeps s (maskBody r t w s) := by
  unfold maskBody
  split
  · exact raise_keeps _ (by decide) _
  · exact (modTarget_keeps _ _ _ id id).trans (settle_frame _).keeps

theorem pageReadBody_keeps (r : RequesterId) (t : TargetId) (w : PageWord) (s : State) : Keeps s (pageReadBody r t w s) := by
  unfold pageReadBody
  split
  · exact (raise_keeps _ (by decide) _).trans (answer_keeps _ _ _ _)
  · exact answer_keeps _ _ _ _

theorem commandBody_keeps (code : Nat) (s : State) (h : Fresh s) : Keeps s (commandBody code s) := by
  unfold commandBody
  split
  · exact installBody_keeps s
  · exact modifyBody_keeps s
  · exact holdBody_keeps s
  · exact releaseBody_keeps s
  · exact queryBody_keeps s
  · exact probeBody_keeps s
  · exact retireBody_keeps s h
  · exact forceRetireBody_keeps s
  · unfold groupHoldBody; split
    · exact endCommand_keeps _ _ _
    · exact startGroupWalk_keeps _ _ h
  · unfold groupReleaseBody; split
    · exact endCommand_keeps _ _ _
    · exact startGroupWalk_keeps _ _ h
  · unfold groupRetireBody; split
    · exact endCommand_keeps _ _ _
    · exact startGroupWalk_keeps _ _ h
  · exact targetSetBody_keeps s
  · exact targetOnlineBody_keeps s h
  · exact targetOfflineBody_keeps s h
  · exact pinSetBody_keeps s
  · exact tableClearBody_keeps s
  · exact endCommand_keeps _ _ _

theorem commandWrite_keeps (code : BitVec 8) (s : State) : Keeps s (commandWrite code s) := by
  unfold commandWrite takeCommand
  split
  · exact modPort_keeps _ _ id
  · rename_i h
    have : s.port.flight = none := by simpa [busy] using h
    exact (startCommand_keeps _ _ this).trans (commandBody_keeps _ _ (startCommand_fresh _ _ this))

theorem serve_keeps (op : LinkOp) (s : State) (h : op.isPosted = true → withheld s = false) : Keeps s (serve op s) := by
  cases op <;> unfold serve <;> dsimp only
  · unfold eventBody
    split
    · exact raise_keeps _ (by decide) _
    · have := h rfl
      simp [withheld] at this
      refine ⟨rfl, fun _ => ?_, id, id, id, id, id, id⟩
      simp [IntakeBounded]; omega
  · exact answer_keeps _ _ _ _
  · exact claimBody_keeps _ _ _ _
  · exact completeBody_keeps _ _ _ _
  · exact enableBody_keeps _ _ _ _
  · exact maskBody_keeps _ _ _ _
  · exact pageReadBody_keeps _ _ _ _
  · exact answer_keeps _ _ _ _
  · exact commandWrite_keeps _ _
  · exact abortBody_keeps _
  · refine ⟨rfl, id, id, id, ?_, id, id, id⟩
    rename_i w
    rintro ⟨k1, k2⟩
    have e : (clearCauses w s.fsu).causes[causeIndex .miss].flag = (s.fsu.causes[causeIndex .miss].flag && !w.getLsbD 0) := by
      unfold clearCauses
      simp only [Fin.getElem_fin, Vector.getElem_ofFn]
      show (if w.getLsbD 0 = true then _ else _ : CauseState).flag = _
      split <;> simp_all
    unfold CaptureFollowsMiss faultClearBody
    simp only [e]
    unfold clearCauses
    by_cases hw : w.getLsbD 0 = true
    · simp [hw]
    · simp only [hw]; simpa using ⟨k1, k2⟩
  · exact modPort_keeps _ _ id
  · exact (raise_keeps _ (by decide) _).trans (answer_keeps _ _ _ _)
  · exact raise_keeps _ (by decide) _

theorem setWaiting_keeps (ops : List LinkOp) (s : State) : Keeps s (setWaiting ops s) := ⟨rfl, id, id, id, id, id, id, id⟩

theorem linkDeliver_keeps (op : LinkOp) (s : State) : Keeps s (linkDeliver op s) := by
  unfold linkDeliver
  split
  · exact Keeps.refl s
  · split
    · exact setWaiting_keeps _ _
    · rename_i h
      refine serve_keeps _ _ fun hp => ?_
      simp [mustWait, hp] at h
      exact h.2

theorem takeWaiting_keeps (ops : List LinkOp) (s : State) : Keeps s (takeWaiting ops s) := by
  induction ops generalizing s with
  | nil => exact setWaiting_keeps _ _
  | cons op ops ih =>
    unfold takeWaiting
    split
    · exact setWaiting_keeps _ _
    · rename_i h
      refine (serve_keeps _ _ fun hp => ?_).trans (ih _)
      simpa [hp] using h

theorem drainWaiting_keeps (s : State) : Keeps s (drainWaiting s) := by
  unfold drainWaiting
  split
  · exact takeWaiting_keeps _ _
  · exact Keeps.refl s

/-- A change of the link, of write-owed flags and of what was sent keeps every invariant but the signals'. -/
theorem owed_keeps (s : State) (l : LinkPort) (v : Vector Target 8) (ws : List NotifyWrite) (k : Nat)
    (h : ∀ j : TargetId, (s.targets[j]).same v[j]) :
    Keeps s { s with link := l, targets := v, notifyWrites := ws, free := k } :=
  (targets_frame s v h).keeps.trans ⟨rfl, id, id, id, id, id, id, id⟩

theorem regainOne_keeps (s : State) (t : TargetId) : Keeps s (regainOne s t) := by
  rw [regainOne_eq]
  refine owed_keeps s _ _ _ s.free fun j => ?_
  rw [target_get_set]
  split
  · rename_i h; subst h; rfl
  · rfl

theorem regainIf_keeps (b s : State) : Keeps s (regainIf b s) := by
  obtain ⟨u, hu, e, ht⟩ := regainIf_parts b s
  rw [hu, e]
  exact owed_keeps s _ _ _ _ fun j => by rw [ht j]; rfl

theorem link_keeps (s : State) (l : LinkPort) : Keeps s { s with link := l } := ⟨rfl, id, id, id, id, id, id, id⟩

theorem holdOffBody_keeps (e : EntryId) (s : State) : Keeps s (holdOffBody e s) := by
  unfold holdOffBody; split
  · exact ((ripen_frame _ _).trans (settle_frame _)).keeps
  · exact Keeps.refl s

theorem Slot.wf_reset (r : Slot) (w : r.wf) : (functionResetSlot r).wf := by
  have w0 := w
  obtain ⟨w1, w2, w3⟩ := w
  unfold functionResetSlot
  split
  · exact w0
  · rename_i h
    have h2 : r.state ≠ .free := by rw [h]; decide
    obtain ⟨a1, a2, a3, a4, a5⟩ := w2 h2
    exact ⟨fun e => absurd e h2, fun _ => ⟨a1, a2, a3, a1, a5⟩, w3⟩
  · rename_i h
    have h2 : r.state ≠ .free := by rw [h]; decide
    obtain ⟨a1, a2, a3, a4, a5⟩ := w2 h2
    exact ⟨fun e => absurd e h2, fun _ => ⟨a1, a2, a3, a1, a5⟩, w3⟩
  · exact Slot.wf_freeOf _

theorem functionReset_keeps (l : LinkState) (s : State) : Keeps s (functionResetBody l s) := by
  unfold functionResetBody
  split
  · exact Keeps.refl s
  · refine ⟨rfl, ?_, ?_, ?_, ?_, ?_, ?_, ?_⟩
    · intro _; simp [IntakeBounded]
    · intro _ t; simp [functionResetTarget, Target.powerOn]
    · intro k t
      have h : (s.targets.map functionResetTarget)[t] = functionResetTarget s.targets[t] := Vector.getElem_map _ _
      show ((s.targets.map functionResetTarget)[t]).legal
      rw [h]
      exact k t
    · intro _; simp [CaptureFollowsMiss, Fsu.afterReset]
    · intro k a b ha hb hl hk
      simp only [Fin.getElem_fin, Vector.getElem_map] at ha hb hl hk
      have e : ∀ r : Slot, (functionResetSlot r).state ≠ .free → r.state ≠ .free ∧ (functionResetSlot r).len = r.len ∧ (functionResetSlot r).key = r.key := by
        intro r hr
        unfold functionResetSlot at *
        split at hr <;> simp_all [Slot.freeOf]
      obtain ⟨a1, a2, a3⟩ := e _ ha
      obtain ⟨b1, b2, b3⟩ := e _ hb
      exact k a b a1 b1 (by rw [a2, b2] at hl; exact hl) (by rw [a3, b3] at hk; exact hk)
    · rintro ⟨k1, k2⟩
      constructor <;> intro i <;> simp only [Fin.getElem_fin, Vector.getElem_map]
      · exact Slot.wf_reset _ (k1 i)
      · have := k2 i
        unfold functionResetSlot
        split
        · exact this
        · exact Held.wf_empty
        · exact Held.wf_empty
        · exact Held.wf_empty
    · intro _; simp [PortConsistent, Port.afterReset, busy]

theorem reset_invariants : IntakeBounded State.reset ∧ StacksBounded State.reset ∧ CaptureFollowsMiss State.reset ∧ MatchesDiffer State.reset
    ∧ (RecordsWellFormed State.reset ∧ HeldCountsWhole State.reset) ∧ PortConsistent State.reset := by
  refine ⟨by simp [IntakeBounded, State.reset], ?_, by simp [CaptureFollowsMiss, State.reset, Fsu.afterReset], ?_, ⟨?_, ?_⟩, by simp [PortConsistent, State.reset, Port.afterReset, busy]⟩
  · intro t; simp [State.reset, Target.powerOn]
  · intro i j h; simp [State.reset, Slot.freeOf] at h
  · intro i; simpa [State.reset] using Slot.wf_freeOf _
  · intro i; simpa [State.reset, Slot.freeOf] using Held.wf_empty

theorem reset_configs : ConfigsLegal State.reset := by
  intro t
  have h : State.reset.targets[t] = Target.powerOn := Vector.getElem_replicate _
  rw [h]
  exact ⟨by decide, rfl, Nat.zero_le _⟩

theorem powerOn_keeps (s : State) : Keeps s (powerOnBody s) := by
  obtain ⟨h1, h2, h3, h4, h5, h6⟩ := reset_invariants
  exact ⟨rfl, fun _ => h1, fun _ => h2, fun _ => reset_configs, fun _ => h3, fun _ => h4, fun _ => h5, fun _ => h6⟩

theorem pins_keeps (s : State) (b : Bool) (v : Vector Pin 32) : Keeps s { s with porst := b, pins := v } :=
  ⟨rfl, id, id, id, id, id, id, id⟩

end Sys2Proof.Machine
end

