-- ==== Sys2Proof/Tests/Slice0.lean ====
section
/-! SUPPORT. Tests of the model on small states: the ill-formed commands that WellFormed refuses, worked examples of the manual, and for every statement with hypotheses a state and operands that meet them, clause by clause. -/

open Sys2Proof Sys2Proof.Machine

namespace Sys2Proof.Tests

set_option Elab.async false

/-! ### Small states -/

/-- The part after reset with the link UP and bus mastering on. -/
def up : State := { State.reset with link := { state := .up, busMaster := true, waiting := [], regaining := [] } }

/-- The state that a command leaves. -/
def after (c : Instr) (s : State) : State :=
  match exec c s with
  | .next t => t
  | _ => s

/-- The first six operand words written. -/
def withOps (a b c d e f : Word) (s : State) : State :=
  { s with port := { s.port with operands := #v[a, b, c, d, e, f, 0, 0] } }

/-- A command in flight. -/
def flying (f : Flight) (s : State) : State := { s with port := { s.port with flight := some f } }

/-- The record 0312H:0000H/16 on T0 and T1, level L5, hold-off 100 µs. -/
def route (mode : PlaceMode) (rearm : RearmMode) (threshold : Nat) : Slot :=
  { Slot.freeOf 1 with
    state := .active, key := 0x03120000, len := 16, targets := [0, 1], mode := mode, level := 5
    threshold := threshold, holdOff := 100, rearm := rearm }

/-- A target in a state, enabled. -/
def setState (t : TargetId) (x : TargetState) (s : State) : State :=
  modTarget t (fun c => { c with state := x, enabled := true }) s

/-- The record in slot 12, with T0 and T1 ONLINE. -/
def base (r : Slot) : State := setState 1 .online (setState 0 .online (modSlot 12 (fun _ => r) up))

/-- One arrival's placement. -/
def unit : Placement := { count := 1, overflow := false, payload := 0x1000, pins := 0 }

/-- One notice of the record on T0, in entry 0. -/
def one (r : Slot) : State := settle (placeOn 12 0 unit (base r))

/-- That notice claimed. -/
def inHand (r : Slot) : State := claimBody 7 0 .whole (one r)

/-- One arrival more while it is in service. -/
def withLate : State := addLate 0 unit (inHand (route .first .explicit 1))

/-- The word that completes the notice of slot 12, generation 1, level L5. -/
def doneWord : Word := 0x00280818

/-- A held count on the record. -/
def holding (n : Nat) (r : Slot) : Slot :=
  { r with held := { count := n, overflow := false, payload := some 0x2000, pins := 0 } }

theorem up_st : Standing up := reset_st.targets rfl rfl rfl

theorem setState_st {s : State} (t : TargetId) (x : TargetState) (h : Standing s) : Standing (setState t x s) :=
  modTarget_stand t _ h rfl rfl

theorem base_st (r : Slot) : Standing (base r) := setState_st _ _ (setState_st _ _ (setSlots_stand _ _ up_st))

theorem one_st (r : Slot) : Standing (one r) := settle_stand (placeOn_st _ _ _ (base_st r))

theorem inHand_st (r : Slot) : Standing (inHand r) := claimBody_st _ _ _ (one_st r)

theorem withLate_st : Standing withLate := addLate_stand _ _ (inHand_st _)

theorem setState_be {s : State} (t : TargetId) (h : Belonging s) : Belonging (setState t .online s) :=
  modTarget_be t (fun c => { c with state := .online, enabled := true }) h (fun _ => Or.inr (Or.inl rfl))
    (fun x => nomatch (x : TargetState.online = TargetState.offline))

theorem base_be (r : Slot) : Belonging (base r) := by
  have h0 : Belonging up := reset_be.quiet (Quiet.same rfl rfl rfl rfl)
  have h1 : up.slots[(12 : SlotId)].state = .free := by decide +kernel
  exact setState_be _ (setState_be _ (h0.quiet (modSlot_quiet 12 (fun _ => r) up fun x => absurd h1 x)))

theorem one_be (r : Slot) (h : r.state ≠ .free) : Belonging (one r) := by
  have h1 : (base r).slots[(12 : SlotId)] = r := by simp [base, setState, modTarget, modSlot]
  have h2 : placeable (base r) 0 = true := by simp [base, setState, modTarget, modSlot, placeable]
  exact (placeOn_be 12 0 unit (base_be r) h2 (by rw [h1]; exact h)).quiet (settle_quiet _)

/-- A notice that passes a test is there. -/
theorem exists_of_any {o : Option Notice} {p : Notice → Bool} (h : o.any p = true) : ∃ n, o = some n ∧ p n = true := by
  cases o with
  | none => cases h
  | some n => exact ⟨n, rfl, h⟩

/-! ### WellFormed refuses the ill-formed -/

theorem test_wellFormed_event_message_in_the_window : (Instr.eventMessage 7 0x7FFF 8 0).wellFormed = false := by decide

theorem test_wellFormed_event_message_has_a_size : (Instr.eventMessage 7 0x8000 0 0).wellFormed = false := by decide

theorem test_wellFormed_unknown_command_is_unknown : (Instr.unknownCommand 0x10).wellFormed = false := by decide

theorem test_wellFormed_refused_access_is_refused :
    (Instr.refusedAccess { requester := 7, offset := 0x004, size := 4, kind := .read }).wellFormed = false := by decide

theorem test_wellFormed_refused_access_has_a_size :
    (Instr.refusedAccess { requester := 7, offset := 0x2000, size := 0, kind := .read }).wellFormed = false := by decide

/-! ### Worked examples of the manual -/

/-- The five slots of the lookup example (R6, R7). -/
def exampleTable : State :=
  modSlot 20 (fun r => { r with state := .held, key := 0xFF000000, len := 16 })
    (modSlot 14 (fun r => { r with state := .retiring, key := 0x03120044, len := 32 })
      (modSlot 13 (fun r => { r with state := .active, key := 0x03120040, len := 26 })
        (modSlot 12 (fun r => { r with state := .active, key := 0x03120000, len := 16 })
          (modSlot 0 (fun r => { r with state := .active }) up))))

theorem test_example_lookup :
    lookup exampleTable 0x03120044 = some 13 ∧ lookup exampleTable 0x03120041 = some 13
      ∧ lookup exampleTable 0x03120080 = some 12 ∧ lookup exampleTable 0xFF000005 = some 20
      ∧ lookup exampleTable 0x04000001 = some 0 ∧ lookup exampleTable 0xFFFE0003 = some 0 := by decide +kernel

theorem test_example_ranks :
    levelsByRank #v[3, 2, 1, 0] = [15, 14, 13, 12, 11, 10, 9, 8, 7, 6, 5, 4, 3, 2, 1, 0]
      ∧ levelsByRank #v[1, 3, 2, 0] = [7, 6, 5, 4, 15, 14, 13, 12, 11, 10, 9, 8, 3, 2, 1, 0]
      ∧ (∀ k : Fin 16, rank #v[1, 3, 2, 0] ((levelsByRank #v[1, 3, 2, 0]).getD k 0) = k) := by decide +kernel

/-- The rotation example (R53): slot 52 lists T4, T5, T6, with T5 STALLED. -/
def exampleRotation : State :=
  setState 6 .online (setState 5 .stalled (setState 4 .online
    (modSlot 52 (fun _ => { route .rotate .auto 2 with targets := [4, 5, 6], holdOff := 0 }) up)))

theorem test_example_rotation :
    (placeByMode 52 unit exampleRotation).slots[(52 : SlotId)].rotation = 2
      ∧ residentAt (placeByMode 52 unit exampleRotation) 52 6 = some 0 := by decide +kernel

/-- The nested service example at T3 (chapter 5): a claimed notice of level L4 beneath a PENDING one of level L9. -/
def exampleService (mask : BitVec 16) : State :=
  modTarget 3 (fun c => { c with
      state := .online, enabled := true, mask := mask, stack := [0], lists := (c.lists.set 9 [2]).set 4 [1] })
    (setEntry 0 (some { slot := 60, generation := 1, target := 3, level := 4, phase := .inService none false
                        count := 1, overflow := false, payload := 0x1000, pins := 0, rearm := .auto }) up)

theorem test_example_deliverability :
    candidate (exampleService 0).targets[(3 : TargetId)] = some (2, 9) ∧ deliverable (exampleService 0) 3 = true
      ∧ candidate (exampleService 0x0200).targets[(3 : TargetId)] = some (1, 4)
      ∧ deliverable (exampleService 0x0200) 3 = false := by decide +kernel

theorem test_example_claim_word : claimWord
    { slot := 60, generation := 1, target := 3, level := 4, phase := .pending
      count := 1, overflow := false, payload := 0x1000, pins := 0, rearm := .explicit } = 0x00A00879 := by decide

/-- EVT5, sense HIGH, armed and asserted once the filtered level follows (R36, R38). -/
def examplePin : Pin :=
  { Pin.powerOn true with sense := .high, filter := 2, timing := some 0 }

theorem test_example_level_pin :
    (enterLevel examplePin).offer = true ∧ (enterLevel examplePin).armed = false
      ∧ clearMissDisarmed { enterLevel examplePin with offer := false, missDisarmed := true } = enterLevel examplePin := by
  decide

theorem test_example_misses :
    (raiseMiss 0x06000011 (raiseMiss 0x06000010 up)).fsu.firstMiss = some 0x06000010
      ∧ (raiseMiss 0x06000011 (raiseMiss 0x06000010 up)).fsu.moreMisses = true
      ∧ (raiseMiss 0x06000011 (raiseMiss 0x06000010 up)).fsu.causes[(0 : Fin 8)] = { flag := true, offer := some 0x06000010 }
      ∧ (faultClearBody 1 (raiseMiss 0x06000010 up)).fsu.causes[(0 : Fin 8)]
          = { flag := false, offer := some 0x06000010 } := by decide +kernel

/-- The INSTALL of slot 90, start ACTIVE, 0312H:0040H/26 on T4, in the session at the port (chapter 7). -/
def exampleInstall : State :=
  withOps 90 0x03120040 0x0105001A 0x00000041 0 0 (modSlot 90 (fun r => { r with generation := 6 }) up)

theorem test_example_install :
    (after .install exampleInstall).port.resultCode = .ok
      ∧ (after .install exampleInstall).port.results[(0 : Fin 8)] = 0x0007005A
      ∧ (after .install exampleInstall).slots[(90 : SlotId)].state = .active
      ∧ (after .install exampleInstall).slots[(90 : SlotId)].targets = [4] := by decide +kernel

theorem test_example_refused_images :
    (after .install (withOps 90 0x03120044 0x0105001A 0x00000041 0 0 up)).port.resultCode = .nonzeroTail
      ∧ (after .install (withOps 90 0x03120044 0x01050020 0x00000041 0 0 exampleTable)).port.resultCode = .duplicateMatch
      ∧ (after .install (withOps 90 0x03120044 0x01050021 0x00000041 0 0 up)).port.resultCode = .badField
      ∧ (after .install (withOps 90 0x03120040 0x0105001A 0x00000081 0 0 up)).port.resultCode = .badTarget := by
  decide +kernel

theorem test_example_claim :
    (after (.claim 7 0 .whole) (one (route .first .explicit 1))).answers
      = [{ requester := 7, size := 8, data := 0x0000100000A80819 }]
      ∧ (after (.claim 7 0 .whole) (one (route .first .explicit 1))).targets[(0 : TargetId)].stack = [0]
      ∧ (after (.claim 7 0 .whole) (one (route .first .explicit 1))).targets[(0 : TargetId)].ntf = false := by
  decide +kernel

theorem test_example_reraise :
    (after (.complete 7 0 doneWord) withLate).targets[(0 : TargetId)].stack = []
      ∧ (after (.complete 7 0 doneWord) withLate).targets[(0 : TargetId)].lists[(5 : Level)] = [0]
      ∧ (after (.complete 7 0 doneWord) withLate).targets[(0 : TargetId)].ntf = true := by decide +kernel

/-- The TARGET_OFFLINE of the session at the port, with a notice on the stack and a wait limit of 20 ms. -/
def exampleOffline : State := withOps 0 20 0 0 0 0 (inHand (route .first .explicit 1))

theorem test_example_target_offline_waits :
    (after .targetOffline exampleOffline).port.flight = some (.offlineWait 0)
      ∧ (after .targetOffline exampleOffline).port.waitTimer = some { start := 0, limit := 20000 }
      ∧ (after .targetOffline exampleOffline).targets[(0 : TargetId)].state = .quiescing
      ∧ busy (after .targetOffline exampleOffline) = true := by decide +kernel

theorem test_example_query :
    (after .query (withOps 12 0 0 0 0 0 (one (route .first .explicit 1)))).port.resultLength = 7
      ∧ (after .query (withOps 12 0 0 0 0 0 (one (route .first .explicit 1)))).port.results[(0 : Fin 8)] = 0x01504005
      ∧ (after .query (withOps 12 0 0 0 0 0 (one (route .first .explicit 1)))).port.results[(2 : Fin 8)] = 0x01000102
      ∧ (after .query (withOps 12 0 0 0 0 0 (one (route .first .explicit 1)))).port.results[(4 : Fin 8)] = 0x00001000 := by
  decide +kernel

theorem test_example_retire_drain :
    (after .retire (withOps 0x0001000C 0x00010000 0 0 0 0 (one (route .first .auto 9)))).port.resultCode = .started
      ∧ (after .retire (withOps 0x0001000C 0x00010000 0 0 0 0 (one (route .first .auto 9)))).port.results[(1 : Fin 8)] = 1
      ∧ (after .retire (withOps 0x0001000C 0x00010000 0 0 0 0 (one (route .first .auto 9)))).targets[(0 : TargetId)].ntf = true := by
  decide +kernel

/-- Two held counts that carry EVT31, with the pin asserted and disarmed. -/
def twiceHeld : State :=
  modPin 31 (fun p => { p with sense := .high, filtered := true, armed := false })
    (modSlot 13 (fun _ => { holding 1 (route .first .auto 1) with
        key := 0x03130000, held := { count := 1, overflow := false, payload := some 1, pins := 0x80000000 } })
      (modSlot 12 (fun _ => { route .first .auto 1 with
        held := { count := 1, overflow := false, payload := some 1, pins := 0x80000000 } }) up))

theorem test_each_held_count_makes_its_own_request :
    (heldSets twiceHeld).filter (· != 0) = [0x80000000, 0x80000000]
      ∧ (rearmPins 0x80000000 (rearmPins 0x80000000 twiceHeld)).pins[(31 : PinId)].armed = true
      ∧ (rearmPins 0x80000000 (rearmPins 0x80000000 twiceHeld)).pins[(31 : PinId)].offer = true := by decide +kernel

/-- T0 deliverable and owed a notification write. -/
def owedWrite : State :=
  settle (placeOn 12 0 unit (modTarget 0 (fun c => { c with method := .write, address := 0x100000000 })
    { base (route .first .auto 1) with link := { up.link with busMaster := false } }))

theorem test_example_link_down_owes_a_write :
    owedWrite.targets[(0 : TargetId)].writeOwed = true ∧ owedWrite.notifyWrites = [] := by decide +kernel

/-- Permission regained, with T0 still to deal with. -/
def regainLeft : State := { owedWrite with link := { up.link with regaining := [0] } }

theorem test_a_regain_deals_with_a_target_later :
    dueEvents regainLeft = [.regain 0] ∧ (runDue (.regain 0) regainLeft).link.regaining = []
      ∧ (runDue (.regain 0) regainLeft).targets[(0 : TargetId)].writeOwed = false
      ∧ (runDue (.regain 0) regainLeft).notifyWrites.map (fun w => (w.address, w.longForm)) = [(0x100000000, true)] := by
  decide +kernel

/-- T0 STALLED with a notice of the record, T1 with another and a pair deferred for T2. -/
def crowded : State :=
  { placeOn 12 1 unit (setState 0 .stalled (one (route .first .auto 1))) with deferred :=
      [{ slot := 12, target := 2, count := 1, overflow := false, payload := 1, pins := 0 }] }

theorem test_a_rehoming_reaches_its_targets_in_turn :
    reached 0 [0] (setState 0 .stalled (one (route .first .auto 1))) = [1] ∧ reached 0 [0] crowded = [1, 2] := by
  decide +kernel

theorem test_a_quiesce_frees_a_retiring_record :
    (after .targetOffline (withOps 0x100 0 0 0 0 0 (modSlot 12 (fun r => { r with state := .retiring, retireMode := some .drain })
      (one (route .first .auto 1))))).slots[(12 : SlotId)].state = .free := by decide +kernel

/-! ### The hypotheses of the statements are met -/

theorem witness_StepRunsFrontCommand : ({ up with pending := [.linkUp, .abort] } : State).pending = [.linkUp, .abort] := rfl

/-- The wait timer at its last moment. -/
def lateWait : State :=
  { up with now := 1001, port := { up.port with waitTimer := some { start := 0, limit := 1000 } } }

theorem witness_EmptyQueueTicks :
    dueEvents State.reset = [] ∧ dueEvents lateWait = [.wait]
      ∧ 2 ≤ (dueEvents (modTarget 7 (fun c => { c with deadline := 1000, deadlineStart := some 0 }) lateWait)).length
      ∧ dueEvents { up with link := { up.link with regaining := [7] } } = [.regain 7] ∧ lateWait.pending = [] := by
  decide +kernel

theorem witness_EmptyQueueTicks_last_moments :
    (let s := one (route .first .auto 2)
     .holdOff 0 ∈ dueEvents { s with now := 101 } ∧ .holdOff 0 ∉ dueEvents { s with now := 100 })
      ∧ (let s := modTarget 7 (fun c => { c with deadline := 1000, deadlineStart := some 0 }) up
         .deadline 7 ∈ dueEvents { s with now := 1001 } ∧ .deadline 7 ∉ dueEvents { s with now := 1000 })
      ∧ .wait ∉ dueEvents { lateWait with now := 1000 }
      ∧ (let s := modPin 31 (fun p => { p with raw := true, filter := 7, timing := some 0 }) up
         .level 31 ∈ dueEvents { s with now := 8 } ∧ .level 31 ∉ dueEvents { s with now := 7 }
           ∧ .level 31 ∉ dueEvents { s with now := 8, porst := true })
      ∧ .level 31 ∈ dueEvents (modPin 31 (fun p => { p with raw := true, timing := some 0 }) up) := by decide +kernel

theorem witness_EveryCommandCompletes :
    up.intake = [] ∧ up.link.waiting = [] ∧ up.pins[(31 : PinId)].latch = false ∧ up.pins[(31 : PinId)].offer = false
      ∧ up.fsu.causes[causeIndex .miss].offer = none ∧ up.port.flight = none := by decide +kernel

theorem witness_RefusedAccessOnlyRaises :
    ¬ servedForm { requester := 7, offset := 0x1004, size := 4, kind := .read }
      ∧ ¬ servedForm { requester := 7, offset := 0x7FFF, size := 1, kind := .read }
      ∧ ¬ servedForm { requester := 7, offset := 0x000, size := 4, kind := .write 1 }
      ∧ servedForm { requester := 7, offset := 0x8000, size := 1, kind := .read } ∧ readReady up ∧ linkReady up := by
  simp only [servedForm, inMap, readReady, linkReady]; decide +kernel

theorem witness_ReadsReturnTheirWord :
    readReady up ∧ (0x03C : BitVec 16) = 0x020 + 4 * BitVec.ofNat 16 (7 : Fin 8)
      ∧ (0x05C : BitVec 16) = 0x040 + 4 * BitVec.ofNat 16 (7 : Fin 8)
      ∧ (∀ t : TargetId, up.targets[t].owner = none)
      ∧ (modTarget 7 (fun c => { c with owner := some 9 }) up).targets[(7 : TargetId)].owner = some 9
      ∧ up.port.resultLength ≤ 8
      ∧ (after .query (withOps 12 0 0 0 0 0 (one (route .first .auto 1)))).port.resultLength ≤ 8 := by
  simp only [readReady]; decide +kernel

theorem witness_EventWindowAccesses :
    linkReady up ∧ readReady up ∧ 0x8000 ≤ (0x8000 : BitVec 16).toNat ∧ 0x8000 ≤ (0xFFF8 : BitVec 16).toNat
      ∧ (0xFFFC : BitVec 16).toNat % 8 ≠ 0 ∧ (0xFFF8 : BitVec 16).toNat % 8 = 0
      ∧ (0x0000000500010040 : BitVec 64).extractLsb' 16 16 ≠ 0 ∧ (0x0000000500000040 : BitVec 64).extractLsb' 16 16 = 0
      ∧ (7 : RequesterId) ≠ 0xFF00 ∧ (7 : RequesterId) ≠ 0xFFFE := by
  simp only [linkReady, readReady]; decide +kernel

/-- One arrival. -/
def anArrival : Arrival := { key := 0x03120040, payload := 5, origin := none }

/-- The intake queue full. -/
def fullIntake (ops : List LinkOp) : State :=
  { up with intake := List.replicate 32 anArrival, link := { up.link with waiting := ops } }

theorem witness_WithheldCreditHoldsAccesses :
    (fullIntake []).link.state = .up ∧ (fullIntake []).porst = false ∧ (fullIntake []).link.waiting = []
      ∧ (fullIntake []).intake.length = 32 ∧ commandCode .tableClear = some 0x10
      ∧ (fullIntake [.abort]).link.waiting ≠ []
      ∧ (fullIntake [.eventWrite 7 0x8008 8 5]).intake = anArrival :: List.replicate 31 anArrival
      ∧ (List.replicate 31 anArrival).length = 31 ∧ (0x8008 : BitVec 16).toNat % 8 = 0
      ∧ (5 : BitVec 64).extractLsb' 16 16 = 0 ∧ lookup (fullIntake [.eventWrite 7 0x8008 8 5]) anArrival.key = none
      ∧ accessOf (.operandWrite 7 1) = some (.operandWrite 7 1) ∧ (LinkOp.operandWrite 7 1).isPosted = true
      ∧ accessOf (.claim 7 0 .low) = some (.claim 7 0 .low) ∧ (LinkOp.claim 7 0 .low).isPosted = false
      ∧ up.link.waiting = [] ∧ up.intake.length < 32 ∧ State.reset.link.state = .down
      ∧ (powerOnBody up).porst = true := by
  decide +kernel

theorem witness_WithheldCreditHoldsAccesses_refused_write :
    ¬ servedForm { requester := 7, offset := 0x2000, size := 4, kind := .write 1 } := by
  simp only [servedForm, inMap]; decide

theorem witness_LookupFindsTheLongestMatch :
    lookup exampleTable 0x03120044 = some 13 ∧ exampleTable.slots[(13 : SlotId)].len ≤ 32
      ∧ exampleTable.slots[(14 : SlotId)].len ≤ 32 ∧ exampleTable.slots[(0 : SlotId)].len ≤ 32 := by decide +kernel

/-- Every producer has an arrival to offer. -/
def offering (s : State) : State :=
  modCause .registerAccess (fun x => { x with offer := some 0 })
    (modPin 31 (fun p => { p with latch := true, offer := true }) { s with intake := [anArrival] })

/-- A record that covers every key. -/
def catchAll (r : Slot) : Slot := { r with key := 0, len := 0 }

theorem witness_MissedArrival :
    (∀ ops ∈ [[], [LinkOp.abort]],
      (offered .intakeHeadTaken (offering { up with link := { up.link with waiting := ops } })).isSome = true)
      ∧ (offered (.edgeLatchTaken 31) (offering up)).isSome = true
      ∧ (offered (.levelOfferTaken 31) (offering up)).isSome = true
      ∧ (offered (.faultArrival .registerAccess) (offering up)).isSome = true
      ∧ lookup (offering up) anArrival.key = none ∧ lookup (offering up) 0xFF00001F = none
      ∧ lookup (offering up) 0xFFFE0008 = none := by decide +kernel

/-- A HELD record, saturated, that covers every key; and an ACTIVE one with its targets OFFLINE. -/
def heldState : State := offering (modSlot 12 (fun _ => { catchAll (holding 65535 (route .first .auto 1)) with state := .held }) up)
def offlineState : State := offering (modSlot 12 (fun _ => catchAll (route .first .auto 1)) up)

theorem witness_ArrivalJoinsHeldCount :
    (∀ c ∈ [Instr.intakeHeadTaken, .edgeLatchTaken 31, .levelOfferTaken 31, .faultArrival .registerAccess],
      (offered c heldState).isSome = true ∧ (offered c offlineState).isSome = true)
      ∧ lookup heldState 0xFF00001F = some 12 ∧ heldState.slots[(12 : SlotId)].state = .held
      ∧ lookup offlineState 0xFFFE0008 = some 12
      ∧ ∀ t ∈ offlineState.slots[(12 : SlotId)].targets,
          offlineState.targets[t].state ≠ .online ∧ offlineState.targets[t].state ≠ .stalled := by decide +kernel

theorem witness_ArrivalsAndHeldCountsArePlaced :
    (∀ n ∈ [0, 254, 255],
      let s := offering (base (catchAll (holding n (route .first .auto 1))))
      (offered (.levelOfferTaken 31) s).isSome = true ∧ lookup s 0xFF00001F = some 12
        ∧ s.slots[(12 : SlotId)].state = .active ∧ s.targets[(0 : TargetId)].state = .online
        ∧ s.slots[(12 : SlotId)].held.count = n)
      ∧ (base (route .rotate .auto 1)).slots[(12 : SlotId)].mode ≠ .all
      ∧ (base (route .all .auto 1)).slots[(12 : SlotId)].mode = .all
      ∧ (base (route .all .auto 1)).slots[(12 : SlotId)].targets.filter (placeable (base (route .all .auto 1))) = [0, 1] := by
  decide +kernel

theorem witness_ModesChooseTheirTargets :
    (∀ m ∈ [PlaceMode.first, .rotate],
      let s := base (route m .explicit 1)
      flightFor s 12 none = none ∧ rotateResident s 12 = none ∧ s.slots[(12 : SlotId)].mode = m
        ∧ s.targets[(0 : TargetId)].state = .online ∧ s.targets[(1 : TargetId)].state = .online
        ∧ s.slots[(12 : SlotId)].targets = [] ++ 0 :: [1]
        ∧ s.slots[(12 : SlotId)].targets.drop (s.slots[(12 : SlotId)].rotation + 1)
            ++ s.slots[(12 : SlotId)].targets.take (s.slots[(12 : SlotId)].rotation + 1) = [] ++ 1 :: [0])
      ∧ (let s := setState 0 .offline (setState 1 .stalled (base (route .first .auto 1)))
         s.targets[(1 : TargetId)].state = .stalled ∧ s.targets[(0 : TargetId)].state ≠ .online
           ∧ s.targets[(0 : TargetId)].state ≠ .stalled ∧ s.slots[(12 : SlotId)].targets = [0] ++ 1 :: [])
      ∧ rotateResident (one (route .rotate .auto 1)) 12 = some 0
      ∧ (base (route .all .auto 1)).slots[(12 : SlotId)].targets.filter (placeable (base (route .all .auto 1))) = 0 :: [1] := by
  decide +kernel

theorem witness_InFlightNoticeTakesThePlacement :
    ∀ m ∈ [PlaceMode.first, .all],
      let s := inHand (route m .explicit 1)
      s.slots[(12 : SlotId)].rearm = .explicit ∧ s.slots[(12 : SlotId)].mode = m ∧ s.order = [] ++ 0 :: []
        ∧ s.pool[(0 : EntryId)].any (fun n =>
            n.phase == .inService (some { count := 0, overflow := false }) false && n.slot == 12
              && n.generation == s.slots[(12 : SlotId)].generation && n.rearm == .explicit) = true := by decide +kernel

theorem witness_InFlightNoticeTakesThePlacement_none :
    (base (route .all .explicit 1)).slots[(12 : SlotId)].rearm = .explicit
      ∧ flightFor (base (route .all .explicit 1)) 12 (some 0) = none
      ∧ flightFor (inHand (route .all .explicit 1)) 12 (some 1) = none
      ∧ flightFor (inHand (route .all .auto 1)) 12 (some 0) = none := by decide +kernel

/-- A pair of the record deferred for T0. -/
def deferring (n : Nat) (r : Slot) : State :=
  { base r with deferred := [{ slot := 12, target := 0, count := n, overflow := false, payload := 1, pins := 0 }] }

theorem witness_PlacementMerges :
    residentAt (one (route .first .auto 1)) 12 0 = some 0
      ∧ (one (route .first .auto 1)).pool[(0 : EntryId)].any (fun n => n.phase == .pending) = true
      ∧ (one (route .first .auto 2)).pool[(0 : EntryId)].any
          (fun n => n.phase == .gathering 2 (some { start := 0, limit := 100 }) && n.count + 1 == 2) = true
      ∧ (one (route .first .auto 3)).pool[(0 : EntryId)].any
          (fun n => n.phase == .gathering 3 (some { start := 0, limit := 100 }) && n.count + 1 < 3) = true
      ∧ residentAt (deferring 255 (route .first .auto 1)) 12 0 = none
      ∧ (pairAt (deferring 255 (route .first .auto 1)) 12 0).isSome = true := by decide +kernel

/-- The pool with no free entry: its notices belong to another slot. -/
def fullPool (r : Slot) : State :=
  { base r with pool := Vector.replicate 512 (some
      { slot := 99, generation := 1, target := 0, level := 0, phase := .inService none true
        count := 1, overflow := false, payload := 0, pins := 0, rearm := .auto }) }

theorem fullPool_full (r : Slot) (d : EntryId) : (fullPool r).pool[d] ≠ none := by simp [fullPool]

theorem witness_NewNoticesAndHandOver :
    (let s := base (route .first .auto 1)
     residentAt s 12 0 = none ∧ pairAt s 12 0 = none ∧ s.pool[(0 : EntryId)] = none ∧ s.deferred = [])
      ∧ (∀ d : EntryId, d < 0 → (base (route .first .auto 1)).pool[d] ≠ none)
      ∧ (let s := fullPool (route .first .auto 1)
         residentAt s 12 0 = none ∧ pairAt s 12 0 = none)
      ∧ (∀ d : EntryId, (fullPool (route .first .auto 1)).pool[d] ≠ none)
      ∧ (deferring 1 (route .first .auto 1)).deferred ≠ []
      ∧ (one (route .first .auto 2)).pool[(0 : EntryId)].any (fun n => n.isGathering) = true := by
  refine ⟨by decide +kernel, fun d h => absurd h (Fin.not_lt_zero d), by decide +kernel, fullPool_full _, ?_⟩
  decide +kernel

/-- The record RETIRING. -/
def retiring (m : RetireMode) (r : Slot) : Slot := { r with state := .retiring, retireMode := some m }

/-- What a RETIRE in flight keeps. -/
def noFigures : RetireFigures := { heldCount := 0, heldOverflow := false, notices := 0, pairs := 0 }

theorem witness_LastItemFreesTheRecord :
    (let s := base (retiring .drain (route .first .auto 1))
     s.slots[(12 : SlotId)].state = .retiring ∧ outstanding s 12 = 0 ∧ s.port.flight = none
       ∧ (flying (.retireWait 12 noFigures) s).port.flight = some (.retireWait 12 noFigures))
      ∧ (base (route .first .auto 1)).slots[(12 : SlotId)].state ≠ .retiring
      ∧ outstanding (one (route .first .auto 1)) 12 ≠ 0 := by decide +kernel

/-- A notice of the record on T0 as the statements name it. -/
def sample (ph : Phase) : Notice :=
  { slot := 12, generation := 1, target := 0, level := 5, phase := ph, count := 1, overflow := false
    payload := 0x1000, pins := 0, rearm := .auto }

theorem witness_RehomingMovesNotices :
    (∀ m ∈ [PlaceMode.first, .rotate],
      let s := setState 0 .stalled (one (route m .auto 1))
      destination s 0 (sample .pending) = some 1 ∧ s.slots[(12 : SlotId)].mode = m
        ∧ s.targets[(1 : TargetId)].state = .online ∧ s.targets[(0 : TargetId)].state ≠ .online
        ∧ s.slots[(12 : SlotId)].targets = [0] ++ 1 :: [] ∧ s.pool[(0 : EntryId)] = some (sample .pending)
        ∧ residentAt s 12 1 = none ∧ pairAt s 12 1 = none
        ∧ s.slots[(12 : SlotId)].targets.drop (s.slots[(12 : SlotId)].targets.idxOf 0 + 1)
            ++ s.slots[(12 : SlotId)].targets.take (s.slots[(12 : SlotId)].targets.idxOf 0 + 1) = [] ++ 1 :: [0])
      ∧ (let s := setState 0 .stalled (one (route .rotate .auto 1))
         7 ∉ s.slots[(12 : SlotId)].targets ∧ (0 : TargetId) ∈ s.slots[(12 : SlotId)].targets)
      ∧ destination (setState 0 .stalled (one (route .all .auto 1))) 0 (sample .pending) = none
      ∧ (let s := setState 0 .stalled (setState 1 .offline (one (route .first .auto 1)))
         destination s 0 (sample .pending) = none)
      ∧ (let s := { setState 0 .stalled (one (route .first .auto 1)) with deferred :=
            [{ slot := 12, target := 1, count := 1, overflow := false, payload := 1, pins := 0 }] }
         (pairAt s 12 1).isSome = true ∧ residentAt s 12 1 = none)
      ∧ (let s := placeOn 12 1 unit (setState 0 .stalled (one (route .first .auto 1)))
         residentAt s 12 1 = some 1 ∧ s.pool[(1 : EntryId)].isSome = true ∧ destination s 0 (sample .pending) = some 1)
      ∧ crowded.pool[(0 : EntryId)] = some (sample .pending) ∧ destination crowded 0 (sample .pending) = some 1
      ∧ residentAt crowded 12 1 = some 1 ∧ crowded.deferred.length = 1
      ∧ (base (route .first .auto 1)).pool[(0 : EntryId)] = none
      ∧ (one (route .first .auto 2)).pool[(0 : EntryId)].any (fun n => n.isGathering) = true
      ∧ (sample .pending).isGathering = false := by
  decide +kernel

/-- Pin 31 with its raw input high and a change being timed since 0 µs, at a time. -/
def timed (filter now : Nat) : State :=
  modPin 31 (fun p => { p with raw := true, filter := filter, timing := some 0 }) { up with now := now }

theorem witness_InputsEnterThroughTheFilter :
    up.porst = false ∧ up.pins[(31 : PinId)].raw = false
      ∧ (let p := (modPin 31 (fun p => { p with filter := 1 }) up).pins[(31 : PinId)]
         p.raw ≠ true ∧ 1 ≤ p.filter ∧ p.timing = none ∧ true ≠ p.filtered)
      ∧ (let s := timed 7 6
         s.pins[(31 : PinId)].raw ≠ false ∧ s.pins[(31 : PinId)].timing = some 0 ∧ s.now < 0 + max s.pins[(31 : PinId)].filter 1
           ∧ false = s.pins[(31 : PinId)].filtered)
      ∧ (let p := up.pins[(31 : PinId)]
         p.raw ≠ true ∧ p.filter = 0 ∧ p.timing = none ∧ true ≠ p.filtered)
      ∧ (let s := timed 7 7
         s.pins[(31 : PinId)].raw ≠ false ∧ s.pins[(31 : PinId)].timing = some 0 ∧ 0 + max s.pins[(31 : PinId)].filter 1 ≤ s.now
           ∧ 0 + s.pins[(31 : PinId)].filter ≤ s.now) := by decide +kernel

/-- PIN_SET of EVT31, sense LOW, filter 7. -/
def pinSetState : State := withOps 0x0000751F 0 0 0 0 0 up

theorem witness_RearmingAndPinSet :
    (let p : Pin := { Pin.powerOn false with sense := .low, armed := false }
     (p.sense = .high ∨ p.sense = .low) ∧ p.missDisarmed = false ∧ p.armed = false)
      ∧ ({ Pin.powerOn false with sense := .both } : Pin).sense ≠ .high
      ∧ (let p : Pin := { Pin.powerOn false with missDisarmed := true }
         p.missDisarmed = true ∧ p.offer = false)
      ∧ (let p : Pin := { Pin.powerOn false with missDisarmed := true, offer := true, sense := .low }
         p.missDisarmed = true ∧ p.offer = true)
      ∧ commandReady pinSetState ∧ firstFailing (checks .pinSet pinSetState) = none
      ∧ field pinSetState.port.operands[0] 12 4 ≠ pinSetState.pins[(31 : PinId)].filter
      ∧ field (withOps 0x0000051F 0 0 0 0 0 up).port.operands[0] 12 4 = up.pins[(31 : PinId)].filter
      ∧ firstFailing (checks .pinSet (withOps 0x0000051F 0 0 0 0 0 up)) = none := by
  simp only [commandReady, linkReady, readReady]; decide +kernel

theorem witness_RankOfALevel :
    (#v[(1 : Group), 3, 2, 0]).toList.Nodup ∧ (15 : Level).val / 4 = ((#v[(1 : Group), 3, 2, 0])[(1 : Fin 4)]).val
      ∧ (0 : Level).val / 4 = ((#v[(1 : Group), 3, 2, 0])[(3 : Fin 4)]).val := by decide

theorem witness_CandidateIsTheMostUrgentHead :
    (exampleService 0).targets[(3 : TargetId)].groupOrder.toList.Nodup := by decide +kernel

theorem witness_LinkChanges :
    (let s := setState 7 .online { up with link := { up.link with state := .down } }
     s.porst = false ∧ permission s = false ∧ s.link.state = .down ∧ s.link.busMaster = true)
      ∧ (let s : State := { up with link := { up.link with state := .down, busMaster := false, waiting := [.abort] } }
         s.porst = false ∧ permission s = false ∧ s.link.busMaster = false)
      ∧ permission up = true ∧ up.link.state = .up ∧ up.link.busMaster = true
      ∧ (let s : State := { up with link := { up.link with busMaster := false } }
         s.porst = false ∧ permission s = false ∧ s.link.state = .up) := by decide +kernel

/-- A PENDING notice on T0 with the target as given. -/
def claimState (x : TargetState) (owner : Option RequesterId) : State :=
  modTarget 0 (fun c => { c with state := x, owner := owner }) (one (route .first .explicit 1))

theorem claimState_st (x : TargetState) (owner : Option RequesterId) : NoticesStand (claimState x owner) :=
  (stand_iff _).mp (modTarget_stand _ _ (one_st _) rfl rfl)

theorem witness_ClaimTakesTheCandidate :
    (∀ x ∈ [(TargetState.online, none), (.stalled, some (7 : RequesterId))],
      let s := claimState x.1 x.2
      readReady s ∧ s.targets[(0 : TargetId)].owner = x.2 ∧ s.targets[(0 : TargetId)].state = x.1 ∧ deliverable s 0 = true
        ∧ candidate s.targets[(0 : TargetId)] = some (0, 5)
        ∧ s.pool[(0 : EntryId)] = some { sample .pending with rearm := .explicit })
      ∧ NoticesStand (claimState .online none) ∧ NoticesStand (claimState .stalled (some 7)) := by
  refine ⟨?_, claimState_st _ _, claimState_st _ _⟩
  simp only [readReady]; decide +kernel

theorem witness_ClaimTakesNothing :
    (∀ x ∈ [TargetState.offline, .online, .stalled, .quiescing],
      deliverable (setState 0 x up) 0 = false ∧ (setState 0 x up).targets[(0 : TargetId)].owner = none
        ∧ (setState 0 x up).targets[(0 : TargetId)].state = x)
      ∧ readReady (setState 0 .stalled up)
      ∧ (let s := modTarget 0 (fun c => { c with stack := [3, 2, 1, 0] }) (one (route .first .auto 1))
         deliverable s 0 = false ∧ s.targets[(0 : TargetId)].stack.length = 4) := by
  simp only [readReady]; decide +kernel

theorem witness_ClaimLeavesNothingDeliverable :
    (let s := one (route .first .explicit 1)
     readReady s ∧ s.targets[(0 : TargetId)].owner = none ∧ s.targets[(0 : TargetId)].state = .online
       ∧ deliverable s 0 = true ∧ s.targets[(0 : TargetId)].groupOrder.toList.Nodup ∧ SignalsFollow s)
      ∧ NoticesStand (one (route .first .explicit 1))
      ∧ exec (.claim 7 0 .low) (one (route .first .explicit 1))
          = .next (linkDeliver (.claim 7 0 .low) (one (route .first .explicit 1))) := by
  refine ⟨?_, (stand_iff _).mp (one_st _), rfl⟩
  simp only [readReady, SignalsFollow]; decide +kernel

theorem witness_OwnerCheckRefuses :
    (let s := modTarget 7 (fun c => { c with owner := some 8 }) up
     s.targets[(7 : TargetId)].owner = some 8 ∧ (8 : RequesterId) ≠ 7 ∧ readReady s ∧ linkReady s) := by
  simp only [linkReady, readReady]; decide +kernel

theorem witness_EnableAndMaskWrites :
    linkReady (claimState .quiescing (some 7)) ∧ (claimState .quiescing (some 7)).targets[(0 : TargetId)].owner = some 7
      ∧ (claimState .offline none).targets[(0 : TargetId)].owner = none := by
  simp only [linkReady, readReady]; decide +kernel

theorem witness_RefusedCompleteOnlyRaises :
    (let s := inHand (route .first .explicit 1)
     linkReady s ∧ s.targets[(0 : TargetId)].owner = none ∧ s.targets[(0 : TargetId)].stack = 0 :: []
       ∧ (s.pool[(0 : EntryId)].any fun n => field 0x0028081A 1 10 != n.slot.val) = true
       ∧ (s.pool[(0 : EntryId)].any fun n => (0x00281018#32).extractLsb' 11 8 != n.generation) = true
       ∧ (s.pool[(0 : EntryId)].any fun n => field 0x00300818 19 4 != n.level.val) = true)
      ∧ up.targets[(7 : TargetId)].stack = [] ∧ linkReady up := by
  simp only [linkReady, readReady]; decide +kernel

/-- What the statements on COMPLETE ask of a state, up to where the notices stand. -/
def completable (phase : Phase) (s : State) : Bool :=
  decide (s.link.state = .up) && !s.porst && s.link.waiting.isEmpty && decide (s.intake.length < 32)
    && s.targets[(0 : TargetId)].owner.isNone && s.targets[(0 : TargetId)].stack == [0]
    && s.pool[(0 : EntryId)].any fun n =>
        field doneWord 1 10 == n.slot.val && doneWord.extractLsb' 11 8 == n.generation && field doneWord 19 4 == n.level.val
          && n.phase == phase && n.slot == 12

/-- The notice in service with nothing late, and with one late arrival. -/
def idlePhase : Phase := .inService (some { count := 0, overflow := false }) false
def latePhase : Phase := .inService (some { count := 1, overflow := false }) false

/-- The states in which a COMPLETE takes its outcomes. -/
def orphaned : State := orphanItems 12 (inHand (route .first .explicit 1))
def lateWith (r : SlotState) (m : Option RetireMode) (x : TargetState) : State :=
  modSlot 12 (fun q => { q with state := r, retireMode := m }) (setState 0 x withLate)
def lateHome : State := placeOn 12 0 unit withLate

theorem lateWith_st (r : SlotState) (m : Option RetireMode) (x : TargetState) : NoticesStand (lateWith r m x) :=
  (stand_iff _).mp (setSlots_stand _ _ (setState_st _ _ withLate_st))

theorem witness_CompleteOutcomes :
    (completable (.inService (some { count := 0, overflow := false }) true) orphaned = true ∧ NoticesStand orphaned)
      ∧ completable idlePhase (inHand (route .first .explicit 1)) = true
      ∧ completable (.inService none false) (inHand (route .first .auto 1)) = true
      ∧ (completable latePhase (lateWith .retiring (some .discard) .online) = true
          ∧ NoticesStand (lateWith .retiring (some .discard) .online))
      ∧ (completable latePhase (lateWith .retiring (some .drain) .quiescing) = true
          ∧ placeable (lateWith .retiring (some .drain) .quiescing) 0 = false)
      ∧ (completable latePhase lateHome = true ∧ NoticesStand lateHome ∧ residentAt lateHome 12 0 = some 1
          ∧ placeable lateHome 0 = true)
      ∧ (completable latePhase (lateWith .held none .stalled) = true ∧ placeable (lateWith .held none .stalled) 0 = true
          ∧ residentAt (lateWith .held none .stalled) 12 0 = none)
      ∧ (completable latePhase (lateWith .active none .quiescing) = true
          ∧ placeable (lateWith .active none .quiescing) 0 = false) := by
  refine ⟨⟨by decide +kernel, (stand_iff _).mp (orphanItems_stand _ (inHand_st _))⟩, by decide +kernel, by decide +kernel,
    ⟨by decide +kernel, lateWith_st _ _ _⟩, by decide +kernel,
    ⟨by decide +kernel, (stand_iff _).mp (placeOn_st _ _ _ withLate_st), by decide +kernel⟩, by decide +kernel,
    by decide +kernel⟩

theorem witness_CompleteOutcomes_parts :
    (base (route .first .auto 1)).pool[(0 : EntryId)] = none ∧ (one (route .first .auto 1)).pool[(0 : EntryId)] ≠ none
      ∧ pairAt (base (route .first .auto 1)) 12 0 = none ∧ pairAt (deferring 255 (route .first .auto 1)) 12 0 ≠ none
      ∧ (let s := setState 0 .quiescing (base (route .first .auto 1))
         s.targets[(0 : TargetId)].state = .quiescing ∧ s.targets[(0 : TargetId)].stack = [])
      ∧ (base (route .first .auto 1)).targets[(0 : TargetId)].state ≠ .quiescing
      ∧ (inHand (route .first .auto 1)).targets[(0 : TargetId)].stack ≠ [] := by decide +kernel

/-- The last COMPLETE of a QUIESCING target for which a TARGET_OFFLINE waits. -/
def lastOne : State := flying (.offlineWait 0) (setState 0 .quiescing (inHand (route .first .explicit 1)))

theorem flying_st {s : State} (f : Flight) (h : Standing s) : Standing (flying f s) := h.targets rfl rfl rfl

theorem witness_CompleteFreesTheEntry :
    (completable idlePhase (inHand (route .first .explicit 1)) = true
        ∧ (inHand (route .first .explicit 1)).deferred = []
        ∧ (inHand (route .first .explicit 1)).targets[(0 : TargetId)].state ≠ .quiescing
        ∧ (inHand (route .first .explicit 1)).slots[(12 : SlotId)].state ≠ .retiring)
      ∧ NoticesStand (inHand (route .first .explicit 1))
      ∧ (completable idlePhase lastOne = true ∧ lastOne.deferred = [] ∧ lastOne.targets[(0 : TargetId)].state = .quiescing
        ∧ lastOne.slots[(12 : SlotId)].state ≠ .retiring)
      ∧ NoticesStand lastOne := by
  refine ⟨by decide +kernel, (stand_iff _).mp (inHand_st _), by decide +kernel, 
    (stand_iff _).mp (flying_st _ (setState_st 0 .quiescing (inHand_st _)))⟩

theorem witness_CompleteReraisesTheLateCount :
    (∀ x ∈ [(SlotState.active, TargetState.online), (.held, .stalled)],
      let s := lateWith x.1 none x.2
      completable latePhase s = true ∧ s.slots[(12 : SlotId)].state = x.1 ∧ s.targets[(0 : TargetId)].state = x.2
        ∧ residentAt s 12 0 = none ∧ pairAt s 12 0 = none)
      ∧ NoticesStand (lateWith .active none .online) ∧ NoticesStand (lateWith .held none .stalled) :=
  ⟨by decide +kernel, lateWith_st _ _ _, lateWith_st _ _ _⟩

theorem witness_TimersExpire :
    (∀ now ∈ [99, 100],
      ({ one (route .first .auto 2) with now := now } : State).pool[(0 : EntryId)]
        = some (sample (.gathering 2 (some { start := 0, limit := 100 }))))
      ∧ (∀ now ∈ [199, 200],
          let s := modTarget 7 (fun c => { c with deadline := 200, deadlineStart := some 0 }) { up with now := now }
          s.targets[(7 : TargetId)].deadlineStart = some 0 ∧ (0 + s.targets[(7 : TargetId)].deadline ≤ s.now ↔ now = 200))
      ∧ lateWait.port.waitTimer = some { start := 0, limit := 1000 } ∧ 0 + 1000 ≤ lateWait.now
      ∧ ({ lateWait with now := 999 } : State).port.waitTimer = some { start := 0, limit := 1000 } := by decide +kernel

theorem witness_BusyPortRejects :
    commandCode .query = some 0x05 ∧ commandCode (.unknownCommand 0xFF) = some 0xFF
      ∧ linkReady (flying (.offlineWait 0) up) ∧ (flying (.offlineWait 0) up).port.flight ≠ none := by
  simp only [linkReady, readReady]; decide +kernel

/-- The part with T0 ONLINE, the record in slot 12 and the words of a command. -/
def asked (a b c d e f : Word) (r : Slot) : State := withOps a b c d e f (base r)

/-- What the first failing check of a command is. -/
def firstCheck (c : Instr) (a b c3 d e f : Word) (r : Slot) : Option ResultCode :=
  firstFailing (checks c (asked a b c3 d e f r))

theorem witness_FailedCheckChangesOnlyThePort :
    (∀ c ∈ [Instr.install, .modify, .hold, .release, .query, .retire, .forceRetire],
      firstCheck c 1024 0 0 0 0 0 (route .first .auto 1) = some .badSlot ∧ c.wellFormed = true ∧ (commandCode c).isSome = true)
      ∧ (∀ c ∈ [Instr.targetSet, .targetOnline, .targetOffline],
          firstCheck c 8 0 0 0 0 0 (route .first .auto 1) = some .badTarget ∧ c.wellFormed = true)
      ∧ (∀ c ∈ [Instr.groupHold, .groupRelease, .groupRetire],
          firstCheck c 0 33 0 0 0 0 (route .first .auto 1) = some .badField ∧ c.wellFormed = true)
      ∧ firstCheck .pinSet 32 0 0 0 0 0 (route .first .auto 1) = some .badField
      ∧ firstCheck .tableClear 0 0 0 0 0 0 (route .first .auto 1) = some .targetState
      ∧ firstCheck (.unknownCommand 0x11) 0 0 0 0 0 0 (route .first .auto 1) = some .unknownCommand
      ∧ firstCheck .install 12 0 0 0 0 0 (route .first .auto 1) = some .slotInUse
      ∧ firstCheck .retire 0x0002000C 0 0 0 0 0 (route .first .auto 1) = some .staleGeneration
      ∧ firstCheck .hold 13 0 0 0 0 0 (route .first .auto 1) = some .slotFree
      ∧ (Instr.unknownCommand 0x11).wellFormed = true ∧ commandReady (asked 0 0 0 0 0 0 (route .first .auto 1)) := by
  simp only [commandReady, linkReady, readReady]; decide +kernel

theorem witness_OperandWritesAndAbort :
    linkReady up ∧ up.port.flight = none
      ∧ (∀ f ∈ [Flight.retireWait 1023 noFigures, .offlineWait 7, .onlineWalk 7 1023, .groupWalk (.retire .drain) 0 32 1 2],
          (flying f up).port.flight = some f)
      ∧ linkReady (flying (.offlineWait 7) up) := by
  simp only [linkReady, readReady]; decide +kernel

theorem witness_FaultClearClearsTheNamedCauses : linkReady (raiseMiss 0x06000010 up) := by
  simp only [linkReady, readReady]; decide +kernel

theorem witness_InstallFillsTheSlot :
    firstFailing (checks .install exampleInstall) = none ∧ commandReady exampleInstall
      ∧ firstFailing (checks .install (withOps 0x100003FF 0xFF00001F 0xFF0F1220 0x00076544 0xFFFF 0 up)) = none := by
  simp only [commandReady, linkReady, readReady]; decide +kernel

theorem witness_ModifyHoldAndRelease :
    (let s := asked 0x0001000C 0x03120000 0x02031110 0x00000322 0x0A 0 (route .first .auto 1)
     commandReady s ∧ firstFailing (checks .modify s) = none)
      ∧ (∀ x ∈ [(SlotState.active, 0), (.held, 0), (.held, 65535)],
          let s := asked 12 0 0 0 0 0 { holding x.2 (route .all .auto 1) with state := x.1 }
          commandReady s ∧ firstFailing (checks .hold s) = none ∧ firstFailing (checks .release s) = none
            ∧ (namedSlot s).val = 12 ∧ s.slots[(12 : SlotId)].state = x.1 ∧ s.slots[(12 : SlotId)].held.count = x.2
            ∧ ∃ t ∈ s.slots[(12 : SlotId)].targets, placeable s t = true)
      ∧ (let s := setState 1 .offline (setState 0 .quiescing
            (asked 12 0 0 0 0 0 { holding 1 (route .all .auto 1) with state := .held }))
         s.slots[(12 : SlotId)].held.count ≠ 0 ∧ ∀ t ∈ s.slots[(12 : SlotId)].targets, placeable s t = false) := by
  simp only [commandReady, linkReady, readReady]; decide +kernel

theorem witness_QueryAndProbeReport :
    (let s := asked 1023 0 0 0 0 0 (route .first .auto 1)
     commandReady s ∧ firstFailing (checks .query s) = none)
      ∧ lookup (asked 0x0312FFFF 0 0 0 0 0 (route .first .auto 1)) 0x0312FFFF = some 12
      ∧ lookup (asked 0x03130000 0 0 0 0 0 (route .first .auto 1)) 0x03130000 = none := by
  simp only [commandReady, linkReady, readReady]; decide +kernel

theorem witness_ResultWordFields :
    (sample .pending).count < 256 ∧ (Held.empty).count ≤ 65535 ∧ (holding 65535 (route .first .auto 1)).held.count ≤ 65535
      ∧ (let f : RetireFigures := { heldCount := 65535, heldOverflow := true, notices := 512, pairs := 8 }
         f.heldCount ≤ 65535 ∧ f.notices ≤ 512 ∧ f.pairs ≤ 8)
      ∧ (let r : Slot := { holding 65535 (route .rotate .explicit 255) with
            len := 32, rotation := 3, targets := [7, 6, 5, 4], holdOff := 65535 }
         let n : ItemCounts := { gathering := 512, pending := 512, inService := 32, pairs := 8 }
         r.len ≤ 32 ∧ r.rotation < 4 ∧ r.targets.length ≤ 4 ∧ r.threshold ≤ 255 ∧ r.holdOff ≤ 65535
           ∧ r.held.count ≤ 65535 ∧ n.gathering ≤ 512 ∧ n.pending ≤ 512 ∧ n.inService ≤ 32 ∧ n.pairs ≤ 8) := by decide

theorem witness_TableClearFreesEveryRecord :
    commandReady (setState 1 .offline (setState 0 .offline (base (route .first .auto 1))))
      ∧ ∀ t : TargetId, (setState 1 .offline (setState 0 .offline (base (route .first .auto 1)))).targets[t].state = .offline := by
  simp only [commandReady, linkReady, readReady]; decide +kernel

theorem witness_TargetSetConfigures :
    (let s := asked 0x00001107 0xFFFFFFFC 0x1 0x55 0x0123FFFF 0xFFFF (route .first .auto 1)
     commandReady s ∧ firstFailing (checks .targetSet s) = none ∧ (namedTarget s).val = 7) := by
  simp only [commandReady, linkReady, readReady]; decide +kernel

/-- A TARGET_ONLINE walk of T1 at a slot. -/
def walking (i : Nat) (r : Slot) : State :=
  let s := flying (.onlineWalk 1 3) (base r)
  { s with port := { s.port with walkPosition := i } }

theorem witness_TargetOnlineAndItsWalk :
    (∀ t ∈ [0, 7],
      let s := asked (BitVec.ofNat 32 t) 0 0 0 0 0 (route .first .auto 1)
      commandReady s ∧ firstFailing (checks .targetOnline s) = none)
      ∧ (asked 0 0 0 0 0 0 (route .first .auto 1)).targets[(0 : TargetId)].state = .online
      ∧ (asked 7 0 0 0 0 0 (route .first .auto 1)).targets[(7 : TargetId)].state = .offline
      ∧ (∀ i ∈ [12, 1023],
          let s := walking i (holding 65535 (route .rotate .auto 1))
          s.port.flight = some (.onlineWalk 1 3) ∧ s.port.walkPosition = i ∧ s.port.walkPosition < 1024)
      ∧ (let s := walking 12 (holding 65535 (route .rotate .auto 1))
         let r := s.slots[(12 : SlotId)]
         r.state = .active ∧ r.held.count ≠ 0 ∧ (1 : TargetId) ∈ r.targets ∧ ∃ u ∈ r.targets, placeable s u = true)
      ∧ (walking 1023 (route .first .auto 1)).slots[(1023 : SlotId)].state ≠ .active := by
  simp only [commandReady, linkReady, readReady]; decide +kernel

/-- A group walk of a kind at a slot. -/
def grouping (kind : GroupKind) (i : Nat) (r : Slot) : State :=
  let s := flying (.groupWalk kind 0x03120000 16 0 0) (base r)
  { s with port := { s.port with walkPosition := i } }

theorem witness_GroupWalks :
    (let s := asked 0x03120000 32 0 0 0 0 (route .first .auto 1)
     commandReady s ∧ firstFailing (checks .groupHold s) = none ∧ firstFailing (checks .groupRelease s) = none
       ∧ firstFailing (checks .groupRetire s) = none)
      ∧ firstFailing (checks .groupRetire (asked 0x03120000 0x00010020 0 0 0 0 (route .first .auto 1))) = none
      ∧ (∀ kind ∈ [GroupKind.hold, .release, .retire .discard, .retire .drain],
          ∀ i ∈ [12, 1023],
            let s := grouping kind i (route .first .auto 1)
            s.port.flight = some (.groupWalk kind 0x03120000 16 0 0) ∧ s.port.walkPosition = i ∧ s.port.walkPosition < 1024)
      ∧ (let r := (grouping .hold 12 (route .first .auto 1)).slots[(12 : SlotId)]
         r.state = .active ∧ 16 ≤ r.len ∧ ∀ k, k < 16 → r.key.getMsbD k = (0x03120000 : Key).getMsbD k)
      ∧ (grouping .release 12 { route .first .auto 1 with state := .held }).slots[(12 : SlotId)].state = .held
      ∧ (grouping .hold 12 (retiring .drain (route .first .auto 1))).slots[(12 : SlotId)].state = .retiring
      ∧ (grouping .hold 1023 (route .first .auto 1)).slots[(1023 : SlotId)].state = .free := by
  simp only [commandReady, linkReady, readReady]; decide +kernel

theorem withOps_stand (a b c d e f : Word) {s : State} (h : Standing s) : NoticesStand (withOps a b c d e f s) :=
  (stand_iff _).mp (h.targets rfl rfl rfl)

theorem witness_GroupWalks_members :
    (let s := base { holding 1 (route .first .auto 1) with state := .held }
     s.slots[(12 : SlotId)].state = .held ∧ s.slots[(12 : SlotId)].held.count ≠ 0
       ∧ (0 : TargetId) ∈ s.slots[(12 : SlotId)].targets ∧ placeable s 0 = true)
      ∧ (let s := setState 0 .offline (setState 1 .offline (base { holding 1 (route .first .auto 1) with state := .held }))
         s.slots[(12 : SlotId)].targets = [0, 1] ∧ placeable s 0 = false ∧ placeable s 1 = false)
      ∧ (one (route .first .auto 1)).port.flight = none ∧ NoticesStand (one (route .first .auto 1)) :=
  ⟨by decide +kernel, by decide +kernel, by decide +kernel, (stand_iff _).mp (one_st _)⟩

theorem witness_RetireTreatsTheRecord :
    (∀ w ∈ [0, 60000, 0x00010000, 0x0001EA60],
      let s := asked 0x0001000C (BitVec.ofNat 32 w) 0 0 0 0 (route .first .auto 1)
      commandReady s ∧ firstFailing (checks .retire s) = none ∧ (namedSlot s).val = 12 ∧ outstanding s 12 = 0)
      ∧ (let s := withOps 0x0001000C 60000 0 0 0 0 (one (route .first .auto 1))
         commandReady s ∧ firstFailing (checks .retire s) = none ∧ outstanding s 12 = 1)
      ∧ (let s := withOps 0x0001000C 0x00010000 0 0 0 0 (one (route .first .auto 9))
         commandReady s ∧ firstFailing (checks .retire s) = none ∧ field s.port.operands[1] 16 2 ≠ 0)
      ∧ NoticesStand (withOps 0x0001000C 60000 0 0 0 0 (one (route .first .auto 1)))
      ∧ NoticesStand (withOps 0x0001000C 0x00010000 0 0 0 0 (one (route .first .auto 9))) := by
  refine ⟨?_, ?_, ?_, withOps_stand _ _ _ _ _ _ (one_st _), withOps_stand _ _ _ _ _ _ (one_st _)⟩
  all_goals simp only [commandReady, linkReady, readReady]; decide +kernel

theorem witness_ForceRetireFreesTheRecord :
    (let s := withOps 0x0001000C 0 0 0 0 0 (inHand (route .first .explicit 1))
     commandReady s ∧ firstFailing (checks .forceRetire s) = none
       ∧ s.pool[(0 : EntryId)] = some { sample idlePhase with rearm := .explicit })
      ∧ NoticesStand (withOps 0x0001000C 0 0 0 0 0 (inHand (route .first .explicit 1))) := by
  refine ⟨?_, withOps_stand _ _ _ _ _ _ (inHand_st _)⟩
  simp only [commandReady, linkReady, readReady]; decide +kernel

theorem witness_TargetOfflineQuiesces :
    (∀ x ∈ [(0, 0), (0x100, 60000), (0x1100, 60000), (0x1000, 0)],
      let s := withOps (BitVec.ofNat 32 x.1) (BitVec.ofNat 32 x.2) 0 0 0 0 (inHand (route .first .explicit 1))
      commandReady s ∧ firstFailing (checks .targetOffline s) = none ∧ (namedTarget s).val = 0
        ∧ s.targets[(0 : TargetId)].stack ≠ [])
      ∧ (let s := withOps 1 0 0 0 0 0 (inHand (route .first .explicit 1))
         firstFailing (checks .targetOffline s) = none ∧ (namedTarget s).val = 1 ∧ s.targets[(1 : TargetId)].stack = []
           ∧ s.pool[(0 : EntryId)].any (fun n => n.target != 1 && n.isInService) = true)
      ∧ ∀ a b : Word, NoticesStand (withOps a b 0 0 0 0 (inHand (route .first .explicit 1))) := by
  refine ⟨?_, ?_, fun _ _ => withOps_stand _ _ _ _ _ _ (inHand_st _)⟩
  all_goals simp only [commandReady, linkReady, readReady]; decide +kernel

theorem witness_FunctionResetValues :
    (let s := lateWith .retiring (some .drain) .quiescing
     s.porst = false ∧ s.slots[(12 : SlotId)].state = .retiring)
      ∧ (base (route .first .auto 1)).slots[(12 : SlotId)].state = .active
      ∧ (base (route .first .auto 1)).slots[(0 : SlotId)].state = .free ∧ (powerOnBody up).porst = true := by decide +kernel

theorem witness_PorstReleaseAndTheResetState :
    (powerOnBody (offering up)).porst = true ∧ up.porst = false ∧ State.reset.link.state = .down
      ∧ commandCode .install = some 0x01 := by
  decide +kernel

/-! ### The invariants hold of a state in which work is under way, and it has a next state -/

theorem witness_StepKeepsQueuesAndCapture :
    IntakeBounded (one (route .first .auto 1)) ∧ StacksBounded (one (route .first .auto 1))
      ∧ CaptureFollowsMiss (raiseMiss 0x06000010 up) ∧ ConfigsLegal (one (route .first .auto 1)) := by
  simp only [IntakeBounded, StacksBounded, CaptureFollowsMiss, ConfigsLegal, Target.legal]; decide +kernel

theorem base_slot (r : Slot) (i : SlotId) : (base r).slots[i] = if (12 : SlotId) = i then r else Slot.freeOf 0 := by
  rw [show (base r).slots = State.reset.slots.set (12 : SlotId) r from rfl, slot_get_set]
  simp [State.reset]

theorem witness_StepKeepsTheRouteTable :
    MatchesDiffer (base (route .first .auto 1)) ∧ RecordsWellFormed (base (route .first .auto 1))
      ∧ HeldCountsWhole (base (holding 65535 (route .first .auto 1))) := by
  refine ⟨?_, ?_, ?_⟩
  · have h : ∀ i : SlotId, (base (route .first .auto 1)).slots[i].state ≠ .free → (12 : SlotId) = i := by
      intro i hi
      rw [base_slot] at hi
      by_contra hn
      rw [if_neg hn] at hi
      exact hi rfl
    exact fun i j hi hj _ _ => (h i hi).symm.trans (h j hj)
  · intro i
    rw [base_slot]
    split <;> (unfold Slot.wf; decide)
  · intro i
    rw [base_slot]
    split <;> (unfold Held.wf; decide)

theorem witness_StepKeepsSignalsFollowing : SignalsFollow (one (route .first .auto 1)) := by
  simp only [SignalsFollow]; decide +kernel

theorem witness_StepKeepsPortConsistent :
    PortConsistent (walking 1023 (route .first .auto 1)) := by
  refine ⟨fun _ => ⟨rfl, rfl⟩, fun h => absurd h (by decide +kernel), by decide +kernel, fun _ _ _ => by decide +kernel⟩

theorem one_sound (r : Slot) : Sound [] (one r) :=
  (placeOn_sound 12 0 unit (Sound.empty (s := base r) rfl rfl) ⟨by decide, by decide⟩).calm (settle_tame _)

theorem witness_StepKeepsNoticesInTheirPlaces_distinct :
    WorkDistinct (one (route .first .auto 1)) ∧ CountsBounded (one (route .first .auto 1)) :=
  ⟨(one_sound _).distinct, (one_sound _).counts⟩

theorem witness_StepKeepsNoticesInTheirPlaces :
    NoticesStand (one (route .first .auto 1)) ∧ WorkBelongs (one (route .first .auto 1))
      ∧ StacksOrdered (one (route .first .auto 1)) := by
  refine ⟨(stand_iff _).mp (one_st _), (be_iff _).mp (one_be _ (by decide)), fun t => ?_⟩
  rw [show (one (route .first .auto 1)).targets[t].stack = [] by revert t; decide +kernel]
  exact List.Pairwise.nil

theorem witness_StepKeepsWorkBelonging :
    NoticesStand (one (route .first .auto 1)) ∧ WorkBelongs (one (route .first .auto 1)) :=
  ⟨(stand_iff _).mp (one_st _), (be_iff _).mp (one_be _ (by decide))⟩

end Sys2Proof.Tests
end

/-! The route records and the route table: what every step keeps of them, the lookup, the resets, and the record commands. -/

namespace Sys2Proof.Machine

/-! ### What every step keeps, and the lookup -/

theorem linkUpBody_keeps (s : State) : Keeps s (linkUpBody s) := by
  unfold linkUpBody
  split
  · exact Keeps.refl s
  · exact ((link_keeps s { s.link with state := .up }).trans (regainIf_keeps s (setLink .up s))).trans
      (drainWaiting_keeps _)

theorem linkDownBody_keeps (s : State) : Keeps s (linkDownBody s) := by
  unfold linkDownBody
  split
  · exact Keeps.refl s
  · exact (((link_keeps s { s.link with state := .down }).trans (regainIf_keeps s (setLink .down s))).trans
      (setWaiting_keeps _ _)).trans (nextFree_frame _).keeps

theorem busMasterBody_keeps (on : Bool) (s : State) : Keeps s (busMasterBody on s) := by
  unfold busMasterBody
  split
  · exact Keeps.refl s
  · exact (link_keeps s { s.link with busMaster := on }).trans (regainIf_keeps s (setBusMaster on s))

theorem porstReleaseBody_keeps (s : State) : Keeps s (porstReleaseBody s) := by
  unfold porstReleaseBody
  split
  · exact pins_keeps _ _ _
  · exact Keeps.refl s

/-- A command that is no access is an event of the part, and its body keeps the queues, the capture, the route table and the port. -/
theorem exec_event_keeps {c : Instr} (h : accessOf c = none) (s : State) : ∃ t, exec c s = .next t ∧ Keeps s t := by
  cases c with
  | intakeHeadTaken => exact ⟨_, rfl, (intakeBody_keeps s).trans (drainWaiting_keeps _)⟩
  | edgeLatchTaken pin => exact ⟨_, rfl, edgeBody_keeps pin s⟩
  | levelOfferTaken pin => exact ⟨_, rfl, levelBody_keeps pin s⟩
  | faultArrival cause => exact ⟨_, rfl, faultBody_keeps cause s⟩
  | evtInputChange pin level => exact ⟨_, rfl, inputChange_keeps pin level s⟩
  | filteredLevelChange pin => exact ⟨_, rfl, filtered_keeps pin s⟩
  | groupWalkSlot => exact ⟨_, rfl, groupWalkBody_keeps s⟩
  | targetOnlineWalkSlot => exact ⟨_, rfl, onlineWalkBody_keeps s⟩
  | holdOffExpiry entry => exact ⟨_, rfl, holdOffBody_keeps entry s⟩
  | claimDeadlineExpiry target => exact ⟨_, rfl, deadlineBody_keeps target s⟩
  | waitTimerExpiry => exact ⟨_, rfl, waitBody_keeps s⟩
  | linkUp => exact ⟨_, rfl, linkUpBody_keeps s⟩
  | linkDown => exact ⟨_, rfl, linkDownBody_keeps s⟩
  | busMasterEnableWrite on => exact ⟨_, rfl, busMasterBody_keeps on s⟩
  | functionReset link => exact ⟨_, rfl, functionReset_keeps link s⟩
  | powerOnReset => exact ⟨_, rfl, powerOn_keeps s⟩
  | porstRelease => exact ⟨_, rfl, porstReleaseBody_keeps s⟩
  | _ => cases h

/-- Every command is an access that the link delivers, or an event of the part. -/
theorem exec_keeps {c : Instr} {s t : State} (h : exec c s = .next t) : Keeps s t := by
  cases ha : accessOf c with
  | some op =>
    rw [exec_of_access ha] at h
    cases h
    exact linkDeliver_keeps op s
  | none =>
    obtain ⟨u, hu, k⟩ := exec_event_keeps ha s
    rw [hu] at h
    cases h
    exact k

theorem runDue_keeps (d : DueEvent) (s : State) : Keeps s (runDue d s) := by
  cases d with
  | holdOff e => exact holdOffBody_keeps e s
  | deadline t => exact deadlineBody_keeps t s
  | wait => exact waitBody_keeps s
  | level p => exact filtered_keeps p s
  | regain t => exact regainOne_keeps s t

theorem idle_keeps (s : State) : Keeps s (idle s) := by
  unfold idle
  split
  · exact ⟨rfl, id, id, id, id, id, id, id⟩
  · exact runDue_keeps _ s
  · exact (nextFree_frame s).keeps.trans (runDue_keeps _ _)

/-- What a step keeps, but for the queue: the state that the front command runs on differs from the step's own in its queue alone. -/
theorem step_keeps {s t : State} (h : step s = .next t) : Keeps { s with pending := t.pending } t := by
  unfold step at h
  split at h
  · cases h
    rw [(idle_keeps s).pending]
    exact idle_keeps s
  · have k := exec_keeps h
    rw [k.pending]
    exact k

/-- Settles O56: each command and each event of the part keeps the route table (Keeps), and so does the step that runs it. -/
theorem stepKeepsTheRouteTable : Obligations.StepKeepsTheRouteTable := by
  unfold Obligations.StepKeepsTheRouteTable
  exact ⟨fun s t hm h => (step_keeps h).distinct hm,
    fun s t hr hh h => (step_keeps h).records ⟨hr, hh⟩⟩

/-- Settles O8, from what the lookup's fold over the slots keeps: the best record found so far. -/
theorem lookupFindsTheLongestMatch : Obligations.LookupFindsTheLongestMatch := by
  unfold Obligations.LookupFindsTheLongestMatch
  exact fun s key => ⟨fun _ h => lookup_some h, lookup_none, fun r h => covers_iff key r h⟩

/-! ### The values of the resets -/

theorem reset_target (t : TargetId) : State.reset.targets[t] = Target.powerOn := Vector.getElem_replicate _

/-- An OFFLINE target has nothing deliverable, so its signals are at rest (R86, R89, R93). -/
theorem reset_signals : SignalsFollow State.reset := by
  intro t
  have hoff : State.reset.targets[t].state = .offline := by rw [reset_target]; rfl
  rw [deliverable_of_state (Or.inl hoff), reset_target]
  exact ⟨rfl, rfl, by simp [Target.powerOn]⟩

theorem reset_stacks_ordered : StacksOrdered State.reset := by
  intro t
  rw [reset_target]
  exact List.Pairwise.nil

/-- Settles O54: with every slot FREE, every target OFFLINE and every queue and the pool empty, each invariant holds. -/
theorem invariantsHoldAfterReset : Obligations.InvariantsHoldAfterReset := by
  unfold Obligations.InvariantsHoldAfterReset
  obtain ⟨intake, bounded, capture, distinct, ⟨records, held⟩, port⟩ := reset_invariants
  have sound : Sound [] State.reset := Sound.empty rfl rfl
  exact ⟨intake, bounded, capture, distinct, records, held, reset_signals, port, (stand_iff _).mp reset_st,
    (be_iff _).mp reset_be, reset_stacks_ordered, sound.distinct, sound.counts, reset_configs⟩

/-- What a function reset makes of a slot, by its state (R25). -/
theorem functionResetSlot_cases (r : Slot) :
    ((r.state = .active ∨ r.state = .held) → functionResetSlot r = { r with rotation := 0, held := Held.empty })
      ∧ (r.state = .retiring → functionResetSlot r = Slot.freeOf r.generation)
      ∧ (r.state = .free → functionResetSlot r = r) := by
  unfold functionResetSlot
  cases r.state <;> simp

/-- A pin after a function reset offers exactly if it is asserted under its sense, and is armed otherwise (R36, R40). -/
theorem functionResetPin_eq (x : Pin) : functionResetPin x =
    { x with latch := false, missDisarmed := false, armed := !asserted x, offer := asserted x } := by
  have hasserted : asserted { x with latch := false, armed := true, offer := false, missDisarmed := false } = asserted x := rfl
  unfold functionResetPin offerIfReady
  rw [hasserted]
  cases asserted x <;> rfl

/-- Settles O51: the reset maps one function over each bank, so each element has its own value. -/
theorem functionResetValues : Obligations.FunctionResetValues := by
  unfold Obligations.FunctionResetValues
  refine ⟨fun s l hp => ?_, fun s l hp => ⟨functionResetBody l s, rfl, ?_⟩⟩
  · show Host.Outcome.next (functionResetBody l s) = _
    unfold functionResetBody
    rw [if_pos hp]
  · unfold functionResetBody
    rw [if_neg (by rw [hp]; exact Bool.false_ne_true)]
    refine ⟨rfl, fun i => ?_, fun t => ?_, fun p => ?_⟩
    · rw [show (s.slots.map functionResetSlot)[i] = functionResetSlot s.slots[i] from Vector.getElem_map _ _]
      exact functionResetSlot_cases s.slots[i]
    · exact Vector.getElem_map _ _
    · exact (Vector.getElem_map _ _).trans (functionResetPin_eq s.pins[p])

/-- Settles O52: each bank is filled with one power-on value, and the inputs are carried over. -/
theorem powerOnResetValues : Obligations.PowerOnResetValues := by
  unfold Obligations.PowerOnResetValues
  intro s
  refine ⟨powerOnBody s, rfl, rfl, rfl, rfl, fun i => ?_, fun p => ?_, rfl, rfl, rfl, fun t => reset_target t, rfl, rfl, rfl,
    rfl, rfl, rfl⟩
  · exact Vector.getElem_replicate _
  · exact Vector.getElem_map _ _

/-! ### The end of a record and the counting of its items -/

theorem isOrphan_iff (n : Notice) : n.isOrphan = true ↔ ∃ late, n.phase = .inService late true := by
  unfold Notice.isOrphan
  cases n.phase <;> simp

theorem isInService_iff (n : Notice) : n.isInService = true ↔ ∃ late orphan, n.phase = .inService late orphan := by
  unfold Notice.isInService
  cases n.phase <;> simp

theorem isGathering_iff (n : Notice) : n.isGathering = true ↔ ∃ th x, n.phase = .gathering th x := by
  unfold Notice.isGathering
  cases n.phase <;> simp

theorem ownedBy_iff (s : State) (i : SlotId) (n : Notice) :
    ownedBy s i n = true ↔ n.slot = i ∧ n.generation = s.slots[i].generation ∧ n.isOrphan = false := by
  simp [ownedBy, and_assoc]

/-- The orphan test read off the phase. -/
theorem not_isOrphan_eq (n : Notice) : (!n.isOrphan) = match n.phase with
    | .inService _ orphan => !orphan
    | _ => true := by
  unfold Notice.isOrphan
  cases n.phase <;> rfl

/-- The report that finds the record RETIRING with nothing outstanding and a RETIRE waiting for it (R16, R166, R168). -/
theorem reportCeased_of_waited {s : State} {i : SlotId} {f : RetireFigures} (hr : s.slots[i].state = .retiring)
    (ho : outstanding s i = 0) (hf : s.port.flight = some (.retireWait i f)) :
    reportCeased i s = { s with
      slots := s.slots.set i (Slot.freeOf s.slots[i].generation)
      port := s.port.concluded .ok f.words } := by
  unfold reportCeased endRetireWait
  rw [hr, ho, freeSlot_port, hf]
  simp only [beq_self_eq_true, Bool.and_self, if_true]
  rfl

/-- The report that finds the record RETIRING with nothing outstanding and no RETIRE waiting for it (R16). -/
theorem reportCeased_of_unwaited {s : State} {i : SlotId} (hr : s.slots[i].state = .retiring)
    (ho : outstanding s i = 0) (hf : ∀ f, s.port.flight ≠ some (.retireWait i f)) :
    reportCeased i s = { s with slots := s.slots.set i (Slot.freeOf s.slots[i].generation) } := by
  rw [reportCeased_eq i hf, hr, ho]
  rfl

/-- A report of a record that is not RETIRING, or has items left, changes nothing (R16). -/
theorem reportCeased_of_kept {s : State} {i : SlotId} (h : s.slots[i].state ≠ .retiring ∨ outstanding s i ≠ 0) :
    reportCeased i s = s := by
  unfold reportCeased
  rw [if_neg]
  simpa [imp_iff_not_or] using h

/-- Settles O16: the report's two branches, and each test on a notice read off its phase. -/
theorem lastItemFreesTheRecord : Obligations.LastItemFreesTheRecord := by
  unfold Obligations.LastItemFreesTheRecord
  intro s i
  refine ⟨fun hr ho => ⟨fun f hf => reportCeased_of_waited hr ho hf, reportCeased_of_unwaited hr ho⟩,
    reportCeased_of_kept, ?_, fun _ => rfl, fun n => ⟨ownedBy_iff s i n, isOrphan_iff n, isInService_iff n, isGathering_iff n⟩⟩
  unfold outstanding
  rw [countNotices_eq]
  unfold ownedBy
  simp only [not_isOrphan_eq] <;> rfl

/-! ### The record commands that pass their checks -/

/-- A COMMAND write of a ready part runs the command of its code on the port that has taken it (R142, R144). -/
theorem exec_command {c : Instr} {code : BitVec 8} {s : State} (h : commandReady s)
    (hc : accessOf c = some (.command code)) : exec c s = .next (commandBody code.toNat (startCommand code s)) := by
  rw [exec_of_access hc, serve_command_of_commandReady h]

theorem slotId_start (code : BitVec 8) (s : State) : slotId (startCommand code s) = namedSlot s :=
  slotId_eq (start_operands code s)

/-- An IDLE port has no RETIRE waiting. -/
theorem no_retireWait {s : State} (h : commandReady s) (i : SlotId) (f : RetireFigures) :
    s.port.flight ≠ some (.retireWait i f) := by
  rw [h.2]
  exact (Option.some_ne_none _).symm

/-- The target list of an image that has passed its checks, from the operand words (R198). -/
theorem imageTargets_start {c : Instr} (hc : c = .install ∨ c = .modify) (code : BitVec 8) {s : State}
    (hf : firstFailing (checks c s) = none) :
    imageTargets (imageOf (startCommand code s)) = (listedTargets s.port.operands[3]).map (Fin.ofNat 8) :=
  congrArg (List.map (Fin.ofNat 8)) (listed_eq _ (start_operands code s) (list_le c hc hf))

theorem installError_start {s : State} (code : BitVec 8) (hf : firstFailing (checks .install s) = none) :
    installError (startCommand code s) = none := by
  rw [installError_eq _ (start_operands code s), checks_start, hf]

theorem modifyError_start {s : State} (code : BitVec 8) (hf : firstFailing (checks .modify s) = none) :
    modifyError (startCommand code s) = none := by
  rw [modifyError_eq _ (start_operands code s), checks_start, hf]

theorem holdError_start {s : State} (code : BitVec 8) (hf : firstFailing (checks .hold s) = none) :
    holdError (startCommand code s) = none := by
  rw [(holdError_eq _ (start_operands code s)).1, checks_start, hf]

/-- The end of a command on a port that has taken it (R144, R146). -/
theorem endCommand_of_taken {s u : State} {code : BitVec 8} (h : u.port = s.port.taken code) (c : ResultCode)
    (ws : List Word) : endCommand c ws u = { u with port := s.port.ended code c ws } := by
  unfold endCommand modPort
  rw [h]
  rfl

/-- The end of a command that has re-armed every miss-disarmed pin (R38, R146). -/
theorem endCommand_rearmed {s u : State} {code : BitVec 8} (h : u.port = s.port.taken code) (c : ResultCode)
    (ws : List Word) : endCommand c ws (rearmMissDisarmed u) = { u with
      pins := Vector.ofFn fun p => clearMissDisarmed u.pins[p]
      port := s.port.ended code c ws } := by
  rw [endCommand_of_taken ((rearmMissDisarmed_port u).trans h)]
  simp

theorem installBody_passed {u : State} {i : SlotId} (hi : slotId u = i) (h : installError u = none) : installBody u =
    endCommand .ok [installWord i (u.slots[i].generation + 1)]
      (rearmMissDisarmed (modSlot i (fun r => installedSlot r (startStateCode u) (imageOf u)) u)) := by
  subst hi
  unfold installBody
  rw [h]

/-- Settles O40: the checks pass, so the slot is filled from the image, whose fields are those of the operand words. -/
theorem installFillsTheSlot : Obligations.InstallFillsTheSlot := by
  unfold Obligations.InstallFillsTheSlot
  intro s hready hchecks
  rw [exec_command hready (code := 0x01) rfl]
  refine congrArg Host.Outcome.next ?_
  have hbody := installBody_passed (slotId_start 0x01 s) (installError_start 0x01 hchecks)
  refine hbody.trans ?_
  rw [endCommand_rearmed (s := s) rfl]
  unfold installedSlot
  rw [imageTargets_start (Or.inl rfl) 0x01 hchecks]
  rfl

/-- A MODIFY that passes its checks (R19, R153). -/
theorem modify_passed {s : State} (hready : commandReady s) (hchecks : firstFailing (checks .modify s) = none) :
    let i := namedSlot s
    let ops := s.port.operands
    exec .modify s = .next { s with
      slots := s.slots.set i { s.slots[i] with
        targets := (listedTargets ops[3]).map (Fin.ofNat 8)
        mode := if field ops[2] 8 2 = 0 then .first else if field ops[2] 8 2 = 1 then .rotate else .all
        rotation := 0
        level := Fin.ofNat 16 (field ops[2] 16 5)
        threshold := field ops[2] 24 8
        holdOff := field ops[4] 0 16
        rearm := if field ops[2] 12 2 = 0 then .auto else .explicit }
      port := s.port.ended 0x02 .ok [] } := by
  rw [exec_command hready (code := 0x02) rfl]
  refine congrArg Host.Outcome.next ?_
  show modifyBody (startCommand 0x02 s) = _
  unfold modifyBody
  rw [modifyError_start 0x02 hchecks]
  dsimp only
  unfold modSlot modifiedSlot
  rw [imageTargets_start (Or.inr rfl) 0x02 hchecks]
  rfl

/-- A HOLD that passes its checks (R13, R154). -/
theorem hold_passed {s : State} (hready : commandReady s) (hchecks : firstFailing (checks .hold s) = none) :
    exec .hold s = .next { s with
      slots := s.slots.set (namedSlot s) { s.slots[namedSlot s] with state := .held }
      port := s.port.ended 0x03 .ok [] } := by
  rw [exec_command hready (code := 0x03) rfl]
  refine congrArg Host.Outcome.next ?_
  show holdBody (startCommand 0x03 s) = _
  unfold holdBody
  rw [holdError_start 0x03 hchecks]
  rfl

theorem releaseBody_passed {u : State} {i : SlotId} (hi : slotId u = i) (h : holdError u = none) : releaseBody u =
    endCommand .ok [releaseWord u.slots[i].held (releasePlaces u i)]
      (rearmMissDisarmed (if u.slots[i].state = .held then releaseRecord i u else u)) := by
  subst hi
  unfold releaseBody
  rw [h]

theorem releasePlaces_iff (s : State) (i : SlotId) : releasePlaces s i = true ↔
    s.slots[i].state = .held ∧ s.slots[i].held.count ≠ 0 ∧ ∃ t ∈ s.slots[i].targets, placeable s t = true := by
  simp [releasePlaces, hasPlaceable, and_assoc]

/-- A release that places nothing makes the record ACTIVE and no more; an ACTIVE record stays as it is (R14). -/
theorem releaseRecord_unplaced {s : State} {i : SlotId} (hp : releasePlaces s i = false)
    (hs : s.slots[i].state = .active ∨ s.slots[i].state = .held) :
    (if s.slots[i].state = .held then releaseRecord i s else s) = modSlot i (fun r => { r with state := .active }) s := by
  rcases hs with hs | hs
  · rw [if_neg (by rw [hs]; exact SlotState.noConfusion)]
    unfold modSlot
    dsimp only
    rw [slot_eta_active _ hs, slots_set_self]
  · rw [if_pos hs]
    unfold releaseRecord
    rw [hp]
    rfl

/-- A release that places the held count: the record is ACTIVE, the count is placed and the targets are judged (R14, R87). -/
theorem releaseRecord_placed {s : State} {i : SlotId} (hp : releasePlaces s i = true) :
    (if s.slots[i].state = .held then releaseRecord i s else s)
      = settle (placeHeld i (modSlot i (fun r => { r with state := .active }) s)) := by
  rw [if_pos ((releasePlaces_iff s i).mp hp).1]
  unfold releaseRecord
  rw [hp]
  rfl

/-- A RELEASE that places nothing (R14, R38, R154). -/
theorem release_unplaced {s : State} (hready : commandReady s) (hchecks : firstFailing (checks .release s) = none)
    (hp : releasePlaces s (namedSlot s) = false) :
    exec .release s = .next { s with
      slots := s.slots.set (namedSlot s) { s.slots[namedSlot s] with state := .active }
      pins := Vector.ofFn fun p => clearMissDisarmed s.pins[p]
      port := s.port.ended 0x04 .ok [releaseWord s.slots[namedSlot s].held false] } := by
  have hplaces : releasePlaces (startCommand 0x04 s) (namedSlot s) = false := hp
  rw [exec_command hready (code := 0x04) rfl]
  refine congrArg Host.Outcome.next ?_
  refine (releaseBody_passed (slotId_start 0x04 s) (holdError_start 0x04 hchecks)).trans ?_
  rw [hplaces, releaseRecord_unplaced hplaces (hold_states (Or.inr rfl) hchecks),
    endCommand_rearmed (s := s) rfl]
  rfl

/-- A RELEASE that places the held count (R14, R38, R87, R154): no RETIRE waits, so the placement leaves the port alone. -/
theorem release_placed {s : State} (hready : commandReady s) (hchecks : firstFailing (checks .release s) = none)
    (hp : releasePlaces s (namedSlot s) = true) :
    let v := settle (placeHeld (namedSlot s) { s with
      slots := s.slots.set (namedSlot s) { s.slots[namedSlot s] with state := .active }
      port := s.port.taken 0x04 })
    exec .release s = .next { v with
      pins := Vector.ofFn fun p => clearMissDisarmed v.pins[p]
      port := s.port.ended 0x04 .ok [releaseWord s.slots[namedSlot s].held true] } := by
  intro v
  have hplaces : releasePlaces (startCommand 0x04 s) (namedSlot s) = true := hp
  have hport : v.port = s.port.taken 0x04 := by
    rw [(settle_pool _).2.2.2.2.2]
    exact keptPort_eq (placeHeld_outer _ _).port (no_retireWait hready)
  rw [exec_command hready (code := 0x04) rfl]
  refine congrArg Host.Outcome.next ?_
  refine (releaseBody_passed (slotId_start 0x04 s) (holdError_start 0x04 hchecks)).trans ?_
  have hrecord : (if (startCommand 0x04 s).slots[namedSlot s].state = .held then
      releaseRecord (namedSlot s) (startCommand 0x04 s) else startCommand 0x04 s) = v := releaseRecord_placed hplaces
  rw [hplaces, hrecord]
  exact endCommand_rearmed hport _ _

/-- Settles O41: each command's body once its checks pass; RELEASE splits on whether it places the held count. -/
theorem modifyHoldAndRelease : Obligations.ModifyHoldAndRelease := by
  unfold Obligations.ModifyHoldAndRelease
  refine ⟨fun s => modify_passed, fun s hready => ⟨hold_passed hready, fun hchecks => ⟨fun hcase => ?_, fun hheld hcount htarget => ?_⟩⟩⟩
  · have hplaces : releasePlaces s (namedSlot s) = false := by
      rw [Bool.eq_false_iff, ne_eq, releasePlaces_iff]
      rintro ⟨hheld, hcount, t, ht, hp⟩
      rcases hcase with h | h | h
      · rw [hheld] at h
        cases h
      · exact hcount h
      · rw [h t ht] at hp
        cases hp
    exact release_unplaced hready hchecks hplaces
  · exact release_placed hready hchecks ((releasePlaces_iff s _).mpr ⟨hheld, hcount, htarget⟩)

theorem allOffline_of {s : State} (h : ∀ t : TargetId, s.targets[t].state = .offline) : allOffline s = true := by
  unfold allOffline
  rw [List.all_eq_true]
  intro c hc
  obtain ⟨k, hk, rfl⟩ := List.mem_iff_getElem.mp hc
  rw [Vector.length_toList] at hk
  rw [beq_iff_eq]
  exact h ⟨k, hk⟩

/-- A cleared table: every slot FREE with its generation, and each pin re-armed once for each held count that has it (R11, R18, R37). -/
theorem clearTable_eq (s : State) : clearTable s = { s with
    slots := s.slots.map fun r => Slot.freeOf r.generation
    pins := (clearTable s).pins } := by
  obtain ⟨v, hv⟩ := foldl_rearmPins_rest (heldSets s) { s with slots := s.slots.map fun r => Slot.freeOf r.generation }
  have h : clearTable s = { s with slots := s.slots.map fun r => Slot.freeOf r.generation, pins := v } := hv
  rw [h]

theorem clearTable_pins (s : State) (p : PinId) : (clearTable s).pins[p]
    = Nat.repeat rearmPin (s.slots.toList.countP fun r => r.held.pins.getLsbD p) s.pins[p] := by
  refine (foldl_rearmPins_pins _ _ p).trans ?_
  unfold heldSets
  rw [List.countP_map]
  rfl

/-- Settles O44: with every target OFFLINE the table is cleared, each held count making its re-arm requests in turn. -/
theorem tableClearFreesEveryRecord : Obligations.TableClearFreesEveryRecord := by
  unfold Obligations.TableClearFreesEveryRecord
  intro s hready hoff
  have hexec : exec .tableClear s
      = .next (endCommand .ok [countWord (recordCount s)] (clearTable (startCommand 0x10 s))) := by
    rw [exec_command hready (code := 0x10) rfl]
    refine congrArg Host.Outcome.next ?_
    show tableClearBody (startCommand 0x10 s) = _
    unfold tableClearBody
    rw [allOffline_of (s := startCommand 0x10 s) hoff]
    rfl
  refine ⟨_, hexec, ?_, fun i => ?_, fun p => clearTable_pins (startCommand 0x10 s) p, ?_⟩
  all_goals rw [clearTable_eq]
  · rfl
  · exact Vector.getElem_map _ _
  · rfl

/-! ### What a retirement leaves alone -/

/-- A state that differs from another in one slot and in what the notice operations may change is that state with these fields replaced. -/
theorem Outer.eq_set {s v : State} (h : Outer s v) (hfsu : v.fsu = s.fsu) (i : SlotId) (hslots : SlotsBut i s v) :
    v = { s with
      slots := s.slots.set i v.slots[i]
      pool := v.pool, order := v.order, deferred := v.deferred, pins := v.pins, targets := v.targets
      port := v.port, notifyWrites := v.notifyWrites, free := v.free } := by
  rw [← slots_eq_set i hslots, ← h.now, ← h.porst, ← h.link, ← h.intake, ← h.answers, ← h.pending, ← hfsu]

/-- The record once it has become RETIRING with its held count discarded (R163). -/
def retiringSlot (r : Slot) (mode : RetireMode) : Slot :=
  { r with state := .retiring, held := Held.empty, retireMode := some mode }

/-- The first two steps of a retirement: the record is RETIRING and its held count is discarded (R163). -/
def beginRetire (i : SlotId) (mode : RetireMode) (s : State) : State :=
  discardHeld i (modSlot i (fun r => { r with state := .retiring, retireMode := some mode }) s)

theorem retireRecord_begin (i : SlotId) (mode : RetireMode) (s : State) :
    retireRecord i mode s = settle (reportCeased i (treatItems i mode (beginRetire i mode s))) := rfl

theorem beginRetire_slots (i : SlotId) (mode : RetireMode) (s : State) :
    (beginRetire i mode s).slots = s.slots.set i (retiringSlot s.slots[i] mode) := by
  unfold beginRetire
  rw [discardHeld_slot, modSlot_slots, slot_get_set, if_pos rfl, Vector.set_set]
  rfl

theorem beginRetire_slot (i : SlotId) (mode : RetireMode) (s : State) :
    (beginRetire i mode s).slots[i] = retiringSlot s.slots[i] mode := by
  rw [beginRetire_slots, slot_get_set, if_pos rfl]

theorem beginRetire_rest (i : SlotId) (mode : RetireMode) (s : State) :
    (beginRetire i mode s).pool = s.pool ∧ (beginRetire i mode s).deferred = s.deferred
      ∧ (beginRetire i mode s).fsu = s.fsu ∧ (beginRetire i mode s).port = s.port := by
  obtain ⟨pool, deferred, -, fsu, port⟩ := discardHeld_rest i (modSlot i (fun r => { r with state := .retiring, retireMode := some mode }) s)
  exact ⟨pool, deferred, fsu, port⟩

theorem beginRetire_ownedBy (i : SlotId) (mode : RetireMode) (s : State) : ownedBy (beginRetire i mode s) i = ownedBy s i := by
  unfold ownedBy
  rw [beginRetire_slot]
  rfl

theorem retireRecord_outer (i : SlotId) (mode : RetireMode) (s : State) : Outer s (retireRecord i mode s) :=
  ((modSlot_outer _ _ _).trans (discardHeld_outer _ _)).trans
    (((treatItems_frame _ _ _).trans (reportCeased_frame _ _)).trans (settle_frame _)).outer

theorem retireRecord_fsu (i : SlotId) (mode : RetireMode) (s : State) : (retireRecord i mode s).fsu = s.fsu := by
  rw [retireRecord_begin, settle_fsu, reportCeased_fsu, treatItems_fsu, (beginRetire_rest i mode s).2.2.1]

/-- A retirement leaves its record FREE or RETIRING (R163, R166). -/
theorem retireRecord_slot (i : SlotId) (mode : RetireMode) (s : State) :
    (retireRecord i mode s).slots[i] = retiringSlot s.slots[i] mode
      ∨ (retireRecord i mode s).slots[i] = Slot.freeOf s.slots[i].generation := by
  have h := (((treatItems_frame i mode (beginRetire i mode s)).trans (reportCeased_frame i _)).trans (settle_frame _)).slot i
  rw [beginRetire_slot, ← retireRecord_begin] at h
  exact h.imp_right And.right

/-- Under DISCARD no pair and no GATHERING or PENDING notice of the record is left (R164). -/
theorem retireRecord_discard_gone (i : SlotId) (s : State) :
    (∀ d ∈ (retireRecord i .discard s).deferred, d.slot ≠ i) ∧
      ∀ (e : EntryId) (n : Notice), (retireRecord i .discard s).pool[e] = some n → n.slot = i →
        n.generation = s.slots[i].generation → n.isOrphan = false → n.isInService = true := by
  have h := discardItems_gone i (beginRetire i .discard s)
  rw [beginRetire_slot] at h
  rw [retireRecord_begin, (settle_pool _).1, (settle_pool _).2.1, (reportCeased_same i _).1, (reportCeased_same i _).2.1]
  exact h

/-- Under DRAIN the record's pairs stay and its GATHERING notices are PENDING (R165). -/
theorem retireRecord_drain_items {s : State} (i : SlotId) (hf : ∀ f, s.port.flight ≠ some (.retireWait i f)) :
    (retireRecord i .drain s).deferred = s.deferred ∧ ∀ e ∈ s.order, (retireRecord i .drain s).pool[e] = (s.pool[e]).map fun n =>
      if n.isGathering && ownedBy s i n then { n with phase := .pending } else n := by
  rw [retireRecord_drain i hf, (settle_pool _).1, (settle_pool _).2.1, drain_deferred]
  refine ⟨withPins_deferred _ _, fun e he => ?_⟩
  rw [drain_pool, withPins_pool]
  have hmem := mem_inCreationOrder s (fun n => n.isGathering && ownedBy s i n) e
  cases hp : s.pool[e] with
  | none => simp
  | some n =>
    rw [hp] at hmem
    by_cases hn : (n.isGathering && ownedBy s i n) = true
    · rw [if_pos (hmem.mpr ⟨he, n, rfl, hn⟩), Option.map_some, Option.map_some, if_pos hn]
      unfold Notice.ripened
      rw [if_pos (Bool.and_eq_true_iff.mp hn).1]
    · have hkept : e ∉ inCreationOrder s fun n => n.isGathering && ownedBy s i n := by
        rw [hmem]
        rintro ⟨-, m, hm, hq⟩
        cases hm
        exact hn hq
      rw [if_neg hkept, Option.map_some, if_neg hn]

/-! ### A retirement of a record with nothing outstanding -/

theorem settle_freeSlot (i : SlotId) (s : State) : settle (freeSlot i s) = freeSlot i (settle s) := by
  unfold freeSlot modSlot
  rw [(settle_pool s).2.2.2.1]
  exact settle_slots _ _

theorem settle_outstanding (i : SlotId) (s : State) : outstanding (settle s) i = outstanding s i := by
  unfold outstanding countNotices ownedBy
  rw [(settle_pool s).1, (settle_pool s).2.1, (settle_pool s).2.2.2.1]

/-- With nothing outstanding no item is there to treat; under DISCARD the targets are judged all the same (R164). -/
theorem treatItems_of_none {s : State} {i : SlotId} (h : outstanding s i = 0) (mode : RetireMode) :
    treatItems i mode s = s ∨ treatItems i mode s = settle s := by
  obtain ⟨hnotices, hpairs⟩ := outstanding_zero.mp h
  cases mode with
  | discard =>
    right
    have hnone : s.deferred.filter (fun d => d.slot == i) = [] :=
      List.filter_eq_nil_iff.mpr fun d hd => by simpa using hpairs d hd
    have hall : s.deferred.filter (fun d => !(d.slot == i)) = s.deferred :=
      List.filter_eq_self.mpr fun d hd => by simpa using hpairs d hd
    have hkept : ceasePairs (fun d => d.slot == i) s = s := by
      unfold ceasePairs
      rw [hnone, hall, List.foldl_nil]
    have hempty : (ascending s fun n => n.unclaimed && ownedBy s i n) = [] := by
      refine List.eq_nil_iff_forall_not_mem.mpr fun e he => ?_
      obtain ⟨n, hn, hq⟩ := (mem_ascending s _ e).mp he
      rw [hnotices e n hn, Bool.and_false] at hq
      cases hq
    show ceaseAll (ascending s fun n => n.unclaimed && ownedBy s i n) (ceasePairs (fun d => d.slot == i) s) = settle s
    rw [hkept, hempty]
    rfl
  | drain =>
    left
    have hempty : (inCreationOrder s fun n => n.isGathering && ownedBy s i n) = [] := by
      refine List.eq_nil_iff_forall_not_mem.mpr fun e he => ?_
      obtain ⟨-, n, hn, hq⟩ := (mem_inCreationOrder s _ e).mp he
      rw [hnotices e n hn, Bool.and_false] at hq
      cases hq
    show (inCreationOrder s fun n => n.isGathering && ownedBy s i n).foldl _ s = s
    rw [hempty, List.foldl_nil]

/-- A retirement of a record with nothing outstanding sends it to FREE at once (R164 to R166). -/
theorem retireRecord_of_none {s : State} {i : SlotId} (h : outstanding s i = 0)
    (hf : ∀ f, s.port.flight ≠ some (.retireWait i f)) (mode : RetireMode) :
    retireRecord i mode s = settle (freeSlot i (beginRetire i mode s)) := by
  rw [retireRecord_begin]
  obtain ⟨pool, deferred, -, port⟩ := beginRetire_rest i mode s
  have hout : outstanding (beginRetire i mode s) i = 0 := by
    unfold outstanding countNotices
    rw [beginRetire_ownedBy, pool, deferred]
    exact h
  have hstate : (beginRetire i mode s).slots[i].state = .retiring := by
    rw [beginRetire_slot]
    rfl
  rw [← port] at hf
  generalize beginRetire i mode s = w at *
  rcases treatItems_of_none hout mode with e | e
  · rw [e, reportCeased_of_unwaited hstate hout hf]
    rfl
  · have hrest := settle_pool w
    rw [e, reportCeased_of_unwaited (by rw [hrest.2.2.2.1]; exact hstate) (by rw [settle_outstanding]; exact hout)
      (by rw [hrest.2.2.2.2.2]; exact hf)]
    show settle (freeSlot i (settle w)) = _
    rw [← settle_freeSlot, settle_settle]

/-! ### RETIRE -/

/-- The port that a RETIRE leaves: ended with OK if the record is FREE, with STARTED if not and there is no wait, and otherwise in flight with the wait timer running (R166). -/
def retirePort (s : State) (i : SlotId) (f : RetireFigures) (wait : Nat) (free : Bool) : Port :=
  if free then s.port.ended 0x07 .ok f.words
  else if wait = 0 then s.port.ended 0x07 .started f.words
  else { s.port.taken 0x07 with
    flight := some (.retireWait i f), waitTimer := some { start := s.now, limit := wait * 1000 } }

theorem retireEnd_eq {s v : State} (hport : v.port = s.port.taken 0x07) (hnow : v.now = s.now) (i : SlotId)
    (f : RetireFigures) (wait : Nat) :
    retireEnd i f wait v = { v with port := retirePort s i f wait (v.slots[i].state == .free) } := by
  unfold retireEnd retirePort
  by_cases hfree : v.slots[i].state = .free
  · rw [if_pos hfree, beq_iff_eq.mpr hfree, if_pos rfl, endCommand_of_taken hport]
  · rw [if_neg hfree, beq_false_of_ne hfree, if_neg Bool.false_ne_true]
    by_cases hwait : wait = 0
    · rw [if_pos hwait, if_pos hwait, endCommand_of_taken hport]
    · rw [if_neg hwait, if_neg hwait, ← hport, ← hnow]
      rfl

theorem retireBody_passed {u : State} {i : SlotId} (hi : slotId u = i) (h : retireError u = none) : retireBody u =
    retireEnd i (retireFigures u i (retireModeOf (retireModeCode u))) (waitLimit u)
      (retireRecord i (retireModeOf (retireModeCode u)) u) := by
  subst hi
  unfold retireBody
  rw [h]

/-- The record of a RETIRE that passes its checks is retired on a port that has no RETIRE waiting (R142, R163). -/
theorem retire_passed {s : State} (hready : commandReady s) (hchecks : firstFailing (checks .retire s) = none)
    {mode : RetireMode} (hmode : (if field s.port.operands[1] 16 2 = 0 then .discard else .drain) = mode) :
    let i := namedSlot s
    let v := retireRecord i mode (startCommand 0x07 s)
    exec .retire s = .next { v with
      port := retirePort s i (retireFigures s i mode) (field s.port.operands[1] 0 16) (v.slots[i].state == .free) } := by
  intro i v
  have herror : retireError (startCommand 0x07 s) = none := by
    rw [retireError_eq _ (start_operands 0x07 s), checks_start, hchecks]
  have hv := retireRecord_outer i mode (startCommand 0x07 s)
  have hport : v.port = s.port.taken 0x07 := keptPort_eq hv.port (no_retireWait hready)
  subst hmode
  rw [exec_command hready (code := 0x07) rfl, ← retireEnd_eq hport hv.now]
  exact congrArg Host.Outcome.next (retireBody_passed (slotId_start 0x07 s) herror)


/-- The same, where the retirement is known in closed form but for the port. -/
theorem retire_passed_eq {s w : State} (hready : commandReady s) (hchecks : firstFailing (checks .retire s) = none)
    {mode : RetireMode} (hmode : (if field s.port.operands[1] 16 2 = 0 then .discard else .drain) = mode)
    (hw : retireRecord (namedSlot s) mode (startCommand 0x07 s) = { w with port := s.port.taken 0x07 }) {free : Bool}
    (hfree : (w.slots[namedSlot s].state == .free) = free) :
    exec .retire s = .next { w with
      port := retirePort s (namedSlot s) (retireFigures s (namedSlot s) mode) (field s.port.operands[1] 0 16) free } := by
  have hexec := retire_passed hready hchecks hmode
  dsimp only at hexec
  rw [hw, hfree] at hexec
  exact hexec

/-- What every RETIRE that passes its checks changes, and what it leaves of its record (R163 to R166). -/
theorem retire_outcome {s : State} (hready : commandReady s) (hchecks : firstFailing (checks .retire s) = none) :
    let i := namedSlot s
    let wait := field s.port.operands[1] 0 16
    let mode : RetireMode := if field s.port.operands[1] 16 2 = 0 then .discard else .drain
    let f := retireFigures s i mode
    ∃ u, exec .retire s = .next u
      ∧ u = { s with
          slots := s.slots.set i u.slots[i]
          pool := u.pool, order := u.order, deferred := u.deferred, pins := u.pins, targets := u.targets
          port := u.port, notifyWrites := u.notifyWrites, free := u.free }
      ∧ (∀ t : TargetId, u.targets[t] = { s.targets[t] with
          lists := u.targets[t].lists, ntf := u.targets[t].ntf, deliverable := u.targets[t].deliverable
          deadlineStart := u.targets[t].deadlineStart, writeOwed := u.targets[t].writeOwed })
      ∧ (mode = .discard → (∀ d ∈ u.deferred, d.slot ≠ i) ∧
          ∀ (e : EntryId) (n : Notice), u.pool[e] = some n → n.slot = i → n.generation = s.slots[i].generation →
            n.isOrphan = false → n.isInService = true)
      ∧ (mode = .drain → u.deferred = s.deferred ∧ ∀ e ∈ s.order, u.pool[e] = (s.pool[e]).map fun n =>
          if n.isGathering && ownedBy s i n then { n with phase := .pending } else n)
      ∧ (u.slots[i] = Slot.freeOf s.slots[i].generation ∧ u.port = s.port.ended 0x07 .ok f.words
          ∨ u.slots[i] = { s.slots[i] with state := .retiring, held := Held.empty, retireMode := some mode }
            ∧ (wait = 0 → u.port = s.port.ended 0x07 .started f.words)
            ∧ (wait ≠ 0 → u.port = { s.port.taken 0x07 with
                flight := some (.retireWait i f), waitTimer := some { start := s.now, limit := wait * 1000 } })) := by
  intro i wait mode f
  have hexec := retire_passed hready hchecks (mode := mode) rfl
  have houter := retireRecord_outer i mode (startCommand 0x07 s)
  have hset := houter.eq_set (retireRecord_fsu i mode _) i (retireRecord_but i mode _)
  have hslot := retireRecord_slot i mode (startCommand 0x07 s)
  have hdiscard : mode = .discard → _ := fun h => h ▸ retireRecord_discard_gone i (startCommand 0x07 s)
  have hdrain : mode = .drain → _ :=
    fun h => h ▸ retireRecord_drain_items (s := startCommand 0x07 s) i (no_retireWait hready i)
  dsimp only at hexec
  generalize retireRecord i mode (startCommand 0x07 s) = v at *
  refine ⟨_, hexec, ?_, houter.target, hdiscard, hdrain, ?_⟩
  · exact congrArg (fun w : State => { w with port := retirePort s i f wait (v.slots[i].state == SlotState.free) }) hset
  · rcases hslot with h | h
    · right
      have hbusy : (v.slots[i].state == .free) = false := by rw [h]; rfl
      refine ⟨h, fun h0 => ?_, fun h0 => ?_⟩
      · show retirePort s i f wait (v.slots[i].state == .free) = _
        rw [hbusy]
        exact if_pos h0
      · show retirePort s i f wait (v.slots[i].state == .free) = _
        rw [hbusy]
        exact if_neg h0
    · left
      have hfree : (v.slots[i].state == .free) = true := by rw [h]; rfl
      refine ⟨h, ?_⟩
      show retirePort s i f wait (v.slots[i].state == .free) = _
      rw [hfree]
      rfl


/-- A retirement's figures of a record with nothing outstanding count no notice and no pair (R164, R165). -/
theorem retireFigures_of_none {s : State} {i : SlotId} (h : outstanding s i = 0) (mode : RetireMode) :
    retireFigures s i mode =
      { heldCount := s.slots[i].held.count, heldOverflow := s.slots[i].held.overflow, notices := 0, pairs := 0 } := by
  obtain ⟨hnotices, hpairs⟩ := outstanding_zero.mp h
  have hcount (q : Notice → Bool) : countNotices s (fun n => ownedBy s i n && q n) = 0 :=
    countNotices_zero.mpr fun e n hn => by rw [hnotices e n hn, Bool.false_and]
  have hpair : (s.deferred.countP fun d => d.slot == i) = 0 :=
    List.countP_eq_zero.mpr fun d hd => by simpa using hpairs d hd
  unfold retireFigures itemCounts
  cases mode with
  | discard => simp only [hcount, hpair]
  | drain => simp only [hcount]

/-- The result words of a retirement that counted no item (R199). -/
theorem retireWords_of_none (count : Nat) (overflow : Bool) :
    ({ heldCount := count, heldOverflow := overflow, notices := 0, pairs := 0 } : RetireFigures).words
      = [place 0 16 count ||| placeFlag 16 overflow, 0] := by
  have hheld : pack [place 0 16 count, placeFlag 16 overflow] = place 0 16 count ||| placeFlag 16 overflow := by
    simp [pack]
  have hitems : pack [place 0 10 0, place 16 4 0] = 0 := by decide
  unfold RetireFigures.words
  rw [hheld, hitems]

/-- The slot FREE and the held pins re-armed: what a retirement leaves of a record with nothing outstanding. -/
theorem freeSlot_beginRetire (i : SlotId) (mode : RetireMode) (s : State) : freeSlot i (beginRetire i mode s) = { s with
    slots := s.slots.set i (Slot.freeOf s.slots[i].generation)
    pins := Vector.ofFn fun p => if s.slots[i].held.pins.getLsbD p then rearmPin s.pins[p] else s.pins[p] } := by
  unfold freeSlot modSlot
  rw [beginRetire_slot, beginRetire_slots, Vector.set_set]
  unfold beginRetire discardHeld setHeld retiringSlot
  simp

/-- A RETIRE of a record with nothing outstanding ends at once with the record FREE (R164 to R166). -/
theorem retire_of_none {s : State} (hready : commandReady s) (hchecks : firstFailing (checks .retire s) = none) :
    let i := namedSlot s
    outstanding s i = 0 →
    exec .retire s = .next { settle { s with
        slots := s.slots.set i (Slot.freeOf s.slots[i].generation)
        pins := Vector.ofFn fun p => if s.slots[i].held.pins.getLsbD p then rearmPin s.pins[p] else s.pins[p] } with
      port := s.port.ended 0x07 .ok
        [place 0 16 s.slots[i].held.count ||| placeFlag 16 s.slots[i].held.overflow, 0] } := by
  intro i hout
  have hnone : outstanding (startCommand 0x07 s) i = 0 := hout
  have hw (mode : RetireMode) : retireRecord i mode (startCommand 0x07 s)
      = { settle (freeSlot i (beginRetire i mode s)) with port := s.port.taken 0x07 } :=
    (retireRecord_of_none hnone (no_retireWait hready i) mode).trans (settle_port _ (freeSlot i (beginRetire i mode s)))
  have hfree (mode : RetireMode) : ((settle (freeSlot i (beginRetire i mode s))).slots[i].state == .free) = true := by
    rw [(settle_pool _).2.2.2.1, freeSlot_state]
    rfl
  rw [retire_passed_eq hready hchecks rfl (hw _) (hfree _), retireFigures_of_none hout, freeSlot_beginRetire,
    ← retireWords_of_none]
  rfl

/-- A RETIRE under DISCARD, in closed form (R69, R72, R164). -/
theorem retire_discard {s : State} (hready : commandReady s) (hchecks : firstFailing (checks .retire s) = none)
    (hS : NoticesStand s) (hmode : field s.port.operands[1] 16 2 = 0) :
    let i := namedSlot s
    let free := (itemCounts s i).inService == 0
    exec .retire s = .next { settle (handOverAll (discardable s i) (settle (discarded i
        (if free then Slot.freeOf s.slots[i].generation else retiringSlot s.slots[i] .discard) s))) with
      port := retirePort s i (retireFigures s i .discard) (field s.port.operands[1] 0 16) free } := by
  intro i free
  have hstand : Standing (startCommand 0x07 s) := ((stand_iff s).mpr hS).targets rfl rfl rfl
  refine retire_passed_eq hready hchecks (if_pos hmode) ?_ ?_
  · rw [retireRecord_discard hstand _ (no_retireWait hready _), ← settle_port, ← handOverAll_port, ← settle_port, ← discarded_port]
    simp only [free, beq_iff_eq]
    rfl
  · rw [(settle_pool _).2.2.2.1, handOverAll_slots, (settle_pool _).2.2.2.1, discarded_slots, slot_get_set, if_pos rfl]
    cases free <;> rfl

/-- The held count discarded and the record changed, before its notices ripen (R163, R165). -/
def beginDrain (i : SlotId) (r : Slot) (s : State) : State :=
  withPins (rearmPins s.slots[i].held.pins s).pins { s with slots := s.slots.set i r }

/-- A RETIRE under DRAIN, in closed form (R87, R165). -/
theorem retire_drain {s : State} (hready : commandReady s) (hchecks : firstFailing (checks .retire s) = none)
    (hmode : field s.port.operands[1] 16 2 ≠ 0) :
    let i := namedSlot s
    let free := outstanding s i == 0
    exec .retire s = .next { settle ((inCreationOrder s fun n => n.isGathering && ownedBy s i n).foldl
        (fun v e => settle (ripen e v)) (beginDrain i
          (if free then Slot.freeOf s.slots[i].generation else retiringSlot s.slots[i] .drain) s)) with
      port := retirePort s i (retireFigures s i .drain) (field s.port.operands[1] 0 16) free } := by
  intro i free
  refine retire_passed_eq hready hchecks (if_neg hmode) ?_ ?_
  · rw [retireRecord_drain (s := startCommand 0x07 s) _ (no_retireWait hready _), ← settle_port, ← drain_port]
    simp only [free, beq_iff_eq]
    rfl
  · rw [(settle_pool _).2.2.2.1, foldl_slots _ (fun v e => by rw [(settle_pool _).2.2.2.1, ripen_slots])]
    unfold beginDrain
    rw [withPins_slots, slot_get_set, if_pos rfl]
    cases free <;> rfl

theorem beginDrain_eq (i : SlotId) (r : Slot) (s : State) : beginDrain i r s = { s with
    slots := s.slots.set i r
    pins := Vector.ofFn fun p => if s.slots[i].held.pins.getLsbD p then rearmPin s.pins[p] else s.pins[p] } := by
  unfold beginDrain
  rw [rearmPins_pins]
  rfl

theorem beginDrain_rest (i : SlotId) (r : Slot) (s : State) : (beginDrain i r s).pool = s.pool
    ∧ (beginDrain i r s).order = s.order ∧ (beginDrain i r s).targets = s.targets := by
  unfold beginDrain withPins
  exact ⟨rfl, rfl, rfl⟩

/-- The notices that ripen under DRAIN join the tails of their lists, and the creation order stays (R60, R165). -/
theorem drained_places {s : State} (hS : NoticesStand s) (i : SlotId) (r : Slot) :
    let ripening := inCreationOrder s fun n => n.isGathering && ownedBy s i n
    let u := settle (ripening.foldl (fun v e => settle (ripen e v)) (beginDrain i r s))
    u.order = s.order ∧ ∀ (t : TargetId) (l : Level), u.targets[t].lists[l]
      = s.targets[t].lists[l] ++ ripening.filter fun e => (s.pool[e]).any fun n => n.target == t && n.level == l := by
  intro ripening u
  have hS' := (stand_iff s).mpr hS
  obtain ⟨pool, order, targets⟩ := beginDrain_rest i r s
  have hgathering : ∀ e ∈ ripening, ∃ n, (beginDrain i r s).pool[e] = some n ∧ n.isGathering = true := fun e he => by
    obtain ⟨-, n, hn, hq⟩ := (mem_inCreationOrder s _ e).mp he
    exact ⟨n, by rw [pool, hn], (Bool.and_eq_true_iff.mp hq).1⟩
  refine ⟨by rw [(settle_pool _).2.2.1, drain_order, order], fun t l => ?_⟩
  rw [settle_lists, drain_lists ripening _ (hS'.orderNodup.filter _) hgathering t l, pool, targets]

/-- Settles O48: what every RETIRE changes comes from the frame of a retirement, and each mode has its closed form. -/
theorem retireTreatsTheRecord : Obligations.RetireTreatsTheRecord := by
  unfold Obligations.RetireTreatsTheRecord
  refine ⟨fun s => retire_outcome, fun s => retire_of_none, fun s hready hchecks hS => ⟨fun hmode => ?_, fun hmode => ?_⟩⟩
  · exact retire_discard hready hchecks hS hmode
  · refine ⟨_, retire_drain hready hchecks hmode, ?_, drained_places hS _ _⟩
    rw [beginDrain_eq]
    rfl

/-! ### A forced retirement -/

/-- A record whose held count, pairs, and GATHERING and PENDING notices are discarded with no report (R170, steps 1 to 3). -/
def clearRecord (i : SlotId) (s : State) : State := dropItems i (discardable s i) (discardHeld i s)

theorem forceRetireRecord_clear (i : SlotId) (s : State) : forceRetireRecord i s
    = handOverAll (discardable s i) (freeSlot i (orphanItems i (settle (clearRecord i s)))) := by
  unfold clearRecord dropItems
  rw [discardable_eq]
  rfl

theorem clearRecord_slots (i : SlotId) (s : State) :
    (clearRecord i s).slots = s.slots.set i { s.slots[i] with held := Held.empty } := by
  unfold clearRecord dropItems
  rw [foldl_slots _ (fun s e => dropNotice_slots e s), (dropPairs_shape i _).2.2.1, discardHeld_slot]

theorem clearRecord_deferred (i : SlotId) (s : State) :
    (clearRecord i s).deferred = s.deferred.filter fun d => !(d.slot == i) := by
  unfold clearRecord dropItems
  rw [(foldl_shrinks _ (fun s e => dropNotice_shrinks e s) _ _).deferred, (dropPairs_shape i _).1, (discardHeld_rest i s).2.1]

theorem clearRecord_pool (i : SlotId) (s : State) (e : EntryId) :
    (clearRecord i s).pool[e] = if e ∈ discardable s i then none else s.pool[e] := by
  unfold clearRecord dropItems
  split
  · rename_i he
    exact foldl_gone _ (fun s e => dropNotice_shrinks e s) (fun s e => dropNotice_gone e s) _ _ e he
  · rename_i he
    rw [foldl_pool_other (fun s e d hd => dropNotice_other e d s hd) _ _ e he, (dropPairs_shape i _).2.1, (discardHeld_rest i s).1]

theorem clearRecord_fsu (i : SlotId) (s : State) : (clearRecord i s).fsu = s.fsu := by
  unfold clearRecord dropItems
  rw [foldl_fsu _ (fun s e => dropNotice_fsu e s), (dropPairs_shape i _).2.2.2, (discardHeld_rest i s).2.2.2.1]

theorem clearRecord_outer (i : SlotId) (s : State) : Outer s (clearRecord i s) :=
  (discardHeld_outer i s).trans
    ((dropPairs_frame i _).trans (Frame.foldl _ (fun s e => dropNotice_frame e s) _ _)).outer

/-- A cleared record keeps its generation, so the same notices are its own. -/
theorem clearRecord_ownedBy (i : SlotId) (s : State) : ownedBy (settle (clearRecord i s)) i = ownedBy s i := by
  unfold ownedBy
  rw [(settle_pool _).2.2.2.1, clearRecord_slots, slot_get_set, if_pos rfl]

/-- The pool once a record's IN_SERVICE notices are orphans (R17). -/
theorem orphanItems_pool (i : SlotId) (s : State) (e : EntryId) : (orphanItems i s).pool[e]
    = (s.pool[e]).map fun n => if n.isInService && ownedBy s i n then n.orphaned else n := by
  refine (orphan_pool _ s e).trans ?_
  have hmem := mem_ascending s (fun n => n.isInService && ownedBy s i n) e
  cases hp : s.pool[e] with
  | none => rw [Option.map_none, Option.map_none, ite_self]
  | some n =>
    simp only [hp, Option.some.injEq, exists_eq_left'] at hmem
    rw [Option.map_some, Option.map_some]
    simp only [hmem]
    split <;> rfl

/-- The pool of a forced retirement before the freed entries are handed over (R170, steps 3 and 4). -/
theorem cleared_orphans_pool (i : SlotId) (s : State) (e : EntryId) : (orphanItems i (settle (clearRecord i s))).pool[e]
    = if e ∈ discardable s i then none
      else (s.pool[e]).map fun n => if n.isInService && ownedBy s i n then n.orphaned else n := by
  rw [orphanItems_pool, clearRecord_ownedBy, (settle_pool _).1, clearRecord_pool]
  split <;> rfl

theorem forceRetireRecord_outer (i : SlotId) (s : State) : Outer s (forceRetireRecord i s) := by
  rw [forceRetireRecord_clear]
  exact ((clearRecord_outer i s).trans ((settle_frame _).trans (orphanItems_frame i _)).outer).trans
    ((modSlot_outer _ _ _).trans (handOverAll_frame _ _).outer)

theorem forceRetireRecord_fsu (i : SlotId) (s : State) : (forceRetireRecord i s).fsu = s.fsu := by
  rw [forceRetireRecord_clear, handOverAll_fsu, freeSlot_fsu, (orphan_rest i _).2.2, settle_fsu, clearRecord_fsu]

theorem forceRetireRecord_slots (i : SlotId) (s : State) :
    (forceRetireRecord i s).slots = s.slots.set i (Slot.freeOf s.slots[i].generation) := by
  rw [forceRetireRecord_clear, handOverAll_slots, freeSlot_slots, (orphan_rest i _).2.1, (settle_pool _).2.2.2.1,
    clearRecord_slots, slot_get_set, if_pos rfl, Vector.set_set]

theorem forceRetireRecord_deferred (i : SlotId) (s : State) :
    ∀ d ∈ (forceRetireRecord i s).deferred, d.slot ≠ i := by
  intro d hd
  rw [forceRetireRecord_clear] at hd
  have h := (handOverAll_descends _ _).deferred d hd
  rw [freeSlot_deferred, (orphan_rest i _).1, (settle_pool _).2.1, clearRecord_deferred] at h
  simpa using (List.mem_filter.mp h).2

theorem orphaned_isOrphan {n : Notice} (h : n.isInService = true) : n.orphaned.isOrphan = true := by
  obtain ⟨late, orphan, hp⟩ := (isInService_iff n).mp h
  unfold Notice.orphaned Notice.isOrphan
  rw [hp]

/-- No notice of the record is left but its orphans: one handed an entry belongs to a pair of another record (R170). -/
theorem forceRetireRecord_orphans (i : SlotId) (s : State) (e : EntryId) (n : Notice)
    (hn : (forceRetireRecord i s).pool[e] = some n) (hslot : n.slot = i) (hgen : n.generation = s.slots[i].generation) :
    n.isOrphan = true := by
  rw [forceRetireRecord_clear] at hn
  rcases (handOverAll_descends _ _).pool e n hn with ⟨m, hm, hlike⟩ | ⟨d, hd, hds, -⟩
  · obtain ⟨lslot, -, lgen, lorphan, -⟩ := hlike
    rw [freeSlot_pool, cleared_orphans_pool] at hm
    split at hm
    · cases hm
    · rename_i hkept
      obtain ⟨k, hk, rfl⟩ := Option.map_eq_some_iff.mp hm
      rw [lorphan]
      by_cases hserved : (k.isInService && ownedBy s i k) = true
      · rw [if_pos hserved]
        exact orphaned_isOrphan (Bool.and_eq_true_iff.mp hserved).1
      · rw [if_neg hserved] at lslot lgen ⊢
        by_contra horphan
        have horphan := eq_false_of_ne_true horphan
        have howned := (ownedBy_iff s i k).mpr ⟨lslot ▸ hslot, lgen ▸ hgen, horphan⟩
        rw [howned, Bool.and_true] at hserved
        exact hkept ((mem_discardable s i e).mpr
          ⟨k, hk, eq_false_of_ne_true hserved, horphan, lslot ▸ hslot, lgen ▸ hgen⟩)
  · rw [freeSlot_deferred, (orphan_rest i _).1, (settle_pool _).2.1, clearRecord_deferred] at hd
    have hother : d.slot ≠ i := by simpa using (List.mem_filter.mp hd).2
    exact absurd (hds ▸ hslot) hother

/-- Each IN_SERVICE notice of the record becomes an orphan and is changed in nothing else (R17, R170). -/
theorem forceRetireRecord_inService {i : SlotId} {s : State} {e : EntryId} {n : Notice} {late : Option Late}
    (hn : s.pool[e] = some n) (hslot : n.slot = i) (hgen : n.generation = s.slots[i].generation)
    (hphase : n.phase = .inService late false) :
    (forceRetireRecord i s).pool[e] = some { n with phase := .inService late true } := by
  have hserved : n.isInService = true := (isInService_iff n).mpr ⟨late, false, hphase⟩
  have horphan : n.isOrphan = false := by
    unfold Notice.isOrphan
    rw [hphase]
  have hkept : e ∉ discardable s i := by
    rw [mem_discardable]
    rintro ⟨m, hm, hms, -⟩
    rw [hn] at hm
    cases hm
    rw [hserved] at hms
    cases hms
  rw [forceRetireRecord_clear, handOverAll_other _ _ _ hkept, freeSlot_pool, cleared_orphans_pool, if_neg hkept, hn,
    Option.map_some, hserved, (ownedBy_iff s i n).mpr ⟨hslot, hgen, horphan⟩]
  unfold Notice.orphaned
  rw [hphase]
  rfl

/-! ### FORCE_RETIRE -/

theorem forceRetireBody_passed {u : State} {i : SlotId} (hi : slotId u = i) (h : forceRetireError u = none) :
    forceRetireBody u = settle (endCommand .ok
      (forceRetireWords (retireFigures u i .discard) (itemCounts u i).inService) (forceRetireRecord i u)) := by
  subst hi
  unfold forceRetireBody
  rw [h]

/-- The record of a FORCE_RETIRE that passes its checks is retired by force on a port that has no RETIRE waiting (R142, R170). -/
theorem forceRetire_passed {s : State} (hready : commandReady s) (hchecks : firstFailing (checks .forceRetire s) = none) :
    let i := namedSlot s
    exec .forceRetire s = .next { settle (forceRetireRecord i (startCommand 0x08 s)) with
      port := s.port.ended 0x08 .ok (forceRetireWords (retireFigures s i .discard) (itemCounts s i).inService) } := by
  intro i
  have herror : forceRetireError (startCommand 0x08 s) = none := by
    rw [forceRetireError_eq _ (start_operands 0x08 s), checks_start, hchecks]
  have hport : (forceRetireRecord i (startCommand 0x08 s)).port = s.port.taken 0x08 :=
    keptPort_eq (forceRetireRecord_outer i (startCommand 0x08 s)).port (no_retireWait hready)
  rw [exec_command hready (code := 0x08) rfl, ← settle_port, ← endCommand_of_taken hport]
  exact congrArg Host.Outcome.next (forceRetireBody_passed (slotId_start 0x08 s) herror)

/-- What every FORCE_RETIRE that passes its checks changes (R170, R171). -/
theorem forceRetire_outcome {s : State} (hready : commandReady s) (hchecks : firstFailing (checks .forceRetire s) = none) :
    let i := namedSlot s
    ∃ u, exec .forceRetire s = .next u
      ∧ u = { s with
          slots := s.slots.set i (Slot.freeOf s.slots[i].generation)
          pool := u.pool, order := u.order, deferred := u.deferred, pins := u.pins, targets := u.targets
          port := s.port.ended 0x08 .ok (forceRetireWords (retireFigures s i .discard) (itemCounts s i).inService)
          notifyWrites := u.notifyWrites, free := u.free }
      ∧ (∀ t : TargetId, u.targets[t] = { s.targets[t] with
          lists := u.targets[t].lists, ntf := u.targets[t].ntf, deliverable := u.targets[t].deliverable
          deadlineStart := u.targets[t].deadlineStart, writeOwed := u.targets[t].writeOwed })
      ∧ (∀ d ∈ u.deferred, d.slot ≠ i)
      ∧ (∀ (e : EntryId) (n : Notice), u.pool[e] = some n → n.slot = i → n.generation = s.slots[i].generation →
          n.isOrphan = true)
      ∧ (∀ (e : EntryId) (n : Notice) (late : Option Late), s.pool[e] = some n → n.slot = i →
          n.generation = s.slots[i].generation → n.phase = .inService late false →
          u.pool[e] = some { n with phase := .inService late true }) := by
  intro i
  have hexec := forceRetire_passed hready hchecks
  have houter := (forceRetireRecord_outer i (startCommand 0x08 s)).trans (settle_frame _).outer
  have hslots : (settle (forceRetireRecord i (startCommand 0x08 s))).slots
      = s.slots.set i (Slot.freeOf s.slots[i].generation) := by
    rw [(settle_pool _).2.2.2.1, forceRetireRecord_slots]
    rfl
  have hset := houter.eq_set ((settle_fsu _).trans (forceRetireRecord_fsu i _)) i (by
    intro j hj
    rw [hslots, slot_get_set, if_neg hj.symm]
    rfl)
  obtain ⟨pool, deferred, -⟩ := settle_pool (forceRetireRecord i (startCommand 0x08 s))
  rw [hslots, slot_get_set, if_pos rfl] at hset
  have hdeferred := forceRetireRecord_deferred i (startCommand 0x08 s)
  have horphans := forceRetireRecord_orphans i (startCommand 0x08 s)
  have hserved (e : EntryId) (n : Notice) (late : Option Late) :=
    forceRetireRecord_inService (i := i) (s := startCommand 0x08 s) (e := e) (n := n) (late := late)
  rw [← deferred] at hdeferred
  rw [← pool] at horphans hserved
  refine ⟨_, hexec, ?_, houter.target, hdeferred, horphans, hserved⟩
  exact congrArg (fun w : State => { w with
    port := s.port.ended 0x08 .ok (forceRetireWords (retireFigures s i .discard) (itemCounts s i).inService) }) hset

/-- The notices in service made orphans and the slot FREE, after everything else is discarded (R17, R170). -/
theorem freeSlot_orphanItems_discarded (i : SlotId) (s : State) :
    let r := s.slots[i]
    let left := settle (discarded i { r with held := Held.empty } s)
    freeSlot i (orphanItems i left) = { left with
      slots := s.slots.set i (Slot.freeOf r.generation)
      pool := left.pool.map fun o => o.map fun n =>
        match n.phase with
        | .inService late false =>
          if n.slot = i ∧ n.generation = r.generation then { n with phase := .inService late true } else n
        | _ => n } := by
  intro r left
  have hslots : left.slots = s.slots.set i { r with held := Held.empty } := by
    rw [(settle_pool _).2.2.2.1, discarded_slots]
  have hslot : left.slots[i].generation = r.generation := by
    rw [hslots, slot_get_set, if_pos rfl]
  rw [orphanItems_eq, hslot]
  unfold freeSlot modSlot
  dsimp only
  rw [hslot, hslots, Vector.set_set] <;> rfl

/-- The orphaning and the freeing of the slot read nothing of the port. -/
theorem freeSlot_orphanItems_port (p : Port) (i : SlotId) (s : State) :
    freeSlot i (orphanItems i { s with port := p }) = { freeSlot i (orphanItems i s) with port := p } := by
  rw [orphanItems_eq, orphanItems_eq]
  rfl

/-- A FORCE_RETIRE that passes its checks, in closed form (R69, R72, R170). -/
theorem forceRetire_closed {s : State} (hready : commandReady s) (hchecks : firstFailing (checks .forceRetire s) = none)
    (hS : NoticesStand s) :
    let i := namedSlot s
    exec .forceRetire s = .next { settle (handOverAll (discardable s i) (freeSlot i (orphanItems i
        (settle (discarded i { s.slots[i] with held := Held.empty } s))))) with
      port := s.port.ended 0x08 .ok (forceRetireWords (retireFigures s i .discard) (itemCounts s i).inService) } := by
  intro i
  have hstand : Standing (startCommand 0x08 s) := ((stand_iff s).mpr hS).targets rfl rfl rfl
  have hport : forceRetireRecord i (startCommand 0x08 s) = { handOverAll (discardable s i) (freeSlot i (orphanItems i
      (settle (discarded i { s.slots[i] with held := Held.empty } s)))) with port := s.port.taken 0x08 } := by
    rw [forceRetireRecord_eq hstand, ← handOverAll_port, ← freeSlot_orphanItems_port, ← settle_port, ← discarded_port]
    rfl
  rw [forceRetire_passed hready hchecks, hport, settle_port]

/-- Settles O49: what every FORCE_RETIRE changes comes from the pool and the table after each step of R170, and the closed form from what is discarded. -/
theorem forceRetireFreesTheRecord : Obligations.ForceRetireFreesTheRecord := by
  unfold Obligations.ForceRetireFreesTheRecord
  refine ⟨fun s => forceRetire_outcome, fun s hready hchecks hS => ?_⟩
  have hclosed := forceRetire_closed hready hchecks hS
  dsimp only at hclosed
  rw [freeSlot_orphanItems_discarded] at hclosed
  exact hclosed

end Sys2Proof.Machine

/-! Arrivals, event messages, pins and the lookup: what the link and the RT take, how the pins follow their inputs, and what an empty queue does. -/

namespace Sys2Proof.Machine

/-! ### What every step keeps of the queues, the capture and the configurations -/

/-- Settles O55: a step keeps what its command, or the event of an empty queue, keeps (Keeps). -/
theorem stepKeepsQueuesAndCapture : Obligations.StepKeepsQueuesAndCapture := by
  unfold Obligations.StepKeepsQueuesAndCapture
  exact ⟨fun s t hi hb h => ⟨(step_keeps h).intake hi, (step_keeps h).bounded hb⟩,
    fun s t hc h => (step_keeps h).capture hc, fun s t hc h => (step_keeps h).configs hc⟩

/-! ### Accesses at the link -/

/-- An access to the event window is an event message or a read of zeros (R187, R189). -/
theorem decodeAccess_window {a : Access} (h : 0x8000 ≤ a.offset.toNat) : decodeAccess a = decodeEvent a := by
  unfold decodeAccess
  dsimp only
  rw [if_neg (by omega), if_neg (by omega), if_neg (by omega)]

theorem accessOf_eventMessage {off : BitVec 16} (h : 0x8000 ≤ off.toNat) (r : RequesterId) (size : Nat) (data : BitVec 64) :
    accessOf (.eventMessage r off size data) = some (.eventWrite r off size data) :=
  congrArg some (decodeAccess_window (a := { requester := r, offset := off, size := size, kind := .write data }) h)

theorem accessOf_eventRead {off : BitVec 16} (h : 0x8000 ≤ off.toNat) (r : RequesterId) (size : Nat) :
    accessOf (.refusedAccess { requester := r, offset := off, size := size, kind := .read }) = some (.eventRead r size) :=
  congrArg some (decodeAccess_window (a := { requester := r, offset := off, size := size, kind := .read }) h)

/-- A management command is the COMMAND write of its code (R196). -/
theorem accessOf_command {c : Instr} {code : BitVec 8} (h : commandCode c = some code) :
    accessOf c = some (.command code) := by
  unfold commandCode at h
  cases c <;> cases h <;> rfl

/-- The tests that make a write to the event window malformed (R29, R195). -/
theorem malformed_iff (r : RequesterId) (off : BitVec 16) (size : Nat) (data : BitVec 64) :
    malformed r off size data = true ↔
      size ≠ 8 ∨ off.toNat % 8 ≠ 0 ∨ data.extractLsb' 16 16 ≠ 0 ∨ r = 0xFF00 ∨ r = 0xFFFE := by
  simp [malformed, or_assoc]

theorem eventBody_malformed {r : RequesterId} {off : BitVec 16} {size : Nat} {data : BitVec 64}
    (h : size ≠ 8 ∨ off.toNat % 8 ≠ 0 ∨ data.extractLsb' 16 16 ≠ 0 ∨ r = 0xFF00 ∨ r = 0xFFFE) (s : State) :
    eventBody r off size data s = raise .malformedEvent s := by
  unfold eventBody
  rw [if_pos ((malformed_iff r off size data).mpr h)]

theorem eventBody_accepted {r : RequesterId} {off : BitVec 16} {size : Nat} {data : BitVec 64} (hsize : size = 8)
    (hoff : off.toNat % 8 = 0) (hdata : data.extractLsb' 16 16 = 0) (h1 : r ≠ 0xFF00) (h2 : r ≠ 0xFFFE) (s : State) :
    eventBody r off size data s = { s with intake := s.intake ++
      [{ key := r ++ data.extractLsb' 0 16, payload := data.extractLsb' 32 32, origin := none }] } := by
  have hgood : ¬ malformed r off size data = true := by
    rw [malformed_iff]
    rintro (h | h | h | h | h)
    exacts [h hsize, h hoff, h hdata, h1 h, h2 h]
  unfold eventBody
  rw [if_neg hgood]
  rfl

/-- Settles O6: an access to the event window is taken at once by a ready link, as the event write or read it decodes to. -/
theorem eventWindowAccesses : Obligations.EventWindowAccesses := by
  unfold Obligations.EventWindowAccesses
  intro r off size s hwindow
  refine ⟨fun data hready => ?_, fun hready => ?_⟩
  · have hexec : exec (.eventMessage r off size data) s = .next (eventBody r off size data s) := by
      rw [exec_of_access (accessOf_eventMessage hwindow r size data), linkDeliver_of_linkReady hready]
      rfl
    rw [hexec]
    exact ⟨fun hbad => by rw [eventBody_malformed hbad],
      fun hsize hoff hdata h1 h2 => by rw [eventBody_accepted hsize hoff hdata h1 h2]⟩
  · rw [exec_of_access (accessOf_eventRead hwindow r size), linkDeliver_of_readReady hready _ rfl]
    rfl

/-! ### Posted writes behind withheld credit -/

/-- A word of the management region that no entry of the map takes as it is accessed is refused (R188, R196). -/
theorem decodeMgmtWord_unmapped {a : Access} {w : Nat} (h : ∀ e ∈ mgmtMap, takes e.2 a.kind = true → e.1 ≠ 4 * w) :
    decodeMgmtWord a w = refusedOp a := by
  unfold decodeMgmtWord
  cases hk : a.kind with
  | read =>
    have hw : w ≠ 0 ∧ w ≠ 1 ∧ w ≠ 2 ∧ w ≠ 3 ∧ w ≠ 4 ∧ ¬ (8 ≤ w ∧ w < 16) ∧ ¬ (16 ≤ w ∧ w < 24) := by
      simp [hk, mgmtMap, takes, List.range_succ] at h
      omega
    simp only [hw, if_false]
  | write d =>
    have hw : w ≠ 5 ∧ w ≠ 6 ∧ w ≠ 7 ∧ ¬ (8 ≤ w ∧ w < 16) := by
      simp [hk, mgmtMap, takes, List.range_succ] at h
      omega
    simp only [hw, if_false]

/-- A word of a target page that no entry of the map takes as it is accessed is refused (R188, R197). -/
theorem decodePageWord_unmapped {a : Access} {w : Nat} (t : TargetId)
    (h : ∀ e ∈ pageMap, takes e.2 a.kind = true → e.1 ≠ 4 * w) : decodePageWord a t w = refusedOp a := by
  unfold decodePageWord
  cases hk : a.kind with
  | read =>
    have hw : w ≠ 0 ∧ w ≠ 3 ∧ w ≠ 4 ∧ w ≠ 5 ∧ w ≠ 6 := by
      simp [hk, pageMap, takes] at h
      omega
    simp only [hw, if_false]
  | write d =>
    have hw : w ≠ 2 ∧ w ≠ 4 ∧ w ≠ 5 := by
      simp [hk, pageMap, takes] at h
      omega
    simp only [hw, if_false]

/-- An access outside the maps of R196 and R197 and outside the event window is refused (R188). -/
theorem decodeAccess_unserved {a : Access} (h : ¬ servedForm a) : decodeAccess a = refusedOp a := by
  unfold servedForm at h
  rw [not_or, not_or, not_exists] at h
  obtain ⟨hwindow, hmgmt, hpage⟩ := h
  unfold decodeAccess
  dsimp only
  split
  · split
    · rename_i hword
      refine decodeMgmtWord_unmapped fun e he htakes heq => hmgmt ⟨hword.1, e, he, ?_, htakes⟩
      omega
    · rfl
  · split
    · rename_i hlow hhigh
      have hn : (Fin.ofNat 8 ((a.offset.toNat - 0x1000) / 0x200)).val = (a.offset.toNat - 0x1000) / 0x200 :=
        Nat.mod_eq_of_lt (by omega)
      have hpage := hpage (Fin.ofNat 8 ((a.offset.toNat - 0x1000) / 0x200))
      rw [not_or, hn] at hpage
      obtain ⟨hword, hwhole⟩ := hpage
      unfold decodePage
      split
      · rename_i hsize
        refine decodePageWord_unmapped _ fun e he htakes heq => hword ⟨hsize.1, e, he, ?_, htakes⟩
        omega
      · rw [if_neg]
        rintro ⟨hsize, hoff, hread⟩
        exact hwhole ⟨hread, hsize, by omega⟩
    · rw [if_pos (by omega)]

theorem accessOf_refusedWrite {a : Access} {d : BitVec 64} (hk : a.kind = .write d) (h : ¬ servedForm a) :
    accessOf (.refusedAccess a) = some .refusedWrite := by
  refine congrArg some ((decodeAccess_unserved h).trans ?_)
  unfold refusedOp
  rw [hk]

/-- An access command waits behind one that waits, and a posted write while credit is withheld (R31, R190). -/
theorem exec_waits {c : Instr} {op : LinkOp} {s : State} (hu : s.link.state = .up) (hp : s.porst = false)
    (ha : accessOf c = some op) (h : s.link.waiting ≠ [] ∨ op.isPosted = true ∧ 32 ≤ s.intake.length) :
    exec c s = .next { s with link := { s.link with waiting := s.link.waiting ++ [op] } } := by
  rw [exec_of_access ha, linkDeliver_of_waits hu hp h]

/-- The first posted write that meets a full intake queue (R31). -/
theorem exec_waits_first {c : Instr} {op : LinkOp} {s : State} (hu : s.link.state = .up) (hp : s.porst = false)
    (hw : s.link.waiting = []) (hi : s.intake.length = 32) (ha : accessOf c = some op) (hop : op.isPosted = true) :
    exec c s = .next { s with link := { s.link with waiting := [op] } } := by
  rw [exec_waits hu hp ha (Or.inr ⟨hop, hi.ge⟩), hw]
  rfl

theorem drainWaiting_of_up {s : State} (hu : s.link.state = .up) (hp : s.porst = false) :
    drainWaiting s = takeWaiting s.link.waiting s := by
  unfold drainWaiting linkServes
  rw [hu, hp]
  rfl

theorem drainWaiting_of_unserved {s : State} (h : s.link.state = .down ∨ s.porst = true) : drainWaiting s = s := by
  unfold drainWaiting linkServes
  rcases h with h | h <;> simp [h]

/-- A posted write that meets withheld credit stays at the head of what waits (R190). -/
theorem takeWaiting_of_withheld {op : LinkOp} {s : State} (hop : op.isPosted = true) (hi : 32 ≤ s.intake.length)
    (ops : List LinkOp) :
    takeWaiting (op :: ops) s = { s with link := { s.link with waiting := op :: ops } } := by
  unfold takeWaiting withheld
  rw [hop, decide_eq_true hi]
  rfl

/-- A read, or a posted write with credit, is taken, and then those behind it (R190). -/
theorem takeWaiting_of_credit {op : LinkOp} {s : State} (h : op.isPosted = false ∨ s.intake.length < 32)
    (ops : List LinkOp) : takeWaiting (op :: ops) s = takeWaiting ops (serve op s) := by
  have hgoes : ¬ (op.isPosted && withheld s) = true := by
    unfold withheld
    rw [Bool.and_eq_true, decide_eq_true_eq]
    rintro ⟨hop, hi⟩
    rcases h with h | h
    · exact Bool.false_ne_true (h.symm.trans hop)
    · omega
  show (if _ then _ else _) = _
  rw [if_neg hgoes]

/-- The taking of a full queue's head lets in the one event message that waits (R32, R190, log entry 15). -/
theorem exec_intakeHeadTaken_lets_in {s : State} {a : Arrival} {rest : List Arrival} {r : RequesterId} {off : BitVec 16}
    {data : BitVec 64} (hu : s.link.state = .up) (hp : s.porst = false) (hi : s.intake = a :: rest)
    (hfull : rest.length = 31) (hw : s.link.waiting = [.eventWrite r off 8 data]) (hoff : off.toNat % 8 = 0)
    (hdata : data.extractLsb' 16 16 = 0) (h1 : r ≠ 0xFF00) (h2 : r ≠ 0xFFFE) (hl : lookup s a.key = none) :
    exec .intakeHeadTaken s = .next (raiseMiss a.key { s with
      intake := rest ++ [{ key := r ++ data.extractLsb' 0 16, payload := data.extractLsb' 32 32, origin := none }]
      link := { s.link with waiting := [] } }) := by
  have hbody : intakeBody s = raiseMiss a.key { s with intake := rest } := by
    unfold intakeBody arrive
    rw [hi]
    dsimp only
    rw [show lookup { s with intake := rest } a.key = none from hl]
    rfl
  have hcredit : (raiseMiss a.key { s with intake := rest }).intake.length < 32 := by
    show rest.length < 32
    omega
  show Host.Outcome.next (drainWaiting (intakeBody s)) = _
  rw [hbody, drainWaiting_of_up (s := raiseMiss a.key { s with intake := rest }) hu hp]
  show Host.Outcome.next (takeWaiting s.link.waiting _) = _
  rw [hw, takeWaiting_of_credit (Or.inr hcredit)]
  show Host.Outcome.next (takeWaiting [] (eventBody r off 8 data _)) = _
  rw [eventBody_accepted rfl hoff hdata h1 h2]
  rfl

/-- Settles O7: each access command is the delivery of its access, which waits or is taken; the waiting ones go one by one. -/
theorem withheldCreditHoldsAccesses : Obligations.WithheldCreditHoldsAccesses := by
  unfold Obligations.WithheldCreditHoldsAccesses
  refine ⟨fun s hu hp => ⟨fun hw hi => ?_, fun hw r t form => exec_waits hu hp rfl (Or.inl hw), fun c op ha => ?_⟩,
    fun s a rest r off data => exec_intakeHeadTaken_lets_in, fun s => ?_⟩
  · have hfirst {c : Instr} {op : LinkOp} := exec_waits_first (c := c) (op := op) hu hp hw hi
    exact ⟨fun r t w => hfirst rfl rfl, fun r t w => hfirst rfl rfl, fun r t w => hfirst rfl rfl, fun k w => hfirst rfl rfl,
      fun w => hfirst rfl rfl, hfirst rfl rfl, fun c code hc => hfirst (accessOf_command hc) rfl,
      fun r off size data hwindow => hfirst (accessOf_eventMessage hwindow r size data) rfl,
      fun a d hk hs => hfirst (accessOf_refusedWrite hk hs) rfl⟩
  · exact ⟨exec_waits hu hp ha, fun hw h => by rw [exec_of_access ha, linkDeliver_of_taken hu hp hw h]⟩
  · exact ⟨drainWaiting_of_up, drainWaiting_of_unserved, rfl,
      fun op ops => ⟨fun hop hi => takeWaiting_of_withheld hop hi ops, fun h => takeWaiting_of_credit h ops⟩⟩

/-! ### What the RT does with an arrival -/

theorem arrive_of_miss {s : State} {a : Arrival} (h : lookup s a.key = none) (p : Producer) :
    arrive p a s = missed p a.key s := by
  unfold arrive
  rw [h]

theorem arrive_of_match {s : State} {a : Arrival} {i : SlotId} (h : lookup s a.key = some i) (p : Producer) :
    arrive p a s = applyArrival i a s := by
  unfold arrive
  rw [h]

/-- An offered arrival is looked up in the table as the command finds it. -/
theorem lookup_of_offered {c : Instr} {s u : State} {a : Arrival} (h : offered c s = some (a, u)) (k : Key) :
    lookup u k = lookup s k := by
  obtain ⟨hslots, -⟩ := offered_keeps c s u a h
  exact lookup_congr s u hslots k

/-- A match runs the arrival through its record (R42). -/
theorem exec_of_match {c : Instr} {s u : State} {a : Arrival} {i : SlotId} (h : offered c s = some (a, u))
    (hl : lookup s a.key = some i) : exec c s = .next (afterTaking c (applyArrival i a u)) := by
  rw [exec_of_offered c s u a h, arrive_of_match ((lookup_of_offered h a.key).trans hl)]

/-- A miss-disarmed pin makes no offer (R38). -/
theorem offerIfReady_of_missDisarmed {p : Pin} (h : p.missDisarmed = true) : offerIfReady p = p := by
  unfold offerIfReady
  simp [h]

/-- Settles O9: the lookup finds nothing, and each producer has its own miss; a level-sensed pin is then miss-disarmed, so it does not offer again. -/
theorem missedArrival : Obligations.MissedArrival := by
  unfold Obligations.MissedArrival
  intro c s u a hoff hl
  rw [exec_of_offered c s u a hoff, arrive_of_miss ((lookup_of_offered hoff a.key).trans hl)]
  refine congrArg Host.Outcome.next ?_
  cases c with
  | intakeHeadTaken => rfl
  | edgeLatchTaken pin => rfl
  | levelOfferTaken pin =>
    show modPin pin offerIfReady (modPin pin (fun p => { p with missDisarmed := true }) (raiseMiss a.key u)) = _
    unfold modPin
    simp [offerIfReady_of_missDisarmed]
  | faultArrival cause => rfl
  | _ => cases hoff

theorem hasPlaceable_iff (s : State) (i : SlotId) : hasPlaceable s i = true ↔
    ∃ t ∈ s.slots[i].targets, s.targets[t].state = .online ∨ s.targets[t].state = .stalled := by
  unfold hasPlaceable
  rw [List.any_eq_true]
  simp only [placeable_iff]

/-- An arrival that is held (R42). -/
theorem applyArrival_held {s : State} {i : SlotId} (a : Arrival)
    (h : s.slots[i].state = .held ∨ ∀ t ∈ s.slots[i].targets, s.targets[t].state ≠ .online ∧ s.targets[t].state ≠ .stalled) :
    applyArrival i a s = joinHeld i a s := by
  have hheld : ¬ (decide (s.slots[i].state = .active) && hasPlaceable s i) = true := by
    rw [Bool.and_eq_true, decide_eq_true_eq, hasPlaceable_iff]
    rintro ⟨hactive, t, ht, hstate⟩
    rcases h with h | h
    · rw [h] at hactive
      cases hactive
    · exact hstate.elim (h t ht).1 (h t ht).2
  unfold applyArrival
  rw [if_neg hheld]

/-- An arrival that is placed, after which the targets are judged (R42, R87). -/
theorem applyArrival_placed {s : State} {i : SlotId} (a : Arrival) (h : s.slots[i].state = .active)
    (hp : ∃ t ∈ s.slots[i].targets, s.targets[t].state = .online ∨ s.targets[t].state = .stalled) :
    applyArrival i a s = settle (placeArrival i a s) := by
  unfold applyArrival
  rw [if_pos]
  rw [Bool.and_eq_true, decide_eq_true_eq]
  exact ⟨h, (hasPlaceable_iff s i).mpr hp⟩

/-- The pins of an arrival's placement are those it brings (R49). -/
theorem arrivalPlacement_eq (a : Arrival) :
    arrivalPlacement a = { count := 1, overflow := false, payload := a.payload, pins := originPins a } := rfl

/-- An arrival in a held count: one more, saturating, with the arrival's payload and pins (R44). -/
theorem join_eq (h : Held) (a : Arrival) : h.join a =
    { count := min (h.count + 1) 65535, overflow := h.overflow || decide (65535 ≤ h.count), payload := some a.payload
      pins := h.pins ||| originPins a } := by
  unfold Held.join originPins
  cases a.origin with
  | none => simp
  | some p => rfl

/-- Settles O10: the record that the lookup finds holds the arrival, for the taking of an offer leaves the table and the targets. -/
theorem arrivalJoinsHeldCount : Obligations.ArrivalJoinsHeldCount := by
  unfold Obligations.ArrivalJoinsHeldCount
  intro c s u a i hoff hl hheld
  obtain ⟨hslots, htargets, -⟩ := offered_keeps c s u a hoff
  rw [← hslots, ← htargets] at hheld
  rw [exec_of_match hoff hl, applyArrival_held a hheld, ← hslots, ← join_eq]
  rfl

/-- A placement with the held count folded in (R50). -/
theorem placeArrival_folded {s : State} {i : SlotId} (a : Arrival) (h : s.slots[i].held.count ≠ 0) :
    placeArrival i a s = placeByMode i
      { count := min (1 + s.slots[i].held.count) 255, overflow := decide (255 < 1 + s.slots[i].held.count)
        payload := a.payload, pins := s.slots[i].held.pins ||| originPins a }
      (raiseIf (255 < 1 + s.slots[i].held.count) .countOverflow
        { s with slots := s.slots.set i { s.slots[i] with held := Held.empty } }) := by
  unfold placeArrival
  dsimp only
  rw [if_neg h]
  rfl

theorem placeArrival_alone {s : State} {i : SlotId} (a : Arrival) (h : s.slots[i].held.count = 0) :
    placeArrival i a s
      = placeByMode i { count := 1, overflow := false, payload := a.payload, pins := originPins a } s := by
  unfold placeArrival
  dsimp only
  rw [if_pos h, arrivalPlacement_eq]

/-- The emptying of a held count changes neither the mode nor the list of targets of its record. -/
theorem emptied_slot (b : Bool) (c : Cause) (i : SlotId) (s : State) :
    (raiseIf b c (setHeld i Held.empty s)).slots[i] = { s.slots[i] with held := Held.empty } := by
  rw [raiseIf_slots]
  exact (slot_get_set _ _ _ _).trans (if_pos rfl)

theorem emptied_placeableTargets (b : Bool) (c : Cause) (i : SlotId) (s : State) :
    placeableTargets (raiseIf b c (setHeld i Held.empty s)) i = placeableTargets s i := by
  unfold placeableTargets
  rw [emptied_slot, placeable_of_targets (raiseIf_targets b c _)]
  rfl

/-- A placement of a record whose mode is not ALL (R49). -/
theorem placeByMode_single {s : State} {i : SlotId} (h : s.slots[i].mode ≠ .all) (p : Placement) :
    placeByMode i p s = placeSingle i p s := by
  unfold placeByMode
  rw [if_neg h]

/-- A held placement of a record whose mode is not ALL (R51). -/
theorem placeHeld_single {s : State} {i : SlotId} (h : s.slots[i].mode ≠ .all) :
    placeHeld i s = placeByMode i (heldPlacement s.slots[i].held)
      (raiseIf (255 < s.slots[i].held.count) .countOverflow (setHeld i Held.empty s)) := by
  have hmode : (raiseIf (255 < s.slots[i].held.count) .countOverflow (setHeld i Held.empty s)).slots[i].mode ≠ .all := by
    rw [emptied_slot]
    exact h
  rw [placeByMode_single hmode]
  unfold placeHeld
  dsimp only
  rw [if_neg hmode]

/-- Under ALL a held placement goes to the first placeable target (R51). -/
theorem placeHeld_all {s : State} {i : SlotId} {t : TargetId} {ts : List TargetId} (h : s.slots[i].mode = .all)
    (hts : placeableTargets s i = t :: ts) :
    placeHeld i s = placeAt i t (heldPlacement s.slots[i].held)
      (raiseIf (255 < s.slots[i].held.count) .countOverflow (setHeld i Held.empty s)) := by
  have hmode : (raiseIf (255 < s.slots[i].held.count) .countOverflow (setHeld i Held.empty s)).slots[i].mode = .all := by
    rw [emptied_slot]
    exact h
  unfold placeHeld
  dsimp only
  rw [if_pos hmode, emptied_placeableTargets, hts]

/-- Settles O11: an arrival to an ACTIVE record is placed alone or with the held count, and a held count by the record's mode. -/
theorem arrivalsAndHeldCountsArePlaced : Obligations.ArrivalsAndHeldCountsArePlaced := by
  unfold Obligations.ArrivalsAndHeldCountsArePlaced
  refine ⟨fun c s u a i hoff hl hactive hplaceable => ?_, fun s i => ⟨placeHeld_single, fun t ts => placeHeld_all⟩⟩
  obtain ⟨hslots, htargets, -⟩ := offered_keeps c s u a hoff
  rw [← hslots, ← htargets] at hplaceable
  rw [← hslots] at hactive ⊢
  rw [exec_of_match hoff hl, applyArrival_placed a hactive hplaceable]
  exact ⟨fun hnone => by rw [placeArrival_alone a hnone], fun hsome => by rw [placeArrival_folded a hsome]⟩

/-! ### The choice of targets -/

theorem placeSingle_of_no_flight {s : State} {i : SlotId} (h : flightFor s i none = none) (p : Placement) :
    placeSingle i p s = if s.slots[i].mode = .rotate then placeRotate i p s else placeFirst i p s := by
  unfold placeSingle
  rw [h]

theorem placeByMode_first {s : State} {i : SlotId} (hflight : flightFor s i none = none)
    (hmode : s.slots[i].mode = .first) (p : Placement) : placeByMode i p s = placeFirst i p s := by
  rw [placeByMode_single (by rw [hmode]; decide), placeSingle_of_no_flight hflight, if_neg (by rw [hmode]; decide)]

theorem placeByMode_rotate {s : State} {i : SlotId} (hflight : flightFor s i none = none)
    (hmode : s.slots[i].mode = .rotate) (p : Placement) : placeByMode i p s = placeRotate i p s := by
  rw [placeByMode_single (by rw [hmode]; decide), placeSingle_of_no_flight hflight, if_pos hmode]

/-- The target that FIRST prefers (R52). -/
theorem placeFirst_of_preferred {s : State} {i : SlotId} {t : TargetId}
    (h : preferOnline s s.slots[i].targets = some t) (p : Placement) : placeFirst i p s = placeOn i t p s := by
  unfold placeFirst
  rw [h]

theorem placeRotate_of_resident {s : State} {i : SlotId} {e : EntryId} (h : rotateResident s i = some e) (p : Placement) :
    placeRotate i p s = mergeInto e p s := by
  unfold placeRotate
  rw [h]

/-- The position that ROTATE prefers, to which the rotation index moves (R53). -/
theorem placeRotate_of_preferred {s : State} {i : SlotId} {t : TargetId} (hr : rotateResident s i = none)
    (h : preferOnline s (searchFrom s.slots[i].rotation s.slots[i].targets) = some t) (p : Placement) :
    placeRotate i p s = placeOn i t p
      { s with slots := s.slots.set i { s.slots[i] with rotation := s.slots[i].targets.idxOf t } } := by
  unfold placeRotate
  rw [hr]
  dsimp only
  rw [h]
  rfl

/-- The placements under ALL, each judged before the next (R54, R87). -/
theorem placeAll_eq (i : SlotId) (ts : List TargetId) (t : TargetId) (p : Placement) (s : State) :
    placeAll i p s (t :: ts) = settle (ts.foldl
      (fun u t' => placeAt i t' { count := 1, overflow := false, payload := p.payload, pins := 0 } (settle u))
      (placeAt i t p s)) := by
  induction ts generalizing t p s with
  | nil => rfl
  | cons t' ts ih => rw [placeAll, ih, List.foldl_cons]

theorem placeByMode_all {s : State} {i : SlotId} (h : s.slots[i].mode = .all) (p : Placement) :
    placeByMode i p s = placeAll i p s (placeableTargets s i) := by
  unfold placeByMode
  rw [if_pos h]

/-- A notice that ROTATE merges into: GATHERING or PENDING, of the record, on a listed target (R53, step 1). -/
theorem rotateResident_test (s : State) (i : SlotId) (e : EntryId) :
    entryIs s (fun n => n.unclaimed && ownedBy s i n && s.slots[i].targets.contains n.target) e = true ↔
      ∃ n, s.pool[e] = some n ∧ (n.phase = .pending ∨ ∃ th x, n.phase = .gathering th x)
        ∧ n.slot = i ∧ n.generation = s.slots[i].generation ∧ n.target ∈ s.slots[i].targets := by
  rw [resident_test s i (fun n => s.slots[i].targets.contains n.target) e]
  simp only [List.contains_iff_mem]

/-- Settles O12: each mode's search finds the preferred target (preferOnline_eq), ALL places target by target, and ROTATE's notice is the oldest that passes its test. -/
theorem modesChooseTheirTargets : Obligations.ModesChooseTheirTargets := by
  unfold Obligations.ModesChooseTheirTargets
  refine ⟨fun s i p t before after hflight hchoice => ⟨fun hmode hlist => ?_, fun hmode hnone hlist => ?_,
    fun e hmode hsome => ?_⟩, fun s i p t ts hmode hts => ?_, fun s i => ⟨fun e => ?_, ?_⟩, placeable_iff⟩
  · rw [placeByMode_first hflight hmode]
    refine placeFirst_of_preferred ?_ p
    rw [hlist]
    exact preferOnline_eq hchoice
  · rw [placeByMode_rotate hflight hmode]
    refine placeRotate_of_preferred hnone ?_ p
    unfold searchFrom
    rw [hlist]
    exact preferOnline_eq hchoice
  · rw [placeByMode_rotate hflight hmode, placeRotate_of_resident hsome]
  · rw [placeByMode_all hmode, ← placeAll_eq]
    exact congrArg (placeAll i p s) hts
  · refine (oldest_some s _ e).trans ?_
    simp only [← Bool.not_eq_true, rotateResident_test]
  · refine (oldest_none s _).trans ?_
    simp only [← Bool.not_eq_true, rotateResident_test]

/-! ### Pins: what offers, what enters the filter, and a re-arm -/

theorem qualifyingEdge_eq (sense : Sense) (level : Bool) : qualifyingEdge sense level =
    (sense == .rising && level || sense == .falling && !level || sense == .both) := by
  cases sense <;> cases level <;> rfl

/-- The pin's level offer: asserted, armed, none pending, and not miss-disarmed (R36, R38). -/
def readyToOffer (p : Pin) : Bool := asserted p && p.armed && !p.offer && !p.missDisarmed

theorem offerIfReady_of_ready {p : Pin} (h : readyToOffer p = true) :
    offerIfReady p = { p with armed := false, offer := true } := if_pos h

theorem offerIfReady_of_not_ready {p : Pin} (h : readyToOffer p = false) : offerIfReady p = p :=
  if_neg (by rw [← readyToOffer, h]; exact Bool.false_ne_true)

/-- An offer made disarms the pin, and no other field changes (R36). -/
theorem offerIfReady_eq (p : Pin) : offerIfReady p =
    { p with armed := p.armed && !readyToOffer p, offer := p.offer || readyToOffer p } := by
  cases h : readyToOffer p with
  | true => simp [offerIfReady_of_ready h]
  | false => simp [offerIfReady_of_not_ready h]

/-- A raw level enters the filtered level (R33 to R36). -/
theorem enterLevel_eq (p : Pin) :
    let edge := p.raw != p.filtered &&
      (p.sense == .rising && p.raw || p.sense == .falling && !p.raw || p.sense == .both)
    let offers := (p.sense == .high && p.raw || p.sense == .low && !p.raw) && p.armed && !p.offer && !p.missDisarmed
    enterLevel p = { p with
      filtered := p.raw, timing := none, latch := p.latch || edge
      armed := p.armed && !offers, offer := p.offer || offers } := by
  unfold enterLevel
  rw [offerIfReady_eq, qualifyingEdge_eq]
  rfl

theorem mustHaveEntered_of_none {p : Pin} (h : p.timing = none) (now : Nat) : mustHaveEntered p now = false := by
  unfold mustHaveEntered
  rw [h]

theorem mustHaveEntered_of_some {p : Pin} {start : Nat} (h : p.timing = some start) (now : Nat) :
    mustHaveEntered p now = decide (start + max p.filter 1 ≤ now) := by
  unfold mustHaveEntered
  rw [h]

/-- A change of the input with no earlier change that has entered (R33). -/
theorem changeInput_of_not_entered {p : Pin} {now : Nat} (h : mustHaveEntered p now = false) (level short : Bool) :
    changeInput level now short p =
      if level = p.filtered then { p with raw := level, timing := none }
      else if p.filter = 0 && short then enterLevel { p with raw := level }
      else { p with raw := level, timing := some now } := by
  unfold changeInput
  rw [h]
  rfl

/-- A change held long enough has entered before a later one is looked at (R33). -/
theorem changeInput_of_entered {p : Pin} {now : Nat} (h : mustHaveEntered p now = true) (level short : Bool) :
    changeInput level now short p = changeInput level now short (enterLevel p) := by
  have hnone : mustHaveEntered (enterLevel p) now = false :=
    mustHaveEntered_of_none (by rw [enterLevel_eq]) now
  unfold changeInput
  rw [h, hnone]
  rfl

theorem heldLongEnough_iff (p : Pin) (now : Nat) :
    heldLongEnough p now = true ↔ ∃ start, p.timing = some start ∧ start + p.filter ≤ now := by
  unfold heldLongEnough
  cases p.timing <;> simp

/-- An input that keeps its level is no change (R33). -/
theorem exec_evtInputChange_same {s : State} {pin : PinId} {level : Bool} (h : s.pins[pin].raw = level) :
    exec (.evtInputChange pin level) s = .next s := by
  show Host.Outcome.next (inputChangeBody pin level s) = _
  unfold inputChangeBody
  rw [if_pos h]

theorem exec_evtInputChange_changed {s : State} {pin : PinId} {level : Bool} (hp : s.porst = false)
    (h : s.pins[pin].raw ≠ level) :
    exec (.evtInputChange pin level) s = .next { s with
      free := s.free + 1
      pins := s.pins.set pin (changeInput level s.now (Config.shortPulseEnters s.free) s.pins[pin]) } := by
  show Host.Outcome.next (inputChangeBody pin level s) = _
  unfold inputChangeBody
  rw [if_neg h, if_neg (by rw [hp]; exact Bool.false_ne_true)]
  rfl

theorem exec_filteredLevelChange_due {s : State} {pin : PinId} {start : Nat} (hp : s.porst = false)
    (ht : s.pins[pin].timing = some start) (hd : start + s.pins[pin].filter ≤ s.now) :
    exec (.filteredLevelChange pin) s = .next { s with pins := s.pins.set pin (enterLevel s.pins[pin]) } := by
  show Host.Outcome.next (filteredLevelBody pin s) = _
  unfold filteredLevelBody
  rw [if_pos (by rw [hp, (heldLongEnough_iff _ _).mpr ⟨start, ht, hd⟩]; rfl)]
  rfl

theorem exec_filteredLevelChange_early {s : State} {pin : PinId}
    (h : s.pins[pin].timing = none ∨ ∃ start, s.pins[pin].timing = some start ∧ s.now < start + s.pins[pin].filter) :
    exec (.filteredLevelChange pin) s = .next s := by
  have hheld : heldLongEnough s.pins[pin] s.now = false := by
    rw [← Bool.not_eq_true, heldLongEnough_iff]
    rintro ⟨start, ht, hd⟩
    rcases h with h | ⟨start', ht', hd'⟩
    · rw [h] at ht
      cases ht
    · rw [ht'] at ht
      cases ht
      omega
  show Host.Outcome.next (filteredLevelBody pin s) = _
  unfold filteredLevelBody
  rw [hheld, Bool.and_false]
  rfl

/-- Settles O18: a change of the input is one of the branches of changeInput, told apart by whether an earlier change has entered. -/
theorem inputsEnterThroughTheFilter : Obligations.InputsEnterThroughTheFilter := by
  unfold Obligations.InputsEnterThroughTheFilter
  refine ⟨fun s pin level hp => ⟨exec_evtInputChange_same, fun hraw hfilter htiming hlevel => ?_,
    fun start hraw htiming hnow hlevel => ?_, fun hraw hfilter htiming hlevel => ?_, fun start hraw htiming hnow => ?_⟩,
    fun s pin hp => ⟨fun start htiming hdue => ?_, exec_filteredLevelChange_early⟩, enterLevel_eq⟩
  · rw [exec_evtInputChange_changed hp hraw, changeInput_of_not_entered (mustHaveEntered_of_none htiming _), if_neg hlevel,
      if_neg]
    rw [decide_eq_false (by omega)]
    exact Bool.false_ne_true
  · have hopen : mustHaveEntered s.pins[pin] s.now = false := by
      rw [mustHaveEntered_of_some htiming]
      exact decide_eq_false (by omega)
    rw [exec_evtInputChange_changed hp hraw, changeInput_of_not_entered hopen, if_pos hlevel]
  · rw [exec_evtInputChange_changed hp hraw, changeInput_of_not_entered (mustHaveEntered_of_none htiming _), if_neg hlevel,
      decide_eq_true hfilter]
    cases Config.shortPulseEnters s.free with
    | false => exact Or.inl rfl
    | true => exact Or.inr rfl
  · have hentered : mustHaveEntered s.pins[pin] s.now = true := by
      rw [mustHaveEntered_of_some htiming]
      exact decide_eq_true hnow
    have hget : (s.pins.set pin (enterLevel s.pins[pin]))[pin] = enterLevel s.pins[pin] := by simp
    rw [exec_evtInputChange_changed hp hraw, changeInput_of_entered hentered,
      exec_evtInputChange_changed (s := { s with pins := s.pins.set pin (enterLevel s.pins[pin]) }) hp
        (by rw [hget, enterLevel_eq]; exact hraw), hget]
    dsimp only
    rw [Vector.set_set]
  · rw [exec_filteredLevelChange_due hp htiming hdue, enterLevel_eq]

/-! ### Re-arm requests and PIN_SET -/

theorem levelSensed_iff (p : Pin) : levelSensed p = true ↔ p.sense = .high ∨ p.sense = .low := by
  simp [levelSensed]

/-- A level-sensed pin that is armed or miss-disarmed ignores a re-arm request (R37, R38). -/
theorem rearmPin_ignored {p : Pin} (hs : p.sense = .high ∨ p.sense = .low) (h : p.missDisarmed = true ∨ p.armed = true) :
    rearmPin p = p := by
  unfold rearmPin
  rw [if_pos ((levelSensed_iff p).mpr hs), if_pos (by rwa [Bool.or_eq_true])]

/-- A disarmed level-sensed pin is armed, or offers at once if it is asserted (R36, R37). -/
theorem rearmPin_disarmed {p : Pin} (hs : p.sense = .high ∨ p.sense = .low) (hm : p.missDisarmed = false)
    (ha : p.armed = false) :
    rearmPin p = if asserted p && !p.offer then { p with offer := true } else { p with armed := true } := by
  have hready : readyToOffer { p with armed := true } = (asserted p && !p.offer) := by
    unfold readyToOffer
    rw [hm, Bool.and_true, Bool.not_false, Bool.and_true]
    rfl
  unfold rearmPin
  rw [if_pos ((levelSensed_iff p).mpr hs), if_neg (by rw [hm, ha]; exact Bool.false_ne_true)]
  split
  · rename_i h
    rw [offerIfReady_of_ready (hready.trans h), ← ha]
  · rename_i h
    rw [offerIfReady_of_not_ready (hready.trans (eq_false_of_ne_true h))]

/-- A pin that is not level-sensed is armed by a re-arm request (R34). -/
theorem rearmPin_not_levelSensed {p : Pin} (hh : p.sense ≠ .high) (hl : p.sense ≠ .low) :
    rearmPin p = { p with armed := true } := by
  unfold rearmPin
  rw [if_neg]
  rw [levelSensed_iff]
  exact not_or.mpr ⟨hh, hl⟩

theorem clearMissDisarmed_of_clear {p : Pin} (h : p.missDisarmed = false) : clearMissDisarmed p = p := by
  unfold clearMissDisarmed
  rw [h, if_neg Bool.false_ne_true]

/-- A miss-disarmed pin is cleared and armed, and offers if it is asserted with no offer pending (R38). -/
theorem clearMissDisarmed_of_set {p : Pin} (h : p.missDisarmed = true) : clearMissDisarmed p =
    { p with missDisarmed := false, armed := !(asserted p && !p.offer), offer := p.offer || asserted p && !p.offer } := by
  have hready : readyToOffer { p with missDisarmed := false, armed := true } = (asserted p && !p.offer) := by
    unfold readyToOffer
    rw [Bool.and_true, Bool.not_false, Bool.and_true]
    rfl
  unfold clearMissDisarmed
  rw [if_pos h, offerIfReady_eq, hready]
  rfl

/-- The start of a change being timed, once PIN_SET has set a filter (R33; log entry 10). -/
def programmedTiming (filter now : Nat) (p : Pin) : Option Nat :=
  p.timing.map fun start => if filter ≠ p.filter || Config.sameFilterRestarts then now else start

/-- PIN_SET at its pin: set anew, with latch and offer withdrawn, armed, and offering at once if asserted (R39, R36). -/
theorem programPin_eq (sense : Sense) (filter now : Nat) (p : Pin) :
    let asserted := sense == .high && p.filtered || sense == .low && !p.filtered
    programPin sense filter now p = { p with
      sense := sense, filter := filter, latch := false, offer := asserted, armed := !asserted
      missDisarmed := false, timing := programmedTiming filter now p } := by
  intro asserted
  have hready (timing : Option Nat) : readyToOffer { p with
      sense := sense, filter := filter, latch := false, offer := false, missDisarmed := false, armed := true
      timing := timing } = asserted := by
    unfold readyToOffer
    rw [Bool.and_true, Bool.not_false, Bool.and_true, Bool.and_true]
    rfl
  unfold programPin
  rw [offerIfReady_eq, hready]
  rfl

theorem programmedTiming_of_changed {filter now : Nat} {p : Pin} (h : filter ≠ p.filter) :
    programmedTiming filter now p = p.timing.map fun _ => now := by
  unfold programmedTiming
  simp [h]

theorem programmedTiming_of_same {filter now : Nat} {p : Pin} (h : filter = p.filter) :
    programmedTiming filter now p = p.timing ∨ programmedTiming filter now p = p.timing.map fun _ => now := by
  unfold programmedTiming
  cases Config.sameFilterRestarts with
  | false => exact Or.inl (by simp [h])
  | true => exact Or.inr (by simp)

/-- A PIN_SET that passes its checks programs the pin that its operand names (R39, R159). -/
theorem pinSet_passed {s : State} (hready : commandReady s) (hchecks : firstFailing (checks .pinSet s) = none) :
    let pin : PinId := Fin.ofNat 32 (field s.port.operands[0] 0 6)
    exec .pinSet s = .next { s with
      pins := s.pins.set pin (programPin (senseOf (field s.port.operands[0] 8 3)) (field s.port.operands[0] 12 4) s.now
        s.pins[pin])
      port := s.port.ended 0x0F .ok [] } := by
  intro pin
  have hgoes : ¬ pinSetRefused (startCommand 0x0F s) = true := by
    intro hrefused
    have h := pinSetRefused_eq _ (start_operands 0x0F s)
    rw [checks_start, hchecks, if_pos hrefused] at h
    cases h
  rw [exec_command hready (code := 0x0F) rfl]
  refine congrArg Host.Outcome.next ?_
  show pinSetBody (startCommand 0x0F s) = _
  unfold pinSetBody
  rw [if_neg hgoes]
  rfl

/-- Settles O19: each branch of a re-arm, and PIN_SET's closed form of the programmed pin. -/
theorem rearmingAndPinSet : Obligations.RearmingAndPinSet := by
  unfold Obligations.RearmingAndPinSet
  refine ⟨fun p => ⟨fun hs => ⟨rearmPin_ignored hs, rearmPin_disarmed hs⟩, rearmPin_not_levelSensed,
    clearMissDisarmed_of_clear, fun hm ho => ?_, fun hm ho => ?_, rfl⟩, fun _ _ _ => rfl, fun s hready hchecks => ?_⟩
  · rw [clearMissDisarmed_of_set hm, ho, Bool.not_false, Bool.and_true]
    rfl
  · have hpending : (asserted p && !p.offer) = false := by rw [ho, Bool.not_true, Bool.and_false]
    rw [clearMissDisarmed_of_set hm, hpending, Bool.or_false]
    rfl
  · refine ⟨_, ?_, programmedTiming_of_changed, programmedTiming_of_same⟩
    rw [pinSet_passed hready hchecks, programPin_eq]
    rfl

/-! ### PORST# and the link DOWN -/

theorem exec_unserved {c : Instr} {op : LinkOp} {s : State} (h : s.porst = true ∨ s.link.state = .down)
    (ha : accessOf c = some op) : exec c s = .next s := by
  rw [exec_of_access ha, linkDeliver_of_unserved h]

theorem exec_porstRelease_held {s : State} (h : s.porst = true) :
    exec .porstRelease s = .next { s with porst := false, pins := s.pins.map (followInput s.now) } := by
  show Host.Outcome.next (porstReleaseBody s) = _
  unfold porstReleaseBody
  rw [if_pos h]

theorem exec_porstRelease_released {s : State} (h : s.porst = false) : exec .porstRelease s = .next s := by
  show Host.Outcome.next (porstReleaseBody s) = _
  unfold porstReleaseBody
  rw [h, if_neg Bool.false_ne_true]

/-- While PORST# is asserted an input change is noted as the raw level alone (R201, log entry 5). -/
theorem exec_evtInputChange_held {s : State} (h : s.porst = true) (pin : PinId) (level : Bool) :
    exec (.evtInputChange pin level) s
      = .next { s with pins := s.pins.set pin { s.pins[pin] with raw := level } } := by
  by_cases hraw : s.pins[pin].raw = level
  · have hself : s.pins.set pin { s.pins[pin] with raw := level } = s.pins := by
      rw [← hraw]
      exact Vector.set_getElem_self _
    rw [exec_evtInputChange_same hraw, hself]
  · show Host.Outcome.next (inputChangeBody pin level s) = _
    unfold inputChangeBody
    rw [if_neg hraw, if_pos h]
    rfl

theorem exec_filteredLevelChange_held {s : State} (h : s.porst = true) (pin : PinId) :
    exec (.filteredLevelChange pin) s = .next s := by
  show Host.Outcome.next (filteredLevelBody pin s) = _
  unfold filteredLevelBody
  rw [h]
  rfl

theorem exec_linkUp_held {s : State} (h : s.porst = true) : exec .linkUp s = .next s :=
  congrArg Host.Outcome.next (if_pos h)

theorem exec_busMaster_held {s : State} (h : s.porst = true) (on : Bool) :
    exec (.busMasterEnableWrite on) s = .next s :=
  congrArg Host.Outcome.next (if_pos h)

theorem exec_functionReset_held {s : State} (h : s.porst = true) (l : LinkState) :
    exec (.functionReset l) s = .next s :=
  congrArg Host.Outcome.next (if_pos h)

/-- The state after reset is what a power-on reset of it leaves, with PORST# released (R193, R201; log entry 3). -/
theorem porstRelease_powerOn_reset : exec .porstRelease (powerOnBody State.reset) = .next State.reset := by
  have hpins : (powerOnBody State.reset).pins.map (followInput 0) = State.reset.pins := by
    show ((Vector.replicate 32 (Pin.powerOn false)).map fun p => Pin.powerOn p.raw).map (followInput 0) = _
    rw [Vector.map_replicate, Vector.map_replicate]
    rfl
  rw [exec_porstRelease_held rfl]
  show Host.Outcome.next { State.reset with pins := (powerOnBody State.reset).pins.map (followInput 0) } = _
  rw [hpins]

theorem map_eq_ofFn (f : Pin → Pin) (v : Vector Pin 32) : v.map f = Vector.ofFn fun p : PinId => f v[p] := by
  ext i hi
  simp

/-- Settles O53: with PORST# asserted or the link DOWN the link delivers nothing, and each event of the part has its guard on PORST#. -/
theorem porstReleaseAndTheResetState : Obligations.PorstReleaseAndTheResetState := by
  unfold Obligations.PorstReleaseAndTheResetState
  refine ⟨fun s hp => ⟨⟨_, exec_porstRelease_held hp, rfl, fun p => Vector.getElem_map _ _⟩, ?_⟩,
    fun s => exec_porstRelease_released, ⟨_, rfl, porstRelease_powerOn_reset⟩, fun s h => ?_, fun s hp => ?_⟩
  · exact ⟨fun r t form => exec_unserved (Or.inl hp) rfl, fun r t w => exec_unserved (Or.inl hp) rfl,
      fun c code hc => exec_unserved (Or.inl hp) (accessOf_command hc), exec_linkUp_held hp, exec_busMaster_held hp,
      exec_functionReset_held hp, exec_evtInputChange_held hp, exec_filteredLevelChange_held hp⟩
  · exact ⟨fun r off size data => exec_unserved h rfl, fun r t form => exec_unserved h rfl, fun r t w => exec_unserved h rfl,
      fun r t w => exec_unserved h rfl, fun r t w => exec_unserved h rfl,
      fun c code hc => exec_unserved h (accessOf_command hc), fun k w => exec_unserved h rfl, exec_unserved h rfl,
      fun w => exec_unserved h rfl, fun a => exec_unserved h rfl, fun r t w => exec_unserved h rfl⟩
  · rw [exec_porstRelease_held hp, map_eq_ofFn]
    rfl

/-! ### What an empty queue does -/

theorem step_of_empty {s : State} (h : s.pending = []) : step s = .next (idle s) := by
  unfold step
  rw [h]

theorem idle_of_none {s : State} (h : dueEvents s = []) : idle s = { s with now := s.now + 1 } := by
  unfold idle
  rw [h]

theorem idle_of_one {s : State} {d : DueEvent} (h : dueEvents s = [d]) : idle s = runDue d s := by
  unfold idle
  rw [h]

/-- Of several due events one of them happens, whichever the free value names (log entry 2). -/
theorem idle_of_several {s : State} (h : 2 ≤ (dueEvents s).length) :
    ∃ d ∈ dueEvents s, idle s = runDue d { s with free := s.free + 1 } := by
  unfold idle
  generalize dueEvents s = due at h
  match due, h with
  | d :: e :: ds, _ =>
    have hlt : Config.dueChoice s.free % (ds.length + 2) < (d :: e :: ds).length := Nat.mod_lt _ (Nat.succ_pos _)
    refine ⟨(d :: e :: ds).getD (Config.dueChoice s.free % (ds.length + 2)) d, ?_, rfl⟩
    rw [List.getD_eq_getElem _ _ hlt]
    exact List.getElem_mem hlt

/-- A hold-off timer runs for a GATHERING notice alone (R61). -/
theorem holdOffTest_iff (p : Timer → Nat → Bool) (now : Nat) (n : Notice) :
    holdOffTest p now n = true ↔ ∃ th x, n.phase = .gathering th (some x) ∧ p x now = true := by
  unfold holdOffTest
  rcases n.phase with ⟨th, _ | x⟩ | _ | ⟨late, orphan⟩ <;> simp

theorem overdue_iff (x : Timer) (now : Nat) : x.overdue now = true ↔ x.start + x.limit + 1 ≤ now := decide_eq_true_iff

theorem deadlineOverdue_iff (c : Target) (now : Nat) :
    deadlineOverdue c now = true ↔ ∃ start, c.deadlineStart = some start ∧ start + c.deadline + 1 ≤ now := by
  unfold deadlineOverdue
  cases c.deadlineStart <;> simp

theorem filterOverdue_iff (p : Pin) (now : Nat) :
    filterOverdue p now = true ↔ ∃ start, p.timing = some start ∧ (p.filter = 0 ∨ start + p.filter + 1 ≤ now) := by
  unfold filterOverdue
  cases p.timing <;> simp

/-- What is due, in the five parts of the list. -/
theorem mem_dueEvents (s : State) (d : DueEvent) : d ∈ dueEvents s ↔
    (∃ e ∈ ascending s (holdOffTest Timer.overdue s.now), .holdOff e = d)
      ∨ (∃ t ∈ indicesWhere (fun c => deadlineOverdue c s.now) s.targets, .deadline t = d)
      ∨ ((s.port.waitTimer.any fun x => x.overdue s.now) = true ∧ d = .wait)
      ∨ (s.porst = false ∧ ∃ p ∈ indicesWhere (fun p => filterOverdue p s.now) s.pins, .level p = d)
      ∨ ∃ t ∈ s.link.regaining, .regain t = d := by
  have hwait : d ∈ (if s.port.waitTimer.any fun x => x.overdue s.now then [DueEvent.wait] else [])
      ↔ (s.port.waitTimer.any fun x => x.overdue s.now) = true ∧ d = .wait := by
    split <;> simp [*]
  have hlevel (ps : List DueEvent) : d ∈ (if s.porst then [] else ps) ↔ s.porst = false ∧ d ∈ ps := by
    split <;> simp [*]
  unfold dueEvents
  simp only [List.mem_append, hwait, hlevel, List.mem_map, or_assoc]

theorem holdOff_due_iff (s : State) (e : EntryId) : .holdOff e ∈ dueEvents s ↔
    ∃ n th x, s.pool[e] = some n ∧ n.phase = .gathering th (some x) ∧ x.start + x.limit + 1 ≤ s.now := by
  have hin : .holdOff e ∈ dueEvents s ↔ e ∈ ascending s (holdOffTest Timer.overdue s.now) := by simp [mem_dueEvents]
  rw [hin, mem_ascending]
  simp only [holdOffTest_iff, overdue_iff, exists_and_left]

theorem deadline_due_iff (s : State) (t : TargetId) : .deadline t ∈ dueEvents s ↔
    ∃ start, s.targets[t].deadlineStart = some start ∧ start + s.targets[t].deadline + 1 ≤ s.now := by
  have hin : .deadline t ∈ dueEvents s ↔ t ∈ indicesWhere (fun c => deadlineOverdue c s.now) s.targets := by
    simp [mem_dueEvents]
  rw [hin, mem_indicesWhere, deadlineOverdue_iff]

theorem wait_due_iff (s : State) :
    .wait ∈ dueEvents s ↔ ∃ x, s.port.waitTimer = some x ∧ x.start + x.limit + 1 ≤ s.now := by
  have hin : .wait ∈ dueEvents s ↔ (s.port.waitTimer.any fun x => x.overdue s.now) = true := by simp [mem_dueEvents]
  rw [hin, Option.any_eq_true]
  simp only [overdue_iff]

theorem level_due_iff (s : State) (p : PinId) : .level p ∈ dueEvents s ↔ s.porst = false ∧
    ∃ start, s.pins[p].timing = some start ∧ (s.pins[p].filter = 0 ∨ start + s.pins[p].filter + 1 ≤ s.now) := by
  have hin : .level p ∈ dueEvents s ↔ s.porst = false ∧ p ∈ indicesWhere (fun p => filterOverdue p s.now) s.pins := by
    simp [mem_dueEvents]
  rw [hin, mem_indicesWhere, filterOverdue_iff]

theorem regain_due_iff (s : State) (t : TargetId) : .regain t ∈ dueEvents s ↔ t ∈ s.link.regaining := by
  simp [mem_dueEvents]

/-- Settles O2: the idle step by how many events are due, which events those are, and what each does. -/
theorem emptyQueueTicks : Obligations.EmptyQueueTicks := by
  unfold Obligations.EmptyQueueTicks
  refine ⟨fun s hempty => ?_, fun s => ⟨holdOff_due_iff s, deadline_due_iff s, wait_due_iff s, level_due_iff s,
    regain_due_iff s⟩, fun s => ⟨fun _ => rfl, fun _ => rfl, rfl, fun _ => rfl⟩⟩
  rw [step_of_empty hempty]
  refine ⟨fun hnone => by rw [idle_of_none hnone], fun d hone => by rw [idle_of_one hone], fun hseveral => ?_⟩
  obtain ⟨d, hd, hidle⟩ := idle_of_several hseveral
  exact ⟨d, hd, by rw [hidle]⟩

end Sys2Proof.Machine

/-! Notices, ripening and the notice pool: the moves that a step is made of, and what each of them keeps of the notices and pairs; what a placement, a hand-over and an expiry do. -/

namespace Sys2Proof.Machine

/-! ### The moves that a step is made of -/

/-- A change of what no notice, pair, record or target holds. -/
structure Aside (s t : State) : Prop where
  slots : t.slots = s.slots
  targets : t.targets = s.targets
  pool : t.pool = s.pool
  order : t.order = s.order
  deferred : t.deferred = s.deferred

/-- One move of the part: an access, the taking of an arrival, a walk step, an expiry, a regain, a reset, or a change of the rest of the state. -/
inductive Move : State → State → Prop where
  | aside {s t : State} (h : Aside s t) : Move s t
  | deliver (op : LinkOp) (s : State) : Move s (linkDeliver op s)
  | drain (s : State) : Move s (drainWaiting s)
  | arrive (p : Producer) (a : Arrival) (s : State) : Move s (arrive p a s)
  | groupWalk (s : State) : Move s (groupWalkBody s)
  | onlineWalk (s : State) : Move s (onlineWalkBody s)
  | holdOff (e : EntryId) (s : State) : Move s (holdOffBody e s)
  | deadline (t : TargetId) (s : State) : Move s (deadlineBody t s)
  | regainOne (s : State) (t : TargetId) : Move s (regainOne s t)
  | regainIf (before s : State) : Move s (regainIf before s)
  | functionReset (l : LinkState) (s : State) : Move s (functionResetBody l s)
  | powerOn (s : State) : Move s (powerOnBody s)

/-- Moves, one after another. -/
abbrev Moves : State → State → Prop := Relation.ReflTransGen Move

theorem Moves.refl (s : State) : Moves s s := Relation.ReflTransGen.refl

theorem Move.moves {s t : State} (h : Move s t) : Moves s t := Relation.ReflTransGen.single h

theorem Aside.moves {s t : State} (h : Aside s t) : Moves s t := (Move.aside h).moves

theorem Aside.andThen {s t u : State} (h : Aside s t) (k : Moves t u) : Moves s u := k.head (.aside h)

theorem intake_aside (rest : List Arrival) (s : State) : Aside s { s with intake := rest } := ⟨rfl, rfl, rfl, rfl, rfl⟩

theorem pending_aside (rest : List Instr) (s : State) : Aside s { s with pending := rest } := ⟨rfl, rfl, rfl, rfl, rfl⟩

theorem modPin_aside (pin : PinId) (f : Pin → Pin) (s : State) : Aside s (modPin pin f s) := ⟨rfl, rfl, rfl, rfl, rfl⟩

theorem modCause_aside (c : Cause) (f : CauseState → CauseState) (s : State) : Aside s (modCause c f s) :=
  ⟨rfl, rfl, rfl, rfl, rfl⟩

theorem nextFree_aside (s : State) : Aside s (nextFree s) := ⟨rfl, rfl, rfl, rfl, rfl⟩

theorem endCommand_aside (c : ResultCode) (words : List Word) (s : State) : Aside s (endCommand c words s) :=
  ⟨rfl, rfl, rfl, rfl, rfl⟩

theorem setLink_aside (l : LinkState) (s : State) : Aside s (setLink l s) := ⟨rfl, rfl, rfl, rfl, rfl⟩

theorem setBusMaster_aside (on : Bool) (s : State) : Aside s (setBusMaster on s) := ⟨rfl, rfl, rfl, rfl, rfl⟩

theorem setWaiting_aside (ops : List LinkOp) (s : State) : Aside s (setWaiting ops s) := ⟨rfl, rfl, rfl, rfl, rfl⟩

theorem intakeTakenBody_moves (s : State) : Moves s (intakeTakenBody s) := by
  have hintake : Moves s (intakeBody s) := by
    unfold intakeBody
    split
    · exact (intake_aside _ s).andThen (Move.arrive _ _ _).moves
    · exact Moves.refl s
  exact hintake.tail (.drain _)

theorem edgeBody_moves (pin : PinId) (s : State) : Moves s (edgeBody pin s) := by
  unfold edgeBody
  split
  · exact (modPin_aside _ _ s).andThen (Move.arrive _ _ _).moves
  · exact Moves.refl s

theorem levelBody_moves (pin : PinId) (s : State) : Moves s (levelBody pin s) := by
  unfold levelBody
  split
  · exact (modPin_aside _ _ s).andThen ((Move.arrive _ _ _).moves.tail (.aside (modPin_aside _ _ _)))
  · exact Moves.refl s

theorem faultBody_moves (c : Cause) (s : State) : Moves s (faultBody c s) := by
  unfold faultBody
  split
  · exact (modCause_aside _ _ s).andThen (Move.arrive _ _ _).moves
  · exact Moves.refl s

theorem inputChangeBody_moves (pin : PinId) (level : Bool) (s : State) : Moves s (inputChangeBody pin level s) := by
  unfold inputChangeBody
  split
  · exact Moves.refl s
  · split
    · exact (modPin_aside _ _ s).moves
    · exact (modPin_aside _ _ s).andThen (nextFree_aside _).moves

theorem filteredLevelBody_moves (pin : PinId) (s : State) : Moves s (filteredLevelBody pin s) := by
  unfold filteredLevelBody
  split
  · exact (modPin_aside _ _ s).moves
  · exact Moves.refl s

theorem waitBody_moves (s : State) : Moves s (waitBody s) := by
  unfold waitBody
  split
  · exact (endCommand_aside _ _ s).moves
  · exact Moves.refl s

theorem linkUpBody_moves (s : State) : Moves s (linkUpBody s) := by
  unfold linkUpBody
  split
  · exact Moves.refl s
  · exact (setLink_aside _ s).andThen ((Move.regainIf _ _).moves.tail (.drain _))

theorem linkDownBody_moves (s : State) : Moves s (linkDownBody s) := by
  unfold linkDownBody
  split
  · exact Moves.refl s
  · exact (setLink_aside _ s).andThen
      (((Move.regainIf _ _).moves.tail (.aside (setWaiting_aside _ _))).tail (.aside (nextFree_aside _)))

theorem busMasterBody_moves (on : Bool) (s : State) : Moves s (busMasterBody on s) := by
  unfold busMasterBody
  split
  · exact Moves.refl s
  · exact (setBusMaster_aside _ s).andThen (Move.regainIf _ _).moves

theorem porstReleaseBody_moves (s : State) : Moves s (porstReleaseBody s) := by
  unfold porstReleaseBody
  split
  · exact Aside.moves (t := { s with porst := false, pins := _ }) ⟨rfl, rfl, rfl, rfl, rfl⟩
  · exact Moves.refl s

/-- A command that is no access makes its own moves. -/
theorem exec_event_moves {c : Instr} (h : accessOf c = none) (s : State) : ∃ t, exec c s = .next t ∧ Moves s t := by
  cases c with
  | intakeHeadTaken => exact ⟨_, rfl, intakeTakenBody_moves s⟩
  | edgeLatchTaken pin => exact ⟨_, rfl, edgeBody_moves pin s⟩
  | levelOfferTaken pin => exact ⟨_, rfl, levelBody_moves pin s⟩
  | faultArrival cause => exact ⟨_, rfl, faultBody_moves cause s⟩
  | evtInputChange pin level => exact ⟨_, rfl, inputChangeBody_moves pin level s⟩
  | filteredLevelChange pin => exact ⟨_, rfl, filteredLevelBody_moves pin s⟩
  | groupWalkSlot => exact ⟨_, rfl, (Move.groupWalk s).moves⟩
  | targetOnlineWalkSlot => exact ⟨_, rfl, (Move.onlineWalk s).moves⟩
  | holdOffExpiry entry => exact ⟨_, rfl, (Move.holdOff entry s).moves⟩
  | claimDeadlineExpiry target => exact ⟨_, rfl, (Move.deadline target s).moves⟩
  | waitTimerExpiry => exact ⟨_, rfl, waitBody_moves s⟩
  | linkUp => exact ⟨_, rfl, linkUpBody_moves s⟩
  | linkDown => exact ⟨_, rfl, linkDownBody_moves s⟩
  | busMasterEnableWrite on => exact ⟨_, rfl, busMasterBody_moves on s⟩
  | functionReset link => exact ⟨_, rfl, (Move.functionReset link s).moves⟩
  | powerOnReset => exact ⟨_, rfl, (Move.powerOn s).moves⟩
  | porstRelease => exact ⟨_, rfl, porstReleaseBody_moves s⟩
  | _ => cases h

theorem exec_moves {c : Instr} {s t : State} (h : exec c s = .next t) : Moves s t := by
  cases hc : accessOf c with
  | some op =>
    rw [exec_of_access hc] at h
    cases h
    exact (Move.deliver op s).moves
  | none =>
    obtain ⟨u, hu, hmoves⟩ := exec_event_moves hc s
    rw [hu] at h
    cases h
    exact hmoves

theorem runDue_moves (d : DueEvent) (s : State) : Moves s (runDue d s) := by
  cases d with
  | holdOff e => exact (Move.holdOff e s).moves
  | deadline t => exact (Move.deadline t s).moves
  | wait => exact waitBody_moves s
  | level p => exact filteredLevelBody_moves p s
  | regain t => exact (Move.regainOne s t).moves

theorem idle_moves (s : State) : Moves s (idle s) := by
  unfold idle
  split
  · exact Aside.moves (t := { s with now := s.now + 1 }) ⟨rfl, rfl, rfl, rfl, rfl⟩
  · exact runDue_moves _ s
  · exact (nextFree_aside s).andThen (runDue_moves _ _)

/-- Every step is made of moves. -/
theorem step_moves {s t : State} (h : step s = .next t) : Moves s t := by
  unfold step at h
  split at h
  · cases h
    exact idle_moves s
  · exact (pending_aside _ s).andThen (exec_moves h)

/-- Every move keeps a property in the states where another one holds. -/
def KeptWhere (P I : State → Prop) : Prop := ∀ s t : State, Move s t → P s → I s → I t

/-- A property kept where another is kept: both together are. -/
theorem KeptWhere.and {P Q I : State → Prop} (hq : KeptWhere P Q) (hi : KeptWhere (fun s => P s ∧ Q s) I) :
    KeptWhere P fun s => Q s ∧ I s :=
  fun s t hmove hp h => ⟨hq s t hmove hp h.1, hi s t hmove ⟨hp, h.1⟩ h.2⟩

/-- What every move keeps, every step keeps. -/
theorem KeptWhere.step {I : State → Prop} (k : KeptWhere (fun _ => True) I) {s t : State} (h : I s)
    (hstep : step s = .next t) : I t := by
  have hmoves : Moves s t := step_moves hstep
  clear hstep
  induction hmoves with
  | refl => exact h
  | tail _ hmove ih => exact k _ _ hmove trivial ih

/-! ### What every move keeps -/

/-- Every move keeps the notices in their places (R46, R63, R98). -/
theorem move_keeps_standing {s t : State} (hmove : Move s t) (h : Standing s) : Standing t := by
  cases hmove with
  | aside k => exact h.targets k.pool k.order k.targets
  | deliver op => exact linkDeliver_st op h
  | drain => exact drainWaiting_st h
  | arrive p a => exact arrive_st p a h
  | groupWalk => exact groupWalk_st h
  | onlineWalk => exact onlineWalk_st h
  | holdOff e => exact holdOff_st e h
  | deadline k => exact deadline_st k h
  | regainOne _ k => exact regainOne_st k h
  | regainIf b => exact regainIf_st h
  | functionReset l => exact functionReset_st l h
  | powerOn => exact powerOn_st s

theorem functionReset_be {s : State} (l : LinkState) (h : Belonging s) : Belonging (functionResetBody l s) := by
  unfold functionResetBody
  split
  · exact h
  · exact be_empty rfl rfl fun t => by simp [functionResetTarget, Target.powerOn]

/-- Every move keeps the notices and pairs with targets that take work and records that stand (R70). -/
theorem move_keeps_belonging {s t : State} (hmove : Move s t) (hs : Standing s) (h : Belonging s) : Belonging t := by
  cases hmove with
  | aside k => exact h.quiet (Quiet.same k.targets k.slots k.pool k.deferred)
  | deliver op => exact linkDeliver_be op h hs
  | drain => exact drainWaiting_be h hs
  | arrive p a => exact arrive_be p a h
  | groupWalk => exact groupWalk_be h
  | onlineWalk => exact onlineWalk_be h
  | holdOff e => exact h.quiet (holdOff_quiet e s)
  | deadline k => exact deadline_be k h
  | regainOne _ k => exact h.quiet (regainOne_quiet s k)
  | regainIf b => exact h.quiet (regainIf_quiet b s)
  | functionReset l => exact functionReset_be l h
  | powerOn => exact reset_be.quiet (Quiet.same rfl rfl rfl rfl)

/-- A function reset empties every stack (R97). -/
theorem functionReset_ordered {s : State} (l : LinkState) (h : StacksOrdered s) : StacksOrdered (functionResetBody l s) := by
  unfold functionResetBody
  split
  · exact h
  · intro k
    have hempty : (s.targets.map functionResetTarget)[k].stack = [] := by simp [functionResetTarget, Target.powerOn]
    rw [hempty]
    exact List.Pairwise.nil

/-- Every move keeps the stacks in order of urgency (R98): but for a claim and the resets, it keeps them still. -/
theorem move_keeps_ordered {s t : State} (hmove : Move s t) (hs : Standing s) (hb : Belonging s) (h : StacksOrdered s) :
    StacksOrdered t := by
  have standing : Standing t := move_keeps_standing hmove hs
  cases hmove with
  | aside k => exact h.still hs k.targets k.pool k.order
  | deliver op => exact linkDeliver_ordered op hs hb h
  | drain => exact drainWaiting_ordered hs hb h
  | arrive p a => exact (arrive_still p a s).ordered standing h
  | groupWalk => exact (groupWalk_still s).ordered standing h
  | onlineWalk => exact (onlineWalk_still s).ordered standing h
  | holdOff e => exact (holdOff_still e s).ordered standing h
  | deadline k => exact (deadline_still k s).ordered standing h
  | regainOne _ k => exact (regainOne_still k s).ordered standing h
  | regainIf b => exact (regainIf_still b s).ordered standing h
  | functionReset l => exact functionReset_ordered l h
  | powerOn => exact reset_stacks_ordered

theorem functionReset_sound {s : State} (l : LinkState) (h : Sound [] s) : Sound [] (functionResetBody l s) := by
  unfold functionResetBody
  split
  · exact h
  · exact Sound.empty rfl rfl

/-- Every move keeps the notices and pairs distinct and their counts in bounds (R48, R56, R64). -/
theorem move_keeps_sound {s t : State} (hmove : Move s t) (hs : Standing s) (hb : Belonging s) (h : Sound [] s) :
    Sound [] t := by
  cases hmove with
  | aside k => exact h.same k.pool k.order k.deferred k.slots
  | deliver op => exact linkDeliver_sound op hb h
  | drain => exact drainWaiting_sound hs hb h
  | arrive p a => exact arrive_sound p a h
  | groupWalk => exact groupWalk_sound h
  | onlineWalk => exact onlineWalk_sound h
  | holdOff e => exact h.tame (holdOff_tame e s)
  | deadline k => exact deadlineBody_sound k h
  | regainOne _ k => exact h.tame (regainOne_tame k s)
  | regainIf b => exact h.tame (regainIf_tame b s)
  | functionReset l => exact functionReset_sound l h
  | powerOn => exact Sound.empty rfl rfl

theorem standing_kept : KeptWhere (fun _ => True) Standing := fun _ _ hmove _ => move_keeps_standing hmove

theorem standing_belonging_kept : KeptWhere (fun _ => True) fun s => Standing s ∧ Belonging s :=
  standing_kept.and fun _ _ hmove hs => move_keeps_belonging hmove hs.2

/-- Settles O59: a step is made of moves, and each move keeps the notices in their places, and with them, where the work belongs, the order of the stacks and the distinct and bounded work. -/
theorem stepKeepsNoticesInTheirPlaces : Obligations.StepKeepsNoticesInTheirPlaces := by
  unfold Obligations.StepKeepsNoticesInTheirPlaces
  refine ⟨fun s t hs hstep => ?_, fun s t hs hb ho hstep => ?_, fun s t hs hb hd hc hstep => ?_⟩
  · exact (stand_iff t).mp (standing_kept.step ((stand_iff s).mpr hs) hstep)
  · have kept := standing_belonging_kept.and fun _ _ hmove h => move_keeps_ordered hmove h.2.1 h.2.2
    exact (kept.step ⟨⟨(stand_iff s).mpr hs, (be_iff s).mpr hb⟩, ho⟩ hstep).2
  · have kept := standing_belonging_kept.and fun _ _ hmove h => move_keeps_sound hmove h.2.1 h.2.2
    have start : Standing s ∧ Belonging s := ⟨(stand_iff s).mpr hs, (be_iff s).mpr hb⟩
    have sound : Sound [] t := (kept.step ⟨start, Sound.of start.1 start.2 hd hc⟩ hstep).2
    exact ⟨sound.distinct, sound.counts⟩

/-- Settles O60: each move of a step keeps the work belonging while every notice stands in its place. -/
theorem stepKeepsWorkBelonging : Obligations.StepKeepsWorkBelonging := by
  unfold Obligations.StepKeepsWorkBelonging
  intro s t hs hb hstep
  exact (be_iff t).mp (standing_belonging_kept.step ⟨(stand_iff s).mpr hs, (be_iff s).mpr hb⟩ hstep).2

/-! ### What the timers do at their expiry -/

theorem due_iff (x : Timer) (now : Nat) : x.due now = true ↔ x.start + x.limit ≤ now := decide_eq_true_iff

theorem deadlineDue_iff (c : Target) (now : Nat) :
    deadlineDue c now = true ↔ ∃ start, c.deadlineStart = some start ∧ start + c.deadline ≤ now := by
  unfold deadlineDue
  cases c.deadlineStart <;> simp

/-- The hold-off timer of a GATHERING notice that has run for its hold-off (R61). -/
theorem holdOff_ran_iff (s : State) (e : EntryId) : entryIs s (holdOffTest Timer.due s.now) e = true ↔
    ∃ n th x, s.pool[e] = some n ∧ n.phase = .gathering th (some x) ∧ x.start + x.limit ≤ s.now := by
  unfold entryIs
  rw [Option.any_eq_true]
  simp only [holdOffTest_iff, due_iff, exists_and_left]

theorem waitDue_iff (s : State) : waitDue s = true ↔ ∃ x, s.port.waitTimer = some x ∧ x.start + x.limit ≤ s.now := by
  unfold waitDue
  rw [Option.any_eq_true]
  simp only [due_iff]

theorem holdOffBody_of_ran {s : State} {e : EntryId} {n : Notice} {th : Nat} {x : Timer} (hn : s.pool[e] = some n)
    (hphase : n.phase = .gathering th (some x)) (hran : x.start + x.limit ≤ s.now) :
    holdOffBody e s = settle (ripen e s) := by
  unfold holdOffBody
  rw [if_pos ((holdOff_ran_iff s e).mpr ⟨n, th, x, hn, hphase, hran⟩)]

theorem holdOffBody_of_early {s : State} {e : EntryId}
    (h : ∀ n th x, s.pool[e] = some n → n.phase = .gathering th (some x) → s.now < x.start + x.limit) :
    holdOffBody e s = s := by
  unfold holdOffBody
  rw [if_neg]
  intro hran
  obtain ⟨n, th, x, hn, hphase, hle⟩ := (holdOff_ran_iff s e).mp hran
  exact absurd (h n th x hn hphase) (Nat.not_lt.mpr hle)

theorem deadlineBody_of_ran {s : State} {t : TargetId} {start : Nat} (hstart : s.targets[t].deadlineStart = some start)
    (hran : start + s.targets[t].deadline ≤ s.now) : deadlineBody t s = settle (stall t s) := by
  unfold deadlineBody
  rw [if_pos ((deadlineDue_iff _ _).mpr ⟨start, hstart, hran⟩)]

theorem deadlineBody_of_early {s : State} {t : TargetId}
    (h : ∀ start, s.targets[t].deadlineStart = some start → s.now < start + s.targets[t].deadline) :
    deadlineBody t s = s := by
  unfold deadlineBody
  rw [if_neg]
  intro hran
  obtain ⟨start, hstart, hle⟩ := (deadlineDue_iff _ _).mp hran
  exact absurd (h start hstart) (Nat.not_lt.mpr hle)

theorem waitBody_of_ran {s : State} {x : Timer} (hx : s.port.waitTimer = some x) (hran : x.start + x.limit ≤ s.now) :
    waitBody s = endCommand .timeout [] s := by
  unfold waitBody
  rw [if_pos ((waitDue_iff s).mpr ⟨x, hx, hran⟩)]

theorem waitBody_of_early {s : State} (h : ∀ x, s.port.waitTimer = some x → s.now < x.start + x.limit) :
    waitBody s = s := by
  unfold waitBody
  rw [if_neg]
  intro hran
  obtain ⟨x, hx, hle⟩ := (waitDue_iff s).mp hran
  exact absurd (h x hx) (Nat.not_lt.mpr hle)

/-- Settles O34: each expiry command runs its body, which acts exactly when the timer has run for its time. -/
theorem timersExpire : Obligations.TimersExpire := by
  unfold Obligations.TimersExpire
  refine ⟨fun s e => ⟨fun n th x hn hphase hran => ?_, fun hearly => ?_⟩,
    fun s t => ⟨fun start hstart hran => ?_, fun hearly => ?_⟩, fun s => ⟨fun x hx hran => ?_, fun hearly => ?_⟩⟩
  · rw [← ripen_gathering hn hphase, ← holdOffBody_of_ran hn hphase hran]
    rfl
  · exact congrArg Host.Outcome.next (holdOffBody_of_early hearly)
  · exact congrArg Host.Outcome.next (deadlineBody_of_ran hstart hran)
  · exact congrArg Host.Outcome.next (deadlineBody_of_early hearly)
  · exact congrArg Host.Outcome.next (waitBody_of_ran hx hran)
  · exact congrArg Host.Outcome.next (waitBody_of_early hearly)

/-! ### Which notices and pairs take a placement -/

/-- The notice at a target that takes a placement of the record: GATHERING or PENDING, of the record, on the target (R56, R74). -/
theorem residentAt_test (s : State) (i : SlotId) (t : TargetId) (e : EntryId) :
    entryIs s (fun n => n.unclaimed && ownedBy s i n && n.target == t) e = true ↔
      ∃ n, s.pool[e] = some n ∧ (n.phase = .pending ∨ ∃ th x, n.phase = .gathering th x)
        ∧ n.slot = i ∧ n.generation = s.slots[i].generation ∧ n.target = t := by
  rw [resident_test s i (fun n => n.target == t) e]
  simp only [beq_iff_eq]

theorem pairAt_some_iff (s : State) (i : SlotId) (t : TargetId) (d : Pair) : pairAt s i t = some d ↔
    ∃ before after, s.deferred = before ++ d :: after ∧ d.slot = i ∧ d.target = t
      ∧ ∀ x ∈ before, ¬ (x.slot = i ∧ x.target = t) := by
  unfold pairAt
  rw [List.find?_eq_some_iff_append]
  simp only [Bool.and_eq_true, beq_iff_eq, Bool.not_eq_true', ← Bool.not_eq_true]
  constructor
  · rintro ⟨⟨hslot, htarget⟩, before, after, hlist, hnone⟩
    exact ⟨before, after, hlist, hslot, htarget, hnone⟩
  · rintro ⟨before, after, hlist, hslot, htarget, hnone⟩
    exact ⟨⟨hslot, htarget⟩, before, after, hlist, hnone⟩

theorem pairAt_none_iff (s : State) (i : SlotId) (t : TargetId) :
    pairAt s i t = none ↔ ∀ x ∈ s.deferred, ¬ (x.slot = i ∧ x.target = t) := by
  unfold pairAt
  rw [List.find?_eq_none]
  simp only [Bool.and_eq_true, beq_iff_eq]

theorem placeOn_of_resident {s : State} {i : SlotId} {t : TargetId} {e : EntryId} (h : residentAt s i t = some e)
    (p : Placement) : placeOn i t p s = mergeInto e p s := by
  unfold placeOn
  rw [h]

theorem placeOn_of_pair {s : State} {i : SlotId} {t : TargetId} {d : Pair} (hr : residentAt s i t = none)
    (hd : pairAt s i t = some d) (p : Placement) : placeOn i t p s = mergeIntoPair i t d p s := by
  unfold placeOn
  rw [hr]
  dsimp only
  rw [hd]

theorem placeOn_of_free {s : State} {i : SlotId} {t : TargetId} {e : EntryId} (hr : residentAt s i t = none)
    (hd : pairAt s i t = none) (he : lowestFree s = some e) (p : Placement) :
    placeOn i t p s = startNotice e (freshNotice s i t p) s := by
  unfold placeOn
  rw [hr]
  dsimp only
  rw [hd]
  dsimp only
  rw [he]

theorem placeOn_of_full {s : State} {i : SlotId} {t : TargetId} (hr : residentAt s i t = none)
    (hd : pairAt s i t = none) (he : lowestFree s = none) (p : Placement) :
    placeOn i t p s = raise .poolEmpty { s with deferred := s.deferred ++
      [{ slot := i, target := t, count := p.count, overflow := p.overflow, payload := p.payload, pins := p.pins }] } := by
  unfold placeOn
  rw [hr]
  dsimp only
  rw [hd]
  dsimp only
  rw [he]

/-! ### Merging -/

/-- A notice that merges, before it may ripen (R48, R56). -/
theorem mergeInto_eq {s : State} {e : EntryId} {n : Notice} (h : s.pool[e] = some n) (p : Placement) :
    mergeInto e p s = ripenIfReached e
      (raiseIf (255 < n.count + p.count) .countOverflow (setEntry e (some (n.merged p)) s)) := by
  unfold mergeInto
  rw [h]

theorem merging_entry (s : State) (e : EntryId) (m : Notice) (b : Bool) (c : Cause) :
    (raiseIf b c (setEntry e (some m) s)).pool[e] = some m := by
  rw [raiseIf_pool]
  exact pool_get_self _ _ _

theorem mergeInto_pending {s : State} {e : EntryId} {n : Notice} (h : s.pool[e] = some n) (hphase : n.phase = .pending)
    (p : Placement) :
    mergeInto e p s = raiseIf (255 < n.count + p.count) .countOverflow (setEntry e (some (n.merged p)) s) := by
  rw [mergeInto_eq h]
  exact ripenIfReached_pending (merging_entry s e _ _ _) hphase

theorem mergeInto_below {s : State} {e : EntryId} {n : Notice} {th : Nat} {x : Option Timer} (h : s.pool[e] = some n)
    (hphase : n.phase = .gathering th x) {p : Placement} (hbelow : (n.merged p).count < th) :
    mergeInto e p s = raiseIf (255 < n.count + p.count) .countOverflow (setEntry e (some (n.merged p)) s) := by
  have hgathers : (n.merged p).phase = .gathering th x := hphase
  rw [mergeInto_eq h, ripenIfReached_eq (merging_entry s e _ _ _) hgathers, if_neg (Nat.not_le.mpr hbelow)]

/-- A GATHERING notice that reaches its threshold as it merges (R60). -/
theorem mergeInto_reached {s : State} {e : EntryId} {n : Notice} {th : Nat} {x : Option Timer} (h : s.pool[e] = some n)
    (hphase : n.phase = .gathering th x) {p : Placement} (hreached : th ≤ (n.merged p).count) :
    mergeInto e p s =
      { raiseIf (255 < n.count + p.count) .countOverflow (setEntry e (some (n.merged p)) s) with
        pool := s.pool.set e (some { n.merged p with phase := .pending })
        targets := s.targets.set n.target { s.targets[n.target] with
          lists := s.targets[n.target].lists.set n.level (s.targets[n.target].lists[n.level] ++ [e]) } } := by
  have hgathers : (n.merged p).phase = .gathering th x := hphase
  have hentry := merging_entry s e (n.merged p) (255 < n.count + p.count) .countOverflow
  rw [mergeInto_eq h, ripenIfReached_eq hentry hgathers, if_pos hreached, ripen_gathering hentry hgathers]
  simp only [raiseIf_pool, raiseIf_targets, setEntry_pool, setEntry_targets, pool_set_set]
  rfl

theorem mergeIntoPair_eq (i : SlotId) (t : TargetId) (d : Pair) (p : Placement) (s : State) :
    mergeIntoPair i t d p s = raiseIf (255 < d.count + p.count) .countOverflow
      { s with deferred := s.deferred.map fun x => if x.slot = i ∧ x.target = t then x.merged p else x } := by
  unfold mergeIntoPair
  simp only [Bool.and_eq_true, beq_iff_eq]

/-- Settles O14: the branches of a placement on a target and of a merge, and the searches for the notice and the pair. -/
theorem placementMerges : Obligations.PlacementMerges := by
  unfold Obligations.PlacementMerges
  intro s i t p
  refine ⟨fun e he => placeOn_of_resident he p, fun e n hn => ⟨fun hphase => ?_, fun th x hphase => ⟨fun hbelow => ?_,
    fun hreached => ?_⟩⟩, fun d hr hd => ?_, ⟨fun e => ?_, ?_⟩, pairAt_some_iff s i t, pairAt_none_iff s i t⟩
  · exact mergeInto_pending hn hphase p
  · exact mergeInto_below hn hphase hbelow
  · exact mergeInto_reached hn hphase hreached
  · rw [placeOn_of_pair hr hd, mergeIntoPair_eq]
    rfl
  · refine (oldest_some s _ e).trans ?_
    simp only [← Bool.not_eq_true, residentAt_test]
  · refine (oldest_none s _).trans ?_
    simp only [← Bool.not_eq_true, residentAt_test]

/-! ### The notice in flight -/

/-- A notice of the record in flight, on the target that is asked for if one is (R55). -/
def fliesFor (s : State) (i : SlotId) (onTarget : Option TargetId) (m : Notice) : Prop :=
  m.isInService = true ∧ m.isOrphan = false ∧ m.slot = i ∧ m.generation = s.slots[i].generation
    ∧ m.rearm = .explicit ∧ ∀ t, onTarget = some t → m.target = t

theorem flight_test (s : State) (i : SlotId) (onTarget : Option TargetId) (m : Notice) :
    (m.isInService && ownedBy s i m && m.rearm == .explicit && onTarget.all (m.target == ·)) = true ↔
      fliesFor s i onTarget m := by
  simp only [Bool.and_eq_true, ownedBy_iff, beq_iff_eq, Option.all_eq_true, fliesFor]
  tauto

/-- An EXPLICIT notice of the record that a claim has taken is in flight (R55). -/
theorem fliesFor_of_phase {s : State} {i : SlotId} {onTarget : Option TargetId} {n : Notice} {late : Option Late}
    (hphase : n.phase = .inService late false) (hslot : n.slot = i) (hgen : n.generation = s.slots[i].generation)
    (hexplicit : n.rearm = .explicit) (htarget : ∀ t, onTarget = some t → n.target = t) : fliesFor s i onTarget n := by
  have horphan : n.isOrphan = false := by
    unfold Notice.isOrphan
    rw [hphase]
  exact ⟨(isInService_iff n).mpr ⟨late, false, hphase⟩, horphan, hslot, hgen, hexplicit, htarget⟩

theorem entryIs_false_iff (s : State) (p : Notice → Bool) (e : EntryId) :
    entryIs s p e = false ↔ ∀ m, s.pool[e] = some m → ¬ p m = true := by
  unfold entryIs
  cases s.pool[e] <;> simp

theorem flightFor_explicit {s : State} {i : SlotId} (h : s.slots[i].rearm = .explicit) (onTarget : Option TargetId) :
    flightFor s i onTarget = inFlight s i onTarget := by
  unfold flightFor
  rw [if_pos h]

theorem flightFor_auto {s : State} {i : SlotId} (h : s.slots[i].rearm = .auto) (onTarget : Option TargetId) :
    flightFor s i onTarget = none := by
  unfold flightFor
  rw [if_neg (by rw [h]; decide)]

theorem inFlight_none_iff (s : State) (i : SlotId) (onTarget : Option TargetId) :
    inFlight s i onTarget = none ↔ ∀ e ∈ s.order, ∀ m, s.pool[e] = some m → ¬ fliesFor s i onTarget m := by
  refine (oldest_none s _).trans ?_
  simp only [entryIs_false_iff, flight_test]

/-- No notice of the record is in flight: always so under AUTO (R55). -/
theorem flightFor_none_iff (s : State) (i : SlotId) (onTarget : Option TargetId) :
    flightFor s i onTarget = none ↔
      s.slots[i].rearm = .auto ∨ ∀ e ∈ s.order, ∀ m, s.pool[e] = some m → ¬ fliesFor s i onTarget m := by
  cases hrearm : s.slots[i].rearm with
  | auto => exact iff_of_true (flightFor_auto hrearm onTarget) (Or.inl rfl)
  | explicit =>
    rw [flightFor_explicit hrearm, inFlight_none_iff]
    exact (or_iff_right (by decide)).symm

/-- The oldest notice in flight is the one with no older one in flight (R46, R55). -/
theorem flightFor_some {s : State} {i : SlotId} {onTarget : Option TargetId} {e : EntryId} {n : Notice}
    {older younger : List EntryId} (hrearm : s.slots[i].rearm = .explicit) (horder : s.order = older ++ e :: younger)
    (hn : s.pool[e] = some n) (hflies : fliesFor s i onTarget n)
    (holder : ∀ d ∈ older, ∀ m, s.pool[d] = some m → ¬ fliesFor s i onTarget m) : flightFor s i onTarget = some e := by
  rw [flightFor_explicit hrearm]
  refine oldest_eq horder hn ((flight_test s i onTarget n).mpr hflies) fun d hd m hm => ?_
  rw [← Bool.not_eq_true, flight_test]
  exact holder d hd m hm

/-- What the late count of a notice in flight takes (R48, R55). -/
theorem addLate_of_late {s : State} {e : EntryId} {n : Notice} {late : Late} (hn : s.pool[e] = some n)
    (hphase : n.phase = .inService (some late) false) (p : Placement) :
    addLate e p s = raiseIf (255 < late.count + p.count) .countOverflow
      { s with pool := s.pool.set e (some { n with
          payload := p.payload, pins := n.pins ||| p.pins
          phase := .inService (some { count := min (late.count + p.count) 255
                                      overflow := late.overflow || p.overflow || 255 < late.count + p.count }) false }) } := by
  have hlate : n.late = late := by
    unfold Notice.late
    rw [hphase]
  unfold addLate Notice.mergedLate
  rw [hn]
  dsimp only
  rw [hlate, hphase]
  rfl

theorem placeSingle_of_flight {s : State} {i : SlotId} {e : EntryId} (h : flightFor s i none = some e) (p : Placement) :
    placeSingle i p s = addLate e p s := by
  unfold placeSingle
  rw [h]

theorem placeAt_of_flight {s : State} {i : SlotId} {t : TargetId} {e : EntryId} (h : flightFor s i (some t) = some e)
    (p : Placement) : placeAt i t p s = addLate e p s := by
  unfold placeAt
  rw [h]

theorem placeAt_of_no_flight {s : State} {i : SlotId} {t : TargetId} (h : flightFor s i (some t) = none)
    (p : Placement) : placeAt i t p s = placeOn i t p s := by
  unfold placeAt
  rw [h]

/-- Settles O13: the notice in flight is the oldest that passes the test of R55, and it takes the placement into its late count. -/
theorem inFlightNoticeTakesThePlacement : Obligations.InFlightNoticeTakesThePlacement := by
  unfold Obligations.InFlightNoticeTakesThePlacement
  refine ⟨fun s i p e n late older younger hrearm horder hn hphase hslot hgen hexplicit =>
    ⟨fun hmode holder => ?_, fun holder => ?_⟩, flightFor_none_iff, fun s i t p h => placeAt_of_no_flight h p⟩
  · have hflies : fliesFor s i none n := fliesFor_of_phase hphase hslot hgen hexplicit fun t ht => by cases ht
    have hflight : flightFor s i none = some e := by
      refine flightFor_some hrearm horder hn hflies ?_
      rintro d hd m hm ⟨hserved, howned, hmslot, hmgen, hmexplicit, -⟩
      exact holder d hd m hm ⟨hserved, howned, hmslot, hmgen, hmexplicit⟩
    rw [placeByMode_single hmode, placeSingle_of_flight hflight, addLate_of_late hn hphase]
  · have hflies : fliesFor s i (some n.target) n :=
      fliesFor_of_phase hphase hslot hgen hexplicit fun t ht => Option.some.inj ht
    have hflight : flightFor s i (some n.target) = some e := by
      refine flightFor_some hrearm horder hn hflies ?_
      rintro d hd m hm ⟨hserved, howned, hmslot, hmgen, hmexplicit, htarget⟩
      exact holder d hd m hm (htarget _ rfl) ⟨hserved, howned, hmslot, hmgen, hmexplicit⟩
    rw [placeAt_of_flight hflight, addLate_of_late hn hphase]

/-! ### New notices and hand-over -/

theorem draining_iff (s : State) (i : SlotId) :
    draining s i = true ↔ s.slots[i].state = .retiring ∧ s.slots[i].retireMode = some .drain := by
  unfold draining
  rw [Bool.and_eq_true, beq_iff_eq, beq_iff_eq]

/-- A new notice ripens at once when its record is RETIRING under DRAIN or its count has reached its threshold (R60, R62). -/
theorem startNotice_ripens {e : EntryId} {n : Notice} {th : Nat} {x : Option Timer} (hphase : n.phase = .gathering th x)
    (s : State) : startNotice e n s =
      if th ≤ n.count ∨ s.slots[n.slot].state = .retiring ∧ s.slots[n.slot].retireMode = some .drain then
        ripen e { s with pool := s.pool.set e (some n), order := s.order.erase e ++ [e] }
      else { s with pool := s.pool.set e (some n), order := s.order.erase e ++ [e] } := by
  have hentry : ({ s with pool := s.pool.set e (some n), order := s.order.erase e ++ [e] } : State).pool[e] = some n :=
    pool_get_self _ _ _
  unfold startNotice setEntry
  dsimp only
  by_cases hdrain : draining s n.slot = true
  · rw [if_pos hdrain, if_pos (Or.inr ((draining_iff _ _).mp hdrain))]
  · rw [if_neg hdrain, ripenIfReached_eq hentry hphase]
    exact if_congr (or_iff_left fun h => hdrain ((draining_iff _ _).mpr h)).symm rfl rfl

theorem startNotice_eq {e : EntryId} {n : Notice} {th : Nat} {x : Option Timer} (hphase : n.phase = .gathering th x)
    (s : State) : startNotice e n s =
      if th ≤ n.count ∨ s.slots[n.slot].state = .retiring ∧ s.slots[n.slot].retireMode = some .drain then
        { s with
          pool := s.pool.set e (some { n with phase := .pending })
          order := s.order.erase e ++ [e]
          targets := s.targets.set n.target { s.targets[n.target] with
            lists := s.targets[n.target].lists.set n.level (s.targets[n.target].lists[n.level] ++ [e]) } }
      else { s with pool := s.pool.set e (some n), order := s.order.erase e ++ [e] } := by
  rw [startNotice_ripens hphase, ripen_gathering (pool_get_self _ _ _) hphase]
  simp only [pool_set_set]

theorem handOver_of_none {s : State} (h : s.deferred = []) (e : EntryId) : handOver e s = s := by
  unfold handOver
  rw [h]

theorem handOver_of_pair {s : State} {d : Pair} {rest : List Pair} (h : s.deferred = d :: rest) (e : EntryId) :
    handOver e s = startNotice e (freshNotice s d.slot d.target d.placement) { s with deferred := rest } := by
  unfold handOver
  rw [h]

theorem handOverInTurn_of_none {s : State} (h : s.deferred = []) (e : EntryId) : handOverInTurn s e = s := by
  unfold handOverInTurn
  rw [h, handOver_of_none h]
  rfl

theorem handOverInTurn_of_pair {s : State} {d : Pair} {rest : List Pair} (h : s.deferred = d :: rest) (e : EntryId) :
    handOverInTurn s e = judgeOne (handOver e s) d.target := by
  unfold handOverInTurn
  rw [h]
  rfl

/-- Settles O15: the last two branches of a placement, the two of a hand-over, and when a new notice ripens. -/
theorem newNoticesAndHandOver : Obligations.NewNoticesAndHandOver := by
  unfold Obligations.NewNoticesAndHandOver
  refine ⟨fun s i t p hr hd => ⟨fun e he hlowest => ?_, fun hfull => ?_⟩,
    fun s e => ⟨fun hnone => handOver_of_none hnone e, fun d rest hpair => handOver_of_pair hpair e⟩,
    fun s e n th x hphase => startNotice_eq hphase s,
    fun s e => ⟨fun hnone => handOverInTurn_of_none hnone e, fun d rest hpair => handOverInTurn_of_pair hpair e,
      fun es => ⟨rfl, rfl⟩⟩⟩
  · exact placeOn_of_free hr hd (lowestFree_eq he hlowest) p
  · exact placeOn_of_full hr hd (lowestFree_none hfull) p

end Sys2Proof.Machine

/-! Targets, urgency and notification: what every step keeps of the signals that follow deliverability, the urgency of levels and the candidate, the judging of targets, the owner check, and the writes that configure a target. -/

namespace Sys2Proof.Machine

/-! ### The signals of one target -/

/-- At one target the judged deliverability, the notify pin and the deadline timer follow deliverability (R87, R89, R93). -/
def SignalsAt (s : State) (t : TargetId) : Prop :=
  s.targets[t].deliverable = deliverable s t
    ∧ s.targets[t].ntf = (deliverable s t && s.targets[t].method == .pin)
    ∧ (s.targets[t].deadlineStart.isSome ↔
        s.targets[t].state = .online ∧ deliverable s t = true ∧ s.targets[t].deadline ≠ 0)

theorem signalsFollow_iff (s : State) : SignalsFollow s ↔ ∀ t : TargetId, SignalsAt s t := Iff.rfl

theorem SignalsFollow.signalsAt {s : State} (h : SignalsFollow s) (t : TargetId) : SignalsAt s t := h t

/-- An OFFLINE target has nothing deliverable (R86), so its signals follow exactly when each of them is at rest. -/
theorem signalsAt_iff_of_offline {s : State} {t : TargetId} (h : s.targets[t].state = .offline) :
    SignalsAt s t ↔
      s.targets[t].deliverable = false ∧ s.targets[t].ntf = false ∧ s.targets[t].deadlineStart = none := by
  unfold SignalsAt
  rw [deliverable_of_state (Or.inl h)]
  simp

/-- The write-owed flag is no signal, and deliverability does not read it (R86, R91). -/
theorem SignalsAt.owed {s u : State} {t : TargetId} (hpool : u.pool = s.pool)
    (ht : u.targets[t] = { s.targets[t] with writeOwed := u.targets[t].writeOwed }) (h : SignalsAt s t) :
    SignalsAt u t := by
  have hd : deliverable u t = deliverable s t := deliverable_congr hpool (by rw [ht])
  unfold SignalsAt
  rw [hd, ht]
  exact h

theorem SignalsAt.same {s u : State} {t : TargetId} (hpool : u.pool = s.pool) (ht : u.targets[t] = s.targets[t])
    (h : SignalsAt s t) : SignalsAt u t :=
  h.owed hpool (by rw [ht])

/-! ### The operations that leave the signals following -/

theorem endCommand_signals {s : State} (c : ResultCode) (words : List Word) (h : SignalsFollow s) :
    SignalsFollow (endCommand c words s) := signals_congr rfl rfl h

theorem stayInFlight_signals {s : State} (f : Flight) (h : SignalsFollow s) : SignalsFollow (stayInFlight f s) :=
  signals_congr rfl rfl h

theorem startWait_signals {s : State} (ms : Nat) (h : SignalsFollow s) : SignalsFollow (startWait ms s) :=
  signals_congr rfl rfl h

theorem rearmMissDisarmed_signals {s : State} (h : SignalsFollow s) : SignalsFollow (rearmMissDisarmed s) :=
  signals_congr (rearmMissDisarmed_pool s) (rearmMissDisarmed_targets s) h

theorem raise_signals {s : State} (c : Cause) (h : SignalsFollow s) : SignalsFollow (raise c s) :=
  signals_congr rfl rfl h

theorem answer_signals {s : State} (r : RequesterId) (n : Nat) (d : BitVec 64) (h : SignalsFollow s) :
    SignalsFollow (answer r n d s) := signals_congr rfl rfl h

theorem setWaiting_signals {s : State} (ops : List LinkOp) (h : SignalsFollow s) : SignalsFollow (setWaiting ops s) :=
  signals_congr rfl rfl h

/-! ### The records and the walks -/

theorem releaseRecord_signals {s : State} (i : SlotId) (h : SignalsFollow s) : SignalsFollow (releaseRecord i s) := by
  unfold releaseRecord
  split
  · exact settle_signals _
  · exact signals_congr rfl rfl h

theorem retireRecord_signals (i : SlotId) (mode : RetireMode) (s : State) : SignalsFollow (retireRecord i mode s) := by
  rw [retireRecord_begin]
  exact settle_signals _

theorem walkChange_signals {s : State} (kind : GroupKind) (i : SlotId) (h : SignalsFollow s) :
    SignalsFollow (walkChange kind i s) := by
  cases kind with
  | hold => exact signals_congr rfl rfl h
  | release => exact releaseRecord_signals i h
  | retire mode => exact retireRecord_signals i mode s

/-- A walk's step over one slot ends with a change of the port alone (R132, R173). -/
theorem walkEnd_signals {s : State} (words : List Word) (f : Flight) (h : SignalsFollow s) :
    SignalsFollow (endWalkIfPast words (advanceWalk f s)) := by
  have hadvance : SignalsFollow (advanceWalk f s) := signals_congr rfl rfl h
  unfold endWalkIfPast
  split
  · exact endCommand_signals _ _ hadvance
  · exact hadvance

theorem groupWalkBody_signals {s : State} (h : SignalsFollow s) : SignalsFollow (groupWalkBody s) := by
  unfold groupWalkBody
  split
  · dsimp only
    split
    · exact walkEnd_signals _ _ h
    · split
      · exact walkEnd_signals _ _ h
      · exact walkEnd_signals _ _ (walkChange_signals _ _ h)
  · exact h

theorem onlineWalkBody_signals {s : State} (h : SignalsFollow s) : SignalsFollow (onlineWalkBody s) := by
  unfold onlineWalkBody
  split
  · dsimp only
    split
    · exact walkEnd_signals _ _ (settle_signals _)
    · exact walkEnd_signals _ _ h
  · exact h

/-! ### The commands -/

theorem installBody_signals {s : State} (h : SignalsFollow s) : SignalsFollow (installBody s) := by
  unfold installBody
  split
  · exact endCommand_signals _ _ h
  · exact endCommand_signals _ _ (rearmMissDisarmed_signals (signals_congr rfl rfl h))

theorem modifyBody_signals {s : State} (h : SignalsFollow s) : SignalsFollow (modifyBody s) := by
  unfold modifyBody
  split
  · exact endCommand_signals _ _ h
  · exact endCommand_signals _ _ (signals_congr rfl rfl h)

theorem holdBody_signals {s : State} (h : SignalsFollow s) : SignalsFollow (holdBody s) := by
  unfold holdBody
  split
  · exact endCommand_signals _ _ h
  · exact endCommand_signals _ _ (signals_congr rfl rfl h)

theorem releaseBody_signals {s : State} (h : SignalsFollow s) : SignalsFollow (releaseBody s) := by
  unfold releaseBody
  split
  · exact endCommand_signals _ _ h
  · refine endCommand_signals _ _ (rearmMissDisarmed_signals ?_)
    split
    · exact releaseRecord_signals _ h
    · exact h

theorem queryBody_signals {s : State} (h : SignalsFollow s) : SignalsFollow (queryBody s) := by
  unfold queryBody
  split
  · exact endCommand_signals _ _ h
  · split
    · exact endCommand_signals _ _ h
    · exact endCommand_signals _ _ h

theorem probeBody_signals {s : State} (h : SignalsFollow s) : SignalsFollow (probeBody s) := by
  unfold probeBody
  split
  · exact endCommand_signals _ _ h
  · exact endCommand_signals _ _ h

theorem retireBody_signals {s : State} (h : SignalsFollow s) : SignalsFollow (retireBody s) := by
  unfold retireBody
  split
  · exact endCommand_signals _ _ h
  · unfold retireEnd
    dsimp only
    have hretired := retireRecord_signals (slotId s) (retireModeOf (retireModeCode s)) s
    split
    · exact endCommand_signals _ _ hretired
    · split
      · exact endCommand_signals _ _ hretired
      · exact startWait_signals _ (stayInFlight_signals _ hretired)

theorem forceRetireBody_signals {s : State} (h : SignalsFollow s) : SignalsFollow (forceRetireBody s) := by
  unfold forceRetireBody
  split
  · exact endCommand_signals _ _ h
  · exact settle_signals _

/-- A group walk's command is refused, or goes in flight (R172). -/
theorem startGroupWalk_signals {s : State} (refused : Bool) (kind : GroupKind) (h : SignalsFollow s) :
    SignalsFollow (if refused then endCommand .badField [] s else startGroupWalk kind s) := by
  split
  · exact endCommand_signals _ _ h
  · exact stayInFlight_signals _ h

/-- The second check of TARGET_SET (R79). -/
theorem targetSet_offline {s : State} (h : targetSetError s = none) : s.targets[targetId s].state = .offline := by
  unfold targetSetError at h
  by_contra hstate
  rw [if_pos hstate] at h
  split at h
  · cases h
  · cases h

/-- A TARGET_SET acts on an OFFLINE target, whose signals are at rest, and leaves it OFFLINE with them at rest (R79). -/
theorem targetSetBody_signals {s : State} (h : SignalsFollow s) : SignalsFollow (targetSetBody s) := by
  unfold targetSetBody
  split
  · exact endCommand_signals _ _ h
  · next hchecks =>
    have hoff : s.targets[targetId s].state = .offline := targetSet_offline hchecks
    refine endCommand_signals _ _ ((signalsFollow_iff _).mpr fun k => ?_)
    have hget := target_get_set s.targets (targetId s) k (configured s s.targets[targetId s])
    by_cases hk : targetId s = k
    · rw [if_pos hk] at hget
      have hrest := (signalsAt_iff_of_offline hoff).mp (h.signalsAt (targetId s))
      refine (signalsAt_iff_of_offline ?_).mpr ?_
      · rw [modTarget_targets, hget]
        exact hoff
      · rw [modTarget_targets, hget]
        exact hrest
    · rw [if_neg hk] at hget
      exact SignalsAt.same (s := s) rfl hget (h.signalsAt k)

theorem targetOnlineBody_signals {s : State} (h : SignalsFollow s) : SignalsFollow (targetOnlineBody s) := by
  unfold targetOnlineBody
  split
  · exact endCommand_signals _ _ h
  · dsimp only
    split
    · exact endCommand_signals _ _ h
    · exact settle_signals _

theorem targetOfflineBody_signals {s : State} (h : SignalsFollow s) : SignalsFollow (targetOfflineBody s) := by
  unfold targetOfflineBody
  split
  · exact endCommand_signals _ _ h
  · exact settle_signals _

theorem pinSetBody_signals {s : State} (h : SignalsFollow s) : SignalsFollow (pinSetBody s) := by
  unfold pinSetBody
  split
  · exact endCommand_signals _ _ h
  · exact endCommand_signals _ _ (signals_congr rfl rfl h)

theorem tableClearBody_signals {s : State} (h : SignalsFollow s) : SignalsFollow (tableClearBody s) := by
  unfold tableClearBody
  split
  · refine endCommand_signals _ _ ?_
    rw [clearTable_eq]
    exact signals_congr rfl rfl h
  · exact endCommand_signals _ _ h

/-- Each command by its code (R196). -/
theorem commandBody_signals {s : State} (code : Nat) (h : SignalsFollow s) : SignalsFollow (commandBody code s) := by
  unfold commandBody
  split
  · exact installBody_signals h
  · exact modifyBody_signals h
  · exact holdBody_signals h
  · exact releaseBody_signals h
  · exact queryBody_signals h
  · exact probeBody_signals h
  · exact retireBody_signals h
  · exact forceRetireBody_signals h
  · exact startGroupWalk_signals _ _ h
  · exact startGroupWalk_signals _ _ h
  · exact startGroupWalk_signals _ _ h
  · exact targetSetBody_signals h
  · exact targetOnlineBody_signals h
  · exact targetOfflineBody_signals h
  · exact pinSetBody_signals h
  · exact tableClearBody_signals h
  · exact endCommand_signals _ _ h

/-! ### The accesses -/

theorem eventBody_signals {s : State} (r : RequesterId) (off : BitVec 16) (size : Nat) (data : BitVec 64)
    (h : SignalsFollow s) : SignalsFollow (eventBody r off size data s) := by
  unfold eventBody
  split
  · exact raise_signals _ h
  · exact signals_congr rfl rfl h

theorem claimBody_signals {s : State} (r : RequesterId) (t : TargetId) (form : ClaimForm) (h : SignalsFollow s) :
    SignalsFollow (claimBody r t form s) := by
  unfold claimBody
  split
  · exact answer_signals _ _ _ (raise_signals _ h)
  · exact settle_signals _

theorem completeBody_signals {s : State} (r : RequesterId) (t : TargetId) (w : Word) (h : SignalsFollow s) :
    SignalsFollow (completeBody r t w s) := by
  unfold completeBody
  split
  · exact raise_signals _ h
  · split
    · exact raise_signals _ h
    · split
      · split
        · exact settle_signals _
        · exact raise_signals _ h
      · exact raise_signals _ h

theorem enableBody_signals {s : State} (r : RequesterId) (t : TargetId) (w : Word) (h : SignalsFollow s) :
    SignalsFollow (enableBody r t w s) := by
  unfold enableBody
  split
  · exact raise_signals _ h
  · exact settle_signals _

theorem maskBody_signals {s : State} (r : RequesterId) (t : TargetId) (w : Word) (h : SignalsFollow s) :
    SignalsFollow (maskBody r t w s) := by
  unfold maskBody
  split
  · exact raise_signals _ h
  · exact settle_signals _

theorem pageReadBody_signals {s : State} (r : RequesterId) (t : TargetId) (word : PageWord) (h : SignalsFollow s) :
    SignalsFollow (pageReadBody r t word s) := by
  unfold pageReadBody
  split
  · exact answer_signals _ _ _ (raise_signals _ h)
  · exact answer_signals _ _ _ h

theorem commandWrite_signals {s : State} (code : BitVec 8) (h : SignalsFollow s) :
    SignalsFollow (commandWrite code s) := by
  unfold commandWrite takeCommand
  split
  · exact signals_congr rfl rfl h
  · exact commandBody_signals _ (signals_congr rfl rfl h)

theorem abortBody_signals {s : State} (h : SignalsFollow s) : SignalsFollow (abortBody s) := by
  unfold abortBody
  split
  · exact endCommand_signals _ _ h
  · exact h

theorem serve_signals {s : State} (op : LinkOp) (h : SignalsFollow s) : SignalsFollow (serve op s) := by
  cases op with
  | eventWrite r off size data => exact eventBody_signals r off size data h
  | eventRead r size => exact answer_signals _ _ _ h
  | claim r t form => exact claimBody_signals r t form h
  | complete r t w => exact completeBody_signals r t w h
  | enableWrite r t w => exact enableBody_signals r t w h
  | maskWrite r t w => exact maskBody_signals r t w h
  | pageRead r t word => exact pageReadBody_signals r t word h
  | mgmtRead r word => exact answer_signals _ _ _ h
  | command code => exact commandWrite_signals code h
  | abort => exact abortBody_signals h
  | faultClear w => exact signals_congr rfl rfl h
  | operandWrite k w => exact signals_congr rfl rfl h
  | refusedRead r size => exact answer_signals _ _ _ (raise_signals _ h)
  | refusedWrite => exact raise_signals _ h

theorem linkDeliver_signals {s : State} (op : LinkOp) (h : SignalsFollow s) : SignalsFollow (linkDeliver op s) := by
  unfold linkDeliver
  split
  · exact h
  · split
    · exact setWaiting_signals _ h
    · exact serve_signals op h

theorem takeWaiting_signals (ops : List LinkOp) {s : State} (h : SignalsFollow s) :
    SignalsFollow (takeWaiting ops s) := by
  induction ops generalizing s with
  | nil => exact setWaiting_signals _ h
  | cons op ops ih =>
    unfold takeWaiting
    split
    · exact setWaiting_signals _ h
    · exact ih (serve_signals op h)

theorem drainWaiting_signals {s : State} (h : SignalsFollow s) : SignalsFollow (drainWaiting s) := by
  unfold drainWaiting
  split
  · exact takeWaiting_signals _ h
  · exact h

/-! ### The part's own events -/

/-- A held arrival changes a held count and the FSU, and a placed one is followed by a judgement (R42, R87). -/
theorem applyArrival_signals {s : State} (i : SlotId) (a : Arrival) (h : SignalsFollow s) :
    SignalsFollow (applyArrival i a s) := by
  unfold applyArrival
  split
  · exact settle_signals _
  · unfold joinHeld
    exact signals_congr (raiseIf_pool _ _ _) (raiseIf_targets _ _ _) h

theorem missed_signals {s : State} (p : Producer) (key : Key) (h : SignalsFollow s) : SignalsFollow (missed p key s) := by
  cases p with
  | intake => exact signals_congr rfl rfl h
  | edge => exact signals_congr rfl rfl h
  | level pin => exact signals_congr rfl rfl h
  | fault => exact h

theorem arrive_signals {s : State} (p : Producer) (a : Arrival) (h : SignalsFollow s) : SignalsFollow (arrive p a s) := by
  unfold arrive
  split
  · exact applyArrival_signals _ a h
  · exact missed_signals p a.key h

theorem holdOffBody_signals {s : State} (e : EntryId) (h : SignalsFollow s) : SignalsFollow (holdOffBody e s) := by
  unfold holdOffBody
  split
  · exact settle_signals _
  · exact h

theorem deadlineBody_signals {s : State} (t : TargetId) (h : SignalsFollow s) : SignalsFollow (deadlineBody t s) := by
  unfold deadlineBody
  split
  · exact settle_signals _
  · exact h

theorem regainOne_signals {s : State} (t : TargetId) (h : SignalsFollow s) : SignalsFollow (regainOne s t) := by
  rw [regainOne_eq]
  refine (signalsFollow_iff _).mpr fun k => SignalsAt.owed (s := s) rfl ?_ (h.signalsAt k)
  dsimp only
  rw [target_get_set]
  split
  · next hk => rw [hk]
  · rfl

theorem regainIf_signals {s : State} (before : State) (h : SignalsFollow s) : SignalsFollow (regainIf before s) := by
  obtain ⟨u, hu, hrest, htargets⟩ := regainIf_parts before s
  rw [hu]
  exact (signalsFollow_iff _).mpr fun k => (h.signalsAt k).owed (by rw [hrest]) (htargets k)

/-- A function reset leaves every target OFFLINE with its signals at rest (R97). -/
theorem functionResetBody_signals {s : State} (l : LinkState) (h : SignalsFollow s) :
    SignalsFollow (functionResetBody l s) := by
  unfold functionResetBody
  split
  · exact h
  · refine (signalsFollow_iff _).mpr fun k => ?_
    have hget : (s.targets.map functionResetTarget)[k] = functionResetTarget s.targets[k] := Vector.getElem_map _ _
    refine (signalsAt_iff_of_offline ?_).mpr ?_
    · rw [hget]
      rfl
    · rw [hget]
      exact ⟨rfl, rfl, rfl⟩

/-- Every move keeps the signals following: it judges the targets last, or changes nothing that they follow, or leaves a target OFFLINE with its signals at rest. -/
theorem move_keeps_signals {s t : State} (hmove : Move s t) (h : SignalsFollow s) : SignalsFollow t := by
  cases hmove with
  | aside k => exact signals_congr k.pool k.targets h
  | deliver op => exact linkDeliver_signals op h
  | drain => exact drainWaiting_signals h
  | arrive p a => exact arrive_signals p a h
  | groupWalk => exact groupWalkBody_signals h
  | onlineWalk => exact onlineWalkBody_signals h
  | holdOff e => exact holdOffBody_signals e h
  | deadline k => exact deadlineBody_signals k h
  | regainOne _ k => exact regainOne_signals k h
  | regainIf b => exact regainIf_signals b h
  | functionReset l => exact functionResetBody_signals l h
  | powerOn => exact signals_congr rfl rfl reset_signals

/-- Settles O57: a step is made of moves, and each of them keeps the signals following deliverability. -/
theorem stepKeepsSignalsFollowing : Obligations.StepKeepsSignalsFollowing := by
  unfold Obligations.StepKeepsSignalsFollowing
  intro s t h hstep
  have kept : KeptWhere (fun _ => True) SignalsFollow := fun _ _ hmove _ => move_keeps_signals hmove
  exact kept.step h hstep


/-! ### Ranks (R81) -/

theorem groupOf_val (l : Level) : (groupOf l).val = l.val / 4 := by
  show l.val / 4 % 4 = l.val / 4
  omega

/-- A group order without repetition lists every group. -/
theorem mem_groupOrder {order : Vector Group 4} (h : order.toList.Nodup) (g : Group) : g ∈ order.toList := by
  have hcard : order.toList.toFinset.card = Fintype.card Group := by
    rw [List.toFinset_card_of_nodup h, Vector.length_toList]
    rfl
  rw [← List.mem_toFinset, Finset.eq_univ_of_card _ hcard]
  exact Finset.mem_univ g

theorem idxOf_group_lt {order : Vector Group 4} (h : order.toList.Nodup) (g : Group) : order.toList.idxOf g < 4 := by
  have hlt := List.idxOf_lt_length_iff.mpr (mem_groupOrder h g)
  rwa [Vector.length_toList] at hlt

theorem idxOf_group_eq {order : Vector Group 4} (h : order.toList.Nodup) (position : Fin 4) :
    order.toList.idxOf order[position] = position.val :=
  h.idxOf_getElem position.val _

theorem rank_of_position {order : Vector Group 4} (h : order.toList.Nodup) {position : Fin 4} {l : Level}
    (hl : l.val / 4 = (order[position]).val) : rank order l = 4 * position.val + (3 - l.val % 4) := by
  have hgroup : groupOf l = order[position] := Fin.ext ((groupOf_val l).trans hl)
  unfold rank
  rw [hgroup, idxOf_group_eq h, Nat.mul_comm]

theorem rank_lt {order : Vector Group 4} (h : order.toList.Nodup) (l : Level) : rank order l < 16 := by
  have hlt := idxOf_group_lt h (groupOf l)
  unfold rank
  omega

/-- A rank gives both the position of the group and the place of the level within it. -/
theorem rank_injective {order : Vector Group 4} (h : order.toList.Nodup) {l m : Level}
    (heq : rank order l = rank order m) : l = m := by
  unfold rank at heq
  have hplace : l.val % 4 = m.val % 4 := by omega
  have hposition : order.toList.idxOf (groupOf l) = order.toList.idxOf (groupOf m) := by omega
  have hgroup : groupOf l = groupOf m := (List.idxOf_inj (mem_groupOrder h _)).mp hposition
  have hquotient : l.val / 4 = m.val / 4 := by rw [← groupOf_val, ← groupOf_val, hgroup]
  exact Fin.ext (by omega)

/-- Settles O20: a rank is a position times 4 plus a place, and a group order without repetition lists each group at one position. -/
theorem rankOfALevel : Obligations.RankOfALevel := by
  unfold Obligations.RankOfALevel
  exact fun order h => ⟨fun _ _ => rank_of_position h, rank_lt h, fun _ _ => rank_injective h⟩

/-! ### The candidate (R85) -/

/-- The candidate is the head of the list at the candidate's level. -/
theorem candidate_some_iff (c : Target) (e : EntryId) (l : Level) :
    candidate c = some (e, l) ↔ candidateLevel c = some l ∧ (c.lists[l]).head? = some e := by
  unfold candidate
  cases hlevel : candidateLevel c with
  | none => simp
  | some m =>
    constructor
    · intro h
      obtain ⟨x, hx, hpair⟩ := Option.map_eq_some_iff.mp h
      cases hpair
      exact ⟨rfl, hx⟩
    · rintro ⟨hm, hhead⟩
      cases hm
      exact Option.map_eq_some_iff.mpr ⟨e, hhead, rfl⟩

/-- A level of a candidate is eligible, so its list has a head: without a candidate there is no level either. -/
theorem candidate_none_iff (c : Target) : candidate c = none ↔ candidateLevel c = none := by
  unfold candidate
  cases hlevel : candidateLevel c with
  | none => simp
  | some l =>
    have heligible : eligible c l = true := List.find?_some hlevel
    simpa using ((eligible_iff c l).mp heligible).2

theorem candidateLevel_none {c : Target} (h : c.groupOrder.toList.Nodup) :
    candidateLevel c = none ↔ ∀ l : Level, c.mask.getLsbD l = true ∨ c.lists[l] = [] := by
  have hineligible (l : Level) : ¬ eligible c l = true ↔ c.mask.getLsbD l = true ∨ c.lists[l] = [] := by
    rw [eligible_iff, not_and_or, Bool.not_eq_false, not_not]
  unfold candidateLevel
  rw [List.find?_eq_none]
  exact ⟨fun hnone l => (hineligible l).mp (hnone l (mem_levelsByRank c.groupOrder h l)),
    fun hall l _ => (hineligible l).mpr (hall l)⟩

/-- Settles O21: the levels are searched by rank, and the head of the list found is the candidate. -/
theorem candidateIsTheMostUrgentHead : Obligations.CandidateIsTheMostUrgentHead := by
  unfold Obligations.CandidateIsTheMostUrgentHead
  refine fun c h => ⟨fun e l => ?_, (candidate_none_iff c).trans (candidateLevel_none h)⟩
  rw [candidate_some_iff, candidateLevel_some h, eligible_iff]
  constructor
  · rintro ⟨⟨⟨hmask, -⟩, hleast⟩, hhead⟩
    exact ⟨hmask, hhead, fun m hne hm hlist => hleast m hne ((eligible_iff c m).mpr ⟨hm, hlist⟩)⟩
  · rintro ⟨hmask, hhead, hleast⟩
    have hlist : c.lists[l] ≠ [] := fun hnil => by
      rw [hnil] at hhead
      cases hhead
    refine ⟨⟨⟨hmask, hlist⟩, fun m hne hm => ?_⟩, hhead⟩
    obtain ⟨hmmask, hmlist⟩ := (eligible_iff c m).mp hm
    exact hleast m hne hmmask hmlist

/-! ### Deliverability (R86) -/

/-- The fifth condition of R86: the stack is empty, or the notice on its top is strictly less urgent. -/
theorem overTop_iff (s : State) (c : Target) (l : Level) :
    overTop s c l = true ↔ c.stack = [] ∨ ∃ top below n, c.stack = top :: below ∧ s.pool[top] = some n
      ∧ rank c.groupOrder l < rank c.groupOrder n.level := by
  unfold overTop topLevel moreUrgent
  cases hstack : c.stack with
  | nil => simp
  | cons top below =>
    cases hentry : s.pool[top] with
    | none =>
      rw [Fin.getElem_fin] at hentry
      simp [hentry]
    | some n =>
      rw [Fin.getElem_fin] at hentry
      simp [hentry]

theorem deliverable_iff (s : State) (t : TargetId) : deliverable s t = true ↔
    placeable s t = true ∧ s.targets[t].enabled = true ∧ s.targets[t].stack.length < 4
      ∧ ∃ e l, candidate s.targets[t] = some (e, l) ∧ overTop s s.targets[t] l = true := by
  unfold deliverable
  dsimp only
  rw [Bool.and_eq_true, Bool.and_eq_true, Bool.and_eq_true, decide_eq_true_eq, and_assoc, and_assoc]
  cases hcandidate : candidate s.targets[t] with
  | none => simp
  | some x =>
    obtain ⟨e, l⟩ := x
    simp

/-- Settles O22: each conjunct of deliverability is one of the conditions. -/
theorem deliverableMeansFiveConditions : Obligations.DeliverableMeansFiveConditions := by
  unfold Obligations.DeliverableMeansFiveConditions
  intro s t c
  simp only [deliverable_iff, placeable_iff, overTop_iff, c]


/-! ### The judging of the targets (R87, R89 to R93) -/

theorem permission_iff (s : State) : permission s = true ↔ s.link.state = .up ∧ s.link.busMaster = true := by
  unfold permission
  rw [Bool.and_eq_true, beq_iff_eq]

/-- The upper half of an address is nonzero exactly when the address does not fit 32 bits (R192). -/
theorem upperHalf_ne_zero (address : BitVec 64) :
    (address.extractLsb' 32 32 != 0) = decide (address.toNat ≥ 2 ^ 32) := by
  have hlt := address.isLt
  have hvalue : (address.extractLsb' 32 32).toNat = address.toNat / 2 ^ 32 % 2 ^ 32 := by
    rw [BitVec.extractLsb'_toNat, Nat.shiftRight_eq_div_pow]
  have hzero : (0 : BitVec 32).toNat = 0 := rfl
  rw [Bool.eq_iff_iff, bne_iff_ne, decide_eq_true_eq, ne_eq, ← BitVec.toNat_inj, hvalue, hzero]
  omega

theorem notifyWrite_eq (c : Target) : notifyWrite c =
    { requester := Config.functionRequesterId, address := c.address
      longForm := decide (c.address.toNat ≥ 2 ^ 32), data := c.data } := by
  unfold notifyWrite
  rw [upperHalf_ne_zero]

/-- The writes that judging the targets issues: with permission one for each newly deliverable target, without it none (R90, R91). -/
theorem settle_notifyWrites (s : State) : ∃ ws, (settle s).notifyWrites = s.notifyWrites ++ ws ∧
    ws.Perm (((List.finRange 8).filter fun t => permission s && newlyDeliverable s t).map
      fun t => notifyWrite s.targets[t]) := by
  obtain ⟨us, k, hperm, hsettle⟩ := settle_eq s
  cases hp : permission s with
  | true =>
    have hissued := foldl_requestWrite_of_permission us { s with targets := Vector.ofFn (judge s), free := k } hp
    refine ⟨_, congrArg State.notifyWrites (hsettle.trans hissued), ?_⟩
    have hjudged (t : TargetId) : notifyWrite (Vector.ofFn (judge s))[t] = notifyWrite s.targets[t] := by
      rw [show (Vector.ofFn (judge s))[t] = judge s t from Vector.getElem_ofFn _]
      rfl
    simp only [hjudged, Bool.true_and]
    exact hperm.map _
  | false =>
    have howed := foldl_requestWrite_of_none us { s with targets := Vector.ofFn (judge s), free := k } hp
    refine ⟨[], (congrArg State.notifyWrites (hsettle.trans howed)).trans (List.append_nil _).symm, ?_⟩
    simp

/-- Settles O23: judging all the targets is one judgement of each and the requests in a free order; judging one is that judgement alone. -/
theorem judgingTheTargets : Obligations.JudgingTheTargets := by
  unfold Obligations.JudgingTheTargets
  refine ⟨fun s => ?_, judgeOne_eq, notifyWrite_eq, permission_iff⟩
  obtain ⟨u, hsettle, hrest, htargets⟩ := settle_parts s
  obtain ⟨ws, hwrites, hperm⟩ := settle_notifyWrites s
  rw [hsettle] at hwrites
  refine ⟨u, hsettle, hrest, htargets, ws, hwrites, ?_⟩
  simpa only [newlyDeliverable, Bool.and_assoc] using hperm

/-! ### The owner check, ENABLE and MASK (R80, R83, R84) -/

/-- A posted write is taken at once by a ready link (R190). -/
theorem exec_write {c : Instr} {op : LinkOp} {s : State} (h : linkReady s) (hc : accessOf c = some op) :
    exec c s = .next (serve op s) := by
  rw [exec_of_access hc, linkDeliver_of_linkReady h]

/-- A read is taken at once by a link in which no access waits (R190). -/
theorem exec_read {c : Instr} {op : LinkOp} {s : State} (h : readReady s) (hc : accessOf c = some op)
    (hread : op.isPosted = false) : exec c s = .next (serve op s) := by
  rw [exec_of_access hc, linkDeliver_of_readReady h op hread]

/-- A read that the owner check refuses answers zeros and raises REGISTER_ACCESS (R80). -/
theorem serve_refused_read {s : State} {r : RequesterId} {t : TargetId} (h : ownerRefuses s r t = true) :
    (∀ word, serve (.pageRead r t word) s = answer r 4 0 (raise .registerAccess s))
      ∧ ∀ form, serve (.claim r t form) s = answer r (claimSize form) 0 (raise .registerAccess s) :=
  ⟨fun _ => if_pos h, fun _ => if_pos h⟩

/-- A write that the owner check refuses only raises REGISTER_ACCESS (R80). -/
theorem serve_refused_write {s : State} {r : RequesterId} {t : TargetId} (h : ownerRefuses s r t = true) (w : Word) :
    serve (.complete r t w) s = raise .registerAccess s ∧ serve (.enableWrite r t w) s = raise .registerAccess s
      ∧ serve (.maskWrite r t w) s = raise .registerAccess s :=
  ⟨if_pos h, if_pos h, if_pos h⟩

/-- Settles O28: a ready link takes the access, and the owner check comes before all else that it does. -/
theorem ownerCheckRefuses : Obligations.OwnerCheckRefuses := by
  unfold Obligations.OwnerCheckRefuses
  intro s r owner t howner hne
  have hrefused : ownerRefuses s r t = true := owner_bad howner hne
  obtain ⟨hpage, hclaim⟩ := serve_refused_read hrefused
  refine ⟨fun hready => ⟨fun word => ?_, ?_, ?_⟩, fun hready w => ?_⟩
  · rw [exec_read hready rfl rfl, hpage]
    rfl
  · rw [exec_read hready rfl rfl, hclaim]
    rfl
  · rw [exec_read hready rfl rfl, hclaim]
    rfl
  · obtain ⟨hcomplete, henable, hmask⟩ := serve_refused_write hrefused w
    rw [exec_write hready rfl, exec_write hready rfl, exec_write hready rfl, hcomplete, henable, hmask]
    exact ⟨rfl, rfl, rfl⟩

/-- Settles O29: a write that passes the owner check sets its field of the target, and the targets are judged. -/
theorem enableAndMaskWrites : Obligations.EnableAndMaskWrites := by
  unfold Obligations.EnableAndMaskWrites
  intro s r t w hready howner
  have hpasses : ¬ ownerRefuses s r t = true := Bool.eq_false_iff.mp (owner_ok howner)
  rw [exec_write hready rfl, exec_write hready rfl]
  exact ⟨congrArg Host.Outcome.next (if_neg hpasses), congrArg Host.Outcome.next (if_neg hpasses)⟩

/-! ### TARGET_SET (R79, R158) -/

/-- A TARGET_SET whose checks pass configures its target and ends (R79). -/
theorem targetSetBody_passed {s : State} (h : targetSetError s = none) :
    targetSetBody s = endCommand .ok [] (modTarget (targetId s) (configured s) s) := by
  unfold targetSetBody
  rw [h]

/-- Settles O45: the checks pass, so the target that the operands name takes the configuration that they spell. -/
theorem targetSetConfigures : Obligations.TargetSetConfigures := by
  unfold Obligations.TargetSetConfigures
  intro s hready hchecks t ops
  have hpassed : targetSetError (startCommand 0x0C s) = none := by
    rw [targetSetError_eq _ (start_operands 0x0C s), checks_start, hchecks]
  have htarget : targetId (startCommand 0x0C s) = t := targetId_eq (start_operands 0x0C s)
  rw [exec_command hready (code := 0x0C) rfl]
  refine congrArg Host.Outcome.next ((targetSetBody_passed hpassed).trans ?_)
  rw [htarget]
  rfl

end Sys2Proof.Machine

/-! Claim and completion (chapter 5): what a claim takes, answers and leaves deliverable, and the outcomes of a COMPLETE. -/

namespace Sys2Proof.Machine

/-! ### What a claim finds (R100, R101) -/

/-- A claim that passes the owner check is served, and the targets are judged (R80, R100). -/
theorem exec_claim_passed {s : State} {r : RequesterId} {t : TargetId} (hready : readReady s)
    (howner : s.targets[t].owner = none ∨ s.targets[t].owner = some r) (form : ClaimForm) :
    exec (.claim r t form) s = .next (settle (servedClaim r t form s)) := by
  rw [readDeliver hready]
  exact congrArg Host.Outcome.next (if_neg (Bool.eq_false_iff.mp (owner_ok howner)))

/-- The target as a claim finds it: back ONLINE if it was STALLED, its deadline timer stopped (R93, R101). -/
def Target.readied (c : Target) : Target :=
  { c with state := if c.state = .stalled then .online else c.state, deadlineStart := none }

/-- The state with its target readied. -/
def readied (t : TargetId) (s : State) : State := { s with targets := s.targets.set t s.targets[t].readied }

theorem readied_eq (t : TargetId) (s : State) : stopDeadline t (returnToOnline t s) = readied t s :=
  claim_prep t s

theorem readied_target (t : TargetId) (s : State) : (readied t s).targets[t] = s.targets[t].readied :=
  target_get_self _ _ _

theorem readied_deliverable (t : TargetId) (s : State) :
    deliverable (readied t s) t = deliverable s t :=
  prep_deliverable t s

theorem readied_online {c : Target} (h : c.state = .online ∨ c.state = .stalled) : c.readied.state = .online := by
  unfold Target.readied
  rcases h with h | h <;> rw [h] <;> rfl

/-- A claim takes the candidate of a deliverable target (R101, R102). -/
theorem claimable_of_deliverable {s : State} {t : TargetId} {e : EntryId} {l : Level} {n : Notice}
    (hstate : s.targets[t].state = .online ∨ s.targets[t].state = .stalled) (hd : deliverable s t = true)
    (hc : candidate s.targets[t] = some (e, l)) (hn : s.pool[e] = some n) :
    claimable (readied t s) t = some (e, n) := by
  have honline : online (readied t s) t = true := by
    unfold online
    rw [readied_target, readied_online hstate]
    rfl
  have hcandidate : candidate s.targets[t].readied = some (e, l) := hc
  unfold claimable
  rw [honline, readied_deliverable, hd, readied_target, hcandidate]
  dsimp only
  rw [if_pos (Bool.and_self true), show (readied t s).pool = s.pool from rfl, hn]
  rfl

theorem claimable_of_not_deliverable {s : State} {t : TargetId} (hd : deliverable s t = false) :
    claimable (readied t s) t = none := by
  unfold claimable
  rw [readied_deliverable, hd, Bool.and_false]
  rfl

/-! ### What a claim answers and latches (R100, R104, R105) -/

theorem latchPayload_eq (t : TargetId) (form : ClaimForm) (payload : Word) (s : State) :
    latchPayload t form payload s = { s with targets := s.targets.set t { s.targets[t] with
      lastPayload := if form = .low then payload else s.targets[t].lastPayload } } := by
  cases form with
  | low => rfl
  | whole =>
    have hsame : s.targets.set t s.targets[t] = s.targets := by simp
    exact (congrArg (fun v => { s with targets := v }) hsame).symm

theorem claimAnswer_eq (r : RequesterId) (form : ClaimForm) (low payload : Word) (s : State) :
    claimAnswer r form low payload s = { s with answers := s.answers ++
      [if form = .low then { requester := r, size := 4, data := low.setWidth 64 }
       else { requester := r, size := 8, data := payload ++ low }] } := by
  cases form <;> rfl

/-- A claim that takes nothing answers with the stack-full flag alone (R104). -/
theorem claimAnswer_empty (r : RequesterId) (form : ClaimForm) (depth : Nat) (s : State) :
    claimAnswer r form (emptyClaimWord (depth == 4)) 0 s = { s with answers := s.answers ++
      [{ requester := r, size := if form = .low then 4 else 8, data := if depth = 4 then 0x80000000 else 0 }] } := by
  rw [claimAnswer_eq]
  by_cases hfull : depth = 4
  · rw [beq_iff_eq.mpr hfull, if_pos hfull]
    cases form <;> rfl
  · rw [beq_false_of_ne hfull, if_neg hfull]
    cases form <;> rfl

/-! ### The taking of the candidate (R102) -/

theorem claimed_eq (n : Notice) : n.claimed = { n with
    phase := .inService (if n.rearm = .explicit then some { count := 0, overflow := false } else none) false } := by
  unfold Notice.claimed
  cases n.rearm <;> rfl

/-- The candidate is PENDING at its target, on the list of the level it was found at (R63). -/
theorem candidate_stands {s : State} {t : TargetId} {e : EntryId} {l : Level} (h : NoticesStand s)
    (hc : candidate s.targets[t] = some (e, l)) : ∃ n, s.pool[e] = some n ∧ n.level = l := by
  obtain ⟨hlists, -⟩ := h
  obtain ⟨n, hn, -, -, hlevel⟩ := (hlists t l e).mp (List.mem_of_head? (cand_head hc))
  exact ⟨n, hn, hlevel⟩

/-- The candidate is the head of its list, so taking it leaves the tail. -/
theorem takeCandidate_eq {s : State} {t : TargetId} {e : EntryId} {n : Notice}
    (hhead : s.targets[t].lists[n.level].head? = some e) : takeCandidate t e n s = { s with
      pool := s.pool.set e (some n.claimed)
      targets := s.targets.set t { s.targets[t] with
        lists := s.targets[t].lists.set n.level s.targets[t].lists[n.level].tail
        stack := e :: s.targets[t].stack } } := by
  unfold takeCandidate modList
  rw [modTarget_modTarget, ← head_erase hhead]
  rfl

/-- The state in which a claim has taken the candidate and answered, before the targets are judged (R102, R103, R105). -/
def claimTaken (s : State) (r : RequesterId) (t : TargetId) (form : ClaimForm) (e : EntryId) (l : Level) (n : Notice) :
    State :=
  let c := s.targets[t]
  { s with
    pool := s.pool.set e (some { n with
      phase := .inService (if n.rearm = .explicit then some { count := 0, overflow := false } else none) false })
    targets := s.targets.set t { c with
      state := .online
      lists := c.lists.set l (c.lists[l].tail)
      stack := e :: c.stack
      deadlineStart := none
      lastPayload := if form = .low then n.payload else c.lastPayload }
    answers := s.answers ++
      [if form = .low then { requester := r, size := 4, data := (claimWord n).setWidth 64 }
       else { requester := r, size := 8, data := n.payload ++ claimWord n }] }

theorem servedClaim_taken {s : State} {r : RequesterId} {t : TargetId} {form : ClaimForm} {e : EntryId} {l : Level}
    {n : Notice} (hstate : s.targets[t].state = .online ∨ s.targets[t].state = .stalled) (hd : deliverable s t = true)
    (hc : candidate s.targets[t] = some (e, l)) (hn : s.pool[e] = some n) (hlevel : n.level = l) :
    servedClaim r t form s = claimTaken s r t form e l n := by
  subst hlevel
  have hhead : ((readied t s) : State).targets[t].lists[n.level].head?
      = some e := by
    rw [readied_target]
    exact cand_head hc
  unfold servedClaim claimTaken
  rw [readied_eq]
  dsimp only
  rw [claimable_of_deliverable hstate hd hc hn]
  dsimp only
  rw [claimAnswer_eq, latchPayload_eq, takeCandidate_eq hhead, claimed_eq, readied_target]
  simp only [target_get_self, target_set_set]
  unfold readied
  simp only [target_set_set, readied_online hstate]
  rfl

/-- Settles O25: the candidate of the readied target is taken from the head of its list. -/
theorem claimTakesTheCandidate : Obligations.ClaimTakesTheCandidate := by
  unfold Obligations.ClaimTakesTheCandidate
  intro s r t form e l n c hready howner hstate hd hc hn hS
  obtain ⟨m, hm, hlevel⟩ := candidate_stands hS hc
  cases hn.symm.trans hm
  rw [exec_claim_passed hready howner, servedClaim_taken hstate hd hc hn hlevel]
  rfl

theorem servedClaim_empty {s : State} {t : TargetId} (hd : deliverable s t = false) (r : RequesterId)
    (form : ClaimForm) : servedClaim r t form s = { s with
      targets := s.targets.set t { s.targets[t].readied with
        lastPayload := if form = .low then 0 else s.targets[t].lastPayload }
      answers := s.answers ++
        [{ requester := r, size := if form = .low then 4 else 8
           data := if s.targets[t].stack.length = 4 then 0x80000000 else 0 }] } := by
  unfold servedClaim
  rw [readied_eq]
  dsimp only
  rw [claimable_of_not_deliverable hd]
  dsimp only
  rw [claimAnswer_empty, latchPayload_eq, readied_target]
  unfold readied
  simp only [target_set_set]
  rfl

/-- Settles O26: with nothing deliverable a claim finds nothing to take, and answers the stack-full flag alone. -/
theorem claimTakesNothing : Obligations.ClaimTakesNothing := by
  unfold Obligations.ClaimTakesNothing
  intro s r t form c hready howner hd
  rw [exec_claim_passed hready howner, servedClaim_empty hd]
  rfl

/-! ### What a claim leaves deliverable (R106) -/

/-- Where fewer levels are eligible, the candidate is no more urgent (R85). -/
theorem candidateLevel_rank_le {c d : Target} {l m : Level} (hnodup : c.groupOrder.toList.Nodup)
    (hfewer : ∀ k : Level, eligible d k = true → eligible c k = true) (hl : candidateLevel c = some l)
    (hm : candidateLevel d = some m) : rank c.groupOrder l ≤ rank c.groupOrder m := by
  obtain ⟨-, hleast⟩ := (candidateLevel_some hnodup l).mp hl
  by_cases hsame : m = l
  · rw [hsame]
  · exact (hleast m hsame (hfewer m (List.find?_some hm))).le

/-- Deliverability reads of the pool the level of a stack's top alone (R86). -/
theorem deliverable_of_levels {s u : State} {k : TargetId} (ht : u.targets[k] = s.targets[k])
    (hlevels : ∀ d : EntryId, (u.pool[d]).map Notice.level = (s.pool[d]).map Notice.level) :
    deliverable u k = deliverable s k := by
  have htop : topLevel u s.targets[k] = topLevel s s.targets[k] := by
    unfold topLevel
    split
    · rfl
    · exact hlevels _
  unfold deliverable placeable overTop
  rw [ht]
  simp only [htop]

theorem claimTaken_target (s : State) (r : RequesterId) (t : TargetId) (form : ClaimForm) (e : EntryId) (l : Level)
    (n : Notice) : (claimTaken s r t form e l n).targets[t] = { s.targets[t] with
      state := .online
      lists := s.targets[t].lists.set l (s.targets[t].lists[l].tail)
      stack := e :: s.targets[t].stack
      deadlineStart := none
      lastPayload := if form = .low then n.payload else s.targets[t].lastPayload } :=
  target_get_self _ _ _

theorem claimTaken_other {t k : TargetId} (h : t ≠ k) (s : State) (r : RequesterId) (form : ClaimForm) (e : EntryId)
    (l : Level) (n : Notice) : (claimTaken s r t form e l n).targets[k] = s.targets[k] :=
  (target_get_set _ _ _ _).trans (if_neg h)

theorem claimTaken_level {s : State} {e : EntryId} {n : Notice} (hn : s.pool[e] = some n) (r : RequesterId)
    (t : TargetId) (form : ClaimForm) (l : Level) (d : EntryId) :
    ((claimTaken s r t form e l n).pool[d]).map Notice.level = (s.pool[d]).map Notice.level := by
  unfold claimTaken
  dsimp only
  rw [pool_get_set]
  split
  · next h =>
    rw [← h, hn]
    rfl
  · rfl

/-- Taking the head of a list makes no level eligible that was not. -/
theorem claimTaken_eligible {s : State} {r : RequesterId} {t : TargetId} {form : ClaimForm} {e : EntryId} {l : Level}
    {n : Notice} {k : Level} (h : eligible (claimTaken s r t form e l n).targets[t] k = true) :
    eligible s.targets[t] k = true := by
  rw [claimTaken_target, eligible_iff] at h
  obtain ⟨hmask, hlist⟩ := h
  refine (eligible_iff _ _).mpr ⟨hmask, fun hnil => hlist ?_⟩
  dsimp only
  rw [list_get_set]
  split
  · next hkl => rw [hkl, hnil, List.tail_nil]
  · exact hnil

/-- What is left at the target is at most as urgent as the notice now on top of its stack (R82, R86, R106). -/
theorem claimTaken_not_deliverable {s : State} {t : TargetId} {e : EntryId} {l : Level} {n : Notice}
    (hnodup : s.targets[t].groupOrder.toList.Nodup) (hc : candidate s.targets[t] = some (e, l))
    (hn : s.pool[e] = some n) (hlevel : n.level = l) (r : RequesterId) (form : ClaimForm) :
    deliverable (claimTaken s r t form e l n) t = false := by
  rw [Bool.eq_false_iff]
  intro hd
  obtain ⟨-, -, -, d, m, hcandidate, hover⟩ := (deliverable_iff _ _).mp hd
  have hrank := candidateLevel_rank_le hnodup (fun _ => claimTaken_eligible) ((candidate_some_iff _ _ _).mp hc).1
    ((candidate_some_iff _ _ _).mp hcandidate).1
  have htop := claimTaken_level hn r t form l e
  rw [hn] at htop
  rw [claimTaken_target, overTop_iff] at hover
  rcases hover with hempty | ⟨top, below, x, hstack, hx, hless⟩
  · cases hempty
  · cases hstack
    rw [hx] at htop
    rw [Option.some.inj htop, hlevel] at hless
    exact absurd hrank (Nat.not_le.mpr hless)

/-- Where the signals followed deliverability before the claim, none of the targets has become deliverable (R90, R106). -/
theorem claimTaken_newlyDeliverable {s : State} {t : TargetId} {e : EntryId} {l : Level} {n : Notice}
    (hsignals : SignalsFollow s) (hn : s.pool[e] = some n) {r : RequesterId} {form : ClaimForm}
    (hd : deliverable (claimTaken s r t form e l n) t = false) (k : TargetId) :
    newlyDeliverable (claimTaken s r t form e l n) k = false := by
  unfold newlyDeliverable
  by_cases hk : t = k
  · rw [← hk, hd]
    rfl
  · rw [deliverable_of_levels (claimTaken_other hk s r form e l n) (claimTaken_level hn r t form l),
      claimTaken_other hk, (hsignals k).1, Bool.and_not_self, Bool.false_and]

theorem settle_deliverable (s : State) (t : TargetId) : deliverable (settle s) t = deliverable s t := by
  obtain ⟨u, hsettle, hrest, htargets⟩ := settle_parts s
  rw [hsettle]
  refine deliverable_congr (by rw [hrest]) ?_
  rw [htargets]

/-- Judging issues no write where no target has become deliverable (R90). -/
theorem settle_issues_none {s : State} (h : ∀ t : TargetId, newlyDeliverable s t = false) :
    (settle s).notifyWrites = s.notifyWrites := by
  obtain ⟨ws, hwrites, hperm⟩ := settle_notifyWrites s
  simp only [h, Bool.and_false, List.filter_false, List.map_nil, List.perm_nil] at hperm
  rw [hwrites, hperm, List.append_nil]

/-- Settles O27: the notice taken is now the top of the stack and was the most urgent, so nothing left is more urgent than it. -/
theorem claimLeavesNothingDeliverable : Obligations.ClaimLeavesNothingDeliverable := by
  unfold Obligations.ClaimLeavesNothingDeliverable
  intro s r t form u c hready howner hstate hd hnodup hS hexec
  obtain ⟨-, -, -, e, l, hc, -⟩ := (deliverable_iff s t).mp hd
  obtain ⟨n, hn, hlevel⟩ := candidate_stands hS hc
  rw [exec_claim_passed hready howner, servedClaim_taken hstate hd hc hn hlevel] at hexec
  cases hexec
  have hnone := claimTaken_not_deliverable hnodup hc hn hlevel r form
  have hnothing : deliverable (settle (claimTaken s r t form e l n)) t = false :=
    (settle_deliverable _ t).trans hnone
  obtain ⟨-, hpin, htimer⟩ := settle_signals (claimTaken s r t form e l n) t
  rw [hnothing] at hpin htimer
  refine ⟨hnothing, hpin, ?_, fun hsignals => settle_issues_none (claimTaken_newlyDeliverable hsignals hn hnone)⟩
  simpa using htimer

/-! ### The popped notice -/

theorem isOrphan_of_inService {n : Notice} {late : Option Late} {orphan : Bool} (h : n.phase = .inService late orphan) :
    n.isOrphan = orphan := by
  unfold Notice.isOrphan
  rw [h]

theorem late_of_inService {n : Notice} {late : Option Late} {orphan : Bool} (h : n.phase = .inService late orphan) :
    n.late = late.getD { count := 0, overflow := false } := by
  unfold Notice.late
  rw [h]
  cases late <;> rfl

/-- The top of a stack is on that target, and in no level list (R63, R98). -/
theorem top_stands {s : State} {t : TargetId} {e : EntryId} {below : List EntryId} {n : Notice} (h : NoticesStand s)
    (hstack : s.targets[t].stack = e :: below) (hn : s.pool[e] = some n) :
    n.target = t ∧ ∀ l : Level, e ∉ s.targets[t].lists[l] := by
  obtain ⟨hlists, hstacks, -⟩ := h
  have hmem : e ∈ s.targets[t].stack := hstack ▸ List.mem_cons_self
  obtain ⟨m, hm, hservice, htarget⟩ := (hstacks t e).mp hmem
  cases hn.symm.trans hm
  refine ⟨htarget, fun l hlist => ?_⟩
  obtain ⟨m, hm, hpending, -⟩ := (hlists t l e).mp hlist
  cases hn.symm.trans hm
  rw [pending_not_service hpending] at hservice
  cases hservice

theorem popStack_of_cons {s : State} {t : TargetId} {e : EntryId} {below : List EntryId}
    (h : s.targets[t].stack = e :: below) :
    popStack t s = { s with targets := s.targets.set t { s.targets[t] with stack := below } } := by
  unfold popStack modTarget
  dsimp only
  rw [h]
  rfl

theorem popStack_placeable (t k : TargetId) (s : State) : placeable (popStack t s) k = placeable s k := by
  refine placeable_congr (fun j => ?_) k
  unfold popStack
  rw [modTarget_targets, target_get_set]
  split
  · next h => rw [← h]
  · rfl

theorem not_quiescing_of_placeable {s : State} {t : TargetId} (h : placeable s t = true) :
    s.targets[t].state ≠ .quiescing := fun hstate => by
  rw [placeable_iff, hstate] at h
  exact absurd h (by decide)

theorem Target.same_state {a b : Target} (h : a.same b) : b.state = a.state := by
  unfold Target.same at h
  rw [h]

theorem startNotice_placeable (e : EntryId) (n : Notice) (s : State) (k : TargetId) :
    placeable (startNotice e n s) k = placeable s k :=
  placeable_congr (fun j => Target.same_state ((startNotice_frame e n s).target j)) k

theorem pairAt_of_deferred {s u : State} (h : u.deferred = s.deferred) (i : SlotId) (t : TargetId) :
    pairAt u i t = pairAt s i t := by
  unfold pairAt
  rw [h]

/-! ### The operations of a completion -/

theorem removeNotice_of_some {s : State} {e : EntryId} {n : Notice} (h : s.pool[e] = some n) :
    removeNotice e s = { s with
      pool := s.pool.set e none
      order := s.order.erase e
      targets := s.targets.set n.target { s.targets[n.target] with
        lists := s.targets[n.target].lists.set n.level (s.targets[n.target].lists[n.level].erase e) } } := by
  unfold removeNotice
  rw [h]
  rfl

theorem dropNotice_of_some {s : State} {e : EntryId} {n : Notice} (h : s.pool[e] = some n) :
    dropNotice e s = rearmPins n.pins (removeNotice e s) := by
  unfold dropNotice
  rw [h]

theorem dropNotice_none {s : State} {e : EntryId} (h : s.pool[e] = none) : dropNotice e s = s := by
  unfold dropNotice
  rw [h]

theorem absorbPair_some {s : State} {e : EntryId} {i : SlotId} {t : TargetId} {d : Pair} (h : pairAt s i t = some d) :
    absorbPair e i t s = mergeInto e d.placement
      { s with deferred := s.deferred.filter fun x => !(x.slot == i && x.target == t) } := by
  unfold absorbPair
  rw [h]

/-- A notice that ceases as an orphan is not reported (R17, R73). -/
theorem ceaseAndHandOver_of_orphan {s : State} {e : EntryId} {n : Notice} (hn : s.pool[e] = some n)
    (h : n.isOrphan = true) : ceaseAndHandOver e s = handOverInTurn (dropNotice e s) e := by
  unfold ceaseAndHandOver ceaseNotice
  rw [hn]
  dsimp only
  rw [if_pos h]

theorem ceaseAndHandOver_of_record {s : State} {e : EntryId} {n : Notice} (hn : s.pool[e] = some n)
    (h : n.isOrphan = false) :
    ceaseAndHandOver e s = handOverInTurn (reportCeased n.slot (dropNotice e s)) e := by
  unfold ceaseAndHandOver ceaseNotice
  rw [hn]
  dsimp only
  rw [if_neg (Bool.eq_false_iff.mp h)]

/-! ### The outcomes of R113 -/

theorem completeNotice_of_orphan {n : Notice} (h : n.isOrphan = true) (e : EntryId) (s : State) :
    completeNotice e n s = ceaseAndHandOver e s := by
  unfold completeNotice
  rw [h]
  rfl

theorem completeNotice_of_nothing_late {n : Notice} (h : n.late.count = 0) (e : EntryId) (s : State) :
    completeNotice e n s = ceaseAndHandOver e s := by
  unfold completeNotice
  rw [h]
  exact if_pos (Bool.or_true _)

theorem completeNotice_of_late {n : Notice} (horphan : n.isOrphan = false) (h : n.late.count ≠ 0) (e : EntryId)
    (s : State) : completeNotice e n s = completeLate e n s := by
  unfold completeNotice
  rw [horphan, decide_eq_false h]
  rfl

/-- The outcomes of a late count by the record and the target (R113, R116, R119). -/
theorem completeLate_eq (e : EntryId) (n : Notice) (s : State) : completeLate e n s =
    if s.slots[n.slot].state = .retiring ∧ s.slots[n.slot].retireMode = some .discard then ceaseAndHandOver e s
    else if placeable s n.target = true then reraise e n s
    else if s.slots[n.slot].state = .active ∨ s.slots[n.slot].state = .held then returnLate e n s
    else ceaseAndHandOver e s := by
  unfold completeLate
  simp only [Bool.and_eq_true, Bool.or_eq_true, decide_eq_true_eq]

theorem not_dropped_of_recorded {r : Slot} (h : r.state = .active ∨ r.state = .held) :
    ¬ (r.state = .retiring ∧ r.retireMode = some .discard) := fun hdropped => by
  rw [hdropped.1] at h
  exact absurd h (by decide)

/-- The popped notice of an orphan, freed with no report (R114). -/
theorem completeNotice_orphan {s : State} {e : EntryId} {n : Notice} (hn : s.pool[e] = some n)
    (horphan : n.isOrphan = true) : completeNotice e n s = handOverInTurn (dropNotice e s) e := by
  rw [completeNotice_of_orphan horphan, ceaseAndHandOver_of_orphan hn horphan]

/-- The popped notice with no late count, or none that can be re-raised, freed and reported (R115, R118). -/
theorem completeNotice_freed {s : State} {e : EntryId} {n : Notice} (hn : s.pool[e] = some n)
    (horphan : n.isOrphan = false)
    (h : n.late.count = 0 ∨ (s.slots[n.slot].state = .retiring ∧ s.slots[n.slot].retireMode = some .discard)
      ∨ placeable s n.target = false ∧ s.slots[n.slot].state ≠ .active ∧ s.slots[n.slot].state ≠ .held) :
    completeNotice e n s = handOverInTurn (reportCeased n.slot (dropNotice e s)) e := by
  rw [← ceaseAndHandOver_of_record hn horphan]
  by_cases hlate : n.late.count = 0
  · exact completeNotice_of_nothing_late hlate e s
  rw [completeNotice_of_late horphan hlate, completeLate_eq]
  rcases h with h | hdropped | ⟨hplace, hactive, hheld⟩
  · exact absurd h hlate
  · rw [if_pos hdropped]
  · rw [if_neg (Bool.eq_false_iff.mp hplace), if_neg (not_or.mpr ⟨hactive, hheld⟩), ite_self]

/-- The late count re-raised into the record's notice at the target (R117). -/
theorem completeNotice_merged {s : State} {n : Notice} {home : EntryId} (horphan : n.isOrphan = false)
    (hlate : n.late.count ≠ 0)
    (hkept : ¬ (s.slots[n.slot].state = .retiring ∧ s.slots[n.slot].retireMode = some .discard))
    (hplace : placeable s n.target = true) (hhome : residentAt s n.slot n.target = some home) (e : EntryId) :
    completeNotice e n s =
      handOverInTurn (reportCeased n.slot (removeNotice e (mergeInto home (latePlacement n) s))) e := by
  rw [completeNotice_of_late horphan hlate, completeLate_eq, if_neg hkept, if_pos hplace]
  unfold reraise
  rw [hhome]
  rfl

/-- The late count re-raised in the same entry (R116, R117). -/
theorem completeNotice_in_place {s : State} {n : Notice} (horphan : n.isOrphan = false) (hlate : n.late.count ≠ 0)
    (hkept : ¬ (s.slots[n.slot].state = .retiring ∧ s.slots[n.slot].retireMode = some .discard))
    (hplace : placeable s n.target = true) (hhome : residentAt s n.slot n.target = none) (e : EntryId) :
    completeNotice e n s = absorbPair e n.slot n.target (startNotice e
      { n with
        level := s.slots[n.slot].level, rearm := s.slots[n.slot].rearm
        count := n.late.count, overflow := n.late.overflow
        phase := .gathering s.slots[n.slot].threshold
          (if s.slots[n.slot].holdOff = 0 then none else some { start := s.now, limit := s.slots[n.slot].holdOff }) }
      s) := by
  rw [completeNotice_of_late horphan hlate, completeLate_eq, if_neg hkept, if_pos hplace]
  unfold reraise
  rw [hhome]
  rfl

/-- The late count returned to the held count of the record (R119). -/
theorem completeNotice_returned {s : State} {n : Notice} (horphan : n.isOrphan = false) (hlate : n.late.count ≠ 0)
    (hplace : placeable s n.target = false)
    (hrecord : s.slots[n.slot].state = .active ∨ s.slots[n.slot].state = .held) (e : EntryId) :
    completeNotice e n s = returnLate e n s := by
  rw [completeNotice_of_late horphan hlate, completeLate_eq, if_neg (not_dropped_of_recorded hrecord),
    if_neg (Bool.eq_false_iff.mp hplace), if_pos hrecord]

/-! ### The accepted COMPLETE -/

/-- An accepted COMPLETE pops the top entry, takes its outcome, and may end the quiesce (R113, R136). -/
theorem exec_complete_accepted {s : State} {r : RequesterId} {t : TargetId} {w : Word} {e : EntryId}
    {below : List EntryId} {n : Notice} (hready : linkReady s)
    (howner : s.targets[t].owner = none ∨ s.targets[t].owner = some r) (hstack : s.targets[t].stack = e :: below)
    (hn : s.pool[e] = some n) (hslot : field w 1 10 = n.slot.val) (hgeneration : w.extractLsb' 11 8 = n.generation)
    (hlevel : field w 19 4 = n.level.val) :
    exec (.complete r t w) s = .next (settle (endQuiesceIfEmpty t (completeNotice e n (popStack t s)))) := by
  rw [completeExec hready howner, hstack]
  dsimp only
  rw [hn]
  dsimp only
  rw [if_pos (names_ok hslot hgeneration hlevel)]

theorem completeNames_iff (w : Word) (n : Notice) : completeNames w n = true ↔
    field w 1 10 = n.slot.val ∧ w.extractLsb' 11 8 = n.generation ∧ field w 19 4 = n.level.val := by
  unfold completeNames completeSlot completeGeneration completeLevel
  rw [Bool.and_eq_true, Bool.and_eq_true, beq_iff_eq, beq_iff_eq, beq_iff_eq, and_assoc]

/-- Settles O30: the two checks come before any change, and each failure raises its cause alone. -/
theorem refusedCompleteOnlyRaises : Obligations.RefusedCompleteOnlyRaises := by
  unfold Obligations.RefusedCompleteOnlyRaises
  refine fun s r t w hready howner => ⟨fun hempty => ?_, fun top below n hstack hn hdiffers => ?_⟩
  · rw [completeExec hready howner, hempty]
  · have hnames : ¬ completeNames w n = true := by
      rw [completeNames_iff, not_and_or, not_and_or]
      exact hdiffers
    rw [completeExec hready howner, hstack]
    dsimp only
    rw [hn]
    dsimp only
    rw [if_neg hnames]

/-! ### The end of a quiesce (R136) -/

/-- The end of a waiting TARGET_OFFLINE is the conclusion of its command (R136, R146). -/
theorem endOfflineWait_eq (t : TargetId) (s : State) : endOfflineWait t s =
    { s with port := if s.port.flight = some (.offlineWait t) then s.port.concluded .ok [] else s.port } := by
  unfold endOfflineWait
  split
  · next u hflight =>
    rw [hflight]
    by_cases hu : u = t
    · rw [if_pos hu, if_pos (congrArg (fun k => some (Flight.offlineWait k)) hu)]
      rfl
    · rw [if_neg hu, if_neg fun hsame => hu (Flight.offlineWait.inj (Option.some.inj hsame))]
  · next hother => rw [if_neg (hother t)]

theorem endQuiesceIfEmpty_eq (t : TargetId) (s : State) : endQuiesceIfEmpty t s =
    if s.targets[t].state = .quiescing ∧ s.targets[t].stack = [] then endOfflineWait t (goOffline t s) else s := by
  unfold endQuiesceIfEmpty
  simp only [Bool.and_eq_true, decide_eq_true_eq, List.isEmpty_iff]

theorem endQuiesceIfEmpty_of_ended {s : State} {t : TargetId} (hstate : s.targets[t].state = .quiescing)
    (hstack : s.targets[t].stack = []) : endQuiesceIfEmpty t s = { s with
      targets := s.targets.set t { s.targets[t] with state := .offline, writeOwed := false }
      port := if s.port.flight = some (.offlineWait t) then s.port.concluded .ok [] else s.port } := by
  rw [endQuiesceIfEmpty_eq, if_pos ⟨hstate, hstack⟩, endOfflineWait_eq]
  rfl

theorem endQuiesceIfEmpty_of_kept {s : State} {t : TargetId}
    (h : s.targets[t].state ≠ .quiescing ∨ s.targets[t].stack ≠ []) : endQuiesceIfEmpty t s = s := by
  rw [endQuiesceIfEmpty_eq, if_neg (not_and_or.mpr h)]

/-! ### The outcomes of COMPLETE -/

/-- Settles O31: the accepted COMPLETE takes the outcome of its notice in the popped state, and each operation that an outcome is made of is its definition at the entry, the pair or the target. -/
theorem completeOutcomes : Obligations.CompleteOutcomes := by
  unfold Obligations.CompleteOutcomes
  refine ⟨?_, fun s e => ⟨fun hnone => ⟨removeNotice_none hnone, dropNotice_none hnone⟩, fun n hn => ?_⟩,
    fun s e i t => ⟨absorb_none, fun d => absorbPair_some⟩,
    fun s t => ⟨endQuiesceIfEmpty_of_ended, endQuiesceIfEmpty_of_kept⟩⟩
  · intro s r t w e below n late orphan c record hready howner hstack hn hS hslot hgeneration hlevel hphase p l brings
      dropped
    obtain ⟨rfl, -⟩ := top_stands hS hstack hn
    have hpopped : popStack n.target s = p := popStack_of_cons hstack
    have hplace : placeable p n.target = placeable s n.target := by rw [← hpopped, popStack_placeable]
    have horphan : n.isOrphan = orphan := isOrphan_of_inService hphase
    have hlate : n.late = l := late_of_inService hphase
    have hbrings : latePlacement n = brings := by
      unfold latePlacement
      rw [hlate]
    refine ⟨completeNotice e n p, ?_, fun ho => ?_, fun ho hfreed => ?_, fun ho hl hkept hp => ⟨fun home hhome => ?_,
      fun hhome => ?_⟩, fun ho hl hp hrecord => ?_⟩
    · rw [← hpopped]
      exact exec_complete_accepted hready howner hstack hn hslot hgeneration hlevel
    · exact completeNotice_orphan hn (horphan.trans ho)
    · rw [← hlate, ← hplace] at hfreed
      exact completeNotice_freed hn (horphan.trans ho) hfreed
    · rw [← hbrings]
      rw [← hlate] at hl
      rw [← hplace] at hp
      exact completeNotice_merged (s := p) (horphan.trans ho) hl hkept hp hhome e
    · rw [← hlate] at hl ⊢
      rw [← hplace] at hp
      exact completeNotice_in_place (s := p) (horphan.trans ho) hl hkept hp hhome e
    · rw [← hlate] at hl ⊢
      rw [← hplace] at hp
      exact completeNotice_returned (horphan.trans ho) hl hp hrecord e
  · rw [dropNotice_of_some hn, removeNotice_of_some hn]
    exact ⟨rfl, rfl⟩

/-- Settles O32: the pop, the freeing and the end of a quiesce, where nothing waits for the entry. -/
theorem completeFreesTheEntry : Obligations.CompleteFreesTheEntry := by
  unfold Obligations.CompleteFreesTheEntry
  constructor
  · intro s r t w e below n late orphan c hready howner hstack hn hslot hgeneration hlevel hphase hfreed hnone hstate hS
    obtain ⟨htarget, hlists⟩ := top_stands hS hstack hn
    rw [exec_complete_accepted hready howner hstack hn hslot hgeneration hlevel,
      cease_popped hstack hn hphase hfreed hnone htarget (hlists n.level), endQuiesceIfEmpty_of_kept]
    refine Or.inl ?_
    rw [target_get_self]
    exact hstate
  · intro s r t w e n late orphan c hready howner hstack hn hslot hgeneration hlevel hphase hfreed hnone hstate hS
    obtain ⟨htarget, hlists⟩ := top_stands hS hstack hn
    rw [exec_complete_accepted hready howner hstack hn hslot hgeneration hlevel,
      cease_popped hstack hn hphase hfreed hnone htarget (hlists n.level),
      endQuiesceIfEmpty_of_ended (by rw [target_get_self]; exact hstate) (by rw [target_get_self])]
    simp only [target_get_self, target_set_set]
    rfl

/-- Settles O33: the late count is re-raised in the same entry, no pair is there to absorb, and the target is not QUIESCING. -/
theorem completeReraisesTheLateCount : Obligations.CompleteReraisesTheLateCount := by
  unfold Obligations.CompleteReraisesTheLateCount
  intro s r t w e below n late c record hready howner hstack hn hslot hgeneration hlevel hphase hcount hrecord hstate hS
    hresident hpair
  obtain ⟨v, hexec, -, -, hreraise, -⟩ := completeOutcomes.1 s r t w e below n (some late) false hready howner hstack hn
    hS hslot hgeneration hlevel hphase
  obtain ⟨-, hinPlace⟩ := hreraise rfl hcount (not_dropped_of_recorded hrecord) ((placeable_iff s t).mpr hstate)
  rw [hexec, hinPlace hresident, absorb_none, endQuiesceIfEmpty_of_kept]
  · rfl
  · refine Or.inl (not_quiescing_of_placeable ((startNotice_placeable e _ _ t).trans ?_))
    rw [← popStack_of_cons hstack, popStack_placeable]
    exact (placeable_iff s t).mpr hstate
  · rw [pairAt_of_deferred (startNotice_deferred e _ _)]
    exact hpair

end Sys2Proof.Machine

/-! Stalls, failover and taking targets offline (chapter 6): TARGET_ONLINE and its walk, where a re-homed notice goes and what becomes of it, and what a TARGET_OFFLINE leaves. -/

namespace Sys2Proof.Machine

/-! ### Steps of a walk (R132, R173) -/

/-- The port once a walk has taken its slot: the position moves on, and after slot 1023 the walk ends with OK (R132, R173). -/
def Port.walked (p : Port) (f : Flight) (words : List Word) : Port :=
  let q := { p with walkPosition := p.walkPosition + 1, flight := some f }
  if p.walkPosition = 1023 then q.concluded .ok words else q

theorem endWalkIfPast_advanceWalk {s : State} (h : s.port.walkPosition < 1024) (f : Flight) (words : List Word) :
    endWalkIfPast words (advanceWalk f s) = { s with port := s.port.walked f words } := by
  have hpast : 1024 ≤ (advanceWalk f s).port.walkPosition ↔ s.port.walkPosition = 1023 := by
    show 1024 ≤ s.port.walkPosition + 1 ↔ _
    omega
  unfold endWalkIfPast Port.walked
  simp only [hpast]
  split <;> rfl

/-! ### TARGET_ONLINE (R131 to R133) -/

theorem online_iff (s : State) (t : TargetId) : online s t = true ↔ s.targets[t].state = .online := beq_iff_eq

/-- A TARGET_ONLINE that passes its checks names the target of its first operand word (R131). -/
theorem exec_targetOnline_passed {s : State} (hready : commandReady s)
    (hchecks : firstFailing (checks .targetOnline s) = none) :
    exec .targetOnline s = .next (if online s (namedTarget s) then endCommand .ok [countWord 0] (startCommand 0x0D s)
      else settle (stayInFlight (.onlineWalk (namedTarget s) 0) (goOnline (namedTarget s) (startCommand 0x0D s)))) := by
  have herror : targetOnlineError (startCommand 0x0D s) = none := by
    rw [targetOnlineError_eq _ (start_operands 0x0D s), checks_start, hchecks]
  have htarget : targetId (startCommand 0x0D s) = namedTarget s := targetId_eq (start_operands 0x0D s)
  rw [exec_command hready (code := 0x0D) rfl]
  refine congrArg Host.Outcome.next ?_
  show targetOnlineBody (startCommand 0x0D s) = _
  unfold targetOnlineBody
  rw [herror, htarget]
  rfl

theorem converts_iff (s : State) (t : TargetId) (i : SlotId) : converts s t i = true ↔
    s.slots[i].state = .active ∧ s.slots[i].held.count ≠ 0 ∧ t ∈ s.slots[i].targets
      ∧ ∃ u ∈ s.slots[i].targets, placeable s u = true := by
  simp [converts, hasPlaceable, and_assoc]

theorem onlineWalkBody_of_flight {s : State} {t : TargetId} {n : Nat} (hf : s.port.flight = some (.onlineWalk t n)) :
    onlineWalkBody s = if converts s t (walkSlot s) then
        endWalkIfPast [countWord (n + 1)] (advanceWalk (.onlineWalk t (n + 1)) (settle (placeHeld (walkSlot s) s)))
      else endWalkIfPast [countWord n] (advanceWalk (.onlineWalk t n) s) := by
  unfold onlineWalkBody
  rw [hf]

/-- Placing a held count during a TARGET_ONLINE walk leaves the port as it is: no RETIRE waits. -/
theorem settle_placeHeld_port {s : State} {t : TargetId} {n : Nat} (hf : s.port.flight = some (.onlineWalk t n))
    (i : SlotId) : (settle (placeHeld i s)).port = s.port := by
  refine keptPort_eq ((placeHeld_outer i s).trans (settle_frame _).outer).port fun j f h => ?_
  rw [hf] at h
  cases h

/-- A walk step over a slot that does not qualify only moves the walk on (R132). -/
theorem exec_onlineWalk_skipped {s : State} {t : TargetId} {n : Nat} (hf : s.port.flight = some (.onlineWalk t n))
    (hpos : s.port.walkPosition < 1024) (h : ¬ converts s t (walkSlot s) = true) : exec .targetOnlineWalkSlot s
      = .next { s with port := s.port.walked (.onlineWalk t n) [countWord n] } := by
  show Host.Outcome.next (onlineWalkBody s) = _
  rw [onlineWalkBody_of_flight hf, if_neg h, endWalkIfPast_advanceWalk hpos]

/-- A walk step over a slot that qualifies places its held count and counts it (R132, R51). -/
theorem exec_onlineWalk_converted {s : State} {t : TargetId} {n : Nat} (hf : s.port.flight = some (.onlineWalk t n))
    (hpos : s.port.walkPosition < 1024) (h : converts s t (walkSlot s) = true) : exec .targetOnlineWalkSlot s
      = .next { settle (placeHeld (walkSlot s) s) with
          port := s.port.walked (.onlineWalk t (n + 1)) [countWord (n + 1)] } := by
  have hport := settle_placeHeld_port hf (walkSlot s)
  show Host.Outcome.next (onlineWalkBody s) = _
  rw [onlineWalkBody_of_flight hf, if_pos h, endWalkIfPast_advanceWalk (by rw [hport]; exact hpos), hport]

/-- Settles O46: a TARGET_ONLINE splits on the state of its target, and a step of its walk on whether its slot qualifies. -/
theorem targetOnlineAndItsWalk : Obligations.TargetOnlineAndItsWalk := by
  unfold Obligations.TargetOnlineAndItsWalk
  refine ⟨fun s hready hchecks => ⟨fun hon => ?_, fun hoff => ?_⟩, fun s t n hf hpos => ⟨fun hskip => ?_, fun hqual => ?_⟩⟩
  · rw [exec_targetOnline_passed hready hchecks, if_pos ((online_iff _ _).mpr hon)]
    rfl
  · rw [exec_targetOnline_passed hready hchecks, if_neg (mt (online_iff _ _).mp hoff)]
    rfl
  · exact exec_onlineWalk_skipped hf hpos (mt (converts_iff s t (walkSlot s)).mp hskip)
  · exact exec_onlineWalk_converted hf hpos ((converts_iff s t (walkSlot s)).mpr hqual)

/-! ### Where a re-homed notice goes (R127) -/

/-- The listed targets in the order in which a re-homing from a source tries them, by the record's mode (R127). -/
def rehomeOrder (source : TargetId) (r : Slot) : List TargetId :=
  match r.mode with
  | .first => r.targets
  | .rotate => if source ∈ r.targets then searchFrom (r.targets.idxOf source) r.targets else r.targets
  | .all => []

theorem destination_eq (s : State) (source : TargetId) (n : Notice) :
    destination s source n = (rehomeOrder source s.slots[n.slot]).find? (online s) := by
  unfold destination rehomeOrder
  generalize s.slots[n.slot] = r
  dsimp only
  cases r.mode with
  | first => rfl
  | rotate => exact (apply_ite (List.find? (online s)) _ _ _).symm
  | all => rfl

theorem mem_searchFrom (k : Nat) (ts : List TargetId) (t : TargetId) : t ∈ searchFrom k ts ↔ t ∈ ts := by
  unfold searchFrom
  rw [List.mem_append, or_comm, ← List.mem_append, List.take_append_drop]

/-- A re-homing tries every listed target, but none under ALL (R127). -/
theorem mem_rehomeOrder (source t : TargetId) (r : Slot) :
    t ∈ rehomeOrder source r ↔ r.mode ≠ .all ∧ t ∈ r.targets := by
  unfold rehomeOrder
  cases r.mode with
  | first => simp
  | rotate =>
    dsimp only
    split
    · simp [mem_searchFrom]
    · simp
  | all => simp

theorem rehomeOrder_listed {source : TargetId} {r : Slot} (h : r.mode = .first ∨ r.mode = .rotate ∧ source ∉ r.targets) :
    rehomeOrder source r = r.targets := by
  unfold rehomeOrder
  rcases h with h | ⟨h, hsource⟩
  · rw [h]
  · rw [h]
    exact if_neg hsource

theorem rehomeOrder_rotated {source : TargetId} {r : Slot} (h : r.mode = .rotate) (hsource : source ∈ r.targets) :
    rehomeOrder source r = searchFrom (r.targets.idxOf source) r.targets := by
  unfold rehomeOrder
  rw [h]
  exact if_pos hsource

theorem destination_some {s : State} {source t : TargetId} {n : Notice} (h : destination s source n = some t) :
    s.targets[t].state = .online ∧ t ∈ s.slots[n.slot].targets := by
  rw [destination_eq] at h
  exact ⟨(online_iff s t).mp (List.find?_some h), ((mem_rehomeOrder source t _).mp (List.mem_of_find?_eq_some h)).2⟩

theorem destination_none_iff (s : State) (source : TargetId) (n : Notice) : destination s source n = none ↔
    s.slots[n.slot].mode = .all ∨ ∀ t ∈ s.slots[n.slot].targets, s.targets[t].state ≠ .online := by
  rw [destination_eq, List.find?_eq_none]
  simp only [mem_rehomeOrder, online_iff]
  grind

/-- The destination is the first ONLINE target of those tried. -/
theorem destination_of_split {s : State} {source t : TargetId} {n : Notice} {before after : List TargetId}
    (h : rehomeOrder source s.slots[n.slot] = before ++ t :: after) (ht : s.targets[t].state = .online)
    (hbefore : ∀ u ∈ before, s.targets[u].state ≠ .online) : destination s source n = some t := by
  rw [destination_eq, h]
  exact find?_append_of ((online_iff s t).mpr ht) fun u hu => Bool.eq_false_iff.mpr (mt (online_iff s u).mp (hbefore u hu))

/-- Where a re-homing sends a notice, mode by mode: always to an ONLINE target of the list (R127). -/
theorem destination_by_mode (s : State) (source : TargetId) (n : Notice) :
    let r := s.slots[n.slot]
    (∀ t, destination s source n = some t → s.targets[t].state = .online ∧ t ∈ r.targets)
      ∧ (r.mode = .all → destination s source n = none)
      ∧ (r.mode ≠ .all → (destination s source n = none ↔ ∀ t ∈ r.targets, s.targets[t].state ≠ .online))
      ∧ (∀ before t after, s.targets[t].state = .online → (∀ u ∈ before, s.targets[u].state ≠ .online) →
          (r.mode = .first ∨ r.mode = .rotate ∧ source ∉ r.targets → r.targets = before ++ t :: after →
            destination s source n = some t)
            ∧ (r.mode = .rotate → source ∈ r.targets →
                r.targets.drop (r.targets.idxOf source + 1) ++ r.targets.take (r.targets.idxOf source + 1)
                  = before ++ t :: after →
                destination s source n = some t)) := by
  intro r
  refine ⟨fun t => destination_some, fun h => (destination_none_iff s source n).mpr (Or.inl h),
    fun h => (destination_none_iff s source n).trans (or_iff_right h), fun before t after ht hbefore =>
      ⟨fun hmode hlist => ?_, fun hmode hsource hlist => ?_⟩⟩
  · exact destination_of_split ((rehomeOrder_listed hmode).trans hlist) ht hbefore
  · exact destination_of_split ((rehomeOrder_rotated hmode hsource).trans hlist) ht hbefore

/-! ### What becomes of a re-homed notice (R128, R129) -/

theorem isPending_iff (n : Notice) : n.isPending = true ↔ n.phase = .pending := beq_iff_eq

theorem rehomeOne_stays_put {s : State} {source : TargetId} {e : EntryId} {n : Notice} (hn : s.pool[e] = some n)
    (h : destination s source n = none) : rehomeOne source s e = s := by
  unfold rehomeOne
  rw [hn]
  dsimp only
  rw [h]

theorem rehomeOne_whole {s : State} {source t : TargetId} {e : EntryId} {n : Notice} (hn : s.pool[e] = some n)
    (h : destination s source n = some t) (hr : residentAt s n.slot t = none) :
    rehomeOne source s e = moveWhole e n t s := by
  unfold rehomeOne
  rw [hn]
  dsimp only
  rw [h]
  dsimp only
  rw [hr]

theorem rehomeOne_merged {s : State} {source t : TargetId} {e home : EntryId} {n : Notice} (hn : s.pool[e] = some n)
    (h : destination s source n = some t) (hr : residentAt s n.slot t = some home) :
    rehomeOne source s e = mergeAway e n home s := by
  unfold rehomeOne
  rw [hn]
  dsimp only
  rw [h]
  dsimp only
  rw [hr]

/-- A notice at its destination, before the record's pair there is absorbed (R128). -/
def movedTo (e : EntryId) (n : Notice) (t : TargetId) (s : State) : State :=
  { s with
    pool := s.pool.set e (some { n with target := t })
    targets := if n.phase = .pending then
        (s.targets.set n.target { s.targets[n.target] with
          lists := s.targets[n.target].lists.set n.level (s.targets[n.target].lists[n.level].erase e) }).set t
        { s.targets[t] with lists := s.targets[t].lists.set n.level (s.targets[t].lists[n.level] ++ [e]) }
      else s.targets }

/-- A PENDING notice moves to another target's list; a GATHERING one is in none (R128). -/
theorem moveWhole_eq {n : Notice} {t : TargetId} (h : n.phase = .pending → t ≠ n.target) (e : EntryId) (s : State) :
    moveWhole e n t s = absorbPair e n.slot t (movedTo e n t s) := by
  unfold moveWhole movedTo
  dsimp only
  refine congrArg (absorbPair e n.slot t) ?_
  by_cases hp : n.phase = .pending
  · rw [if_pos ((isPending_iff n).mpr hp), if_pos hp]
    unfold modList modTarget setEntry
    dsimp only
    rw [target_get_set _ n.target t, if_neg (h hp).symm]
  · rw [if_neg (mt (isPending_iff n).mp hp), if_neg hp]
    rfl

theorem moveWhole_of_no_pair {s : State} {e : EntryId} {n : Notice} {t : TargetId}
    (h : n.phase = .pending → t ≠ n.target) (hp : pairAt s n.slot t = none) : moveWhole e n t s = movedTo e n t s := by
  rw [moveWhole_eq h, absorb_none (s := movedTo e n t s) ((pairAt_of_deferred rfl _ _).trans hp)]

theorem moveWhole_of_pair {s : State} {e : EntryId} {n : Notice} {t : TargetId} {d : Pair}
    (h : n.phase = .pending → t ≠ n.target) (hp : pairAt s n.slot t = some d) :
    moveWhole e n t s = mergeInto e d.placement
      { movedTo e n t s with deferred := s.deferred.filter fun x => !(x.slot == n.slot && x.target == t) } := by
  rw [moveWhole_eq h, absorbPair_some (s := movedTo e n t s) ((pairAt_of_deferred rfl _ _).trans hp)]
  rfl

theorem mergeAway_of_resident {s : State} {home : EntryId} {m : Notice} (hm : s.pool[home] = some m) (e : EntryId)
    (n : Notice) : mergeAway e n home s = handOver e (reportCeased n.slot (removeNotice e
      (if n.phase = .pending then ripen home (mergeInto home (awayPlacement n m) s)
        else mergeInto home (awayPlacement n m) s))) := by
  unfold mergeAway
  rw [hm]
  simp only [isPending_iff]

/-! ### The order of a re-homing (R130) -/

theorem standsOn_eq (t : TargetId) : standsOn t = fun n => !n.isInService && n.target == t := by
  funext n
  unfold standsOn Notice.unclaimed Notice.isInService
  cases n.phase <;> rfl

/-- The targets that one re-homing reaches: the destination, and at a merge-away that of the pair granted the entry (R128, R129). -/
theorem reachedBy_of_some {s : State} {source : TargetId} {e : EntryId} {n : Notice} (hn : s.pool[e] = some n)
    {t : TargetId} (h : destination s source n = some t) : reachedBy source s e
      = t :: if (residentAt s n.slot t).isSome then (s.deferred.head?.map (·.target)).toList else [] := by
  unfold reachedBy
  rw [hn]
  dsimp only
  rw [h]

theorem reachedBy_of_none {s : State} {source : TargetId} {e : EntryId} {n : Notice} (hn : s.pool[e] = some n)
    (h : destination s source n = none) : reachedBy source s e = [] := by
  unfold reachedBy
  rw [hn]
  dsimp only
  rw [h]

theorem reachedBy_alone {s : State} {source : TargetId} {e : EntryId} {n : Notice} (hn : s.pool[e] = some n)
    {t : TargetId} (h : destination s source n = some t) (hlone : residentAt s n.slot t = none ∨ s.deferred = []) :
    reachedBy source s e = [t] := by
  rw [reachedBy_of_some hn h]
  rcases hlone with hr | hd
  · rw [hr]
    rfl
  · rw [hd]
    exact congrArg (List.cons t) (ite_self _)

theorem reachedBy_granting {s : State} {source : TargetId} {e home : EntryId} {n : Notice} (hn : s.pool[e] = some n)
    {t : TargetId} (h : destination s source n = some t) (hr : residentAt s n.slot t = some home) {d : Pair}
    {rest : List Pair} (hd : s.deferred = d :: rest) : reachedBy source s e = [t, d.target] := by
  rw [reachedBy_of_some hn h, hr, hd]
  rfl

theorem reached_cons (source : TargetId) (e : EntryId) (es : List EntryId) (s : State) :
    reached source (e :: es) s = reachedBy source s e ++ reached source es (rehomeOne source s e) := rfl

/-- A GATHERING notice that ripens is PENDING at the tail of its list; another notice does not ripen (R60). -/
theorem ripen_of_some {s : State} {e : EntryId} {n : Notice} (hn : s.pool[e] = some n) :
    (n.isGathering = false → ripen e s = s) ∧ (n.isGathering = true → ripen e s = { s with
      pool := s.pool.set e (some { n with phase := .pending })
      targets := s.targets.set n.target { s.targets[n.target] with
        lists := s.targets[n.target].lists.set n.level (s.targets[n.target].lists[n.level] ++ [e]) } }) := by
  unfold ripen
  rw [hn]
  dsimp only
  exact ⟨fun h => if_neg (Bool.eq_false_iff.mp h), fun h => if_pos h⟩

/-- Settles O17: the destination is a search of the listed targets, and each move, merge-away and removal follows its definition. -/
theorem rehomingMovesNotices : Obligations.RehomingMovesNotices := by
  unfold Obligations.RehomingMovesNotices
  refine ⟨destination_by_mode, fun s source e n hn => ⟨rehomeOne_stays_put hn, fun t ht hr hmove =>
      ⟨fun hp => ?_, fun d hp => ?_⟩, fun t home m ht hr hm => ?_⟩,
    fun s source => ?_, fun s source e es n hn => ⟨rfl, fun ht => ?_, fun t ht hlone => ?_, fun t home d rest ht hr hd => ?_⟩,
    fun s e => ⟨removeNotice_none, fun n hn => ⟨removeNotice_of_some hn, ripen_of_some hn⟩⟩⟩
  · rw [rehomeOne_whole hn ht hr, moveWhole_of_no_pair hmove hp]
    rfl
  · rw [rehomeOne_whole hn ht hr, moveWhole_of_pair hmove hp]
    rfl
  · rw [rehomeOne_merged hn ht hr, mergeAway_of_resident hm]
    rfl
  · unfold rehomeAndJudge rehomeAll judgeInTurn inCreationOrder entryIs
    rw [standsOn_eq]
    exact ⟨rfl, rfl⟩
  · rw [reached_cons, reachedBy_of_none hn ht, List.nil_append]
  · rw [reached_cons, reachedBy_alone hn ht hlone, List.singleton_append]
  · rw [reached_cons, reachedBy_granting hn ht hr hd]
    rfl

/-! ### A target that has been quiesced (R134, R135) -/

/-- A target context whose state, lists, stack and signals alone may have changed. -/
def Target.keepsConfig (a b : Target) : Prop :=
  b = { a with
    state := b.state, lists := b.lists, stack := b.stack, writeOwed := b.writeOwed, deadlineStart := b.deadlineStart
    ntf := b.ntf, deliverable := b.deliverable }

theorem Target.keepsConfig_refl (a : Target) : a.keepsConfig a := rfl

theorem Target.keepsConfig_trans {a b c : Target} (h : a.keepsConfig b) (k : b.keepsConfig c) : a.keepsConfig c := by
  unfold Target.keepsConfig at *
  rw [k, h]

theorem Target.same_keepsConfig {a b : Target} (h : a.same b) : a.keepsConfig b := by
  unfold Target.same at h
  unfold Target.keepsConfig
  rw [h]

theorem Target.same_stack {a b : Target} (h : a.same b) : b.stack = a.stack := by
  unfold Target.same at h
  rw [h]

/-- The part once a TARGET_OFFLINE has started its quiesce (R134, R135). -/
def quiesceStarted (s : State) : State :=
  startQuiesce (namedTarget s) (field s.port.operands[0] 8 2 == 0) (startCommand 0x0E s)

theorem quiesceStarted_frame (s : State) :
    Frame (modTarget (namedTarget s) (fun c => { c with state := .quiescing }) (startCommand 0x0E s)) (quiesceStarted s) :=
  (quiesce_done _ _ _).1

/-- The quiesced target is QUIESCING, and changed in its lists and signals besides. -/
theorem quiesceStarted_target (s : State) :
    ({ s.targets[namedTarget s] with state := .quiescing } : Target).same (quiesceStarted s).targets[namedTarget s] := by
  have h := (quiesceStarted_frame s).target (namedTarget s)
  rw [modTarget_targets, target_get_self] at h
  exact h

theorem quiesceStarted_state (s : State) : (quiesceStarted s).targets[namedTarget s].state = .quiescing :=
  Target.same_state (quiesceStarted_target s)

theorem quiesceStarted_stack (s : State) :
    (quiesceStarted s).targets[namedTarget s].stack = s.targets[namedTarget s].stack :=
  Target.same_stack (a := { s.targets[namedTarget s] with state := .quiescing }) (quiesceStarted_target s)

theorem quiesceStarted_keepsConfig (s : State) :
    s.targets[namedTarget s].keepsConfig (quiesceStarted s).targets[namedTarget s] :=
  Target.keepsConfig_trans (b := { s.targets[namedTarget s] with state := .quiescing }) rfl
    (Target.same_keepsConfig (quiesceStarted_target s))

theorem quiesceStarted_port {s : State} (hready : commandReady s) : (quiesceStarted s).port = s.port.taken 0x0E :=
  keptPort_eq (s := modTarget (namedTarget s) (fun c => { c with state := .quiescing }) (startCommand 0x0E s))
    (quiesceStarted_frame s).port (no_retireWait hready)

theorem startCommand_stand {s : State} (hS : NoticesStand s) (code : BitVec 8) : Standing (startCommand code s) :=
  ((stand_iff s).mpr hS).targets rfl rfl rfl

theorem quiesceStarted_stand {s : State} (hS : NoticesStand s) : Standing (quiesceStarted s) :=
  startQuiesce_st _ _ (startCommand_stand hS 0x0E)

/-! ### The stack that FORCE frees (R138) -/

/-- The part once FORCE, where it is given, has freed the stack of the target (R138). -/
def stackFreed (t : TargetId) (force : Bool) (s : State) : State := if force then forceStack t s else s

theorem forceStack_target (t : TargetId) (s : State) :
    ({ s.targets[t] with stack := [] } : Target).same (forceStack t s).targets[t] := by
  have h := (ceaseAll_frame ((ascending s fun _ => true).filter fun e => s.targets[t].stack.contains e)
    (modTarget t (fun c => { c with stack := [] }) s)).target t
  rw [modTarget_targets, target_get_self] at h
  exact h

theorem stackFreed_keepsConfig (t : TargetId) (force : Bool) (s : State) :
    s.targets[t].keepsConfig (stackFreed t force s).targets[t] := by
  cases force with
  | false => exact Target.keepsConfig_refl _
  | true =>
    exact Target.keepsConfig_trans (b := { s.targets[t] with stack := [] }) rfl
      (Target.same_keepsConfig (forceStack_target t s))

/-- With FORCE, or with nothing on it, the stack ends empty. -/
theorem stackFreed_stack {t : TargetId} {force : Bool} {s : State} (h : force = true ∨ s.targets[t].stack = []) :
    (stackFreed t force s).targets[t].stack = [] := by
  cases force with
  | false => exact h.resolve_left Bool.false_ne_true
  | true => exact Target.same_stack (forceStack_target t s)

theorem stackFreed_quiesced {s x : State} {t : TargetId} (q : Quiesced s x t) (force : Bool) :
    Quiesced s (stackFreed t force x) t := by
  cases force with
  | false => exact q
  | true => exact ceaseAll_quiesced (q.target _) _

theorem stackFreed_sublist (t : TargetId) (force : Bool) (s : State) :
    (stackFreed t force s).deferred.Sublist s.deferred := by
  cases force with
  | false => exact List.Sublist.refl _
  | true => exact forceStack_sublist t s

theorem stackFreed_served {p : Pair} {s : State} (hS : Standing s) {t : TargetId} (hp : p.target ≠ t) (force : Bool)
    (h : Served p s) : Served p (stackFreed t force s) := by
  cases force with
  | false => exact h
  | true => exact forceStack_served hS t hp h

/-- FORCE leaves every notice of another target, and without it none is touched. -/
theorem stackFreed_other {s : State} (hS : Standing s) {t : TargetId} {force : Bool} {e : EntryId} {n : Notice}
    (hn : s.pool[e] = some n) (h : n.target ≠ t ∨ force = false) : (stackFreed t force s).pool[e] = s.pool[e] := by
  cases force with
  | false => rfl
  | true => exact forceStack_other hS t e n hn (h.resolve_right (by decide))

/-! ### The end of a TARGET_OFFLINE (R136 to R138) -/

/-- A TARGET_OFFLINE ends at once with FORCE or an empty stack (R136, R138), and waits otherwise (R137). -/
theorem done_iff (force : Bool) (stack : List EntryId) :
    (force || stack.isEmpty) = true ↔ force = true ∨ stack = [] := by
  rw [Bool.or_eq_true, List.isEmpty_iff]

theorem not_done {force : Bool} {stack : List EntryId} (hforce : force = false) (h : stack ≠ []) :
    ¬ (force || stack.isEmpty) = true := by
  rw [done_iff, hforce]
  exact not_or.mpr ⟨Bool.false_ne_true, h⟩

/-- What a TARGET_OFFLINE leaves of its target: OFFLINE if its stack is empty or FORCE has freed it, QUIESCING otherwise (R136 to R138). -/
def offlineOrWaiting (t : TargetId) (force : Bool) (s : State) : State :=
  if force || s.targets[t].stack.isEmpty then goOffline t (stackFreed t force s) else s

/-- The port that a TARGET_OFFLINE leaves: ended with OK if the target is OFFLINE, with STARTED if not and there is no wait, and otherwise in flight with the wait timer running (R136 to R138). -/
def offlinePort (s : State) (t : TargetId) (wait : Nat) (done : Bool) : Port :=
  if done then s.port.ended 0x0E .ok []
  else if wait = 0 then s.port.ended 0x0E .started []
  else { s.port.taken 0x0E with
    flight := some (.offlineWait t), waitTimer := some { start := s.now, limit := wait * 1000 } }

theorem stackFreed_port {t : TargetId} {force : Bool} {s : State} (hf : ∀ i f, s.port.flight ≠ some (.retireWait i f)) :
    (stackFreed t force s).port = s.port := by
  cases force with
  | false => rfl
  | true => exact forceStack_kept t s hf

theorem offlineOrWaiting_of_done {t : TargetId} {force : Bool} {s : State} (h : force = true ∨ s.targets[t].stack = []) :
    offlineOrWaiting t force s = goOffline t (stackFreed t force s) :=
  if_pos ((done_iff _ _).mpr h)

theorem offlineOrWaiting_of_waiting {t : TargetId} {force : Bool} {s : State} (hforce : force = false)
    (h : s.targets[t].stack ≠ []) : offlineOrWaiting t force s = s :=
  if_neg (not_done hforce h)

theorem quiesceEnd_eq {s q : State} (hport : q.port = s.port.taken 0x0E) (hnow : q.now = s.now)
    (hf : ∀ i f, q.port.flight ≠ some (.retireWait i f)) (t : TargetId) (force : Bool) (wait : Nat) :
    quiesceEnd t force wait q = { offlineOrWaiting t force q with
      port := offlinePort s t wait (force || q.targets[t].stack.isEmpty) } := by
  obtain ⟨hforced, hempty, hstarted, hwaiting⟩ := quiesceEnd_cases t force wait q
  by_cases hdone : force = true ∨ q.targets[t].stack = []
  · have hend : quiesceEnd t force wait q = endCommand .ok [] (goOffline t (stackFreed t force q)) := by
      cases force with
      | true => exact hforced rfl
      | false => exact hempty rfl (hdone.resolve_left Bool.false_ne_true)
    rw [hend, offlineOrWaiting_of_done hdone, (done_iff _ _).mpr hdone,
      endCommand_of_taken (s := s) (u := goOffline t (stackFreed t force q)) ((stackFreed_port hf).trans hport)]
    rfl
  · obtain ⟨hforce, hstack⟩ := not_or.mp hdone
    have hforce := eq_false_of_ne_true hforce
    rw [offlineOrWaiting_of_waiting hforce hstack, eq_false_of_ne_true (not_done hforce hstack)]
    unfold offlinePort
    rw [if_neg Bool.false_ne_true]
    by_cases hwait : wait = 0
    · rw [hstarted hforce hstack hwait, if_pos hwait, endCommand_of_taken hport]
    · rw [hwaiting hforce hstack hwait, if_neg hwait, ← hport, ← hnow]
      rfl

/-- What a TARGET_OFFLINE that passes its checks does (R134 to R138). -/
theorem targetOffline_passed {s : State} (hready : commandReady s)
    (hchecks : firstFailing (checks .targetOffline s) = none) :
    let t := namedTarget s
    let force := s.port.operands[0].getLsbD 12
    let v := offlineOrWaiting t force (quiesceStarted s)
    exec .targetOffline s = .next (settle { v with
      port := offlinePort s t (field s.port.operands[1] 0 16) (force || s.targets[t].stack.isEmpty) }) := by
  intro t force v
  have herror : targetOfflineError (startCommand 0x0E s) = none := by
    rw [targetOfflineError_eq _ (start_operands 0x0E s), checks_start, hchecks]
  have htarget : targetId (startCommand 0x0E s) = t := targetId_eq (start_operands 0x0E s)
  have hbody : targetOfflineBody (startCommand 0x0E s)
      = settle (quiesceEnd t force (field s.port.operands[1] 0 16) (quiesceStarted s)) := by
    unfold targetOfflineBody
    rw [herror, htarget]
    rfl
  have hport := quiesceStarted_port hready
  rw [exec_command hready (code := 0x0E) rfl]
  refine congrArg Host.Outcome.next (hbody.trans ?_)
  rw [quiesceEnd_eq hport (quiesceStarted_frame s).now (by rw [hport]; exact no_retireWait hready),
    quiesceStarted_stack]

/-! ### What a TARGET_OFFLINE leaves (R134 to R138) -/

theorem goOffline_target (t : TargetId) (s : State) :
    (goOffline t s).targets[t] = { s.targets[t] with state := .offline, writeOwed := false } := by
  unfold goOffline
  rw [modTarget_targets, target_get_self]

theorem offlineOrWaiting_quiesced {s x : State} {t : TargetId} (q : Quiesced s x t) (force : Bool) :
    Quiesced s (offlineOrWaiting t force x) t := by
  unfold offlineOrWaiting
  split
  · exact (stackFreed_quiesced q force).target _
  · exact q

theorem offlineOrWaiting_keepsConfig (t : TargetId) (force : Bool) (s : State) :
    s.targets[t].keepsConfig (offlineOrWaiting t force s).targets[t] := by
  unfold offlineOrWaiting
  split
  · rw [goOffline_target]
    exact Target.keepsConfig_trans (stackFreed_keepsConfig t force s) rfl
  · exact Target.keepsConfig_refl _

/-- The part that goes on with the target OFFLINE or QUIESCING has the pool and the deferred list that FORCE leaves. -/
theorem offlineOrWaiting_items (t : TargetId) (force : Bool) (s : State) :
    (offlineOrWaiting t force s).pool = (stackFreed t force s).pool
      ∧ (offlineOrWaiting t force s).deferred = (stackFreed t force s).deferred := by
  unfold offlineOrWaiting
  split
  · exact ⟨rfl, rfl⟩
  · next h =>
    have hforce : force = false := (Bool.or_eq_false_iff.mp (eq_false_of_ne_true h)).1
    rw [hforce]
    exact ⟨rfl, rfl⟩

theorem offlineOrWaiting_state {t : TargetId} {force : Bool} {s : State} (h : s.targets[t].state = .quiescing) :
    (offlineOrWaiting t force s).targets[t].state = .offline ∨ (offlineOrWaiting t force s).targets[t].state = .quiescing := by
  unfold offlineOrWaiting
  split
  · rw [goOffline_target]
    exact Or.inl rfl
  · exact Or.inr h

/-- The target once its TARGET_OFFLINE has been judged: its configuration stays, and nothing is deliverable (R86, R89, R93). -/
theorem settled_keepsConfig {s v : State} {t : TargetId} (hc : s.targets[t].keepsConfig v.targets[t])
    (hstate : v.targets[t].state = .offline ∨ v.targets[t].state = .quiescing) :
    let c := (settle v).targets[t]
    c = { s.targets[t] with
      state := c.state, lists := c.lists, stack := c.stack, writeOwed := c.writeOwed
      deadlineStart := none, ntf := false, deliverable := false } := by
  intro c
  have h : c = { v.targets[t] with deliverable := false, ntf := false, deadlineStart := none } := settled_target hstate
  unfold Target.keepsConfig at hc
  rw [h, hc]

/-- The pairs of other targets that leave the list became notices of their records at their targets, or were absorbed by them (R66, R67). -/
theorem offline_served {s : State} (hS : NoticesStand s) (force : Bool) {d : Pair} (hd : d ∈ s.deferred)
    (ht : d.target ≠ namedTarget s) :
    Served d (settle (offlineOrWaiting (namedTarget s) force (quiesceStarted s))) := by
  have hstarted : Served d (quiesceStarted s) :=
    startQuiesce_served _ _ (startCommand_stand hS 0x0E).orderNodup ht hd
  obtain ⟨hpool, hdeferred⟩ := offlineOrWaiting_items (namedTarget s) force (quiesceStarted s)
  refine judged_served ?_ (settle_pool _).1 (settle_pool _).2.1
  exact judged_served (stackFreed_served (quiesceStarted_stand hS) ht force hstarted) hpool hdeferred

/-- A notice of another target, and without FORCE one in service on this one, stays; in service or under DROP it is unchanged. -/
theorem offline_stays {s : State} (hS : NoticesStand s) {force : Bool} {e : EntryId} {n : Notice}
    (hn : s.pool[e] = some n) (h : n.target ≠ namedTarget s ∨ n.isInService = true ∧ force = false) :
    let v := settle (offlineOrWaiting (namedTarget s) force (quiesceStarted s))
    Stays e s v ∧ (field s.port.operands[0] 8 2 ≠ 0 → v.pool[e] = some n) := by
  intro v
  obtain ⟨hstays, hdrop⟩ := startQuiesce_stays (namedTarget s) (field s.port.operands[0] 8 2 == 0) (startCommand 0x0E s) e n
    hn (h.imp_right And.left)
  obtain ⟨m, hm, -, -, htarget, -⟩ := hstays n hn
  have hkept : v.pool[e] = (quiesceStarted s).pool[e] := by
    have hfreed := stackFreed_other (quiesceStarted_stand hS) (t := namedTarget s) (force := force) hm
      (h.imp (htarget ▸ ·) And.right)
    rw [(settle_pool _).1, (offlineOrWaiting_items _ force _).1]
    exact hfreed
  exact ⟨hstays.trans (Stays.same hkept), fun hmode => hkept.trans ((hdrop (beq_false_of_ne hmode)).trans hn)⟩

/-- With FORCE, or with nothing on its stack, the target ends OFFLINE (R136, R138). -/
theorem settled_of_done {s : State} {force : Bool} (h : force = true ∨ s.targets[namedTarget s].stack = []) :
    let c := (settle (offlineOrWaiting (namedTarget s) force (quiesceStarted s))).targets[namedTarget s]
    c.state = .offline ∧ c.stack = [] ∧ c.writeOwed = false := by
  intro c
  rw [← quiesceStarted_stack] at h
  have hv := goOffline_target (namedTarget s) (stackFreed (namedTarget s) force (quiesceStarted s))
  have hc : c = _ := settled_target (Or.inl (by rw [offlineOrWaiting_of_done h, hv]))
  rw [hc, offlineOrWaiting_of_done h, hv]
  exact ⟨rfl, stackFreed_stack h, rfl⟩

/-- With entries on its stack and no FORCE the target stays QUIESCING (R137). -/
theorem settled_of_waiting {s : State} {force : Bool} (hforce : force = false)
    (h : s.targets[namedTarget s].stack ≠ []) :
    let c := (settle (offlineOrWaiting (namedTarget s) force (quiesceStarted s))).targets[namedTarget s]
    c.state = .quiescing ∧ c.stack = s.targets[namedTarget s].stack := by
  intro c
  have hv : offlineOrWaiting (namedTarget s) force (quiesceStarted s) = quiesceStarted s :=
    offlineOrWaiting_of_waiting hforce (by rwa [quiesceStarted_stack])
  have hc : c = _ := settled_target (Or.inr (by rw [hv]; exact quiesceStarted_state s))
  rw [hc, hv]
  exact ⟨quiesceStarted_state s, quiesceStarted_stack s⟩

theorem offline_sublist (s : State) (force : Bool) :
    (settle (offlineOrWaiting (namedTarget s) force (quiesceStarted s))).deferred.Sublist
      (s.deferred.filter fun d => d.target != namedTarget s) := by
  rw [(settle_pool _).2.1, (offlineOrWaiting_items _ force _).2]
  exact (stackFreed_sublist _ force _).trans (startQuiesce_sublist _ _ _)

theorem offlinePort_of_done {s : State} {t : TargetId} {force : Bool} (h : force = true ∨ s.targets[t].stack = [])
    (wait : Nat) : offlinePort s t wait (force || s.targets[t].stack.isEmpty) = s.port.ended 0x0E .ok [] :=
  if_pos ((done_iff _ _).mpr h)

theorem offlinePort_of_waiting {s : State} {t : TargetId} {force : Bool} (hforce : force = false)
    (h : s.targets[t].stack ≠ []) (wait : Nat) : offlinePort s t wait (force || s.targets[t].stack.isEmpty)
      = if wait = 0 then s.port.ended 0x0E .started []
        else { s.port.taken 0x0E with
          flight := some (.offlineWait t), waitTimer := some { start := s.now, limit := wait * 1000 } } :=
  if_neg (not_done hforce h)

/-! ### The exact next state of a TARGET_OFFLINE (R135, R138) -/

theorem exec_targetOffline_done {s : State} (hready : commandReady s)
    (hchecks : firstFailing (checks .targetOffline s) = none)
    (h : s.port.operands[0].getLsbD 12 = true ∨ s.targets[namedTarget s].stack = []) :
    exec .targetOffline s = .next (settle
      { goOffline (namedTarget s) (stackFreed (namedTarget s) (s.port.operands[0].getLsbD 12) (quiesceStarted s)) with
        port := s.port.ended 0x0E .ok [] }) := by
  rw [targetOffline_passed hready hchecks, offlinePort_of_done h,
    offlineOrWaiting_of_done (by rwa [quiesceStarted_stack])]

theorem exec_targetOffline_waiting {s : State} (hready : commandReady s)
    (hchecks : firstFailing (checks .targetOffline s) = none) (hforce : s.port.operands[0].getLsbD 12 = false)
    (h : s.targets[namedTarget s].stack ≠ []) {p : Port}
    (hp : (if field s.port.operands[1] 0 16 = 0 then s.port.ended 0x0E .started []
      else { s.port.taken 0x0E with
        flight := some (.offlineWait (namedTarget s))
        waitTimer := some { start := s.now, limit := field s.port.operands[1] 0 16 * 1000 } }) = p) :
    exec .targetOffline s = .next (settle { quiesceStarted s with port := p }) := by
  rw [targetOffline_passed hready hchecks, offlinePort_of_waiting hforce h, hp,
    offlineOrWaiting_of_waiting hforce (by rwa [quiesceStarted_stack])]

/-- Settles O50: the outcome comes from what the quiesce and FORCE leave, and the exact next state from their closed forms. -/
theorem targetOfflineQuiesces : Obligations.TargetOfflineQuiesces := by
  unfold Obligations.TargetOfflineQuiesces
  constructor
  · intro s hready hchecks t force wait
    have hstate := offlineOrWaiting_state (force := force) (quiesceStarted_state s)
    have hkeeps := Target.keepsConfig_trans (quiesceStarted_keepsConfig s)
      (offlineOrWaiting_keepsConfig t force (quiesceStarted s))
    obtain ⟨hframe, hslots, hfsu, hothers, -, -, hpairs, hpool⟩ :=
      quiesced_end (offlineOrWaiting_quiesced (quiesced_start s t) force) hstate
    refine ⟨_, (targetOffline_passed hready hchecks).trans (congrArg Host.Outcome.next (settle_port _ _)), ?_, hslots, hfsu, hothers, settled_keepsConfig hkeeps hstate, hpairs,
      hpool, fun hdone => ?_, fun hforce hstack => ?_, offline_sublist s force,
      fun hS => ⟨fun d hd ht => offline_served hS force hd ht, fun e n hn h => ?_⟩⟩
    · exact congrArg (fun w : State => { w with port := offlinePort s t wait (force || s.targets[t].stack.isEmpty) }) hframe
    · obtain ⟨hoff, hstack, howed⟩ := settled_of_done hdone
      exact ⟨hoff, hstack, howed, offlinePort_of_done hdone wait⟩
    · obtain ⟨hquiescing, hkept⟩ := settled_of_waiting hforce hstack
      have hport := offlinePort_of_waiting hforce hstack wait
      exact ⟨hquiescing, hkept, fun h => hport.trans (if_pos h), fun h => hport.trans (if_neg h)⟩
    · obtain ⟨hstays, hdrop⟩ := offline_stays hS hn h
      obtain ⟨m, hm, hslot, hgeneration, htarget, hlevel, hrearm, -, hsame⟩ := hstays n hn
      exact ⟨⟨m, hm, hslot, hgeneration, htarget, hlevel, hrearm⟩,
        fun k => k.elim (fun hservice => hm.trans (congrArg some (hsame hservice))) hdrop⟩
  · intro s hready hchecks hS t force wait paired moved left cleared stacked forced offline
    have hcleared : quiesceStarted s = cleared :=
      startQuiesce_eq (paired := paired) (moved := moved) (rest := left) (startCommand_stand hS 0x0E) t _
        (no_retireWait hready) rfl (by simp only [beq_iff_eq]; rfl) rfl
    have hforced : forceStack t (quiesceStarted s) = forced := by
      rw [forceStack_eq (quiesceStarted_stand hS) t (by rw [quiesceStarted_port hready]; exact no_retireWait hready),
        hcleared]
      rfl
    have hfreed (h : force = true) : stackFreed t force (quiesceStarted s) = forced := by
      rw [← hforced]
      exact if_pos h
    have hkept (h : force = false) : stackFreed t force (quiesceStarted s) = cleared := by
      rw [← hcleared]
      exact if_neg (Bool.eq_false_iff.mp h)
    have hoffline (u : State) : { goOffline t u with port := s.port.ended 0x0E .ok [] } = offline u := rfl
    refine ⟨hcleared ▸ quiesceStarted_stack s, fun hforce => ?_, fun hforce hstack => ?_,
      fun hforce hstack => ⟨fun hwait => ?_, fun hwait => ?_⟩⟩
    · rw [exec_targetOffline_done hready hchecks (Or.inl hforce), hfreed hforce, hoffline]
    · rw [exec_targetOffline_done hready hchecks (Or.inr hstack), hkept hforce, hoffline]
    · rw [exec_targetOffline_waiting hready hchecks hforce hstack (if_pos hwait), hcleared]
    · rw [exec_targetOffline_waiting hready hchecks hforce hstack (if_neg hwait), hcleared]

end Sys2Proof.Machine

/-! The management command port (chapter 7): what every step keeps of it, a COMMAND write while it is BUSY, the commands that fail a check, operand writes and ABORT, and the two commands that only report. -/

namespace Sys2Proof.Machine

/-! ### What every step keeps of the port (R142, R146, R150) -/

/-- Settles O58: each command and each event of the part keeps the port consistent (Keeps), and so does the step that runs it. -/
theorem stepKeepsPortConsistent : Obligations.StepKeepsPortConsistent := by
  unfold Obligations.StepKeepsPortConsistent
  exact fun s t hport h => (step_keeps h).port hport

/-! ### A COMMAND write while the port is BUSY (R143) -/

theorem busy_iff (s : State) : busy s = true ↔ s.port.flight ≠ none := Option.isSome_iff_ne_none

theorem commandWrite_of_busy {s : State} (h : busy s = true) (code : BitVec 8) :
    commandWrite code s = modPort (fun p => { p with rejected := true }) s := if_pos h

/-- Settles O35: a ready link takes the write, and a BUSY port rejects it before its code is looked at. -/
theorem busyPortRejects : Obligations.BusyPortRejects := by
  unfold Obligations.BusyPortRejects
  intro s c code hc hready hflight
  rw [exec_write hready (accessOf_command hc)]
  exact congrArg Host.Outcome.next (commandWrite_of_busy ((busy_iff s).mpr hflight) code)

/-! ### Commands that fail a check (R144, R146, R147) -/

/-- A code outside 01H to 10H names no command (R196). -/
theorem commandBody_unknown {n : Nat} (h : n = 0 ∨ 16 < n) : commandBody n = unknownBody := by
  unfold commandBody
  split
  case h_17 => rfl
  all_goals omega

theorem not_isCommandCode {code : BitVec 8} (h : (!isCommandCode code) = true) : code.toNat = 0 ∨ 16 < code.toNat := by
  simp only [isCommandCode, Bool.not_eq_true', Bool.and_eq_false_iff, decide_eq_false_iff_not] at h
  omega

theorem queryError_eq (u : State) (ho : u.port.flightOperands = u.port.operands) :
    (if 1023 < slotOperand u then some ResultCode.badSlot else if slotWordReserved u then some .badField else none)
      = firstFailing (checks .query u) := by
  unfold slotOperand
  rw [operand_eq ho, slotAlone_eq ho]
  simp only [checks, firstFailing, decide_eq_true_eq]
  rfl

theorem queryBody_failed {u : State} (ho : u.port.flightOperands = u.port.operands) {r : ResultCode}
    (h : firstFailing (checks .query u) = some r) : queryBody u = endCommand r [] u := by
  rw [← queryError_eq u ho] at h
  unfold queryBody
  split_ifs at h with hslot hreserved
  · cases h
    exact if_pos hslot
  · cases h
    rw [if_neg hslot, if_pos hreserved]

theorem queryBody_passed {u : State} {i : SlotId} (hi : slotId u = i) (ho : u.port.flightOperands = u.port.operands)
    (h : firstFailing (checks .query u) = none) :
    queryBody u = endCommand .ok (queryWords u.slots[i] (itemCounts u i)) u := by
  subst hi
  rw [← queryError_eq u ho] at h
  unfold queryBody
  split_ifs at h with hslot hreserved
  rw [if_neg hslot, if_neg hreserved]

/-- The one check of TABLE_CLEAR (R157). -/
theorem tableClearChecks_eq (u : State) :
    firstFailing (checks .tableClear u) = if (!allOffline u) = true then some .targetState else none := by
  unfold allOffline
  rw [List.not_all_eq_any_not]
  rfl

/-- A body that makes one check ends with its code if it fails (R146). -/
theorem ite_failed {bad : Bool} {c r : ResultCode} (h : (if bad = true then some c else none) = some r) (u x : State) :
    (if bad = true then endCommand c [] u else x) = endCommand r [] u := by
  obtain ⟨hbad, hr⟩ := Option.ite_none_right_eq_some.mp h
  rw [if_pos hbad, Option.some.inj hr]

/-- The body of a command, on a port that has just taken it, ends with the code of the first check that fails, and does no more (R146, R147). -/
theorem commandBody_failed {c : Instr} {code : BitVec 8} {u : State} {r : ResultCode} (hwf : c.wellFormed = true)
    (hc : commandCode c = some code) (ho : u.port.flightOperands = u.port.operands)
    (h : firstFailing (checks c u) = some r) : commandBody code.toNat u = endCommand r [] u := by
  unfold commandCode at hc
  cases c <;> cases hc
  case install =>
    show installBody u = _
    rw [installBody, installError_eq u ho, h]
  case modify =>
    show modifyBody u = _
    rw [modifyBody, modifyError_eq u ho, h]
  case hold =>
    show holdBody u = _
    rw [holdBody, (holdError_eq u ho).1, h]
  case release =>
    show releaseBody u = _
    rw [releaseBody, (holdError_eq u ho).2, h]
  case query => exact queryBody_failed ho h
  -- PROBE makes no check (R156), so none fails.
  case probe => cases h
  case retire =>
    show retireBody u = _
    rw [retireBody, retireError_eq u ho, h]
  case forceRetire =>
    show forceRetireBody u = _
    rw [forceRetireBody, forceRetireError_eq u ho, h]
  case groupHold => exact ite_failed ((group_eq u ho).trans h) u _
  case groupRelease => exact ite_failed ((group_eq u ho).trans h) u _
  case groupRetire => exact ite_failed ((groupRetire_eq u ho).trans h) u _
  case targetSet =>
    show targetSetBody u = _
    rw [targetSetBody, targetSetError_eq u ho, h]
  case targetOnline =>
    show targetOnlineBody u = _
    rw [targetOnlineBody, targetOnlineError_eq u ho, h]
  case targetOffline =>
    show targetOfflineBody u = _
    rw [targetOfflineBody, targetOfflineError_eq u ho, h]
  case pinSet => exact ite_failed ((pinSetRefused_eq u ho).trans h) u _
  case tableClear =>
    obtain ⟨hbad, hr⟩ := Option.ite_none_right_eq_some.mp ((tableClearChecks_eq u).symm.trans h)
    cases hr
    exact if_neg (by simpa using hbad)
  case unknownCommand =>
    cases h
    rw [commandBody_unknown (not_isCommandCode hwf)]
    rfl

/-- Settles O36: a ready port takes the command, its body fails, and the end of the command clears what the taking set. -/
theorem failedCheckChangesOnlyThePort : Obligations.FailedCheckChangesOnlyThePort := by
  unfold Obligations.FailedCheckChangesOnlyThePort
  intro s c code r hwf hc hready hfails
  have hchecks : firstFailing (checks c (startCommand code s)) = some r := by rw [checks_start, hfails]
  rw [exec_command hready (accessOf_command hc), commandBody_failed hwf hc (start_operands code s) hchecks,
    endCommand_start]

/-! ### Operand writes and ABORT (R145, R149) -/

theorem countWord_eq (n : Nat) : countWord n = place 0 11 n := BitVec.zero_or

theorem groupWord_eq (changed skipped : Nat) : groupWord changed skipped = place 0 11 changed ||| place 16 11 skipped :=
  congrArg (· ||| _) BitVec.zero_or

theorem exec_operandWrite {s : State} (h : linkReady s) (k : Fin 8) (w : Word) :
    exec (.operandWrite k w) s = .next { s with port := { s.port with operands := s.port.operands.set k w } } := by
  rw [exec_write h rfl]
  rfl

theorem exec_abort_idle {s : State} (h : linkReady s) (hf : s.port.flight = none) : exec .abort s = .next s := by
  rw [exec_write h rfl]
  show Host.Outcome.next (abortBody s) = _
  unfold abortBody
  rw [hf]

/-- An ABORT ends the command in flight with ABORTED and the words that it has earned (R149). -/
theorem exec_abort_busy {s : State} (h : linkReady s) {f : Flight} (hf : s.port.flight = some f) :
    exec .abort s = .next { s with port := s.port.concluded .aborted (abortWords f) } := by
  rw [exec_write h rfl]
  show Host.Outcome.next (abortBody s) = _
  unfold abortBody
  rw [hf]
  rfl

/-- Settles O37: the port takes both writes whatever its state, and ABORT splits on the command in flight. -/
theorem operandWritesAndAbort : Obligations.OperandWritesAndAbort := by
  unfold Obligations.OperandWritesAndAbort
  refine ⟨fun s k w hready => exec_operandWrite hready k w, fun s hready => ⟨exec_abort_idle hready,
    fun i f hf => exec_abort_busy hready hf, fun t hf => exec_abort_busy hready hf, fun t n hf => ?_,
    fun kind key len changed skipped hf => ?_⟩⟩
  · rw [exec_abort_busy hready hf, ← countWord_eq]
    rfl
  · rw [exec_abort_busy hready hf, ← groupWord_eq]
    rfl

/-! ### QUERY and PROBE (R155, R156) -/

/-- A QUERY that passes its checks reports the record and changes nothing outside the port (R155). -/
theorem query_passed {s : State} (hready : commandReady s) (hchecks : firstFailing (checks .query s) = none) :
    exec .query s = .next { s with
      port := s.port.ended 0x05 .ok (queryWords s.slots[namedSlot s] (itemCounts s (namedSlot s))) } := by
  have hpassed : firstFailing (checks .query (startCommand 0x05 s)) = none := by rw [checks_start, hchecks]
  rw [exec_command hready (code := 0x05) rfl]
  exact congrArg Host.Outcome.next (queryBody_passed (slotId_start 0x05 s) (start_operands 0x05 s) hpassed)

theorem probeBody_found {u : State} {i : SlotId} (h : lookup u (operand u 0) = some i) :
    probeBody u = endCommand .ok [probeWord i u.slots[i]] u := by
  unfold probeBody
  rw [h]

theorem probeBody_missed {u : State} (h : lookup u (operand u 0) = none) : probeBody u = endCommand .notFound [] u := by
  unfold probeBody
  rw [h]

/-- A PROBE that finds a record names it (R156). -/
theorem probe_found {s : State} (hready : commandReady s) {i : SlotId} (h : lookup s s.port.operands[0] = some i) :
    exec .probe s = .next { s with port := s.port.ended 0x06 .ok [probeWord i s.slots[i]] } := by
  rw [exec_command hready (code := 0x06) rfl]
  exact congrArg Host.Outcome.next (probeBody_found (u := startCommand 0x06 s) h)

/-- A PROBE that finds no record ends with NOT_FOUND (R156). -/
theorem probe_missed {s : State} (hready : commandReady s) (h : lookup s s.port.operands[0] = none) :
    exec .probe s = .next { s with port := s.port.ended 0x06 .notFound [] } := by
  rw [exec_command hready (code := 0x06) rfl]
  exact congrArg Host.Outcome.next (probeBody_missed (u := startCommand 0x06 s) h)

/-- The notices of a record that pass a test, counted over the entries, where the test on notices that are no orphans is one on the phase (R74). -/
theorem countNotices_owned {q : Notice → Bool} {p : Phase → Bool} (h : ∀ n, (!n.isOrphan && q n) = p n.phase)
    (s : State) (i : SlotId) : countNotices s (fun n => ownedBy s i n && q n) =
      (List.finRange 512).countP fun e : EntryId =>
        (s.pool[e]).any fun n => n.slot == i && n.generation == s.slots[i].generation && p n.phase := by
  rw [countNotices_eq]
  unfold ownedBy
  simp only [Bool.and_assoc, h]

/-- Settles O42: QUERY and PROBE end on the state they were taken in, and each number is a count of the record's notices by phase. -/
theorem queryAndProbeReport : Obligations.QueryAndProbeReport := by
  unfold Obligations.QueryAndProbeReport
  refine ⟨fun s hready => ⟨query_passed hready, fun i => probe_found hready, probe_missed hready⟩, fun s i => ?_⟩
  intro counted
  have hcounted (q : Notice → Bool) (p : Phase → Bool) (h : ∀ n, (!n.isOrphan && q n) = p n.phase) :
      countNotices s (fun n => ownedBy s i n && q n) = counted p := countNotices_owned h s i
  -- From here on the count is only a name, so that unification does not evaluate it over the 512 entries.
  clear_value counted
  unfold itemCounts
  rw [ItemCounts.mk.injEq]
  refine ⟨hcounted _ _ fun n => ?whenGathering, hcounted _ _ fun n => ?whenPending,
    hcounted _ _ fun n => ?whenInService, rfl⟩
  case whenGathering =>
    unfold Notice.isOrphan Notice.isGathering
    cases n.phase <;> simp
  case whenPending =>
    unfold Notice.isOrphan Notice.isPending
    cases n.phase <;> simp
  case whenInService =>
    unfold Notice.isOrphan Notice.isInService
    cases n.phase <;> simp

end Sys2Proof.Machine

/-! The group operations (chapter 8): a group walk's start, its steps, and what a step does to a member of the group. -/

namespace Sys2Proof.Machine

/-! ### The start of a group walk (R172, R173) -/

/-- A command whose body starts a group walk has the walk in flight from slot 0, on the operands it was taken with (R172, R173). -/
theorem exec_startGroupWalk {c : Instr} {code : BitVec 8} {kind : GroupKind} {s : State} (hready : commandReady s)
    (hc : accessOf c = some (.command code))
    (hbody : commandBody code.toNat (startCommand code s) = startGroupWalk kind (startCommand code s)) :
    exec c s = .next { s with port := { s.port.taken code with
      flight := some (.groupWalk kind s.port.operands[0] (field s.port.operands[1] 0 6) 0 0) } } := by
  rw [exec_command hready hc, hbody]
  rfl

/-- A body that makes one check goes on where the check passes (R172). -/
theorem ite_passed {bad : Bool} {c : ResultCode} (h : (if bad = true then some c else none) = none) (u x : State) :
    (if bad = true then endCommand c [] u else x) = x := by
  have hpassed : ¬ bad = true := fun hbad => by
    rw [if_pos hbad] at h
    cases h
  exact if_neg hpassed

theorem exec_groupHold_passed {s : State} (hready : commandReady s) (hchecks : firstFailing (checks .groupHold s) = none) :
    exec .groupHold s = .next { s with port := { s.port.taken 0x09 with
      flight := some (.groupWalk .hold s.port.operands[0] (field s.port.operands[1] 0 6) 0 0) } } :=
  exec_startGroupWalk hready rfl (ite_passed ((group_eq _ (start_operands 0x09 s)).trans
    ((congrArg firstFailing (checks_start .groupHold 0x09 s)).trans hchecks)) _ _)

theorem exec_groupRelease_passed {s : State} (hready : commandReady s)
    (hchecks : firstFailing (checks .groupRelease s) = none) :
    exec .groupRelease s = .next { s with port := { s.port.taken 0x0A with
      flight := some (.groupWalk .release s.port.operands[0] (field s.port.operands[1] 0 6) 0 0) } } :=
  exec_startGroupWalk hready rfl (ite_passed ((group_eq _ (start_operands 0x0A s)).trans
    ((congrArg firstFailing (checks_start .groupRelease 0x0A s)).trans hchecks)) _ _)

theorem exec_groupRetire_passed {s : State} (hready : commandReady s)
    (hchecks : firstFailing (checks .groupRetire s) = none) :
    exec .groupRetire s = .next { s with port := { s.port.taken 0x0B with
      flight := some (.groupWalk (.retire (retireModeOf (field s.port.operands[1] 16 2)))
        s.port.operands[0] (field s.port.operands[1] 0 6) 0 0) } } :=
  exec_startGroupWalk hready rfl (ite_passed ((groupRetire_eq _ (start_operands 0x0B s)).trans
    ((congrArg firstFailing (checks_start .groupRetire 0x0B s)).trans hchecks)) _ _)

/-! ### One step of a group walk (R173) -/

theorem inGroup_iff {len : Nat} (hlen : len ≤ 32) (key : Key) (r : Slot) : inGroup key len r = true ↔
    r.state ≠ .free ∧ len ≤ r.len ∧ ∀ k, k < len → r.key.getMsbD k = key.getMsbD k := by
  unfold inGroup
  rw [Bool.and_eq_true, Bool.and_eq_true, bne_iff_ne, decide_eq_true_eq, sameLeading_iff len hlen, and_assoc]

theorem walkSkips_iff (kind : GroupKind) (r : Slot) : walkSkips kind r = true ↔
    r.state = .retiring ∨ kind = .hold ∧ r.state = .held ∨ kind = .release ∧ r.state = .active := by
  cases kind <;> simp [walkSkips]

theorem groupWalkBody_of_flight {s : State} {kind : GroupKind} {key : Key} {len changed skipped : Nat}
    (hf : s.port.flight = some (.groupWalk kind key len changed skipped)) :
    groupWalkBody s =
      if inGroup key len s.slots[walkSlot s] = true then
        if walkSkips kind s.slots[walkSlot s] = true then
          endWalkIfPast [groupWord changed (skipped + 1)] (advanceWalk (.groupWalk kind key len changed (skipped + 1)) s)
        else endWalkIfPast [groupWord (changed + 1) skipped]
          (advanceWalk (.groupWalk kind key len (changed + 1) skipped) (walkChange kind (walkSlot s) s))
      else endWalkIfPast [groupWord changed skipped] (advanceWalk (.groupWalk kind key len changed skipped) s) := by
  unfold groupWalkBody
  rw [hf]
  by_cases hmember : inGroup key len s.slots[walkSlot s] = true
  · simp only [hmember, Bool.not_true, Bool.false_eq_true, if_false, if_true]
  · simp only [hmember, Bool.not_false, Bool.false_eq_true, if_false, if_true]

section
variable {s : State} {kind : GroupKind} {key : Key} {len changed skipped : Nat}

/-- A walk step over a slot outside the group only moves the walk on (R173). -/
theorem exec_groupWalk_outside (hf : s.port.flight = some (.groupWalk kind key len changed skipped))
    (hpos : s.port.walkPosition < 1024) (hmember : ¬ inGroup key len s.slots[walkSlot s] = true) :
    exec .groupWalkSlot s = .next { s with
      port := s.port.walked (.groupWalk kind key len changed skipped) [groupWord changed skipped] } := by
  show Host.Outcome.next (groupWalkBody s) = _
  rw [groupWalkBody_of_flight hf, if_neg hmember, endWalkIfPast_advanceWalk hpos]

/-- A walk step over a member that is RETIRING or already in the state produced counts it as skipped (R173). -/
theorem exec_groupWalk_skipped (hf : s.port.flight = some (.groupWalk kind key len changed skipped))
    (hpos : s.port.walkPosition < 1024) (hmember : inGroup key len s.slots[walkSlot s] = true)
    (hskips : walkSkips kind s.slots[walkSlot s] = true) :
    exec .groupWalkSlot s = .next { s with
      port := s.port.walked (.groupWalk kind key len changed (skipped + 1)) [groupWord changed (skipped + 1)] } := by
  show Host.Outcome.next (groupWalkBody s) = _
  rw [groupWalkBody_of_flight hf, if_pos hmember, if_pos hskips, endWalkIfPast_advanceWalk hpos]

/-- A walk step over any other member changes and counts it (R173); no RETIRE waits, so the change leaves the port alone. -/
theorem exec_groupWalk_changed (hf : s.port.flight = some (.groupWalk kind key len changed skipped))
    (hpos : s.port.walkPosition < 1024) (hmember : inGroup key len s.slots[walkSlot s] = true)
    (hskips : ¬ walkSkips kind s.slots[walkSlot s] = true) :
    exec .groupWalkSlot s = .next { walkChange kind (walkSlot s) s with
      port := s.port.walked (.groupWalk kind key len (changed + 1) skipped) [groupWord (changed + 1) skipped] } := by
  have hport : (walkChange kind (walkSlot s) s).port = s.port := port_of_walk hf rfl (walkChange_port _ _ _)
  show Host.Outcome.next (groupWalkBody s) = _
  rw [groupWalkBody_of_flight hf, if_pos hmember, if_neg hskips, endWalkIfPast_advanceWalk (by rw [hport]; exact hpos),
    hport]

end

/-! ### What a step does to a member (R174, R175) -/

/-- A released member whose held count is placed (R14, R174). -/
theorem releaseRecord_of_places {s : State} {i : SlotId} (h : releasePlaces s i = true) :
    releaseRecord i s = settle (placeHeld i (modSlot i (fun r => { r with state := .active }) s)) := if_pos h

/-- A released member with nothing to place is ACTIVE and no more (R14, R174). -/
theorem releaseRecord_of_not_places {s : State} {i : SlotId} (h : ¬ releasePlaces s i = true) :
    releaseRecord i s = modSlot i (fun r => { r with state := .active }) s := if_neg h

theorem not_releasePlaces_iff (s : State) (i : SlotId) : ¬ releasePlaces s i = true ↔
    s.slots[i].state ≠ .held ∨ s.slots[i].held.count = 0 ∨ ∀ t ∈ s.slots[i].targets, placeable s t = false := by
  simp only [releasePlaces_iff, not_and_or, not_exists, not_not, Bool.not_eq_true, ne_eq, ← imp_iff_not_or]

/-- A member retired under DRAIN, in closed form (R165, R175). -/
theorem retireRecord_drain_closed {s : State} {i : SlotId} (hf : ∀ f, s.port.flight ≠ some (.retireWait i f)) :
    retireRecord i .drain s = settle ((inCreationOrder s fun n => n.isGathering && ownedBy s i n).foldl
      (fun v e => settle (ripen e v)) { s with
        slots := s.slots.set i (if outstanding s i = 0 then Slot.freeOf s.slots[i].generation
          else { s.slots[i] with state := .retiring, held := Held.empty, retireMode := some .drain })
        pins := Vector.ofFn fun p => if s.slots[i].held.pins.getLsbD p then rearmPin s.pins[p] else s.pins[p] }) := by
  rw [retireRecord_drain i hf]
  exact congrArg (fun w => settle (List.foldl _ w _)) (beginDrain_eq i _ s)

/-- Settles O47: a start by the one check it makes, a step by whether its slot is a member and the walk skips it, and a member's release and retirement by their closed forms. -/
theorem groupWalks : Obligations.GroupWalks := by
  unfold Obligations.GroupWalks
  refine ⟨fun s hready => ⟨exec_groupHold_passed hready, exec_groupRelease_passed hready, exec_groupRetire_passed hready⟩,
    fun s kind key len changed skipped hf hpos hlen => ?steps, fun s i => ?release,
    fun s i hf => ⟨fun hS => retireRecord_discard ((stand_iff s).mpr hS) i hf, retireRecord_drain_closed hf⟩⟩
  case steps =>
    intro i r isMember already after
    have hmember : inGroup key len r = true ↔ isMember := inGroup_iff hlen key r
    have hskips : walkSkips kind r = true ↔ already := walkSkips_iff kind r
    refine ⟨fun hm => exec_groupWalk_outside hf hpos (mt hmember.mp hm),
      fun hm ha => exec_groupWalk_skipped hf hpos (hmember.mpr hm) (hskips.mpr ha), fun hm ha => ?_⟩
    have hstep := exec_groupWalk_changed hf hpos (hmember.mpr hm) (mt hskips.mp ha)
    refine ⟨?_, ?_, fun mode => ?_⟩ <;> rintro rfl <;> exact hstep
  case release =>
    exact ⟨fun hheld hcount htarget => releaseRecord_of_places ((releasePlaces_iff s i).mpr ⟨hheld, hcount, htarget⟩),
      fun h => releaseRecord_of_not_places ((not_releasePlaces_iff s i).mpr h)⟩

end Sys2Proof.Machine

/-! The Fault Status Unit (chapter 9): what a raise and a FAULT_CLEAR do, the words that software reads, and the events that cannot occur. -/

namespace Sys2Proof.Machine

/-! ### Raises (R179 to R181) -/

/-- The first capture stays, and a later miss sets more-misses (R181). -/
theorem captureMiss_eq (key : Key) (f : Fsu) : captureMiss key f =
    { f with firstMiss := some (f.firstMiss.getD key), moreMisses := f.moreMisses || f.firstMiss.isSome } :=
  calc captureMiss key f
    _ = ⟨(captureMiss key f).causes, (captureMiss key f).firstMiss, (captureMiss key f).moreMisses⟩ := rfl
    _ = _ := by rw [captureMiss_causes, captureMiss_firstMiss, captureMiss_moreMisses]

theorem raiseMiss_eq (key : Key) (s : State) : raiseMiss key s = { s with fsu := {
    causes := s.fsu.causes.set (causeIndex .miss) (raiseCause key s.fsu.causes[causeIndex .miss])
    firstMiss := some (s.fsu.firstMiss.getD key)
    moreMisses := s.fsu.moreMisses || s.fsu.firstMiss.isSome } } :=
  congrArg (fun f => { s with fsu := f }) (captureMiss_eq key (modCause .miss (raiseCause key) s).fsu)

/-- Settles O39: a raise changes one cause by raiseCause, and a raise of MISS captures its key as well. -/
theorem raiseOfACause : Obligations.RaiseOfACause := by
  unfold Obligations.RaiseOfACause
  exact ⟨fun s => ⟨fun _ => rfl, fun key => raiseMiss_eq key s⟩, fun _ _ => ⟨rfl, rfl⟩, fun _ _ _ => rfl, rfl⟩

/-! ### FAULT_CLEAR (R183) -/

/-- A cause that FAULT_CLEAR names loses its flag and keeps its offer (R183). -/
theorem clearCauses_cause (w : Word) (f : Fsu) (k : Fin 8) :
    (clearCauses w f).causes[k] = { f.causes[k] with flag := f.causes[k].flag && !w.getLsbD k } := by
  refine (Vector.getElem_ofFn _).trans ?_
  show (if w.getLsbD k = true then { f.causes[k] with flag := false } else f.causes[k]) = _
  cases w.getLsbD k with
  | true => rw [if_pos rfl, Bool.not_true, Bool.and_false]
  | false => rw [if_neg Bool.false_ne_true, Bool.not_false, Bool.and_true]

theorem clearCauses_moreMisses (w : Word) (f : Fsu) :
    (clearCauses w f).moreMisses = (f.moreMisses && !w.getLsbD 0) := by
  show (if w.getLsbD 0 = true then false else f.moreMisses) = _
  cases w.getLsbD 0 <;> simp

/-- Settles O38: a ready link takes the write, which changes the FSU alone. -/
theorem faultClearClearsTheNamedCauses : Obligations.FaultClearClearsTheNamedCauses := by
  unfold Obligations.FaultClearClearsTheNamedCauses
  intro s w hready
  exact ⟨faultClearBody w s, exec_write (op := .faultClear w) hready rfl, rfl, clearCauses_cause w s.fsu, rfl,
    clearCauses_moreMisses w s.fsu⟩

/-! ### Commands that find nothing to do (log entry 8) -/

/-- No command stops the part or touches the queue: an access is delivered, and an event of the part runs its body. -/
theorem exec_completes (c : Instr) (s : State) : ∃ t, exec c s = .next t ∧ t.pending = s.pending := by
  cases haccess : accessOf c with
  | some op => exact ⟨linkDeliver op s, exec_of_access haccess s, (linkDeliver_keeps op s).pending⟩
  | none =>
    obtain ⟨t, hexec, hkeeps⟩ := exec_event_keeps haccess s
    exact ⟨t, hexec, hkeeps.pending⟩

theorem intakeBody_of_empty {s : State} (h : s.intake = []) : intakeBody s = s := by
  unfold intakeBody
  rw [h]

theorem exec_intakeHeadTaken_empty {s : State} (h : s.intake = []) : exec .intakeHeadTaken s = .next (drainWaiting s) :=
  congrArg (fun u => Host.Outcome.next (drainWaiting u)) (intakeBody_of_empty h)

theorem exec_edgeLatchTaken_clear {s : State} {pin : PinId} (h : s.pins[pin].latch = false) :
    exec (.edgeLatchTaken pin) s = .next s :=
  congrArg Host.Outcome.next (if_neg (Bool.eq_false_iff.mp h))

theorem exec_levelOfferTaken_clear {s : State} {pin : PinId} (h : s.pins[pin].offer = false) :
    exec (.levelOfferTaken pin) s = .next s :=
  congrArg Host.Outcome.next (if_neg (Bool.eq_false_iff.mp h))

theorem exec_faultArrival_none {s : State} {cause : Cause} (h : s.fsu.causes[causeIndex cause].offer = none) :
    exec (.faultArrival cause) s = .next s := by
  show Host.Outcome.next (faultBody cause s) = _
  unfold faultBody
  rw [h]

theorem exec_onlineWalkSlot_none {s : State} (h : ∀ t n, s.port.flight ≠ some (.onlineWalk t n)) :
    exec .targetOnlineWalkSlot s = .next s := by
  show Host.Outcome.next (onlineWalkBody s) = _
  unfold onlineWalkBody
  split
  next t n hflight => exact absurd hflight (h t n)
  next => rfl

theorem exec_groupWalkSlot_none {s : State}
    (h : ∀ kind key len changed skipped, s.port.flight ≠ some (.groupWalk kind key len changed skipped)) :
    exec .groupWalkSlot s = .next s := by
  show Host.Outcome.next (groupWalkBody s) = _
  unfold groupWalkBody
  split
  next kind key len changed skipped hflight => exact absurd hflight (h kind key len changed skipped)
  next => rfl

/-- Settles O3: every command answers a next state, and each event that cannot occur takes the branch that changes nothing. -/
theorem everyCommandCompletes : Obligations.EveryCommandCompletes := by
  unfold Obligations.EveryCommandCompletes
  refine ⟨exec_completes, fun s => ⟨fun hintake => ⟨exec_intakeHeadTaken_empty hintake, fun hwaiting => ?_⟩,
    fun _ => exec_edgeLatchTaken_clear, fun _ => exec_levelOfferTaken_clear, fun _ => exec_faultArrival_none,
    exec_onlineWalkSlot_none, exec_groupWalkSlot_none⟩⟩
  rw [exec_intakeHeadTaken_empty hintake, drainWaiting_of_none s hwaiting]

/-! ### The fields of a packed word (R194) -/

theorem placeFlag_getLsbD {bit : Nat} (h : bit < 32) (b : Bool) (k : Nat) :
    (placeFlag bit b).getLsbD k = (decide (k = bit) && b) := by
  rw [placeFlag, place_getLsbD bit 1 b.toNat k h]
  by_cases hk : k = bit
  · rw [hk, Nat.sub_self]
    cases b <;> simp
  · rw [decide_eq_false hk, decide_eq_false (by omega : ¬ (bit ≤ k ∧ k < bit + 1)), Bool.false_and, Bool.false_and]

/-- Where no other part has a bit, the packed word has the bit of the one part. -/
theorem pack_finRange_getLsbD {n : Nat} {f : Fin n → Word} {k : Nat} (i : Fin n)
    (h : ∀ j, j ≠ i → (f j).getLsbD k = false) : (pack ((List.finRange n).map f)).getLsbD k = (f i).getLsbD k := by
  rw [pack_getLsbD, Bool.eq_iff_iff, List.any_map, List.any_eq_true]
  refine ⟨fun ⟨j, _, hj⟩ => ?_, fun hi => ⟨i, List.mem_finRange i, hi⟩⟩
  by_cases hji : j = i
  · exact hji ▸ hj
  · exact absurd hj (Bool.eq_false_iff.mp (h j hji))

/-- A bit that no part has is clear in the packed word. -/
theorem pack_finRange_getLsbD_none {n : Nat} {f : Fin n → Word} {k : Nat} (h : ∀ j, (f j).getLsbD k = false) :
    (pack ((List.finRange n).map f)).getLsbD k = false := by
  rw [pack_getLsbD, List.any_map, List.any_eq_false]
  exact fun j _ => Bool.eq_false_iff.mp (h j)

/-- A word of flags, flag i at bit i. -/
def flagsWord {n : Nat} (b : Fin n → Bool) : Word := pack ((List.finRange n).map fun i : Fin n => placeFlag i (b i))

section
variable {n : Nat} (hn : n ≤ 32) (b : Fin n → Bool)
include hn

theorem flagsWord_part_getLsbD (i : Fin n) (k : Nat) : (placeFlag i (b i)).getLsbD k = (decide (k = i) && b i) :=
  placeFlag_getLsbD (Nat.lt_of_lt_of_le i.isLt hn) (b i) k

theorem flagsWord_getLsbD (i : Fin n) : (flagsWord b).getLsbD i = b i := by
  have hothers (j : Fin n) (hji : j ≠ i) : (placeFlag j (b j)).getLsbD i = false := by
    rw [flagsWord_part_getLsbD hn b j, decide_eq_false (fun hij => hji (Fin.ext hij.symm)), Bool.false_and]
  rw [flagsWord, pack_finRange_getLsbD i hothers, flagsWord_part_getLsbD hn b i, decide_eq_true rfl, Bool.true_and]

theorem flagsWord_beyond {k : Nat} (hk : n ≤ k) : (flagsWord b).getLsbD k = false := by
  refine pack_finRange_getLsbD_none fun j => ?_
  rw [flagsWord_part_getLsbD hn b j, decide_eq_false (by omega), Bool.false_and]

end

/-- A field of a packed word, from the same field of each part. -/
theorem field_pack (fs : List Word) (lo n : Nat) : field (pack fs) lo n = (fs.map fun f => field f lo n).foldl (· ||| ·) 0 := by
  have hacc (fs : List Word) (a : Word) :
      field (fs.foldl (· ||| ·) a) lo n = (fs.map fun f => field f lo n).foldl (· ||| ·) (field a lo n) := by
    induction fs generalizing a with
    | nil => rfl
    | cons f fs ih =>
      have hor : field (a ||| f) lo n = field a lo n ||| field f lo n := by
        rw [field, BitVec.extractLsb'_or, BitVec.toNat_or]
        rfl
      rw [List.foldl_cons, ih, hor]
      rfl
  have hzero : field 0 lo n = 0 := by rw [field_eq_zero]; simp
  rw [pack, hacc, hzero]

/-- A part placed clear of a field adds nothing to it. -/
theorem field_place_clear {lo n start width v : Nat} (h : start + width ≤ 32) (hclear : start + width ≤ lo ∨ lo + n ≤ start) :
    field (place start width v) lo n = 0 := by
  rw [field_eq_zero]
  intro k hk
  have hout : ¬ (start ≤ lo + k ∧ lo + k < start + width) := by omega
  rw [place_getLsbD _ _ _ _ h, decide_eq_false hout, Bool.false_and]

/-! ### The words that software reads (R83, R84, R88, R95, R196, R197) -/

/-- VIEW is the word of the flags "level list l is not empty" (R88). -/
theorem viewWord_eq (c : Target) : viewWord c = flagsWord fun l : Level => !(c.lists[l]).isEmpty := rfl

theorem placeFlag_zero (b : Bool) : placeFlag 0 b = if b then 1 else 0 := by
  cases b <;> rfl

/-- MASK shows the 16 mask bits, and no others (R83, R197). -/
theorem mask_setWidth_getLsbD (m : BitVec 16) (k : Nat) :
    (m.setWidth 32).getLsbD k = (decide (k < 16) && m.getLsbD k) := by
  rw [BitVec.getLsbD_setWidth]
  by_cases hk : k < 16
  · rw [decide_eq_true hk, decide_eq_true (by omega : k < 32)]
  · rw [BitVec.getLsbD_of_ge m k (by omega), Bool.and_false, Bool.and_false]

theorem targetState_value_eq (x : TargetState) :
    x.value = if x = .offline then 0 else if x = .online then 1 else if x = .stalled then 2 else 3 := by
  cases x <;> rfl

theorem targetState_value_lt (x : TargetState) : x.value < 4 := by
  cases x <;> decide

/-- The part of DEVICE_STATUS that belongs to one target (R95, R196). -/
def deviceStatusPart (s : State) (t : TargetId) : Word :=
  place (2 * t) 2 s.targets[t].state.value ||| placeFlag (16 + t) s.targets[t].writeOwed

theorem deviceStatusWord_eq (s : State) : deviceStatusWord s = pack ((List.finRange 8).map (deviceStatusPart s)) := rfl

theorem deviceStatusPart_getLsbD (s : State) (t : TargetId) (k : Nat) :
    (deviceStatusPart s t).getLsbD k
      = (decide (2 * t.val ≤ k ∧ k < 2 * t + 2) && s.targets[t].state.value.testBit (k - 2 * t)
        || decide (k = 16 + t) && s.targets[t].writeOwed) := by
  rw [deviceStatusPart, BitVec.getLsbD_or, place_getLsbD _ _ _ _ (by omega), placeFlag_getLsbD (by omega)]

/-- A bit of DEVICE_STATUS that is not a target's own is clear in that target's part. -/
theorem deviceStatusPart_clear (s : State) (t : TargetId) {k : Nat} (hstate : ¬ (2 * t.val ≤ k ∧ k < 2 * t + 2))
    (howed : k ≠ 16 + t) : (deviceStatusPart s t).getLsbD k = false := by
  rw [deviceStatusPart_getLsbD, decide_eq_false hstate, decide_eq_false howed, Bool.false_and, Bool.false_and, Bool.or_false]

theorem deviceStatusWord_state (s : State) (t : TargetId) :
    field (deviceStatusWord s) (2 * t) 2 = s.targets[t].state.value := by
  refine pack_field _ _ _ _ (targetState_value_lt _) fun k hk => ?_
  have hothers (u : TargetId) (hut : u ≠ t) : (deviceStatusPart s u).getLsbD (2 * t + k) = false := by
    have hval : u.val ≠ t.val := Fin.val_ne_of_ne hut
    exact deviceStatusPart_clear s u (by omega) (by omega)
  refine (pack_finRange_getLsbD t hothers).trans ?_
  rw [deviceStatusPart_getLsbD, decide_eq_true (by omega), decide_eq_false (by omega), Nat.add_sub_cancel_left,
    Bool.true_and, Bool.false_and, Bool.or_false]

theorem deviceStatusWord_writeOwed (s : State) (t : TargetId) :
    (deviceStatusWord s).getLsbD (16 + t) = s.targets[t].writeOwed := by
  have hothers (u : TargetId) (hut : u ≠ t) : (deviceStatusPart s u).getLsbD (16 + t) = false := by
    have hval : u.val ≠ t.val := Fin.val_ne_of_ne hut
    exact deviceStatusPart_clear s u (by omega) (by omega)
  rw [deviceStatusWord_eq, pack_finRange_getLsbD t hothers, deviceStatusPart_getLsbD, decide_eq_false (by omega),
    decide_eq_true rfl, Bool.false_and, Bool.true_and, Bool.false_or]

theorem deviceStatusWord_beyond (s : State) {k : Nat} (hk : 24 ≤ k) : (deviceStatusWord s).getLsbD k = false :=
  pack_finRange_getLsbD_none fun t => deviceStatusPart_clear s t (by omega) (by omega)

/-- FAULT_STATUS is the word of the cause flags with the more-misses flag at bit 8 (R196). -/
theorem faultStatusWord_getLsbD (s : State) (k : Nat) : (faultStatusWord s).getLsbD k =
    (decide (k = 8) && s.fsu.moreMisses || (flagsWord fun c : Fin 8 => s.fsu.causes[c].flag).getLsbD k) := by
  rw [faultStatusWord, pack_cons, placeFlag_getLsbD (by decide)]
  rfl

theorem faultStatusWord_cause (s : State) (cause : Fin 8) :
    (faultStatusWord s).getLsbD cause = s.fsu.causes[cause].flag := by
  rw [faultStatusWord_getLsbD, decide_eq_false (by omega), flagsWord_getLsbD (by decide), Bool.false_and, Bool.false_or]

theorem faultStatusWord_moreMisses (s : State) : (faultStatusWord s).getLsbD 8 = s.fsu.moreMisses := by
  rw [faultStatusWord_getLsbD, decide_eq_true rfl, flagsWord_beyond (by decide) _ (le_refl 8), Bool.true_and, Bool.or_false]

theorem faultStatusWord_beyond (s : State) {k : Nat} (hk : 9 ≤ k) : (faultStatusWord s).getLsbD k = false := by
  rw [faultStatusWord_getLsbD, decide_eq_false (by omega), flagsWord_beyond (by decide) _ (by omega), Bool.false_and,
    Bool.false_or]

/-- The values of the result codes (R196). -/
theorem resultCode_value_mem (c : ResultCode) : (c, c.value) ∈ ([(.none, 0x00), (.ok, 0x01), (.started, 0x02),
    (.unknownCommand, 0x03), (.badSlot, 0x04), (.slotInUse, 0x05), (.slotFree, 0x06), (.slotState, 0x07),
    (.staleGeneration, 0x08), (.badField, 0x09), (.nonzeroTail, 0x0A), (.duplicateMatch, 0x0B),
    (.badTarget, 0x0C), (.targetState, 0x0D), (.notFound, 0x0E), (.timeout, 0x0F),
    (.aborted, 0x10)] : List (ResultCode × Nat)) := by
  cases c <;> decide

theorem resultCode_value_lt (c : ResultCode) : c.value < 2 ^ 8 := by
  cases c <;> decide

/-- The two flags of PORT_STATUS (R196). -/
theorem portStatusWord_flags (s : State) :
    (portStatusWord s).getLsbD 0 = busy s ∧ (portStatusWord s).getLsbD 1 = s.port.rejected := by
  rw [portStatusWord, pack_getLsbD _ 0, pack_getLsbD _ 1]
  simp [-BitVec.getLsbD_eq_getElem, placeFlag_getLsbD, place_getLsbD]

/-- Of the parts of PORT_STATUS only its own reaches each of the fields, and none the two reserved ones (R196). -/
theorem portStatusWord_fields {s : State} (hlength : s.port.resultLength < 16) :
    field (portStatusWord s) 2 2 = 0 ∧ field (portStatusWord s) 4 4 = s.port.resultLength
      ∧ field (portStatusWord s) 8 8 = s.port.resultCode.value ∧ field (portStatusWord s) 16 8 = s.port.code.toNat
      ∧ field (portStatusWord s) 24 8 = 0 := by
  have hcode : s.port.resultCode.value < 256 := resultCode_value_lt s.port.resultCode
  refine ⟨?_, ?_, ?_, ?_, ?_⟩ <;>
    simp [portStatusWord, field_pack, placeFlag, field_place_clear, field_place, hlength, hcode, s.port.code.isLt]

/-! ### Reads (R185, R196, R197) -/

/-- A 4-byte access at offset 4 × w of the management region goes to word w (R187, R196). -/
theorem decodeAccess_mgmtWord {a : Access} {w : Nat} (hsize : a.size = 4) (hoffset : a.offset.toNat = 4 * w)
    (hw : w < 0x400) : decodeAccess a = decodeMgmtWord a w := by
  unfold decodeAccess
  rw [hoffset, if_pos (by omega), if_pos ⟨hsize, Nat.mul_mod_right 4 w⟩, Nat.mul_div_cancel_left w (by decide)]

/-- A read that the Link Port decodes as one of a management word answers the word and does nothing else (R185). -/
theorem exec_mgmtRead {a : Access} {r : RequesterId} {word : MgmtWord} {s : State} (hready : readReady s)
    (h : decodeAccess a = .mgmtRead r word) : exec (.refusedAccess a) s = .next { s with
      answers := s.answers ++ [{ requester := r, size := 4, data := (mgmtValue s word).setWidth 64 }] } :=
  exec_read (op := .mgmtRead r word) hready (congrArg some h) rfl

/-- A page read that passes the owner check answers the word and does nothing else (R80, R197). -/
theorem exec_pageRead {s : State} {r : RequesterId} {t : TargetId} (hready : readReady s)
    (howner : s.targets[t].owner = none ∨ s.targets[t].owner = some r) (w : PageWord) :
    exec (.ownerRefusedRead r t w) s = .next { s with
      answers := s.answers ++ [{ requester := r, size := 4, data := (pageValue s t w).setWidth 64 }] } := by
  have hpasses : ¬ ownerRefuses s r t = true := Bool.eq_false_iff.mp (owner_ok howner)
  rw [exec_read hready (op := .pageRead r t w) rfl rfl]
  exact congrArg Host.Outcome.next (if_neg hpasses)

/-- Settles O5: the decode names the word of each offset (R196), and each word is read off its packed parts. -/
theorem readsReturnTheirWord : Obligations.ReadsReturnTheirWord := by
  unfold Obligations.ReadsReturnTheirWord
  refine ⟨fun r s hready => ⟨fun off v hword => ?mgmt, fun t w howner => exec_pageRead hready howner w⟩,
    fun s t => ?page, fun s t => ?deviceStatus, fun s hlength => ?portStatus, fun s => ?faultStatus⟩
  case mgmt =>
    rcases hword with ⟨rfl, rfl⟩ | ⟨rfl, rfl⟩ | ⟨rfl, rfl⟩ | ⟨rfl, rfl⟩ | ⟨rfl, rfl⟩ | ⟨k, rfl, rfl⟩ | ⟨k, rfl, rfl⟩
    · exact exec_mgmtRead (word := .deviceStatus) hready (decodeAccess_mgmtWord (w := 0) rfl rfl (by decide))
    · exact exec_mgmtRead (word := .portStatus) hready (decodeAccess_mgmtWord (w := 1) rfl rfl (by decide))
    · exact exec_mgmtRead (word := .walkPosition) hready (decodeAccess_mgmtWord (w := 2) rfl rfl (by decide))
    · exact exec_mgmtRead (word := .faultStatus) hready (decodeAccess_mgmtWord (w := 3) rfl rfl (by decide))
    · exact exec_mgmtRead (word := .firstMiss) hready (decodeAccess_mgmtWord (w := 4) rfl rfl (by decide))
    · exact exec_mgmtRead hready (mgmt_operand r k)
    · exact exec_mgmtRead hready (mgmt_result r k)
  case page =>
    have hview : pageValue s t .view = flagsWord fun l : Level => !(s.targets[t].lists[l]).isEmpty := viewWord_eq _
    rw [hview]
    exact ⟨flagsWord_getLsbD (by decide) _, fun _ => flagsWord_beyond (by decide) _, placeFlag_zero _,
      mask_setWidth_getLsbD _, rfl⟩
  case deviceStatus =>
    intro state
    exact ⟨(deviceStatusWord_state s t).trans (targetState_value_eq state), deviceStatusWord_writeOwed s t,
      fun _ => deviceStatusWord_beyond s⟩
  case portStatus =>
    obtain ⟨hbusy, hrejected⟩ := portStatusWord_flags s
    obtain ⟨hreserved, hlen, hresult, hcode, hreserved'⟩ := portStatusWord_fields (s := s) (by omega)
    exact ⟨hbusy, hrejected, hreserved, hlen, hresult ▸ resultCode_value_mem _, BitVec.eq_of_toNat_eq hcode, hreserved'⟩
  case faultStatus =>
    exact ⟨faultStatusWord_cause s, faultStatusWord_moreMisses s, fun _ => faultStatusWord_beyond s⟩

end Sys2Proof.Machine

/-! The Link Port: which accesses it refuses, the changes of the link state and of bus mastering, and the layouts of the claim result and of the result words. -/

namespace Sys2Proof.Machine

/-! ### The accesses inside the maps (R188, R196, R197) -/

/-- A word of the management region that an entry of the map takes as it is accessed is served (R196). -/
theorem decodeMgmtWord_mapped {a : Access} {w : Nat} (h : ∃ e ∈ mgmtMap, takes e.2 a.kind = true ∧ e.1 = 4 * w) :
    (decodeMgmtWord a w).isRefused = false := by
  unfold decodeMgmtWord
  cases hk : a.kind with
  | read =>
    have hw : w < 5 ∨ 8 ≤ w ∧ w < 16 ∨ 16 ≤ w ∧ w < 24 := by
      simp [hk, mgmtMap, takes, List.range_succ] at h
      omega
    dsimp only
    split_ifs
    case neg => omega
    all_goals rfl
  | write d =>
    have hw : w = 5 ∨ w = 6 ∨ w = 7 ∨ 8 ≤ w ∧ w < 16 := by
      simp [hk, mgmtMap, takes, List.range_succ] at h
      omega
    dsimp only
    split_ifs
    case neg => omega
    all_goals rfl

/-- A word of a target page that an entry of the map takes as it is accessed is served (R197). -/
theorem decodePageWord_mapped {a : Access} {w : Nat} (t : TargetId)
    (h : ∃ e ∈ pageMap, takes e.2 a.kind = true ∧ e.1 = 4 * w) : (decodePageWord a t w).isRefused = false := by
  unfold decodePageWord
  cases hk : a.kind with
  | read =>
    have hw : w = 0 ∨ w = 3 ∨ w = 4 ∨ w = 5 ∨ w = 6 := by
      simp [hk, pageMap, takes] at h
      omega
    dsimp only
    split_ifs
    case neg => omega
    all_goals rfl
  | write d =>
    have hw : w = 2 ∨ w = 4 ∨ w = 5 := by
      simp [hk, pageMap, takes] at h
      omega
    dsimp only
    split_ifs
    case neg => omega
    all_goals rfl

/-- Every word of the management map stands at a word offset of its region (R196). -/
theorem mgmtMap_aligned : ∀ e ∈ mgmtMap, e.1 < 0x1000 ∧ e.1 % 4 = 0 := by decide

/-- Every word of the page map stands at a word offset of its page (R197). -/
theorem pageMap_aligned : ∀ e ∈ pageMap, e.1 < 0x200 ∧ e.1 % 4 = 0 := by decide

/-- An access inside page n goes to the page of target n (R187). -/
theorem decodeAccess_page {a : Access} {n : TargetId} {off : Nat} (hoffset : a.offset.toNat = 0x1000 + n * 0x200 + off)
    (hoff : off < 0x200) : decodeAccess a = decodePage a n off := by
  have hn : (0x1000 + n * 0x200 + off - 0x1000) / 0x200 = n := by omega
  have hin : (0x1000 + n * 0x200 + off - 0x1000) % 0x200 = off := by omega
  unfold decodeAccess
  dsimp only
  rw [hoffset, if_neg (by omega), if_pos (by omega), hn, hin, Fin.ofNat_val_eq_self]

theorem refusedOp_isRefused (a : Access) : (refusedOp a).isRefused = true := by
  unfold refusedOp
  cases a.kind <;> rfl

theorem decodeEvent_not_refused (a : Access) : (decodeEvent a).isRefused = false := by
  unfold decodeEvent
  cases a.kind <;> rfl

/-- An access in a form that its word accepts is not refused (R188). -/
theorem decodeAccess_served {a : Access} (h : servedForm a) : (decodeAccess a).isRefused = false := by
  rcases h with hwindow | ⟨hsize, e, he, hoffset, htakes⟩ | ⟨n, ⟨hsize, e, he, hoffset, htakes⟩ | ⟨hread, hsize, hoffset⟩⟩
  · rw [decodeAccess_window hwindow]
    exact decodeEvent_not_refused a
  · obtain ⟨hlt, haligned⟩ := mgmtMap_aligned e he
    rw [decodeAccess_mgmtWord (w := e.1 / 4) hsize (by omega) (by omega)]
    exact decodeMgmtWord_mapped ⟨e, he, htakes, by omega⟩
  · obtain ⟨hlt, haligned⟩ := pageMap_aligned e he
    rw [decodeAccess_page hoffset hlt, decodePage, if_pos ⟨hsize, haligned⟩]
    exact decodePageWord_mapped n ⟨e, he, htakes, by omega⟩
  · rw [decodeAccess_page (off := 0) hoffset (by decide), decodePage, if_neg (by omega), if_pos ⟨hsize, rfl, hread⟩]
    rfl

theorem decodeAccess_isRefused_iff (a : Access) : (decodeAccess a).isRefused = true ↔ ¬ servedForm a := by
  refine ⟨fun hrefused hserved => ?_, fun hunserved => ?_⟩
  · rw [decodeAccess_served hserved] at hrefused
    exact Bool.false_ne_true hrefused
  · rw [decodeAccess_unserved hunserved]
    exact refusedOp_isRefused a

theorem accessOf_refusedRead {a : Access} (hk : a.kind = .read) (h : ¬ servedForm a) :
    accessOf (.refusedAccess a) = some (.refusedRead a.requester a.size) := by
  refine congrArg some ((decodeAccess_unserved h).trans ?_)
  unfold refusedOp
  rw [hk]

/-- Settles O4: the decode serves the words of the maps, each by its own entry, and refuses the rest; the refused access is taken at once. -/
theorem refusedAccessOnlyRaises : Obligations.RefusedAccessOnlyRaises := by
  unfold Obligations.RefusedAccessOnlyRaises
  refine ⟨decodeAccess_isRefused_iff, fun a s hunserved => ⟨fun hread hready => ?_, fun d hwrite hready => ?_⟩⟩
  · rw [exec_read hready (accessOf_refusedRead hread hunserved) rfl]
    rfl
  · rw [exec_write hready (accessOf_refusedWrite hwrite hunserved)]
    rfl

/-! ### A regain of permission (R91, R92) -/

theorem mem_owing_iff (s : State) (t : TargetId) : t ∈ owing s ↔ s.targets[t].writeOwed = true := by
  simp [owing]

/-- What a regain leaves: the targets left for later keep their flags, and the deliverable ones among the others get their owed writes, in a free order (R91, R92). -/
theorem regain_parts (s : State) : ∃ (late : List TargetId) (v : Vector Target 8) (ws : List NotifyWrite) (k : Nat),
    regain s = { s with
      link := { s.link with regaining := late }, targets := v, notifyWrites := s.notifyWrites ++ ws, free := k }
    ∧ late.Nodup ∧ (∀ t ∈ late, s.targets[t].writeOwed = true)
    ∧ (∀ t : TargetId, v[t] = { s.targets[t] with writeOwed := decide (t ∈ late) })
    ∧ ws.Perm (((List.finRange 8).filter fun t : TargetId =>
        s.targets[t].writeOwed && deliverable s t && !decide (t ∈ late)).map fun t => notifyWrite s.targets[t]) := by
  obtain ⟨us, k, hperm, hregain⟩ := regain_eq s
  have howing : (owing s).Nodup := (List.nodup_finRange 8).filter _
  have hus : us.Nodup := hperm.nodup_iff.mpr (howing.filter _)
  obtain ⟨v, hfold, htargets⟩ := foldl_regainOne us { s with link := { s.link with regaining := owing s }, free := k } hus
  have hlate (t : TargetId) : t ∈ us.foldl List.erase (owing s) ↔ s.targets[t].writeOwed = true ∧ t ∉ us := by
    rw [← List.diff_eq_foldl, howing.mem_sdiff_iff, mem_owing_iff]
  refine ⟨us.foldl List.erase (owing s), v, _, k, hregain.trans hfold, ?_, fun t ht => ((hlate t).mp ht).1, fun t => ?_, ?_⟩
  · rw [← List.diff_eq_foldl]
    exact howing.diff
  · have hflag : (s.targets[t].writeOwed && !us.contains t) = decide (t ∈ us.foldl List.erase (owing s)) := by
      rw [Bool.eq_iff_iff, decide_eq_true_eq, hlate t]
      simp
    rw [htargets t, hflag]
  · refine List.Perm.map _ ((List.perm_ext_iff_of_nodup (hus.filter _) ((List.nodup_finRange 8).filter _)).mpr fun t => ?_)
    have hdeliverable : deliverable { s with link := { s.link with regaining := owing s }, free := k } t = deliverable s t := rfl
    simp only [List.mem_filter, List.mem_finRange, hdeliverable, Bool.and_eq_true, Bool.not_eq_true',
      decide_eq_false_iff_not, hlate t]
    tauto

/-! ### Changes of the link state and of bus mastering (R187, R191) -/

theorem permission_false_of {s : State} (h : s.link.state = .down ∨ s.link.busMaster = false) : permission s = false := by
  unfold permission
  rcases h with h | h <;> rw [h]
  · rfl
  · exact Bool.and_false _

/-- Without permission no regain has anything left to deal with (R91). -/
theorem regainIf_of_none {s : State} (h : permission s = false) (before : State) :
    regainIf before s = { s with link := { s.link with regaining := [] } } := by
  unfold regainIf
  rw [h]
  rfl

theorem regainIf_of_kept {before s : State} (hbefore : permission before = true) (h : permission s = true) :
    regainIf before s = s := by
  unfold regainIf
  rw [if_pos h, if_pos hbefore]

theorem regainIf_of_regained {before s : State} (hbefore : permission before = false) (h : permission s = true) :
    regainIf before s = regain s := by
  unfold regainIf
  rw [if_pos h, hbefore]
  rfl

/-- LINK_UP and a bus-master enable write make the change and the regain that may follow; LINK_UP then lets in what waited (R191, log entry 15). -/
theorem exec_linkChange {s : State} {c : Instr} {l : LinkPort} (hporst : s.porst = false)
    (hc : c = .linkUp ∧ l = { s.link with state := .up }
      ∨ ∃ on, c = .busMasterEnableWrite on ∧ l = { s.link with busMaster := on }) :
    exec c s = .next (if c = .linkUp then drainWaiting (regainIf s { s with link := l }) else regainIf s { s with link := l }) := by
  have hreleased : ¬ s.porst = true := Bool.eq_false_iff.mp hporst
  rcases hc with ⟨rfl, rfl⟩ | ⟨on, rfl, rfl⟩
  · rw [if_pos rfl]
    exact congrArg Host.Outcome.next (if_neg hreleased)
  · rw [if_neg Instr.noConfusion]
    exact congrArg Host.Outcome.next (if_neg hreleased)

theorem exec_linkDown_of_down {s : State} (h : s.link.state = .down) : exec .linkDown s = .next s :=
  congrArg Host.Outcome.next (if_pos h)

/-- The loss of the link takes permission, so a regain under way ends; what waited stays in part (R191, log entry 12). -/
theorem exec_linkDown_of_up {s : State} (h : s.link.state = .up) : exec .linkDown s = .next { s with
    free := s.free + 1
    link := { s.link with state := .down, waiting := s.link.waiting.take (Config.linkLossKeeps s.free), regaining := [] } } := by
  have hup : ¬ s.link.state = .down := by rw [h]; exact LinkState.noConfusion
  have hbody : linkDownBody s =
      nextFree (setWaiting (s.link.waiting.take (Config.linkLossKeeps s.free)) (regainIf s (setLink .down s))) := if_neg hup
  show Host.Outcome.next (linkDownBody s) = _
  rw [hbody, regainIf_of_none (permission_false_of (Or.inl rfl))]
  rfl

/-- Settles O24: the three cases of permission before and after the change, LINK_DOWN in either link state, and a regain's dealing with one target. -/
theorem linkChanges : Obligations.LinkChanges := by
  unfold Obligations.LinkChanges
  refine ⟨fun s c l hporst hc => ?_, fun s => ⟨exec_linkDown_of_down, fun hup => ⟨_, exec_linkDown_of_up hup⟩⟩,
    regainOne_eq⟩
  intro finish
  have hexec : exec c s = .next (finish (regainIf s { s with link := l })) := exec_linkChange hporst hc
  rw [hexec]
  refine ⟨fun hnone => ?none, fun hbefore hup hmaster => ?kept, fun hbefore hup hmaster => ?regained⟩
  case none => rw [regainIf_of_none (permission_false_of hnone)]
  case kept => rw [regainIf_of_kept hbefore ((permission_iff _).mpr ⟨hup, hmaster⟩)]
  case regained =>
    obtain ⟨late, v, ws, k, hregain, hnodup, howed, htargets, hwrites⟩ := regain_parts { s with link := l }
    rw [regainIf_of_regained hbefore ((permission_iff _).mpr ⟨hup, hmaster⟩), hregain]
    exact ⟨_, ws, late, rfl, hnodup, howed, rfl, htargets, hwrites⟩

/-! ### Reading the fields of a packed word (R194)

These are simp lemmas: with omega for the bounds, simp reads a field of any word that is packed from parts. -/

@[simp] theorem field_pack_nil (lo n : Nat) : field (pack []) lo n = 0 := field_pack [] lo n

/-- A field of a packed word: what the first part has there, with what the others have. -/
@[simp] theorem field_pack_cons (f : Word) (fs : List Word) (lo n : Nat) :
    field (pack (f :: fs)) lo n = field f lo n ||| field (pack fs) lo n := by
  have hpack : pack (f :: fs) = f ||| pack fs := by
    apply BitVec.eq_of_getLsbD_eq
    intro k _
    rw [pack_cons, BitVec.getLsbD_or]
  rw [hpack, field, BitVec.extractLsb'_or, BitVec.toNat_or]
  rfl

@[simp] theorem field_place_own {lo n v : Nat} (h : lo + n ≤ 32) (hv : v < 2 ^ n) : field (place lo n v) lo n = v :=
  field_place lo n v h hv

@[simp] theorem field_place_other {lo n start width v : Nat} (h : start + width ≤ 32)
    (hclear : start + width ≤ lo ∨ lo + n ≤ start) : field (place start width v) lo n = 0 :=
  field_place_clear h hclear

@[simp] theorem field_placeFlag {bit : Nat} (h : bit < 32) (b : Bool) : field (placeFlag bit b) bit 1 = b.toNat :=
  field_place bit 1 b.toNat h b.toNat_lt

@[simp] theorem field_placeFlag_other {lo n bit : Nat} (h : bit < 32) (hclear : bit < lo ∨ lo + n ≤ bit) (b : Bool) :
    field (placeFlag bit b) lo n = 0 :=
  field_place_clear h hclear

/-- A flag is its field of one bit. -/
theorem getLsbD_of_field {w : Word} {k : Nat} {b : Bool} (h : field w k 1 = b.toNat) : w.getLsbD k = b := by
  have hbit : (field w k 1).testBit 0 = w.getLsbD k := by
    rw [field, BitVec.testBit_toNat, BitVec.getLsbD_extractLsb']
    rfl
  rw [← hbit, h]
  cases b <;> rfl

/-- The bits of a field are those of a value that the field has as a number. -/
theorem extract_of_field {w : Word} {lo n : Nat} {v : BitVec n} (h : field w lo n = v.toNat) : w.extractLsb' lo n = v :=
  BitVec.eq_of_toNat_eq h

/-! ### The claim result (R197) -/

theorem claimWord_fields {n : Notice} (hcount : n.count < 256) :
    field (claimWord n) 0 1 = true.toNat ∧ field (claimWord n) 1 10 = n.slot ∧ field (claimWord n) 11 8 = n.generation.toNat
      ∧ field (claimWord n) 19 4 = n.level ∧ field (claimWord n) 23 8 = n.count
      ∧ field (claimWord n) 31 1 = n.overflow.toNat := by
  simp (disch := omega) [claimWord]

/-- The low word of a claim result names its notice as a COMPLETE does (R111, R197). -/
theorem completeNames_claimWord {n : Notice} (hcount : n.count < 256) : completeNames (claimWord n) n = true := by
  obtain ⟨-, hslot, hgeneration, hlevel, -, -⟩ := claimWord_fields hcount
  rw [completeNames, completeSlot, completeGeneration, completeLevel, hslot, extract_of_field hgeneration, hlevel]
  simp

/-! ### The result words of the commands (R199) -/

theorem installWord_fields (i : SlotId) (g : BitVec 8) :
    field (installWord i g) 0 11 = i ∧ field (installWord i g) 16 8 = g.toNat ∧ field (installWord i g) 11 5 = 0
      ∧ field (installWord i g) 24 8 = 0 := by
  simp (disch := omega) [installWord]

theorem releaseWord_fields {h : Held} (placed : Bool) (hcount : h.count ≤ 65535) :
    field (releaseWord h placed) 0 16 = h.count ∧ field (releaseWord h placed) 16 1 = h.overflow.toNat
      ∧ field (releaseWord h placed) 17 1 = placed.toNat ∧ field (releaseWord h placed) 18 14 = 0 := by
  simp (disch := omega) [releaseWord]

theorem probeWord_fields (i : SlotId) {r : Slot} (hlen : r.len ≤ 32) :
    field (probeWord i r) 0 11 = i ∧ field (probeWord i r) 16 8 = r.generation.toNat
      ∧ field (probeWord i r) 24 6 = r.len := by
  simp (disch := omega) [probeWord]

theorem groupWord_fields {changed skipped : Nat} (hchanged : changed ≤ 1024) (hskipped : skipped ≤ 1024) :
    field (groupWord changed skipped) 0 11 = changed ∧ field (groupWord changed skipped) 16 11 = skipped := by
  simp (disch := omega) [groupWord]

theorem countWord_fields {n : Nat} (h : n ≤ 1024) : field (countWord n) 0 11 = n ∧ field (countWord n) 11 21 = 0 := by
  simp (disch := omega) [countWord]

/-- Word 1 of RETIRE and FORCE_RETIRE: the held count that was discarded, with its flag. -/
def retiredHeldWord (f : RetireFigures) : Word := pack [place 0 16 f.heldCount, placeFlag 16 f.heldOverflow]

/-- Word 2 of RETIRE: the numbers of notices and of pairs. -/
def retiredItemsWord (f : RetireFigures) : Word := pack [place 0 10 f.notices, place 16 4 f.pairs]

/-- Word 2 of FORCE_RETIRE: the orphans as well. -/
def forcedItemsWord (f : RetireFigures) (orphans : Nat) : Word :=
  pack [place 0 10 f.notices, place 16 4 f.pairs, place 24 6 orphans]

theorem retireFigures_words_eq (f : RetireFigures) : f.words = [retiredHeldWord f, retiredItemsWord f] := rfl

theorem forceRetireWords_eq (f : RetireFigures) (orphans : Nat) :
    forceRetireWords f orphans = [retiredHeldWord f, forcedItemsWord f orphans] := rfl

section
variable {f : RetireFigures}

theorem retiredHeldWord_fields (hheld : f.heldCount ≤ 65535) :
    field (retiredHeldWord f) 0 16 = f.heldCount ∧ field (retiredHeldWord f) 16 1 = f.heldOverflow.toNat
      ∧ field (retiredHeldWord f) 17 15 = 0 := by
  simp (disch := omega) [retiredHeldWord]

theorem retiredItemsWord_fields (hnotices : f.notices ≤ 512) (hpairs : f.pairs ≤ 8) :
    field (retiredItemsWord f) 0 10 = f.notices ∧ field (retiredItemsWord f) 10 6 = 0
      ∧ field (retiredItemsWord f) 16 4 = f.pairs ∧ field (retiredItemsWord f) 20 12 = 0 := by
  simp (disch := omega) [retiredItemsWord]

theorem forcedItemsWord_fields (hnotices : f.notices ≤ 512) (hpairs : f.pairs ≤ 8) {orphans : Nat} (horphans : orphans ≤ 32) :
    field (forcedItemsWord f orphans) 0 10 = f.notices ∧ field (forcedItemsWord f orphans) 10 6 = 0
      ∧ field (forcedItemsWord f orphans) 16 4 = f.pairs ∧ field (forcedItemsWord f orphans) 20 4 = 0
      ∧ field (forcedItemsWord f orphans) 24 6 = orphans ∧ field (forcedItemsWord f orphans) 30 2 = 0 := by
  simp (disch := omega) [forcedItemsWord]

end

/-! ### The result words of QUERY (R155, R199) -/

/-- QUERY word 1: the state of the record, its generation, and how it places and re-arms. -/
def queryRecordWord (r : Slot) : Word :=
  pack [place 0 2 r.state.value, place 2 8 r.generation.toNat, place 10 6 r.len, place 16 2 r.mode.value,
    place 18 2 r.rotation, place 20 4 r.level, place 24 1 r.rearm.value,
    placeFlag 25 r.retireMode.isSome, place 26 1 ((r.retireMode.map RetireMode.value).getD 0)]

/-- QUERY word 3: the target list and the threshold. -/
def queryTargetsWord (r : Slot) : Word :=
  pack (place 0 3 r.targets.length :: place 24 8 r.threshold :: targetListFields r.targets)

/-- QUERY word 4: the hold-off and the held count. -/
def queryHeldWord (r : Slot) : Word := pack [place 0 16 r.holdOff, place 16 16 r.held.count]

/-- QUERY word 5: the flags of the held count, and the numbers of the record's items. -/
def queryItemsWord (r : Slot) (n : ItemCounts) : Word :=
  pack [placeFlag 0 r.held.overflow, placeFlag 1 r.held.payload.isSome, place 2 10 n.gathering,
    place 12 10 n.pending, place 22 6 n.inService, place 28 4 n.pairs]

theorem queryWords_eq (r : Slot) (n : ItemCounts) : queryWords r n =
    [queryRecordWord r, r.key, queryTargetsWord r, queryHeldWord r, queryItemsWord r n, r.held.payload.getD 0,
      r.held.pins] := rfl

theorem slotState_value_eq (x : SlotState) :
    x.value = if x = .free then 0 else if x = .active then 1 else if x = .held then 2 else 3 := by
  cases x <;> rfl

theorem slotState_value_lt (x : SlotState) : x.value < 4 := by
  cases x <;> decide

theorem placeMode_value_eq (x : PlaceMode) : x.value = if x = .first then 0 else if x = .rotate then 1 else 2 := by
  cases x <;> rfl

theorem placeMode_value_lt (x : PlaceMode) : x.value < 4 := by
  cases x <;> decide

theorem rearmMode_value_eq (x : RearmMode) : x.value = (decide (x = .explicit)).toNat := by
  cases x <;> rfl

/-- The retire-mode bit, which is 0 where there is no retire mode (R199). -/
theorem retireMode_value_eq (x : Option RetireMode) :
    (x.map RetireMode.value).getD 0 = (decide (x = some .drain)).toNat := by
  rcases x with _ | _ | _ <;> rfl

theorem queryRecordWord_fields {r : Slot} (hlen : r.len ≤ 32) (hrotation : r.rotation < 4) :
    field (queryRecordWord r) 0 2 = r.state.value ∧ field (queryRecordWord r) 2 8 = r.generation.toNat
      ∧ field (queryRecordWord r) 10 6 = r.len ∧ field (queryRecordWord r) 16 2 = r.mode.value
      ∧ field (queryRecordWord r) 18 2 = r.rotation ∧ field (queryRecordWord r) 20 4 = r.level
      ∧ field (queryRecordWord r) 24 1 = (decide (r.rearm = .explicit)).toNat
      ∧ field (queryRecordWord r) 25 1 = r.retireMode.isSome.toNat
      ∧ field (queryRecordWord r) 26 1 = (decide (r.retireMode = some .drain)).toNat
      ∧ field (queryRecordWord r) 27 5 = 0 := by
  have hstate := slotState_value_lt r.state
  have hmode := placeMode_value_lt r.mode
  have hrearm := (decide (r.rearm = .explicit)).toNat_lt
  have hretire := (decide (r.retireMode = some .drain)).toNat_lt
  rw [queryRecordWord, rearmMode_value_eq, retireMode_value_eq]
  simp (disch := omega)

theorem queryHeldWord_fields {r : Slot} (hholdOff : r.holdOff ≤ 65535) (hheld : r.held.count ≤ 65535) :
    field (queryHeldWord r) 0 16 = r.holdOff ∧ field (queryHeldWord r) 16 16 = r.held.count := by
  simp (disch := omega) [queryHeldWord]

theorem queryItemsWord_fields (r : Slot) {n : ItemCounts} (hgathering : n.gathering ≤ 512) (hpending : n.pending ≤ 512)
    (hservice : n.inService ≤ 32) (hpairs : n.pairs ≤ 8) :
    field (queryItemsWord r n) 0 1 = r.held.overflow.toNat ∧ field (queryItemsWord r n) 1 1 = r.held.payload.isSome.toNat
      ∧ field (queryItemsWord r n) 2 10 = n.gathering ∧ field (queryItemsWord r n) 12 10 = n.pending
      ∧ field (queryItemsWord r n) 22 6 = n.inService ∧ field (queryItemsWord r n) 28 4 = n.pairs := by
  simp (disch := omega) [queryItemsWord]

/-- The parts of a target list: the first four targets, target j at bits 4 + 4 × j and up. -/
theorem mem_targetListFields_iff (ts : List TargetId) (f : Word) :
    f ∈ targetListFields ts ↔ ∃ (j : Nat) (t : TargetId), j < 4 ∧ ts[j]? = some t ∧ f = place (4 + 4 * j) 4 t := by
  have hentry (t : TargetId) (j : Nat) : (t, j) ∈ ts.zipIdx.take 4 ↔ j < 4 ∧ ts[j]? = some t := by
    rw [List.mem_iff_getElem?]
    simp only [List.getElem?_take, List.getElem?_zipIdx]
    refine ⟨fun ⟨i, hi⟩ => ?_, fun ⟨hj, ht⟩ => ⟨j, by simp [hj, ht]⟩⟩
    split_ifs at hi with hlt
    obtain ⟨u, hu, heq⟩ := Option.map_eq_some_iff.mp hi
    cases heq
    rw [Nat.zero_add]
    exact ⟨hlt, hu⟩
  rw [targetListFields, List.mem_map]
  refine ⟨fun ⟨(t, j), hmem, heq⟩ => ?_, fun ⟨j, t, hj, ht, heq⟩ => ⟨(t, j), (hentry t j).mpr ⟨hj, ht⟩, heq.symm⟩⟩
  obtain ⟨hj, ht⟩ := (hentry t j).mp hmem
  exact ⟨j, t, hj, ht, heq.symm⟩

/-- A bit of a packed target list is a bit of the target whose four bits it is among. -/
theorem targetListFields_getLsbD_iff {ts : List TargetId} {k : Nat} : (pack (targetListFields ts)).getLsbD k = true ↔
    ∃ (j : Nat) (t : TargetId), j < 4 ∧ ts[j]? = some t ∧ (4 + 4 * j ≤ k ∧ k < 4 + 4 * j + 4)
      ∧ t.val.testBit (k - (4 + 4 * j)) = true := by
  rw [pack_getLsbD, List.any_eq_true]
  refine ⟨fun ⟨f, hf, hbit⟩ => ?_, fun ⟨j, t, hj, ht, hin, hbit⟩ =>
    ⟨_, (mem_targetListFields_iff ts _).mpr ⟨j, t, hj, ht, rfl⟩, ?_⟩⟩
  · obtain ⟨j, t, hj, ht, rfl⟩ := (mem_targetListFields_iff ts f).mp hf
    rw [place_getLsbD _ _ _ _ (by omega), Bool.and_eq_true, decide_eq_true_eq] at hbit
    exact ⟨j, t, hj, ht, hbit⟩
  · rw [place_getLsbD _ _ _ _ (by omega), Bool.and_eq_true, decide_eq_true_eq]
    exact ⟨hin, hbit⟩

/-- Below bit 4 and from bit 20 up a packed target list has nothing. -/
theorem targetListFields_clear (ts : List TargetId) {lo n : Nat} (h : lo + n ≤ 4 ∨ 20 ≤ lo) :
    field (pack (targetListFields ts)) lo n = 0 := by
  rw [field_eq_zero]
  intro k hk
  rw [Bool.eq_false_iff, ne_eq, targetListFields_getLsbD_iff]
  rintro ⟨j, t, hj, -, hin, -⟩
  omega

/-- The four bits of a list position show the target there, and zero beyond the list's length (R199). -/
theorem targetListFields_entry (ts : List TargetId) {k : Nat} (hk : k < 4) :
    field (pack (targetListFields ts)) (4 + 4 * k) 4 = (ts[k]?.map Fin.val).getD 0 := by
  have hlt : (ts[k]?.map Fin.val).getD 0 < 2 ^ 4 := by
    cases ts[k]? with
    | none => decide
    | some t => exact Nat.lt_trans t.isLt (by decide)
  refine pack_field _ _ _ _ hlt fun i hi => ?_
  rw [Bool.eq_iff_iff, targetListFields_getLsbD_iff]
  constructor
  · rintro ⟨j, t, -, ht, hin, hbit⟩
    obtain rfl : j = k := by omega
    rwa [Nat.add_sub_cancel_left, ← show (ts[j]?.map Fin.val).getD 0 = t by rw [ht]; rfl] at hbit
  · intro hbit
    cases ht : ts[k]? with
    | none => simp [ht] at hbit
    | some t =>
      rw [ht] at hbit
      exact ⟨k, t, hk, ht, by omega, by rwa [Nat.add_sub_cancel_left]⟩

theorem queryTargetsWord_fields {r : Slot} (hlength : r.targets.length ≤ 4) (hthreshold : r.threshold ≤ 255) :
    field (queryTargetsWord r) 0 3 = r.targets.length ∧ field (queryTargetsWord r) 3 1 = 0
      ∧ (∀ k, k < 4 → field (queryTargetsWord r) (4 + 4 * k) 4 = (r.targets[k]?.map Fin.val).getD 0)
      ∧ field (queryTargetsWord r) 20 4 = 0 ∧ field (queryTargetsWord r) 24 8 = r.threshold := by
  have hentries (k : Nat) (hk : k < 4) :
      field (queryTargetsWord r) (4 + 4 * k) 4 = (r.targets[k]?.map Fin.val).getD 0 := by
    simp (disch := omega) [queryTargetsWord, targetListFields_entry]
  refine ⟨?_, ?_, hentries, ?_, ?_⟩ <;> simp (disch := omega) [queryTargetsWord, targetListFields_clear]

/-- Settles O43: each word is packed from its parts, and each field is read from the one part that reaches it. -/
theorem resultWordFields : Obligations.ResultWordFields := by
  unfold Obligations.ResultWordFields
  refine ⟨fun n hcount => ?claim, ⟨fun i g => ?install, fun h placed hcount => ?release, fun i r hlen => ?probe,
    fun changed skipped => groupWord_fields, fun n => countWord_fields⟩, fun f hheld hnotices hpairs => ?retire,
    fun r n hlen hrotation hlength hthreshold hholdOff hheld hgathering hpending hservice hpairs => ?query⟩
  case claim =>
    obtain ⟨hvalid, hslot, hgeneration, hlevel, hnumber, hoverflow⟩ := claimWord_fields hcount
    exact ⟨getLsbD_of_field hvalid, hslot, extract_of_field hgeneration, hlevel, hnumber, getLsbD_of_field hoverflow,
      completeNames_claimWord hcount⟩
  case install =>
    obtain ⟨hslot, hgeneration, hreserved⟩ := installWord_fields i g
    exact ⟨hslot, extract_of_field hgeneration, hreserved⟩
  case release =>
    obtain ⟨hnumber, hoverflow, hplaced, hreserved⟩ := releaseWord_fields placed hcount
    exact ⟨hnumber, getLsbD_of_field hoverflow, getLsbD_of_field hplaced, hreserved⟩
  case probe =>
    obtain ⟨hslot, hgeneration, hlength⟩ := probeWord_fields i hlen
    exact ⟨hslot, extract_of_field hgeneration, hlength⟩
  case retire =>
    obtain ⟨hcount, hoverflow, hreserved⟩ := retiredHeldWord_fields hheld
    exact ⟨⟨_, _, retireFigures_words_eq f, hcount, getLsbD_of_field hoverflow, hreserved,
        retiredItemsWord_fields hnotices hpairs⟩,
      fun orphans horphans => ⟨_, _, forceRetireWords_eq f orphans, hcount, getLsbD_of_field hoverflow, hreserved,
        forcedItemsWord_fields hnotices hpairs horphans⟩⟩
  case query =>
    obtain ⟨hstate, hgeneration, hlen1, hmode, hrotation1, hlevel, hrearm, hpresent, hretire, hreserved⟩ :=
      queryRecordWord_fields hlen hrotation
    obtain ⟨hcount, hreserved3, hentries, hreserved20, hthreshold3⟩ := queryTargetsWord_fields hlength hthreshold
    obtain ⟨hholdOff4, hheld4⟩ := queryHeldWord_fields hholdOff hheld
    obtain ⟨hoverflow, hpayload, hgathering5, hpending5, hservice5, hpairs5⟩ :=
      queryItemsWord_fields r hgathering hpending hservice hpairs
    exact ⟨_, _, _, _, _, _, _, queryWords_eq r n, hstate.trans (slotState_value_eq _), extract_of_field hgeneration, hlen1,
      hmode.trans (placeMode_value_eq _), hrotation1, hlevel, getLsbD_of_field hrearm, getLsbD_of_field hpresent,
      getLsbD_of_field hretire, hreserved, rfl, hcount, hreserved3, hentries, hreserved20, hthreshold3, hholdOff4, hheld4,
      getLsbD_of_field hoverflow, getLsbD_of_field hpayload, hgathering5, hpending5, hservice5, hpairs5, rfl, rfl⟩

end Sys2Proof.Machine

/-! The step and the queue: a step with a command waiting. -/

namespace Sys2Proof.Machine

/-- Settles O1: a queue with a front selects the second branch of `step`, the counterpart of `step_of_empty`. -/
theorem stepRunsFrontCommand : Obligations.StepRunsFrontCommand := by
  unfold Obligations.StepRunsFrontCommand
  intro c rest s hfront
  unfold step
  rw [hfront]

end Sys2Proof.Machine
